-- ==== Sys2Proof/Word.lean ====
section
/-!
DEFINITION. The value types of the spec: u8, u16, u24 and u32 (00_scope.md R10), as bit vectors.
-/

namespace Sys2Proof

/-- u8: a byte of a slot, of a framebuffer, of the wire; a device register number or value. -/
abbrev Byte := BitVec 8
/-- u16: a 16-bit channel value, an LFSR state. -/
abbrev Half := BitVec 16
/-- u24: a device address (00_scope.md `P_ADDR_BITS`, 20_memory.md R67). -/
abbrev DevAddr := BitVec 24
/-- u32 or s32: a control register, an ARGB32 pixel, a request operand. -/
abbrev Word := BitVec 32

end Sys2Proof
end

