-- ==== Sys2Proof/Config.lean ====
section
/-!
DEFINITION. The implementation parameters of 00_scope.md R7 with their constraints, and the free values: opaque
constants without a body, so that nothing can be proved of their values.
-/

namespace Sys2Proof

/-- The parameters of 00_scope.md R7 that the model keeps open. They are arguments of the model, not state (10_state.md R44);
`State.cfg` carries them and no step changes them (log entry 3). -/
structure Params where
  /-- `P_OP16`: second byte of a 16-bit run command. -/
  op16 : Byte
  /-- `P_OP8`: second byte of an 8-bit run command. -/
  op8 : Byte
  /-- `P_MAX_CMD_PIXELS` (M). -/
  maxCmdPixels : Nat
  /-- `P_MIN_CMD_BYTES` (F). -/
  minCmdBytes : Nat
  /-- `P_SLOT_COUNT` (N). -/
  slotCount : Nat
  /-- `P_SLOT_BYTES` (S). -/
  slotBytes : Nat
  /-- `P_WORD_BYTES` (W). -/
  wordBytes : Nat
  /-- `P_LFSR_TAPS`, as a mask: bit j is set when j is a tap. -/
  lfsrTaps : Half
  /-- `P_PCLK_NUMERATOR`. -/
  pclkNumerator : Nat
  /-- `P_CURSOR_MAX_PIXELS`. -/
  cursorMaxPixels : Nat
deriving DecidableEq, Repr

/-- The defaults of 00_scope.md R7 (PRESUMED: the family's, log entry 3). The taps 15, 4, 2 and 1 are the mask 0x8016. -/
def Params.default : Params where
  op16 := 0x6B
  op8 := 0x63
  maxCmdPixels := 255
  minCmdBytes := 11
  slotCount := 4
  slotBytes := 65024
  wordBytes := 8
  lfsrTaps := 0x8016
  pclkNumerator := 200000000
  cursorMaxPixels := 4096

/-- The constraints in the last column of 00_scope.md R7. A configuration that breaks one is refused (60_exceptions.md R256). -/
abbrev Params.Valid (p : Params) : Prop :=
  (p.op16 ≠ 0xAF ∧ p.op16 ≠ 0x20 ∧ p.op16 ≠ p.op8) ∧
  (p.op8 ≠ 0xAF ∧ p.op8 ≠ 0x20) ∧
  (1 ≤ p.maxCmdPixels ∧ p.maxCmdPixels ≤ 510) ∧
  (9 ≤ p.minCmdBytes ∧ p.minCmdBytes ≤ p.slotBytes) ∧
  1 ≤ p.slotCount ∧
  (144 ≤ p.slotBytes ∧ p.slotBytes < 2 ^ 32) ∧
  (p.wordBytes = 4 ∨ p.wordBytes = 8) ∧
  p.lfsrTaps ≠ 0 ∧
  1 ≤ p.pclkNumerator ∧
  1 ≤ p.cursorMaxPixels

namespace Config

/-- The places whose bytes the spec leaves open until something writes them. A `buffer` is a slot or a backing buffer, named
by the tag it got when it was created, so that two buffers never share their unspecified contents. -/
inductive Space where
  /-- HOST's framebuffer before HOST has written the byte (20_memory.md R61). -/
  | hostFb
  /-- A slot after ATTACH (10_state.md R45) or a backing buffer after SETFB (46_frame_loop.md R234). -/
  | buffer (tag : Nat)
  /-- Device memory (93_implementation_defined.md I14). -/
  | deviceMem
  /-- Device registers (93_implementation_defined.md I14). -/
  | deviceReg
deriving DecidableEq, Repr

/-- FREE VALUE (log entry 10): what a byte that nothing has written reads as. No body: nothing can be proved of it. -/
opaque unwritten : Space → Nat → Byte

/-- FREE VALUE (log entry 9): the n-th `choose` of the run (00_scope.md R11) that `State.draws` does not supply. -/
opaque freeDraw : Nat → Word

/-- FREE VALUE (log entry 13): whether device memory holds the high byte of a 16-bit channel value at the lower address.
20_memory.md R67 says only that the value takes 2 bytes. -/
opaque deviceHighByteFirst : Bool

end Config

end Sys2Proof
end

