-- ==== Sys2Proof/Syntax.lean ====
section
/-!
DEFINITION. The instructions: one constructor per row of spec/opcode_table.json, the 31 request codes of 30_encoding.md R91
and the 4 wire commands of R94 to R96, with their typed operands.
-/

namespace Sys2Proof

/-- A request with its operand record (30_encoding.md R90, R91), or one wire command (R94 to R96). -/
inductive Instr where
  | split (v : Word)
  | diff (front back : List Byte)
  | blendpix (src cur : Word)
  | blendline (y x0 : Word) (pix : List Word)
  | lfsr16 (n : Half)
  | enc16 (vals : List Half) (i : Word) (addr : DevAddr)
  | enc8 (vals : List Byte) (i : Word) (addr : DevAddr)
  | regw (reg val : Byte)
  | regw16 (reg : Byte) (v : Half)
  | regw16be (reg : Byte) (v : Half)
  | regwl (reg : Byte) (n : Half)
  | vlock
  | vunlock
  | setdepth (split : Bool)
  | setbase16 (a : DevAddr)
  | setbase8 (a : DevAddr)
  | settiming (xres yres pixclock left right upper lower hsync vsync : Word)
  | setblank (level : Byte)
  | acquire
  | submit
  | release
  /-- TRANSPORT's step; `k` is the slot number. 30_encoding.md R91 and 45_slot_pool.md R205 give it no width and 00_scope.md R7
  no bound: any natural number (DESIGN CHOICE, log entry 6). -/
  | complete (k : Nat)
  | renderFrame (x y w h : Word)
  | fillFrame (color : Word)
  | cfgw (off val : Word)
  | cfgr (off : Word)
  | modeset (xres yres pixclock left right upper lower hsync vsync refresh : Word) (split : Bool)
  | setfb (pitch bpp vx vy width height : Word) (backingEn : Bool)
  | setcursor (x y w h bpp : Word) (visible : Bool) (pix : List Word)
  | attach
  | detach
  /-- 16-bit run command: address, repeat count, raw values; the raw count is the list's length. -/
  | wRun16 (addr : DevAddr) (rep : Byte) (raw : List Half)
  /-- 8-bit run command. -/
  | wRun8 (addr : DevAddr) (rep : Byte) (raw : List Byte)
  /-- Register-write command. -/
  | wRegw (reg val : Byte)
  /-- `n` pad bytes. -/
  | wPad (n : Nat)
deriving DecidableEq, Repr

/-- Who may issue an instruction (30_encoding.md R91, 60_exceptions.md R255); a wire command is read by the device's reader. -/
inductive Agent where
  | host
  | transport
  | device
deriving DecidableEq, Repr

end Sys2Proof
end

