-- ==== Sys2Proof/WellFormed.lean ====
section
/-!
DEFINITION. Well-formed instructions: the conditions on operands that the types of Syntax.lean do not already say.
-/

namespace Sys2Proof

/-- A run command has 1 to 255 raw values (30_encoding.md R97) and padding is one or more bytes (R96). A request is well formed
with every operand of its type (R90, R93), a list of any length among them. -/
def Instr.wellFormed : Instr → Bool
  | .split _ => true
  | .diff _ _ => true
  | .blendpix _ _ => true
  | .blendline _ _ _ => true
  | .lfsr16 _ => true
  | .enc16 _ _ _ => true
  | .enc8 _ _ _ => true
  | .regw _ _ => true
  | .regw16 _ _ => true
  | .regw16be _ _ => true
  | .regwl _ _ => true
  | .vlock => true
  | .vunlock => true
  | .setdepth _ => true
  | .setbase16 _ => true
  | .setbase8 _ => true
  | .settiming _ _ _ _ _ _ _ _ _ => true
  | .setblank _ => true
  | .acquire => true
  | .submit => true
  | .release => true
  | .complete _ => true
  | .renderFrame _ _ _ _ => true
  | .fillFrame _ => true
  | .cfgw _ _ => true
  | .cfgr _ => true
  | .modeset _ _ _ _ _ _ _ _ _ _ _ => true
  | .setfb _ _ _ _ _ _ _ => true
  | .setcursor _ _ _ _ _ _ _ => true
  | .attach => true
  | .detach => true
  | .wRun16 _ _ raw => decide (1 ≤ raw.length) && decide (raw.length ≤ 255)
  | .wRun8 _ _ raw => decide (1 ≤ raw.length) && decide (raw.length ≤ 255)
  | .wRegw _ _ => true
  | .wPad n => decide (1 ≤ n)

/-- The agent that may issue each instruction: HOST all requests but COMPLETE, which is TRANSPORT's alone
(30_encoding.md R91, R92); a wire command is the device reader's. -/
def Instr.agent : Instr → Agent
  | .complete _ => .transport
  | .wRun16 _ _ _ | .wRun8 _ _ _ | .wRegw _ _ | .wPad _ => .device
  | .split _ | .diff _ _ | .blendpix _ _ | .blendline _ _ _ | .lfsr16 _ | .enc16 _ _ _ | .enc8 _ _ _
  | .regw _ _ | .regw16 _ _ | .regw16be _ _ | .regwl _ _ | .vlock | .vunlock | .setdepth _ | .setbase16 _
  | .setbase8 _ | .settiming _ _ _ _ _ _ _ _ _ | .setblank _ | .acquire | .submit | .release
  | .renderFrame _ _ _ _ | .fillFrame _ | .cfgw _ _ | .cfgr _ | .modeset _ _ _ _ _ _ _ _ _ _ _
  | .setfb _ _ _ _ _ _ _ | .setcursor _ _ _ _ _ _ _ | .attach | .detach => .host

end Sys2Proof
end

