-- ==== Sys2Proof/Decode.lean ====
section
/-!
DEFINITION. Decoding and encoding. The wire commands are laid out as 30_encoding.md R94 to R96 and 20_memory.md R69 say. The
spec gives a request its one-byte code and typed operands but no packing (R90); the byte record used here is the model's own
(DESIGN CHOICE, log entry 6): the code, then each operand in the order of R91, low byte first; a u1 as one byte 0 or 1; a slot
number or the count of a list as a number of any size, seven bits a byte; a list as its count and then its elements.
Byte-order helpers stand here too.
-/

namespace Sys2Proof

/-! ## Byte order -/

/-- `le32` (20_memory.md R62). -/
def le32 (b0 b1 b2 b3 : Byte) : Word := b3 ++ b2 ++ b1 ++ b0

/-- `bytes_le32` (20_memory.md R62). -/
def bytesLe32 (v : Word) : List Byte :=
  [v.extractLsb' 0 8, v.extractLsb' 8 8, v.extractLsb' 16 8, v.extractLsb' 24 8]

/-- A 24-bit operand of a request record, low byte first. -/
def bytesLe24 (v : DevAddr) : List Byte := [v.extractLsb' 0 8, v.extractLsb' 8 8, v.extractLsb' 16 8]

/-- A 16-bit operand of a request record, low byte first. -/
def bytesLe16 (v : Half) : List Byte := [v.extractLsb' 0 8, v.extractLsb' 8 8]

/-- A device address on the wire, most significant byte first (20_memory.md R69). -/
def bytesBe24 (a : DevAddr) : List Byte := [a.extractLsb' 16 8, a.extractLsb' 8 8, a.extractLsb' 0 8]

/-- A 16-bit channel value on the wire, most significant byte first (20_memory.md R69). -/
def bytesBe16 (v : Half) : List Byte := [v.extractLsb' 8 8, v.extractLsb' 0 8]

/-- A number of any size in a request record, low seven bits first; a byte of 128 or more says that another one follows. The
first argument bounds the number. -/
def bytesNatUpTo : Nat → Nat → List Byte
  | 0, n => [BitVec.ofNat 8 n]
  | bound + 1, n =>
    if n < 128 then [BitVec.ofNat 8 n] else BitVec.ofNat 8 (128 + n % 128) :: bytesNatUpTo bound (n / 128)

/-- A slot number, or the count of a list: the spec gives neither a bound (30_encoding.md R90, R91, log entry 6). -/
def bytesNat (n : Nat) : List Byte := bytesNatUpTo n n

/-- A bool or u1 operand of a request record. -/
def byteOfBool (b : Bool) : Byte := if b then 1 else 0

/-! ## Wire layout -/

/-- The run header, offsets 0 to 6 of a run command (30_encoding.md R94). -/
def runHeader (op : Byte) (addr : DevAddr) (raw rep : Byte) : List Byte :=
  [0xAF, op] ++ bytesBe24 addr ++ [raw, rep]

/-- A whole run command: the header and its raw values (30_encoding.md R94). -/
def runBytes {α : Type} (op : Byte) (put : α → List Byte) (addr : DevAddr) (rep : Byte) (raw : List α) : List Byte :=
  runHeader op addr (BitVec.ofNat 8 raw.length) rep ++ raw.flatMap put

/-- A register-write command (30_encoding.md R95). -/
def regwBytes (reg val : Byte) : List Byte := [0xAF, 0x20, reg, val]

/-- Pad bytes (30_encoding.md R96). -/
def padBytes (n : Nat) : List Byte := List.replicate n 0xAF

/-! ## Decoding -/

/-- Why bytes are no instruction. -/
inductive DecodeError where
  /-- A reserved request code (30_encoding.md R92). -/
  | reservedCode (code : Byte)
  /-- Fewer bytes than the operands need: wrong count of operands (R92). -/
  | truncated
  /-- More bytes than the operands need: wrong count of operands (R92). -/
  | trailing
  /-- A u1 or bool operand that is neither 0 nor 1: wrong type (R92). -/
  | notABit (b : Byte)
  /-- A second byte after 0xAF that no wire command has (R98, R99). -/
  | unknownWire (op : Byte)
  /-- Padding that a byte other than 0xAF follows (R96, R99). -/
  | brokenPadding
deriving DecidableEq, Repr

/-- One byte of the record. -/
def rd8 : List Byte → Except DecodeError (Byte × List Byte)
  | b :: bs => .ok (b, bs)
  | [] => .error .truncated

/-- A 16-bit operand, low byte first. -/
def rd16 : List Byte → Except DecodeError (Half × List Byte)
  | b0 :: b1 :: bs => .ok (b1 ++ b0, bs)
  | _ => .error .truncated

/-- A 24-bit operand, low byte first. -/
def rd24 : List Byte → Except DecodeError (DevAddr × List Byte)
  | b0 :: b1 :: b2 :: bs => .ok (b2 ++ b1 ++ b0, bs)
  | _ => .error .truncated

/-- A 32-bit operand, low byte first. -/
def rd32 : List Byte → Except DecodeError (Word × List Byte)
  | b0 :: b1 :: b2 :: b3 :: bs => .ok (le32 b0 b1 b2 b3, bs)
  | _ => .error .truncated

/-- A u1 or bool operand. -/
def rdBit : List Byte → Except DecodeError (Bool × List Byte)
  | b :: bs => if b = 0 then .ok (false, bs) else if b = 1 then .ok (true, bs) else .error (.notABit b)
  | [] => .error .truncated

/-- A number of any size, low seven bits first (`bytesNat`). -/
def rdNat : List Byte → Except DecodeError (Nat × List Byte)
  | [] => .error .truncated
  | b :: bs =>
    if b.toNat < 128 then .ok (b.toNat, bs)
    else do
      let (n, bs) ← rdNat bs
      .ok (b.toNat - 128 + 128 * n, bs)

/-- `n` elements read one after another. -/
def rdMany {α : Type} (rd : List Byte → Except DecodeError (α × List Byte)) :
    Nat → List Byte → Except DecodeError (List α × List Byte)
  | 0, bs => .ok ([], bs)
  | n + 1, bs => do
    let (x, bs) ← rd bs
    let (xs, bs) ← rdMany rd n bs
    .ok (x :: xs, bs)

/-- A list operand: its count, then its elements. -/
def rdList {α : Type} (rd : List Byte → Except DecodeError (α × List Byte)) (bs : List Byte) :
    Except DecodeError (List α × List Byte) := do
  let (n, bs) ← rdNat bs
  rdMany rd n bs

/-- A 16-bit channel value of a run command, high byte first (20_memory.md R69). -/
def rdBe16 : List Byte → Except DecodeError (Half × List Byte)
  | b0 :: b1 :: bs => .ok (b0 ++ b1, bs)
  | _ => .error .truncated

/-- What follows the two opcode bytes of a run command: address high byte first, counts, raw values (30_encoding.md R94). -/
def rdRun {α : Type} (rd : List Byte → Except DecodeError (α × List Byte)) :
    List Byte → Except DecodeError ((DevAddr × Byte × List α) × List Byte)
  | hi :: mid :: lo :: raw :: rep :: bs => do
    let (vals, bs) ← rdMany rd raw.toNat bs
    .ok ((hi ++ mid ++ lo, rep, vals), bs)
  | _ => .error .truncated

/-- The wire command whose first byte 0xAF has been read: the framing of 30_encoding.md R98. Padding takes every byte that is
left. A run command with no raw value is framed here and is ill-formed (R97); the reference decoder rejects it (R147). -/
def decodeWire (p : Params) : List Byte → Except DecodeError (Instr × List Byte)
  | [] => .ok (.wPad 1, [])
  | op :: bs =>
    if op = 0xAF then
      if bs.all (· == 0xAF) then .ok (.wPad (bs.length + 2), []) else .error .brokenPadding
    else if op = 0x20 then do
      let (reg, bs) ← rd8 bs
      let (val, bs) ← rd8 bs
      .ok (.wRegw reg val, bs)
    else if op = p.op16 then do
      let ((addr, rep, raw), bs) ← rdRun rdBe16 bs
      .ok (.wRun16 addr rep raw, bs)
    else if op = p.op8 then do
      let ((addr, rep, raw), bs) ← rdRun rd8 bs
      .ok (.wRun8 addr rep raw, bs)
    else .error (.unknownWire op)

/-- The instruction whose first byte is `c` and the bytes after it (30_encoding.md R91; 0xAF opens a wire command, R94 to R96).
Every other code is reserved (R92). -/
def decodeOp (p : Params) (c : Byte) (bs : List Byte) : Except DecodeError (Instr × List Byte) :=
  match c.toNat with
  | 0x01 => do
    let (v, bs) ← rd32 bs
    .ok (.split v, bs)
  | 0x02 => do
    let (front, bs) ← rdList rd8 bs
    let (back, bs) ← rdList rd8 bs
    .ok (.diff front back, bs)
  | 0x03 => do
    let (src, bs) ← rd32 bs
    let (cur, bs) ← rd32 bs
    .ok (.blendpix src cur, bs)
  | 0x04 => do
    let (y, bs) ← rd32 bs
    let (x0, bs) ← rd32 bs
    let (pix, bs) ← rdList rd32 bs
    .ok (.blendline y x0 pix, bs)
  | 0x05 => do
    let (n, bs) ← rd16 bs
    .ok (.lfsr16 n, bs)
  | 0x06 => do
    let (vals, bs) ← rdList rd16 bs
    let (i, bs) ← rd32 bs
    let (addr, bs) ← rd24 bs
    .ok (.enc16 vals i addr, bs)
  | 0x07 => do
    let (vals, bs) ← rdList rd8 bs
    let (i, bs) ← rd32 bs
    let (addr, bs) ← rd24 bs
    .ok (.enc8 vals i addr, bs)
  | 0x10 => do
    let (reg, bs) ← rd8 bs
    let (val, bs) ← rd8 bs
    .ok (.regw reg val, bs)
  | 0x11 => do
    let (reg, bs) ← rd8 bs
    let (v, bs) ← rd16 bs
    .ok (.regw16 reg v, bs)
  | 0x12 => do
    let (reg, bs) ← rd8 bs
    let (v, bs) ← rd16 bs
    .ok (.regw16be reg v, bs)
  | 0x13 => do
    let (reg, bs) ← rd8 bs
    let (n, bs) ← rd16 bs
    .ok (.regwl reg n, bs)
  | 0x14 => .ok (.vlock, bs)
  | 0x15 => .ok (.vunlock, bs)
  | 0x16 => do
    let (split, bs) ← rdBit bs
    .ok (.setdepth split, bs)
  | 0x17 => do
    let (a, bs) ← rd24 bs
    .ok (.setbase16 a, bs)
  | 0x18 => do
    let (a, bs) ← rd24 bs
    .ok (.setbase8 a, bs)
  | 0x19 => do
    let (xres, bs) ← rd32 bs
    let (yres, bs) ← rd32 bs
    let (pixclock, bs) ← rd32 bs
    let (left, bs) ← rd32 bs
    let (right, bs) ← rd32 bs
    let (upper, bs) ← rd32 bs
    let (lower, bs) ← rd32 bs
    let (hsync, bs) ← rd32 bs
    let (vsync, bs) ← rd32 bs
    .ok (.settiming xres yres pixclock left right upper lower hsync vsync, bs)
  | 0x1A => do
    let (level, bs) ← rd8 bs
    .ok (.setblank level, bs)
  | 0x20 => .ok (.acquire, bs)
  | 0x21 => .ok (.submit, bs)
  | 0x22 => .ok (.release, bs)
  | 0x2F => do
    let (k, bs) ← rdNat bs
    .ok (.complete k, bs)
  | 0x30 => do
    let (x, bs) ← rd32 bs
    let (y, bs) ← rd32 bs
    let (w, bs) ← rd32 bs
    let (h, bs) ← rd32 bs
    .ok (.renderFrame x y w h, bs)
  | 0x31 => do
    let (color, bs) ← rd32 bs
    .ok (.fillFrame color, bs)
  | 0x40 => do
    let (off, bs) ← rd32 bs
    let (val, bs) ← rd32 bs
    .ok (.cfgw off val, bs)
  | 0x41 => do
    let (off, bs) ← rd32 bs
    .ok (.cfgr off, bs)
  | 0x42 => do
    let (xres, bs) ← rd32 bs
    let (yres, bs) ← rd32 bs
    let (pixclock, bs) ← rd32 bs
    let (left, bs) ← rd32 bs
    let (right, bs) ← rd32 bs
    let (upper, bs) ← rd32 bs
    let (lower, bs) ← rd32 bs
    let (hsync, bs) ← rd32 bs
    let (vsync, bs) ← rd32 bs
    let (refresh, bs) ← rd32 bs
    let (split, bs) ← rdBit bs
    .ok (.modeset xres yres pixclock left right upper lower hsync vsync refresh split, bs)
  | 0x43 => do
    let (pitch, bs) ← rd32 bs
    let (bpp, bs) ← rd32 bs
    let (vx, bs) ← rd32 bs
    let (vy, bs) ← rd32 bs
    let (width, bs) ← rd32 bs
    let (height, bs) ← rd32 bs
    let (backingEn, bs) ← rdBit bs
    .ok (.setfb pitch bpp vx vy width height backingEn, bs)
  | 0x44 => do
    let (x, bs) ← rd32 bs
    let (y, bs) ← rd32 bs
    let (w, bs) ← rd32 bs
    let (h, bs) ← rd32 bs
    let (bpp, bs) ← rd32 bs
    let (visible, bs) ← rdBit bs
    let (pix, bs) ← rdList rd32 bs
    .ok (.setcursor x y w h bpp visible pix, bs)
  | 0x48 => .ok (.attach, bs)
  | 0x49 => .ok (.detach, bs)
  | 0xAF => decodeWire p bs
  | _ => .error (.reservedCode c)

/-- The instruction at the start of the bytes and the bytes that follow it. Total: every other byte string is rejected by
name. -/
def decodeFirst (p : Params) : List Byte → Except DecodeError (Instr × List Byte)
  | [] => .error .truncated
  | c :: bs => decodeOp p c bs

/-- The instruction that is exactly these bytes: a request record or one wire command. -/
def decode (p : Params) (bs : List Byte) : Except DecodeError Instr := do
  let (i, rest) ← decodeFirst p bs
  if rest.isEmpty then .ok i else .error .trailing

/-! ## Encoding -/

/-- A list operand of a request record. -/
def encList {α : Type} (put : α → List Byte) (xs : List α) : List Byte :=
  bytesNat xs.length ++ xs.flatMap put

/-- The one-byte form of a u8 value. -/
def byte1 (b : Byte) : List Byte := [b]

/-- The bytes of a well-formed instruction: the record of a request (R90, R91, log entry 6), the bytes of a wire command
(R94 to R96). -/
def encode (p : Params) : Instr → List Byte
  | .split v => 0x01 :: bytesLe32 v
  | .diff front back => 0x02 :: (encList byte1 front ++ encList byte1 back)
  | .blendpix src cur => 0x03 :: (bytesLe32 src ++ bytesLe32 cur)
  | .blendline y x0 pix => 0x04 :: (bytesLe32 y ++ bytesLe32 x0 ++ encList bytesLe32 pix)
  | .lfsr16 n => 0x05 :: bytesLe16 n
  | .enc16 vals i addr => 0x06 :: (encList bytesLe16 vals ++ bytesLe32 i ++ bytesLe24 addr)
  | .enc8 vals i addr => 0x07 :: (encList byte1 vals ++ bytesLe32 i ++ bytesLe24 addr)
  | .regw reg val => [0x10, reg, val]
  | .regw16 reg v => 0x11 :: reg :: bytesLe16 v
  | .regw16be reg v => 0x12 :: reg :: bytesLe16 v
  | .regwl reg n => 0x13 :: reg :: bytesLe16 n
  | .vlock => [0x14]
  | .vunlock => [0x15]
  | .setdepth split => [0x16, byteOfBool split]
  | .setbase16 a => 0x17 :: bytesLe24 a
  | .setbase8 a => 0x18 :: bytesLe24 a
  | .settiming xres yres pixclock left right upper lower hsync vsync =>
    0x19 :: [xres, yres, pixclock, left, right, upper, lower, hsync, vsync].flatMap bytesLe32
  | .setblank level => [0x1A, level]
  | .acquire => [0x20]
  | .submit => [0x21]
  | .release => [0x22]
  | .complete k => 0x2F :: bytesNat k
  | .renderFrame x y w h => 0x30 :: [x, y, w, h].flatMap bytesLe32
  | .fillFrame color => 0x31 :: bytesLe32 color
  | .cfgw off val => 0x40 :: (bytesLe32 off ++ bytesLe32 val)
  | .cfgr off => 0x41 :: bytesLe32 off
  | .modeset xres yres pixclock left right upper lower hsync vsync refresh split =>
    0x42 :: ([xres, yres, pixclock, left, right, upper, lower, hsync, vsync, refresh].flatMap bytesLe32 ++ [byteOfBool split])
  | .setfb pitch bpp vx vy width height backingEn =>
    0x43 :: ([pitch, bpp, vx, vy, width, height].flatMap bytesLe32 ++ [byteOfBool backingEn])
  | .setcursor x y w h bpp visible pix =>
    0x44 :: ([x, y, w, h, bpp].flatMap bytesLe32 ++ [byteOfBool visible] ++ encList bytesLe32 pix)
  | .attach => [0x48]
  | .detach => [0x49]
  | .wRun16 addr rep raw => runBytes p.op16 bytesBe16 addr rep raw
  | .wRun8 addr rep raw => runBytes p.op8 byte1 addr rep raw
  | .wRegw reg val => regwBytes reg val
  | .wPad n => padBytes n

/-! ## The opcode table's numbers -/

/-- The bytes of a table number of `n` bytes, first byte first. The table numbers a row as its listing reads: byte 0 of the
encoding is the most significant byte (`match` 0xAF20 is byte0 = 0xAF, byte1 = 0x20; log entry 7). -/
def tableBytes (n w : Nat) : List Byte := (List.range n).map fun j => BitVec.ofNat 8 (w / 256 ^ (n - 1 - j))

/-- The bytes of the instruction that a table number stands for: the number's own bytes where they are an instruction, else
those bytes followed by operand bytes of zeros. -/
def tableRecord (p : Params) (nbits w : Nat) : List Byte :=
  let bs := tableBytes (nbits / 8) w
  match decode p bs with
  | .ok _ => bs
  | .error _ =>
    let padded := bs ++ List.replicate 48 0
    match decodeFirst p padded with
    | .ok (_, rest) => padded.take (padded.length - rest.length)
    | .error _ => padded

/-- The instruction the decoder reads from a table number, under the default parameters. -/
def decodeTableWord (nbits w : Nat) : Option Instr :=
  match decode Params.default (tableRecord Params.default nbits w) with
  | .ok i => some i
  | .error _ => none

end Sys2Proof
end

