-- ==== Sys2Proof/Machine/Memory.lean ====
section
/-!
DEFINITION. Byte memories: the address spaces of 20_memory.md R60 as lists of cells in one canonical form.
-/

namespace Sys2Proof.Machine

/-- The bytes of an address space that something has written, lowest address first. An unlisted address has no entry: its
content is `Config.unwritten` (log entry 10). -/
abbrev Memory := List Host.Cell

/-- The canonical form: addresses strictly rising. An unlisted address has no value of its own in the list, so no entry can
equal it, and equal memories are equal lists. -/
abbrev Memory.wf (m : Memory) : Prop := m.Pairwise fun a b => a.1 < b.1

/-- The byte written at an address, if any. -/
def Memory.find : Memory → Nat → Option Byte
  | [], _ => none
  | (b, v) :: m, a => if a = b then some v else Memory.find m a

/-- What an address reads as: the written byte, or the free byte of its place. The ONE definition of an unlisted read. -/
def Memory.read (m : Memory) (space : Config.Space) (a : Nat) : Byte :=
  (Memory.find m a).getD (Config.unwritten space a)

/-- `n` bytes from address `a` on (`MemRead`, 00_scope.md R11). -/
def Memory.readList (m : Memory) (space : Config.Space) (a n : Nat) : List Byte :=
  (List.range n).map fun j => Memory.read m space (a + j)

/-- Write one byte, keeping the addresses rising. -/
def Memory.store : Memory → Nat → Byte → Memory
  | [], a, v => [(a, v)]
  | (b, w) :: m, a, v =>
    if a < b then (a, v) :: (b, w) :: m
    else if a = b then (a, v) :: m
    else (b, w) :: Memory.store m a v

/-- Write bytes from address `a` on (`MemWrite`, 00_scope.md R11). -/
def Memory.storeList : Memory → Nat → List Byte → Memory
  | m, _, [] => m
  | m, a, v :: vs => Memory.storeList (Memory.store m a v) (a + 1) vs

end Sys2Proof.Machine
end

