-- ==== Sys2Proof/Machine/State.lean ====
section
/-!
DEFINITION. The machine's state as plain data (10_state.md), its two stop types, and the state after reset.
-/

namespace Sys2Proof.Machine

/-! ## Registers -/

/-- FB_PITCH to FB_HEIGHT (10_state.md R24, R28). -/
structure FbRegs where
  pitch : Word
  bpp : Word
  vx : Word
  vy : Word
  width : Word
  height : Word
deriving DecidableEq, Repr

/-- MODE_XRES to MODE_REFRESH, the current Video Mode (10_state.md R24, R29). -/
structure ModeRegs where
  xres : Word
  yres : Word
  pixclock : Word
  left : Word
  right : Word
  upper : Word
  lower : Word
  hsync : Word
  vsync : Word
  refresh : Word
deriving DecidableEq, Repr

/-- CUR_X to CUR_VISIBLE and the sprite CURPIX (10_state.md R24, R31, R42). -/
structure Cursor where
  x : Word
  y : Word
  w : Word
  h : Word
  bpp : Word
  visible : Word
  pix : List Word
deriving DecidableEq, Repr

/-- The statistics counters (10_state.md R24, R33). -/
structure Counters where
  rendered : Word
  identical : Word
  sent : Word
  cpu : Word
deriving DecidableEq, Repr

/-- FB_PITCH to FB_HEIGHT after reset (10_state.md R45). -/
def FbRegs.reset : FbRegs := ⟨0, 0, 0, 0, 0, 0⟩

/-- MODE_XRES to MODE_REFRESH after reset (10_state.md R45). -/
def ModeRegs.reset : ModeRegs := ⟨0, 0, 0, 0, 0, 0, 0, 0, 0, 0⟩

/-- The cursor after reset: CUR_BPP 32, everything else 0, an empty sprite (10_state.md R45). -/
def Cursor.reset : Cursor := ⟨0, 0, 0, 0, 32, 0, []⟩

/-- The counters after reset (10_state.md R45). -/
def Counters.reset : Counters := ⟨0, 0, 0, 0⟩

/-! ## Pool and buffers -/

/-- A byte buffer whose unwritten bytes are unspecified; `tag` says which unspecified contents it has (log entry 10). -/
structure Buf where
  cells : Memory
  tag : Nat
deriving DecidableEq, Repr

/-- `SLOT[k].state` (10_state.md R35). -/
inductive SlotState where
  | free
  | held
  | inflight
deriving DecidableEq, Repr

/-- A slot record (10_state.md R35); `len` is a u32. -/
structure Slot where
  buf : Buf
  len : Word
  state : SlotState
deriving DecidableEq, Repr

/-- The transfer-slot pool: the slot records, FREEQ, AVAIL, HELD and WPTR (10_state.md R35 to R37). AVAIL and WPTR are u32, and
storing into them takes the value mod 2^32 (00_scope.md R10, log entry 15). A slot number has no stated width. -/
structure Pool where
  slots : List Slot
  freeq : List Nat
  avail : Word
  held : Option Nat
  wptr : Word
deriving DecidableEq, Repr

/-- No pool (10_state.md R46). -/
def Pool.absent : Pool := ⟨[], [], 0, none, 0⟩

/-- WORK, SCR16 and SCR8 (10_state.md R40, R41). `work` holds WORK from display column `base` on (log entry 17). -/
structure LineBufs where
  base : Nat
  work : List Word
  scr16 : List Half
  scr8 : List Byte
deriving DecidableEq, Repr

/-- Empty line buffers (10_state.md R45). -/
def LineBufs.reset : LineBufs := ⟨0, [], [], []⟩

/-- REFUSED, and FAULTS as one bit for each of its reasons (10_state.md R43, 60_exceptions.md R257). -/
structure Marks where
  refused : Bool
  poolInvariant : Bool
  badComplete : Bool
  emitOverflow : Bool
deriving DecidableEq, Repr

/-- No mark set. -/
def Marks.clear : Marks := ⟨false, false, false, false⟩

/-- The reasons FAULTS may hold (60_exceptions.md R257). -/
inductive FaultMark where
  /-- F_POOL_INVARIANT. -/
  | poolInvariant
  /-- F_BAD_COMPLETE. -/
  | badComplete
  /-- F_EMIT_OVERFLOW. -/
  | emitOverflow
deriving DecidableEq, Repr

/-! ## Requests in progress -/

/-- Where a frame's line pixels come from (46_frame_loop.md R221): the snapshot of FB that RENDER_FRAME took (20_memory.md
R63), or FILL_FRAME's colour. -/
inductive FrameSource where
  | framebuffer (snapshot : Memory)
  | fill (color : Word)
deriving DecidableEq, Repr

/-- The AcquireF at which a frame operation waits: before a line, or inside EncodeChannel of one channel with the first
narrowed column `p0`, the run cursor and the device address (46_frame_loop.md R222, R224). -/
inductive FramePhase where
  | line
  | chan16 (p0 i : Nat) (addr : DevAddr)
  | chan8 (p0 i : Nat) (addr : DevAddr)
deriving DecidableEq, Repr

/-- The local variables of a frame operation (46_frame_loop.md R222): the columns `x0 .. x1-1`, the current line `y`, the end
of the lines `yEnd`, the count `t` of consecutive acquire timeouts. -/
structure FrameCtx where
  source : FrameSource
  x0 : Nat
  x1 : Nat
  y : Nat
  yEnd : Nat
  t : Nat
  phase : FramePhase
deriving DecidableEq, Repr

/-- A request at its wait point (20_memory.md R75 item 2). -/
inductive Pending where
  | acquire
  | modeset (m : ModeRegs) (split : Bool)
  | detach
  | frame (f : FrameCtx)
deriving DecidableEq, Repr

/-! ## What HOST and TRANSPORT see -/

/-- Status codes (60_exceptions.md R250). -/
inductive StatusCode where
  | ok
  | timeout
  | reject
  | geometry
  | inactive
  | badArg
  | noSlot
  | slotHeld
  | noMode
  | full
deriving DecidableEq, Repr

/-- The results of a request (30_encoding.md R91). -/
inductive Result where
  | none
  | split (c16 : Half) (c8 : Byte)
  | diff (start len ident : Word)
  | pixel (out : Word)
  | pixels (out : List Word)
  | lfsr (s : Half)
  | enc (i : Word) (addr : DevAddr) (full : Bool)
  | value (val : Word)
deriving DecidableEq, Repr

/-- What HOST receives for one request: exactly one status, with the results (60_exceptions.md R250). -/
structure Reply where
  status : StatusCode
  result : Result
deriving DecidableEq, Repr

/-- A SUBMIT event: the slot, its declared length, its bytes (45_slot_pool.md R204). -/
structure SubmitEvent where
  slot : Nat
  len : Word
  bytes : List Byte
deriving DecidableEq, Repr

/-- An item of the reference decoder (42_run_encoder.md R147). -/
inductive WireItem where
  | run16 (addr : DevAddr) (vals : List Half)
  | run8 (addr : DevAddr) (vals : List Byte)
  | regw (reg val : Byte)
  | pad (n : Nat)
deriving DecidableEq, Repr

/-- Device memory, device registers (20_memory.md R67, R68) and the reference decoder's output list (42_run_encoder.md R147). -/
structure Device where
  mem : Memory
  regs : Memory
  items : List WireItem
deriving DecidableEq, Repr

/-! ## Agents' steps -/

/-- One step of one agent (20_memory.md R75), chosen from outside the machine. -/
inductive Move where
  /-- PRODUCER goes on: takes the next request, or continues the waiting one. -/
  | producer
  /-- HOST issues one request (R75 item 1). -/
  | issue (record : List Byte)
  /-- HOST writes framebuffer bytes (60_exceptions.md R255). -/
  | hostWrite (off : Nat) (bytes : List Byte)
  /-- The acquire timeout is chosen (45_slot_pool.md R201). -/
  | timeout
  /-- TRANSPORT issues a COMPLETE (R75 item 4). -/
  | transport (record : List Byte)
  /-- The device's reader takes one wire command (log entry 12). -/
  | device (command : List Byte)
deriving DecidableEq, Repr

/-! ## The state -/

/-- Every piece of state 10_state.md gives VPIPE, the address spaces of 20_memory.md R60, and the model's own fields (`cfg`,
`queue`, `moves`, `replies`, `events`, `draws`, `drawCount`; INVENTORY.md). -/
structure State where
  /-- The parameters of 00_scope.md R7. -/
  cfg : Params
  /-- STATUS (10_state.md R27). -/
  status : Word
  /-- LINK (10_state.md R26). -/
  link : Word
  fbReg : FbRegs
  mode : ModeRegs
  /-- BASE16[23:0]; bits 31:24 read 0 (10_state.md R30). -/
  base16 : DevAddr
  /-- BASE8[23:0]. -/
  base8 : DevAddr
  cursor : Cursor
  counters : Counters
  pool : Pool
  /-- BACKING; it exists while STATUS.BACKING_EN = 1 (10_state.md R39). -/
  backing : Buf
  line : LineBufs
  marks : Marks
  /-- The request at a wait point, if any. -/
  pending : Option Pending
  /-- FB, HOST's framebuffer (20_memory.md R61). -/
  hostFb : Memory
  device : Device
  /-- Requests issued and not yet taken, oldest first (10_state.md R21). -/
  queue : List (List Byte)
  /-- The agents' steps still to come. -/
  moves : List Move
  /-- The statuses and results HOST has received, oldest first. -/
  replies : List Reply
  /-- The SUBMIT events so far, oldest first (00_scope.md R5). -/
  events : List SubmitEvent
  /-- The outcomes of the next `choose`s, where they are fixed from outside (log entry 9). -/
  draws : List Word
  /-- How many free values have been used. -/
  drawCount : Nat
deriving DecidableEq, Repr

/-- Where the machine stops. Every hardware error is a status and every fault of 60_exceptions.md R257 a mark, so one
reason is left. -/
inductive Fault where
  /-- Raised by a frame operation whose EncodeChannel loop (46_frame_loop.md R224) can never end: every fresh slot is full
  before a command fits, which only a configuration with F > S allows, and 00_scope.md R7 forbids it. Safe: `step` refuses
  such a configuration before it runs anything. -/
  | encoderStuck
deriving DecidableEq, Repr

/-- Why the model gives an instruction no meaning. -/
inductive Refusal where
  /-- Raised by `exec` for an instruction without a meaning yet. Safe. -/
  | notModelled (mnemonic : String)
  /-- Raised by the wire commands for a run command whose raw count is not 1 to 255: the reference decoder rejects it
  (30_encoding.md R99, 42_run_encoder.md R147), and no effect is given. Safe. -/
  | wireRejected
deriving DecidableEq, Repr

/-- The power-on state, before the first ATTACH (10_state.md R46, 70_reset_and_hazards.md R280 a): no session, no pool, no
backing buffer, no cursor; nothing issued, nothing waiting. Registers hold the values of R45 (log entries 1 and 2). -/
def State.reset : State where
  cfg := Params.default
  status := 0
  link := 0
  fbReg := FbRegs.reset
  mode := ModeRegs.reset
  base16 := 0
  base8 := 0
  cursor := Cursor.reset
  counters := Counters.reset
  pool := Pool.absent
  backing := ⟨[], 0⟩
  line := LineBufs.reset
  marks := Marks.clear
  pending := none
  hostFb := []
  device := ⟨[], [], []⟩
  queue := []
  moves := []
  replies := []
  events := []
  draws := []
  drawCount := 0

end Sys2Proof.Machine
end

