-- ==== Sys2Proof/Machine/Flags.lean ====
section
/-!
DEFINITION. The flags of the spec's instruction template (00_scope.md R14): the STATUS and LINK bits (10_state.md R26, R27)
and the statistics counters (R33).
-/

namespace Sys2Proof.Machine

/-- The named bits of STATUS (10_state.md R27). -/
inductive StatusFlag where
  | lostPixels
  | frameBusy
  | modeValid
  | fbValid
  | split
  | attached
  | backingEn
deriving DecidableEq, Repr

/-- Bit positions (10_state.md R27). -/
def StatusFlag.bit : StatusFlag → Nat
  | .lostPixels => 0
  | .frameBusy => 1
  | .modeValid => 2
  | .fbValid => 3
  | .split => 4
  | .attached => 5
  | .backingEn => 6

/-- A word with one bit set to a value. -/
def setBit (w : Word) (i : Nat) (b : Bool) : Word :=
  if b then w ||| (1#32 <<< i) else w &&& ~~~(1#32 <<< i)

/-- A STATUS bit. -/
def State.flag (s : State) (f : StatusFlag) : Bool := s.status.getLsbD f.bit

/-- Write a STATUS bit. -/
def State.setFlag (s : State) (f : StatusFlag) (b : Bool) : State := { s with status := setBit s.status f.bit b }

/-- LINK.DEVICE_ACTIVE (10_state.md R26). -/
def State.deviceActive (s : State) : Bool := s.link.getLsbD 0

/-- Write LINK.DEVICE_ACTIVE; bits 31:1 stay 0 (10_state.md R26). -/
def State.setDeviceActive (s : State) (b : Bool) : State := { s with link := if b then 1 else 0 }

/-- Counters are u32 and wrap mod 2^32 (10_state.md R33). -/
def countUp (c : Word) (n : Nat) : Word := c + BitVec.ofNat 32 n

/-- CNT_RENDERED grows by `n` bytes. -/
def State.countRendered (s : State) (n : Nat) : State :=
  { s with counters := { s.counters with rendered := countUp s.counters.rendered n } }

/-- CNT_IDENTICAL grows by `n` bytes. -/
def State.countIdentical (s : State) (n : Nat) : State :=
  { s with counters := { s.counters with identical := countUp s.counters.identical n } }

/-- CNT_SENT grows by a declared length (45_slot_pool.md R204). -/
def State.countSent (s : State) (n : Word) : State :=
  { s with counters := { s.counters with sent := s.counters.sent + n } }

/-- CNT_CPU grows by an increment the spec leaves free (46_frame_loop.md R226). -/
def State.countCpu (s : State) (d : Word) : State :=
  { s with counters := { s.counters with cpu := s.counters.cpu + d } }

end Sys2Proof.Machine
end

