-- ==== Sys2Proof/Machine/Operands.lean ====
section
/-!
DEFINITION. The value functions of the datapath: channel values, the narrowed range, the blend, the LFSR, device addresses.
All are pure functions of their operands.
-/

namespace Sys2Proof.Machine

/-! ## Channel splitter (40_channel_split.md) -/

/-- A in bits 31:24 of an ARGB32 pixel (20_memory.md R62). -/
def alphaOf (v : Word) : Byte := v.extractLsb' 24 8
/-- R in bits 23:16. -/
def redOf (v : Word) : Byte := v.extractLsb' 16 8
/-- G in bits 15:8. -/
def greenOf (v : Word) : Byte := v.extractLsb' 8 8
/-- B in bits 7:0. -/
def blueOf (v : Word) : Byte := v.extractLsb' 0 8

/-- The default `P_SPLIT16`, {R[7:3], G[7:2], B[7:3]} (40_channel_split.md R121; adopted, log entry 4). -/
def split16 (v : Word) : Half :=
  (redOf v).extractLsb' 3 5 ++ (greenOf v).extractLsb' 2 6 ++ (blueOf v).extractLsb' 3 5

/-- The default `P_SPLIT8`, {R[2:0], G[1:0], B[2:0]} (40_channel_split.md R122; adopted, log entry 4). -/
def split8 (v : Word) : Byte :=
  (redOf v).extractLsb' 0 3 ++ (greenOf v).extractLsb' 0 2 ++ (blueOf v).extractLsb' 0 3

/-! ## Frame differencer (41_frame_diff.md) -/

/-- Word j of a line (41_frame_diff.md R131); the last word of a line may be shorter (R135). -/
def lineWord (w : Nat) (buf : List Byte) (j : Nat) : List Byte := (buf.drop (j * w)).take w

/-- `nw = ceil(L / W)`. -/
def wordCount (w len : Nat) : Nat := (len + w - 1) / w

/-- The numbers of the words that differ, in increasing order. -/
def differingWords (w : Nat) (front back : List Byte) : List Nat :=
  (List.range (wordCount w front.length)).filter fun j => lineWord w front j ≠ lineWord w back j

/-- A result of the differencer. -/
structure Narrowed where
  start : Nat
  len : Nat
  ident : Nat
deriving DecidableEq, Repr

/-- The narrowing of 41_frame_diff.md R131 for lines of equal length: from the first differing word to the last, or the empty
range of R132. -/
def narrow (w : Nat) (front back : List Byte) : Narrowed :=
  match differingWords w front back with
  | [] => ⟨front.length, 0, front.length⟩
  | first :: more =>
    let start := first * w
    let last := (first :: more).getLast (List.cons_ne_nil first more)
    let stop := min front.length ((last + 1) * w)
    ⟨start, stop - start, front.length - (stop - start)⟩

/-! ## Cursor blender (43_cursor_blend.md) -/

/-- One colour channel: (cur × α + src × (255 − α)) div 255 (43_cursor_blend.md R160). -/
def blendChannel (alpha src cur : Byte) : Byte :=
  BitVec.ofNat 8 ((cur.toNat * alpha.toNat + src.toNat * (255 - alpha.toNat)) / 255)

/-- One cursor pixel over one source pixel, the source's A kept (43_cursor_blend.md R160). -/
def blendPixel (src cur : Word) : Word :=
  alphaOf src ++ blendChannel (alphaOf cur) (redOf src) (redOf cur)
    ++ blendChannel (alphaOf cur) (greenOf src) (greenOf cur)
    ++ blendChannel (alphaOf cur) (blueOf src) (blueOf cur)

/-- `CUR_VISIBLE[0]` (10_state.md R31). -/
def Cursor.shown (c : Cursor) : Bool := c.visible.getLsbD 0

/-- The vertical test of 43_cursor_blend.md R163, with CUR_Y signed. -/
def Cursor.coversLine (c : Cursor) (y : Nat) : Bool :=
  decide (c.y.toInt ≤ (y : Int)) && decide ((y : Int) < c.y.toInt + (c.h.toNat : Int))

/-- The horizontal test of 43_cursor_blend.md R164, with CUR_X signed. -/
def Cursor.coversColumn (c : Cursor) (x : Nat) : Bool :=
  decide (c.x.toInt ≤ (x : Int)) && decide ((x : Int) < c.x.toInt + (c.w.toNat : Int))

/-- The pixel of display column `x` on line `y` after the cursor (43_cursor_blend.md R161). A place outside CURPIX, which no
SETCURSOR leaves inside the rectangle (R166), changes nothing (log entry 18). -/
def Cursor.blendAt (c : Cursor) (y x : Nat) (pix : Word) : Word :=
  if c.coversColumn x then
    match c.pix[((y : Int) - c.y.toInt).toNat * c.w.toNat + ((x : Int) - c.x.toInt).toNat]? with
    | some cur => blendPixel pix cur
    | none => pix
  else pix

/-- Composite the cursor onto the segment of line `y` that begins at column `x0` (43_cursor_blend.md R161). -/
def Cursor.blendLine (c : Cursor) (y x0 : Nat) (pix : List Word) : List Word :=
  if c.shown && c.coversLine y then pix.mapIdx fun j v => c.blendAt y (x0 + j) v else pix

/-! ## LFSR16 (44_register_commands.md R174, R175) -/

/-- f(s): the exclusive-or of the bits of s at the taps. -/
def lfsrFeedback (taps s : Half) : Bool :=
  (List.range 16).foldl (fun acc j => acc ^^ (taps.getLsbD j && s.getLsbD j)) false

/-- Step(s) = {s[14:0], f(s)} (44_register_commands.md R175). -/
def lfsrStep (taps s : Half) : Half := (s.extractLsb' 0 15 ++ BitVec.ofBool (lfsrFeedback taps s) : BitVec 16)

/-- `n` steps from `s`. -/
def lfsrIter (taps : Half) : Nat → Half → Half
  | 0, s => s
  | n + 1, s => lfsrIter taps n (lfsrStep taps s)

/-- The state after `n` steps from all ones (44_register_commands.md R174). -/
def lfsr16 (taps n : Half) : Half := lfsrIter taps n.toNat 0xFFFF

/-! ## Device addresses (20_memory.md R67) -/

/-- A16(x, y). -/
def State.a16 (s : State) (x y : Nat) : DevAddr := s.base16 + BitVec.ofNat 24 (2 * (y * s.mode.xres.toNat + x))

/-- A8(x, y). -/
def State.a8 (s : State) (x y : Nat) : DevAddr := s.base8 + BitVec.ofNat 24 (y * s.mode.xres.toNat + x)

/-- The FB and BACKING byte offset of display pixel (x, y) (20_memory.md R61, R64). -/
def State.pixelOffset (s : State) (x y : Nat) : Nat :=
  (s.fbReg.vy.toNat + y) * s.fbReg.pitch.toNat + (s.fbReg.vx.toNat + x) * 4

/-- The ARGB32 pixel at byte offset `o`, little-endian (20_memory.md R62). -/
def Memory.readPixel (m : Memory) (space : Config.Space) (o : Nat) : Word :=
  le32 (Memory.read m space o) (Memory.read m space (o + 1)) (Memory.read m space (o + 2)) (Memory.read m space (o + 3))

end Sys2Proof.Machine
end

