-- ==== Sys2Proof/Machine/Ops.lean ====
section
/-!
DEFINITION. The named operations over the state: ending a request with a status (what this machine has in place of taking an
exception, 60_exceptions.md R250, R254), choices, slot bytes, the pool, the registers, creating and destroying a session.
-/

namespace Sys2Proof.Machine

/-- The outcome type of every meaning. -/
abbrev Out := Host.Outcome State Fault Refusal

/-! ## Statuses (60_exceptions.md R250, R254) -/

/-- The code of a status (60_exceptions.md R250). -/
def StatusCode.code : StatusCode → Nat
  | .ok => 0
  | .timeout => 1
  | .reject => 2
  | .geometry => 3
  | .inactive => 4
  | .badArg => 5
  | .noSlot => 6
  | .slotHeld => 7
  | .noMode => 8
  | .full => 9

/-- A request ends: HOST receives its one status and its results, and nothing waits any more (60_exceptions.md R250). No mode
changes, nothing is saved and no vector is used (R254). -/
def State.reply (s : State) (status : StatusCode) (result : Result) : State :=
  { s with replies := s.replies ++ [⟨status, result⟩], pending := none }

/-- End the request with a status and results. -/
def finish (s : State) (status : StatusCode) (result : Result) : Out := .next (s.reply status result)

/-- `raise E_x` (00_scope.md R11): end the request with a status and no result; the changes already in `s` stay. -/
def raise (s : State) (status : StatusCode) : Out := finish s status .none

/-- `return OK()` (00_scope.md R11). -/
def succeed (s : State) : Out := finish s .ok .none

/-- The session check of every request but ATTACH and CFGR (60_exceptions.md R252). -/
def inSession (s : State) (body : Out) : Out := if s.flag .attached then body else raise s .inactive

/-- The request reaches a wait point and holds there (20_memory.md R75 item 2). -/
def State.waitAt (s : State) (p : Pending) : State := { s with pending := some p }

/-! ## The model's marks (10_state.md R43) -/

/-- Add a reason to FAULTS (60_exceptions.md R257). -/
def State.markFault (s : State) : FaultMark → State
  | .poolInvariant => { s with marks := { s.marks with poolInvariant := true } }
  | .badComplete => { s with marks := { s.marks with badComplete := true } }
  | .emitOverflow => { s with marks := { s.marks with emitOverflow := true } }

/-- Set REFUSED (60_exceptions.md R256). -/
def State.markRefused (s : State) : State := { s with marks := { s.marks with refused := true } }

/-! ## Choices (00_scope.md R11 `choose`) -/

/-- The next choice: the one fixed from outside, or a free value (log entry 9). -/
def State.nextDraw (s : State) : Word :=
  match s.draws with
  | d :: _ => d
  | [] => Config.freeDraw s.drawCount

/-- The state after the next choice. -/
def State.afterDraw (s : State) : State :=
  match s.draws with
  | _ :: ds => { s with draws := ds }
  | [] => { s with drawCount := s.drawCount + 1 }

/-- A choice between two: the low bit, 1 meaning ACCEPT or success. -/
def State.nextChoice (s : State) : Bool := s.nextDraw.getLsbD 0

/-! ## Buffers and slots -/

/-- Bytes of a buffer. -/
def Buf.readList (b : Buf) (a n : Nat) : List Byte := Memory.readList b.cells (.buffer b.tag) a n

/-- Write bytes into a buffer. -/
def Buf.storeList (b : Buf) (a : Nat) (vs : List Byte) : Buf := { b with cells := Memory.storeList b.cells a vs }

/-- Change slot `k`. -/
def Pool.modifySlot (p : Pool) (k : Nat) (f : Slot → Slot) : Pool := { p with slots := p.slots.modify k f }

/-- `SLOT[k].buf[0 .. n)`. -/
def Pool.slotBytes (p : Pool) (k n : Nat) : List Byte :=
  match p.slots[k]? with
  | some slot => slot.buf.readList 0 n
  | none => []

/-- The free space of the held slot, `S - WPTR`. -/
def State.room (s : State) : Nat := s.cfg.slotBytes - s.pool.wptr.toNat

/-- `Emit`: bytes into the held slot at WPTR, which advances by their count (45_slot_pool.md R207). Every caller has checked
that a slot is held and that they fit; otherwise nothing is written and F_EMIT_OVERFLOW is recorded. -/
def State.emit (s : State) (bs : List Byte) : State :=
  match s.pool.held with
  | some k =>
    if s.pool.wptr.toNat + bs.length ≤ s.cfg.slotBytes then
      { s with pool :=
        { s.pool.modifySlot k (fun slot => { slot with buf := slot.buf.storeList s.pool.wptr.toNat bs }) with
          wptr := s.pool.wptr + BitVec.ofNat 32 bs.length } }
    else s.markFault .emitOverflow
  | none => s.markFault .emitOverflow

/-! ## Pool steps (45_slot_pool.md) -/

/-- TAKE: the head of FREEQ becomes the held slot (45_slot_pool.md R200). It is reached only with AVAIL > 0; a FREEQ that is
empty then breaks 10_state.md R38 and records F_POOL_INVARIANT. -/
def State.takeSlot (s : State) : State :=
  match s.pool.freeq with
  | k :: rest =>
    { s with pool :=
      { s.pool.modifySlot k (fun slot => { slot with state := .held }) with
        freeq := rest, avail := s.pool.avail - 1, held := some k, wptr := 0 } }
  | [] => ({ s with pool := { s.pool with wptr := 0 } }).markFault .poolInvariant

/-- A slot goes back to the tail of FREEQ with its full length, and one admission unit is released (45_slot_pool.md R205,
R206). -/
def Pool.giveBack (p : Pool) (slotBytes k : Nat) : Pool :=
  { p.modifySlot k (fun slot => { slot with len := BitVec.ofNat 32 slotBytes, state := .free }) with
    freeq := p.freeq ++ [k], avail := p.avail + 1 }

/-- CompleteSlot(k) (45_slot_pool.md R205): a slot that is not in flight records F_BAD_COMPLETE and changes nothing else. -/
def State.completeSlot (s : State) (k : Nat) : State :=
  match s.pool.slots[k]? with
  | some slot =>
    if slot.state = .inflight then { s with pool := s.pool.giveBack s.cfg.slotBytes k } else s.markFault .badComplete
  | none => s.markFault .badComplete

/-- RELEASE's body for the held slot `k` (45_slot_pool.md R206). -/
def State.releaseSlot (s : State) (k : Nat) : State :=
  { s with pool := { s.pool.giveBack s.cfg.slotBytes k with held := none, wptr := 0 } }

/-- The part of SUBMIT before TRANSPORT's outcome: slot `k` is in flight with its declared length (45_slot_pool.md R204). -/
def State.launchSlot (s : State) (k : Nat) : State :=
  { s with pool :=
    { s.pool.modifySlot k (fun slot => { slot with len := s.pool.wptr, state := .inflight }) with held := none, wptr := 0 } }

/-- SUBMIT's atomic step for the held slot `k` and a given outcome (45_slot_pool.md R204): an accepted slot gives the SUBMIT
event and counts its bytes; a rejected one is completed at once and LOST_PIXELS is set. -/
def State.submitWith (s : State) (k : Nat) (accept : Bool) : State :=
  let launched := s.launchSlot k
  if accept then
    let sent : State := { launched with events := s.events ++ [⟨k, s.pool.wptr, s.pool.slotBytes k s.pool.wptr.toNat⟩] }
    sent.countSent s.pool.wptr
  else (launched.completeSlot k).setFlag .lostPixels true

/-- SUBMIT's body: TRANSPORT draws the outcome (45_slot_pool.md R204, R208). -/
def State.submitSlot (s : State) (k : Nat) : State := s.afterDraw.submitWith k s.nextChoice

/-- The number of slots in flight (10_state.md R32). -/
def Pool.inflight (p : Pool) : Nat := p.slots.countP fun slot => slot.state = .inflight

/-- The pool invariants of 10_state.md R38, as one check: AVAIL counts FREEQ; FREEQ holds each free slot once and nothing
else; the HELD slot is the one HELD names. The fourth, the number of slots outside FREEQ, follows from them. -/
def Pool.holdsR38 (p : Pool) : Bool :=
  decide (p.avail.toNat = p.freeq.length) && decide p.freeq.Nodup && p.freeq.all (fun k => decide (k < p.slots.length))
    && (List.range p.slots.length).all (fun k =>
      match p.slots[k]? with
      | some slot => (decide (k ∈ p.freeq) == decide (slot.state = .free))
          && (decide (p.held = some k) == decide (slot.state = .held))
      | none => false)
    && (match p.held with
      | some k => decide (k < p.slots.length)
      | none => true)

/-- A step that leaves an invariant of 10_state.md R38 false records F_POOL_INVARIANT (60_exceptions.md R257). Without a
session there is no pool to check. -/
def State.checkPool (s : State) : State :=
  if s.flag .attached && !s.pool.holdsR38 then s.markFault .poolInvariant else s

/-! ## Control registers (10_state.md R24, R32) -/

/-- POOL_HELD (10_state.md R32). -/
def Pool.heldWord (p : Pool) : Word :=
  match p.held with
  | some k => BitVec.ofNat 32 k
  | none => 0xFFFFFFFF

/-- The register at an offset, or none where the map of 10_state.md R24 has none. -/
def State.readReg (s : State) (off : Nat) : Option Word :=
  match off with
  | 0x000 => some s.status
  | 0x008 => some s.link
  | 0x010 => some s.fbReg.pitch
  | 0x014 => some s.fbReg.bpp
  | 0x018 => some s.fbReg.vx
  | 0x01C => some s.fbReg.vy
  | 0x020 => some s.fbReg.width
  | 0x024 => some s.fbReg.height
  | 0x040 => some s.mode.xres
  | 0x044 => some s.mode.yres
  | 0x048 => some s.mode.pixclock
  | 0x04C => some s.mode.left
  | 0x050 => some s.mode.right
  | 0x054 => some s.mode.upper
  | 0x058 => some s.mode.lower
  | 0x05C => some s.mode.hsync
  | 0x060 => some s.mode.vsync
  | 0x064 => some s.mode.refresh
  | 0x080 => some (s.base16.setWidth 32)
  | 0x084 => some (s.base8.setWidth 32)
  | 0x100 => some s.cursor.x
  | 0x104 => some s.cursor.y
  | 0x108 => some s.cursor.w
  | 0x10C => some s.cursor.h
  | 0x110 => some s.cursor.bpp
  | 0x114 => some s.cursor.visible
  | 0x180 => some s.counters.rendered
  | 0x184 => some s.counters.identical
  | 0x188 => some s.counters.sent
  | 0x18C => some s.counters.cpu
  | 0x190 => some s.pool.avail
  | 0x194 => some s.pool.heldWord
  | 0x198 => some (BitVec.ofNat 32 s.pool.inflight)
  | _ => none

/-! ## Session (46_frame_loop.md R236, R237) -/

/-- The pool right after ATTACH: N free slots of full length, their bytes unspecified under fresh tags from `tag` on
(10_state.md R45). -/
def Pool.fresh (p : Params) (tag : Nat) : Pool where
  slots := (List.range p.slotCount).map fun k => ⟨⟨[], tag + k⟩, BitVec.ofNat 32 p.slotBytes, .free⟩
  freeq := List.range p.slotCount
  avail := BitVec.ofNat 32 p.slotCount
  held := none
  wptr := 0

/-- Registers, pool, backing buffer, cursor and line buffers at the values they have without a session (10_state.md R46). The
marks, FB and the device survive (70_reset_and_hazards.md R281). -/
def State.destroySession (s : State) : State :=
  { s with
    status := 0
    link := 0
    fbReg := FbRegs.reset
    mode := ModeRegs.reset
    base16 := 0
    base8 := 0
    cursor := Cursor.reset
    counters := Counters.reset
    pool := Pool.absent
    backing := ⟨[], 0⟩
    line := LineBufs.reset }

/-- Every piece of state at its value after ATTACH (10_state.md R45). -/
def State.createSession (s : State) : State :=
  { s.destroySession with
    status := 0x00000020
    pool := Pool.fresh s.cfg s.drawCount
    drawCount := s.drawCount + s.cfg.slotCount }

end Sys2Proof.Machine
end

