-- ==== Sys2Proof/Machine/RegBuilder.lean ====
section
/-!
DEFINITION. The mode/register command builder (44_register_commands.md): the bytes of every register command and of the
mode-set stream, and the register-write requests. Register numbers and values are the default `P_REGMAP` of R170 (adopted,
log entry 5).
-/

namespace Sys2Proof.Machine

/-! ## Command bytes -/

/-- A register pair, high byte first (44_register_commands.md R172). -/
def regw16Bytes (reg : Byte) (v : Half) : List Byte :=
  regwBytes reg (v.extractLsb' 8 8) ++ regwBytes (reg + 1) (v.extractLsb' 0 8)

/-- A register pair, low byte first (44_register_commands.md R173). -/
def regw16beBytes (reg : Byte) (v : Half) : List Byte :=
  regwBytes reg (v.extractLsb' 0 8) ++ regwBytes (reg + 1) (v.extractLsb' 8 8)

/-- A register pair with the LFSR transform of a count (44_register_commands.md R176). -/
def regwlBytes (taps : Half) (reg : Byte) (n : Half) : List Byte := regw16Bytes reg (lfsr16 taps n)

/-- `AF 20 FF 00` (44_register_commands.md R177). -/
def vlockBytes : List Byte := regwBytes 0xFF 0x00

/-- `AF 20 FF FF` (44_register_commands.md R178). -/
def vunlockBytes : List Byte := regwBytes 0xFF 0xFF

/-- `AF 20 00 d` (44_register_commands.md R179). -/
def setdepthBytes (split : Bool) : List Byte := regwBytes 0x00 (if split then 0x01 else 0x00)

/-- Registers 0x20 to 0x22 (44_register_commands.md R180). -/
def setbase16Bytes (a : DevAddr) : List Byte :=
  regwBytes 0x20 (a.extractLsb' 16 8) ++ regwBytes 0x21 (a.extractLsb' 8 8) ++ regwBytes 0x22 (a.extractLsb' 0 8)

/-- Registers 0x26 to 0x28 (44_register_commands.md R181). -/
def setbase8Bytes (a : DevAddr) : List Byte :=
  regwBytes 0x26 (a.extractLsb' 16 8) ++ regwBytes 0x27 (a.extractLsb' 8 8) ++ regwBytes 0x28 (a.extractLsb' 0 8)

/-- The blanking value of a level, none above 4 (44_register_commands.md R185). -/
def blankValue (level : Byte) : Option Byte :=
  match level.toNat with
  | 0 => some 0x00
  | 1 => some 0x01
  | 2 => some 0x03
  | 3 => some 0x05
  | 4 => some 0x07
  | _ => none

/-- `AF 20 1F b` (44_register_commands.md R185). -/
def blankBytes (b : Byte) : List Byte := regwBytes 0x1F b

/-- How a timing row is written (44_register_commands.md R170). -/
inductive RegKind where
  | lfsr
  | plain
  | bigEndian
deriving DecidableEq, Repr

/-- A row of the timing block. -/
structure TimingRow where
  reg : Byte
  kind : RegKind
  value : Half
deriving DecidableEq, Repr

/-- The 13 rows of 44_register_commands.md R183 in order, each value computed on integers and then taken mod 2^16. -/
def timingRows (p : Params) (m : ModeRegs) : List TimingRow :=
  let xres : Int := m.xres.toNat
  let yres : Int := m.yres.toNat
  let left : Int := m.left.toNat
  let right : Int := m.right.toNat
  let upper : Int := m.upper.toNat
  let lower : Int := m.lower.toNat
  let hsync : Int := m.hsync.toNat
  let vsync : Int := m.vsync.toNat
  let xds := left + hsync
  let xde := xds + xres
  let yds := upper + vsync
  let yde := yds + yres
  let u16 (v : Int) : Half := BitVec.ofInt 16 v
  [ ⟨0x01, .lfsr, u16 xds⟩,
    ⟨0x03, .lfsr, u16 xde⟩,
    ⟨0x05, .lfsr, u16 yds⟩,
    ⟨0x07, .lfsr, u16 yde⟩,
    ⟨0x09, .lfsr, u16 (xde + right - 1)⟩,
    ⟨0x0B, .lfsr, u16 1⟩,
    ⟨0x0D, .lfsr, u16 (hsync + 1)⟩,
    ⟨0x0F, .plain, u16 xres⟩,
    ⟨0x11, .lfsr, u16 (yres + upper + lower + vsync)⟩,
    ⟨0x13, .lfsr, u16 0⟩,
    ⟨0x15, .lfsr, u16 vsync⟩,
    ⟨0x17, .plain, u16 yres⟩,
    ⟨0x1B, .bigEndian, u16 (p.pclkNumerator / m.pixclock.toNat : Nat)⟩ ]

/-- A timing row as its write kind says. -/
def TimingRow.bytes (taps : Half) (r : TimingRow) : List Byte :=
  match r.kind with
  | .lfsr => regwlBytes taps r.reg r.value
  | .plain => regw16Bytes r.reg r.value
  | .bigEndian => regw16beBytes r.reg r.value

/-- The 104 bytes of SETTIMING (44_register_commands.md R182). -/
def settimingBytes (p : Params) (m : ModeRegs) : List Byte := (timingRows p m).flatMap (TimingRow.bytes p.lfsrTaps)

/-- BASE8 of a mode, (2 × xres × yres) mod 2^24 (44_register_commands.md R186, 10_state.md R30). -/
def modeBase8 (m : ModeRegs) : DevAddr := BitVec.ofNat 24 (2 * m.xres.toNat * m.yres.toNat)

/-- The 144 bytes of MODESET (44_register_commands.md R186). -/
def modesetStream (p : Params) (m : ModeRegs) (split : Bool) : List Byte :=
  vlockBytes ++ setdepthBytes split ++ setbase16Bytes 0 ++ setbase8Bytes (modeBase8 m) ++ settimingBytes p m
    ++ blankBytes 0x00 ++ vunlockBytes

/-! ## Register-write requests -/

/-- The common body of a register write (44_register_commands.md R171, R172): a slot must be held, the whole command must
fit, nothing is split or padded. -/
def emitCommand (bytes : List Byte) (s : State) : Out :=
  if s.pool.held = none then raise s .noSlot
  else if s.room < bytes.length then raise s .full
  else succeed (s.emit bytes)

/-- REGW (44_register_commands.md R171). -/
def execRegw (reg val : Byte) (s : State) : Out := inSession s (emitCommand (regwBytes reg val) s)

/-- REGW16 (44_register_commands.md R172). -/
def execRegw16 (reg : Byte) (v : Half) (s : State) : Out := inSession s (emitCommand (regw16Bytes reg v) s)

/-- REGW16BE (44_register_commands.md R173). -/
def execRegw16be (reg : Byte) (v : Half) (s : State) : Out := inSession s (emitCommand (regw16beBytes reg v) s)

/-- REGWL (44_register_commands.md R176). -/
def execRegwl (reg : Byte) (n : Half) (s : State) : Out := inSession s (emitCommand (regwlBytes s.cfg.lfsrTaps reg n) s)

/-- VLOCK (44_register_commands.md R177). -/
def execVlock (s : State) : Out := inSession s (emitCommand vlockBytes s)

/-- VUNLOCK (44_register_commands.md R178). -/
def execVunlock (s : State) : Out := inSession s (emitCommand vunlockBytes s)

/-- SETDEPTH (44_register_commands.md R179); STATUS.SPLIT is not changed. -/
def execSetdepth (split : Bool) (s : State) : Out := inSession s (emitCommand (setdepthBytes split) s)

/-- SETBASE16 (44_register_commands.md R180); BASE16 is not changed. -/
def execSetbase16 (a : DevAddr) (s : State) : Out := inSession s (emitCommand (setbase16Bytes a) s)

/-- SETBASE8 (44_register_commands.md R181); BASE8 is not changed. -/
def execSetbase8 (a : DevAddr) (s : State) : Out := inSession s (emitCommand (setbase8Bytes a) s)

/-- SETTIMING (44_register_commands.md R182); the mode registers are not changed. -/
def execSettiming (xres yres pixclock left right upper lower hsync vsync : Word) (s : State) : Out :=
  inSession s <|
    if pixclock = 0 then raise s .badArg
    else emitCommand (settimingBytes s.cfg ⟨xres, yres, pixclock, left, right, upper, lower, hsync, vsync, 0⟩) s

/-- SETBLANK (44_register_commands.md R185). -/
def execSetblank (level : Byte) (s : State) : Out :=
  inSession s <|
    match blankValue level with
    | none => raise s .badArg
    | some b => emitCommand (blankBytes b) s

end Sys2Proof.Machine
end

