-- ==== Sys2Proof/Machine/ConfigOps.lean ====
section
/-!
DEFINITION. The configuration and session requests: CFGW, CFGR, MODESET, SETFB, SETCURSOR, ATTACH, DETACH (46_frame_loop.md,
43_cursor_blend.md R166).
-/

namespace Sys2Proof.Machine

/-- CFGW (46_frame_loop.md R231): STATUS bit 0 is write-1-to-clear, LINK bit 0 is written, every other offset is E_BADARG. -/
def execCfgw (off val : Word) (s : State) : Out :=
  inSession s <|
    if off = 0x000 then succeed (if val.getLsbD 0 then s.setFlag .lostPixels false else s)
    else if off = 0x008 then succeed (s.setDeviceActive (val.getLsbD 0))
    else raise s .badArg

/-- CFGR (46_frame_loop.md R232): before ATTACH only STATUS reads OK (10_state.md R46). -/
def execCfgr (off : Word) (s : State) : Out :=
  if s.flag .attached then
    match s.readReg off.toNat with
    | some v => finish s .ok (.value v)
    | none => finish s .badArg (.value 0)
  else if off = 0x000 then finish s .ok (.value 0)
  else finish s .inactive (.value 0)

/-! ## MODESET (46_frame_loop.md R233) -/

/-- Every operand of a mode is at most 0xFFFF (46_frame_loop.md R233). -/
def ModeRegs.inRange (m : ModeRegs) : Bool :=
  [m.xres, m.yres, m.pixclock, m.left, m.right, m.upper, m.lower, m.hsync, m.vsync, m.refresh].all
    fun v => decide (v.toNat ≤ 0xFFFF)

/-- The geometry checks of MODESET: non-zero sizes and period, every operand in range, and the channel regions within the
2^24 device bytes (46_frame_loop.md R233). -/
def ModeRegs.fits (m : ModeRegs) (split : Bool) : Bool :=
  !(decide (m.xres = 0) || decide (m.yres = 0) || decide (m.pixclock = 0)) && m.inRange
    && decide (2 * m.xres.toNat * m.yres.toNat ≤ 2 ^ 24)
    && (!split || decide (3 * m.xres.toNat * m.yres.toNat ≤ 2 ^ 24))

/-- The state that MODESET latches when its stream is accepted (46_frame_loop.md R233). -/
def State.latchMode (s : State) (m : ModeRegs) (split : Bool) : State :=
  ({ s with mode := m, base16 := 0, base8 := modeBase8 m }.setFlag .split split).setFlag .modeValid true

/-- MODESET from its acquire on: take a slot, emit the stream, submit it with its actual length, and latch the mode only when
it is accepted (46_frame_loop.md R233). -/
def modesetTake (m : ModeRegs) (split : Bool) (s : State) : Out :=
  let filled := s.takeSlot.emit (modesetStream s.cfg m split)
  match filled.pool.held with
  | some k =>
    let sent := filled.submitSlot k
    if filled.nextChoice then succeed (sent.latchMode m split) else raise sent .reject
  | none => raise filled .noSlot

/-- MODESET for a mode record. -/
def modesetRequest (m : ModeRegs) (split : Bool) (s : State) : Out :=
  inSession s <|
    if !s.deviceActive then raise s .inactive
    else if s.pool.held ≠ none then raise s .slotHeld
    else if !m.fits split then raise s .geometry
    else if s.pool.avail = 0 then .next (s.waitAt (.modeset m split))
    else modesetTake m split s

/-- MODESET (46_frame_loop.md R233). -/
def execModeset (xres yres pixclock left right upper lower hsync vsync refresh : Word) (split : Bool) (s : State) : Out :=
  modesetRequest ⟨xres, yres, pixclock, left, right, upper, lower, hsync, vsync, refresh⟩ split s

/-! ## SETFB (46_frame_loop.md R234) -/

/-- The framebuffer descriptor is taken and FB_VALID set, with the given backing switch and buffer (46_frame_loop.md R234). -/
def State.latchFb (s : State) (r : FbRegs) (backingEn : Bool) (backing : Buf) : State :=
  ({ s with fbReg := r, backing := backing }.setFlag .backingEn backingEn).setFlag .fbValid true

/-- SETFB (46_frame_loop.md R234, R235): the allocation outcome is a free choice, a failure changes nothing but the choice
used, and new backing bytes are unspecified under a fresh tag. -/
def execSetfb (pitch bpp vx vy width height : Word) (backingEn : Bool) (s : State) : Out :=
  inSession s <|
    if bpp ≠ 32 then raise s .badArg
    else if width = 0 ∨ height = 0 ∨ pitch.toNat < 4 * (vx.toNat + width.toNat) then raise s .badArg
    else
      let r : FbRegs := ⟨pitch, bpp, vx, vy, width, height⟩
      if backingEn then
        let drawn := s.afterDraw
        if s.nextChoice then
          succeed ({ drawn with drawCount := drawn.drawCount + 1 }.latchFb r true ⟨[], drawn.drawCount⟩)
        else raise drawn .geometry
      else succeed (s.latchFb r false ⟨[], 0⟩)

/-! ## SETCURSOR (43_cursor_blend.md R166) -/

/-- A u1 operand as a register value. -/
def wordOfBool (b : Bool) : Word := if b then 1 else 0

/-- SETCURSOR (43_cursor_blend.md R166): all cursor registers and CURPIX change together or not at all. -/
def execSetcursor (x y w h bpp : Word) (visible : Bool) (pix : List Word) (s : State) : Out :=
  inSession s <|
    if bpp ≠ 32 then raise s .badArg
    else if s.cfg.cursorMaxPixels < w.toNat * h.toNat ∨ pix.length ≠ w.toNat * h.toNat then raise s .badArg
    else succeed { s with cursor := ⟨x, y, w, h, 32, wordOfBool visible, pix⟩ }

/-! ## Session -/

/-- ATTACH (46_frame_loop.md R236). -/
def execAttach (s : State) : Out := if s.flag .attached then raise s .badArg else succeed s.createSession

/-- The end of a DETACH whose slots have all completed (46_frame_loop.md R237). -/
def detachDone (s : State) : Out := succeed s.destroySession

/-- DETACH (46_frame_loop.md R237): a held slot is released first, then the request holds until nothing is in flight. -/
def execDetach (s : State) : Out :=
  inSession s <|
    let released :=
      match s.pool.held with
      | some k => s.releaseSlot k
      | none => s
    if released.pool.inflight = 0 then detachDone released else .next (released.waitAt .detach)

end Sys2Proof.Machine
end

