-- ==== Sys2Proof/Machine/Encoder.lean ====
section
/-!
DEFINITION. The run-length encoder (42_run_encoder.md): EncodeRun as a pure function of the write pointer and the operands,
its commands as data, and the requests ENC16 and ENC8.
-/

namespace Sys2Proof.Machine

/-- One run command before it becomes bytes (30_encoding.md R94): `rep` is k, the length of `raw` is r. -/
structure RunCmd (α : Type) where
  addr : DevAddr
  raw : List α
  rep : Nat
deriving DecidableEq, Repr

/-- A channel: its byte width, its opcode and how one value goes on the wire (40_channel_split.md R126, 20_memory.md R69,
R70). -/
structure Channel (α : Type) where
  bpp : Nat
  op : Byte
  put : α → List Byte

/-- The 16-bit channel: `bpp = 2`, `P_OP16`. -/
def channel16 (p : Params) : Channel Half := ⟨2, p.op16, bytesBe16⟩

/-- The 8-bit channel: `bpp = 1`, `P_OP8`. -/
def channel8 (p : Params) : Channel Byte := ⟨1, p.op8, byte1⟩

/-- The bytes of a run command of a channel. -/
def RunCmd.bytes {α : Type} (ch : Channel α) (c : RunCmd α) : List Byte :=
  runBytes ch.op ch.put c.addr (BitVec.ofNat 8 c.rep) c.raw

/-- How many leading elements equal `v`. -/
def leadingEq {α : Type} [DecidableEq α] (v : α) : List α → Nat
  | [] => 0
  | w :: ws => if w = v then leadingEq v ws + 1 else 0

/-- The inner loop of EncodeRun (42_run_encoder.md R141, R142), from the value `v` that is appended as raw number `r + 1`:
the raw values, the repeat count, and the values left. -/
def rawSpan {α : Type} [DecidableEq α] (m capRaw : Nat) : Nat → α → List α → List α × Nat × List α
  | _, v, [] => ([v], 0, [])
  | r, v, w :: ws =>
    if w = v ∧ r + 1 < m then
      let k := min (leadingEq v (w :: ws)) (min 255 (m - (r + 1)))
      ([v], k, (w :: ws).drop k)
    else if r + 1 = capRaw then ([v], 0, w :: ws)
    else
      let (raw, k, rest) := rawSpan m capRaw (r + 1) w ws
      (v :: raw, k, rest)

/-- `cap_raw`: the raw values that fit (42_run_encoder.md R141). -/
def capRaw (p : Params) (bpp wptr : Nat) : Nat := min 255 (min p.maxCmdPixels ((p.slotBytes - wptr - 7) / bpp))

/-- What EncodeRun has done: its commands, the write pointer, the address and the values left. -/
structure Encoded (α : Type) where
  cmds : List (RunCmd α)
  wptr : Nat
  addr : DevAddr
  rest : List α
deriving DecidableEq, Repr

/-- The outer loop of EncodeRun (42_run_encoder.md R141): a command is started only with room for F bytes. Each command takes
at least one value, so the number of values is enough fuel (R144 item 4). -/
def encodeCmds {α : Type} [DecidableEq α] (p : Params) (bpp : Nat) : Nat → Nat → DevAddr → List α → Encoded α
  | 0, wptr, addr, vals => ⟨[], wptr, addr, vals⟩
  | _ + 1, wptr, addr, [] => ⟨[], wptr, addr, []⟩
  | fuel + 1, wptr, addr, v :: vs =>
    if p.slotBytes - wptr < p.minCmdBytes then ⟨[], wptr, addr, v :: vs⟩
    else
      let (raw, k, rest) := rawSpan p.maxCmdPixels (capRaw p bpp wptr) 0 v vs
      let e := encodeCmds p bpp fuel (wptr + 7 + raw.length * bpp) (addr + BitVec.ofNat 24 ((raw.length + k) * bpp)) rest
      ⟨⟨addr, raw, k⟩ :: e.cmds, e.wptr, e.addr, e.rest⟩

/-- The results of EncodeRun (42_run_encoder.md R141): the bytes written from WPTR on, pad bytes included (R143), and
`(i', addr', full)`. -/
structure RunResult where
  bytes : List Byte
  i : Nat
  addr : DevAddr
  full : Bool
deriving DecidableEq, Repr

/-- EncodeRun(bpp, op, vals, i, addr) at write pointer `wptr` (42_run_encoder.md R141, R143). -/
def encodeRun {α : Type} [DecidableEq α] (p : Params) (ch : Channel α) (wptr : Nat) (vals : List α) (i : Nat)
    (addr : DevAddr) : RunResult :=
  let todo := vals.drop i
  let e := encodeCmds p ch.bpp todo.length wptr addr todo
  let full := decide (p.slotBytes - e.wptr < p.minCmdBytes)
  ⟨e.cmds.flatMap (RunCmd.bytes ch) ++ (if full then padBytes (p.slotBytes - e.wptr) else []),
    vals.length - e.rest.length, e.addr, full⟩

/-- The results of ENC16 and ENC8 (30_encoding.md R91). -/
def RunResult.result (r : RunResult) : Result := .enc (BitVec.ofNat 32 r.i) r.addr r.full

/-- The shared body of ENC16 and ENC8 (42_run_encoder.md R140, R145). -/
def encodeRequest {α : Type} [DecidableEq α] (ch : Channel α) (vals : List α) (i : Word) (addr : DevAddr) (s : State) : Out :=
  inSession s <|
    if s.pool.held = none then raise s .noSlot
    else if vals.length < i.toNat then raise s .badArg
    else
      let r := encodeRun s.cfg ch s.pool.wptr.toNat vals i.toNat addr
      finish (s.emit r.bytes) .ok r.result

/-- ENC16 (42_run_encoder.md R140). -/
def execEnc16 (vals : List Half) (i : Word) (addr : DevAddr) (s : State) : Out :=
  encodeRequest (channel16 s.cfg) vals i addr s

/-- ENC8 (42_run_encoder.md R145). -/
def execEnc8 (vals : List Byte) (i : Word) (addr : DevAddr) (s : State) : Out :=
  encodeRequest (channel8 s.cfg) vals i addr s

end Sys2Proof.Machine
end

