-- ==== Sys2Proof/Machine/Frame.lean ====
section
/-!
DEFINITION. The scanline driver and frame loop (46_frame_loop.md): RENDER_FRAME and FILL_FRAME as a computation that runs from
one wait point to the next (20_memory.md R75), its local variables kept in `FrameCtx` while it waits.
-/

namespace Sys2Proof.Machine

/-! ## One line up to the split (46_frame_loop.md R222) -/

/-- The pixels of columns `x0 .. x1-1` of line `y` from the source (46_frame_loop.md R221). -/
def sourcePixels (s : State) (f : FrameCtx) : List Word :=
  (List.range (f.x1 - f.x0)).map fun j =>
    match f.source with
    | .framebuffer snapshot => Memory.readPixel snapshot .hostFb (s.pixelOffset (f.x0 + j) f.y)
    | .fill color => color

/-- The line after the cursor: composited in RENDER_FRAME, untouched in FILL_FRAME (43_cursor_blend.md R165). -/
def linePixels (s : State) (f : FrameCtx) : List Word :=
  match f.source with
  | .framebuffer _ => s.cursor.blendLine f.y f.x0 (sourcePixels s f)
  | .fill _ => sourcePixels s f

/-- The bytes of the line, `front` in 46_frame_loop.md R222. -/
def lineBytes (s : State) (f : FrameCtx) : List Byte := (linePixels s f).flatMap bytesLe32

/-- The backing bytes of the line's segment. -/
def backingLine (s : State) (f : FrameCtx) : List Byte :=
  s.backing.readList (s.pixelOffset f.x0 f.y) (4 * (f.x1 - f.x0))

/-- The whole segment, used where no differencing applies (41_frame_diff.md R136). -/
def wholeSegment (f : FrameCtx) : Narrowed := ⟨0, 4 * (f.x1 - f.x0), 0⟩

/-- The narrowed range of the line (46_frame_loop.md R222). -/
def lineRange (s : State) (f : FrameCtx) : Narrowed :=
  match f.source with
  | .framebuffer _ =>
    if s.flag .backingEn then narrow s.cfg.wordBytes (lineBytes s f) (backingLine s f) else wholeSegment f
  | .fill _ => wholeSegment f

/-- WORK holds the line, and CNT_RENDERED and CNT_IDENTICAL count it (46_frame_loop.md R222). -/
def State.countLine (s : State) (f : FrameCtx) : State :=
  let counted := { s with line := { s.line with base := f.x0, work := linePixels s f } }.countRendered (4 * (f.x1 - f.x0))
  match f.source with
  | .framebuffer _ => if s.flag .backingEn then counted.countIdentical (lineRange s f).ident else counted
  | .fill _ => counted

/-- FILL_FRAME's backing bytes of a visible line: the colour in every column below min(X, FB_WIDTH) (46_frame_loop.md R227). -/
def fillBacking (s : State) (f : FrameCtx) (color : Word) : Buf :=
  s.backing.storeList (s.pixelOffset 0 f.y)
    ((List.replicate (min s.mode.xres.toNat s.fbReg.width.toNat) color).flatMap bytesLe32)

/-- The backing buffer after the line: the narrowed bytes (41_frame_diff.md R134), or the colour (46_frame_loop.md R227). -/
def nextBacking (s : State) (f : FrameCtx) : Buf :=
  if s.flag .backingEn then
    match f.source with
    | .framebuffer _ =>
      let range := lineRange s f
      s.backing.storeList (s.pixelOffset f.x0 f.y + range.start) (((lineBytes s f).drop range.start).take range.len)
    | .fill color => if f.y < s.fbReg.height.toNat then fillBacking s f color else s.backing
  else s.backing

/-- `p0`, the first narrowed display column (46_frame_loop.md R222). -/
def firstColumn (f : FrameCtx) (range : Narrowed) : Nat := f.x0 + range.start / 4

/-- The narrowed pixels of WORK (40_channel_split.md R125). -/
def narrowedPixels (s : State) (f : FrameCtx) : List Word :=
  ((linePixels s f).drop ((lineRange s f).start / 4)).take ((lineRange s f).len / 4)

/-- Split the narrowed pixels into SCR16 and, in split mode, SCR8 (40_channel_split.md R124, R125). -/
def splitLine (s : State) (f : FrameCtx) : LineBufs where
  base := f.x0
  work := linePixels s f
  scr16 := (narrowedPixels s f).map split16
  scr8 := if s.flag .split then (narrowedPixels s f).map split8 else s.line.scr8

/-- A line whose narrowed range is not empty, ready for the encoder: counted, backed and split. -/
def State.prepareLine (s : State) (f : FrameCtx) : State :=
  { s.countLine f with backing := nextBacking s f, line := splitLine s f }

/-! ## Slots inside a frame (46_frame_loop.md R224, R225) -/

/-- SubmitF: SUBMIT's body; a rejection does not end the frame (46_frame_loop.md R225, R229). -/
def State.submitF (s : State) : State :=
  match s.pool.held with
  | some k => s.submitSlot k
  | none => s

/-- EndOfFrame and the end of the request (46_frame_loop.md R225, R226): a filled slot is submitted with its actual length, an
empty one released; CNT_CPU grows by a free increment; FRAME_BUSY falls; the request returns OK. -/
def endOfFrame (s : State) : Out :=
  let closed :=
    match s.pool.held with
    | some k => if s.pool.wptr ≠ 0 then s.submitSlot k else s.releaseSlot k
    | none => s
  succeed ((closed.afterDraw.countCpu closed.nextDraw).setFlag .frameBusy false)

/-- How a stretch of encoding ends: the channel is done, AcquireF must wait with the run cursor and address reached, or no
fresh slot can ever take a command. -/
inductive ChannelEnd where
  | done (s : State)
  | wait (s : State) (i : Nat) (addr : DevAddr)
  | stuck
deriving DecidableEq, Repr

/-- EncodeChannel from run cursor `i` (46_frame_loop.md R224) until it is done or must wait. A fresh slot takes at least one
value, so `vals.length - i + 2` rounds are enough; a round more means that none ever does. -/
def encodeChannel {α : Type} [DecidableEq α] (ch : Channel α) (vals : List α) : Nat → Nat → DevAddr → State → ChannelEnd
  | 0, _, _, _ => .stuck
  | fuel + 1, i, addr, s =>
    let r := encodeRun s.cfg ch s.pool.wptr.toNat vals i addr
    let written := s.emit r.bytes
    if r.full then
      let sent := written.submitF
      if sent.pool.avail = 0 then .wait sent r.i r.addr
      else if r.i = vals.length then .done sent.takeSlot
      else encodeChannel ch vals fuel r.i r.addr sent.takeSlot
    else .done written

/-- How a line ends: done, waiting inside a channel, or stuck. -/
inductive LineEnd where
  | done (s : State)
  | wait (s : State) (phase : FramePhase)
  | stuck
deriving DecidableEq, Repr

/-- The 8-bit channel of a line from run cursor `i` (46_frame_loop.md R222). -/
def runChannel8 (p0 i : Nat) (addr : DevAddr) (s : State) : LineEnd :=
  match encodeChannel (channel8 s.cfg) s.line.scr8 (s.line.scr8.length - i + 2) i addr s with
  | .done t => .done t
  | .wait t j a => .wait t (.chan8 p0 j a)
  | .stuck => .stuck

/-- After the 16-bit channel: the 8-bit channel in split mode, nothing in legacy mode (40_channel_split.md R124). -/
def afterChannel16 (p0 y : Nat) (s : State) : LineEnd :=
  if s.flag .split then runChannel8 p0 0 (s.a8 p0 y) s else .done s

/-- The 16-bit channel of a line from run cursor `i`, and what follows it (46_frame_loop.md R222). -/
def runChannel16 (p0 y i : Nat) (addr : DevAddr) (s : State) : LineEnd :=
  match encodeChannel (channel16 s.cfg) s.line.scr16 (s.line.scr16.length - i + 2) i addr s with
  | .done t => afterChannel16 p0 y t
  | .wait t j a => .wait t (.chan16 p0 j a)
  | .stuck => .stuck

/-- ProcessLine (46_frame_loop.md R222): a line with an empty narrowed range is elided. -/
def processLine (f : FrameCtx) (s : State) : LineEnd :=
  if (lineRange s f).len = 0 then .done (s.countLine f)
  else
    let p0 := firstColumn f (lineRange s f)
    let ready := s.prepareLine f
    runChannel16 p0 f.y 0 (ready.a16 p0 f.y) ready

/-! ## The loop over lines -/

/-- FrameLoop over the `n` lines that are left, from line `f.y` (46_frame_loop.md R222). A line that starts without a held
slot acquires one first; a successful acquire sets t to 0 (R225). -/
def runLines : Nat → FrameCtx → State → Out
  | 0, _, s => endOfFrame s
  | n + 1, f, s =>
    if s.pool.held = none ∧ s.pool.avail = 0 then .next (s.waitAt (.frame { f with phase := .line }))
    else
      let ready := if s.pool.held = none then s.takeSlot else s
      let g := if s.pool.held = none then { f with t := 0 } else f
      match processLine g ready with
      | .done t => runLines n { g with y := g.y + 1 } t
      | .wait t phase => .next (t.waitAt (.frame { g with phase := phase }))
      | .stuck => .fault .encoderStuck

/-- Go on with the lines after the one that has just ended. -/
def nextLines (f : FrameCtx) (s : State) : Out := runLines (f.yEnd - (f.y + 1)) { f with y := f.y + 1, phase := .line } s

/-- Go on after a line that waited inside a channel. -/
def afterLine (f : FrameCtx) : LineEnd → Out
  | .done t => nextLines f t
  | .wait t phase => .next (t.waitAt (.frame { f with phase := phase }))
  | .stuck => .fault .encoderStuck

/-- A frame operation continues because AVAIL > 0 has become true (45_slot_pool.md R200 a): the slot is taken, t is 0, and the
run goes on from where it stopped (42_run_encoder.md R151). -/
def resumeFrame (f : FrameCtx) (s : State) : Out :=
  let g := { f with t := 0 }
  match f.phase with
  | .line => runLines (f.yEnd - f.y) f s
  | .chan16 p0 i addr =>
    let ready := s.takeSlot
    if i = ready.line.scr16.length then afterLine g (afterChannel16 p0 f.y ready)
    else afterLine g (runChannel16 p0 f.y i addr ready)
  | .chan8 p0 i addr =>
    let ready := s.takeSlot
    if i = ready.line.scr8.length then afterLine g (.done ready)
    else afterLine g (runChannel8 p0 i addr ready)

/-- The acquire timeout inside a frame (46_frame_loop.md R222, R228): LOST_PIXELS is set, the rest of the line is lost, and the
second timeout in a row abandons the frame. -/
def timeoutFrame (f : FrameCtx) (s : State) : Out :=
  let lost := s.setFlag .lostPixels true
  if f.t + 1 = 2 then endOfFrame lost else nextLines { f with t := f.t + 1 } lost

/-- FrameLoop from its first line (46_frame_loop.md R222). -/
def frameLoop (source : FrameSource) (x0 x1 y0 y1 : Nat) (s : State) : Out :=
  runLines (y1 - y0) ⟨source, x0, x1, y0, y1, 0, .line⟩ (s.setFlag .frameBusy true)

/-! ## The requests -/

/-- The visible width min(X, FB_WIDTH) (46_frame_loop.md R220). -/
def State.visibleWidth (s : State) : Nat := min s.mode.xres.toNat s.fbReg.width.toNat

/-- The visible height min(Y, FB_HEIGHT) (46_frame_loop.md R220). -/
def State.visibleHeight (s : State) : Nat := min s.mode.yres.toNat s.fbReg.height.toNat

/-- RENDER_FRAME (46_frame_loop.md R220). FB is captured as it stands now (20_memory.md R63). -/
def execRenderFrame (x y w h : Word) (s : State) : Out :=
  inSession s <|
    if !s.deviceActive then raise s .inactive
    else if !(s.flag .modeValid && s.flag .fbValid) then raise s .noMode
    else if s.pool.held ≠ none then raise s .slotHeld
    else
      let x0 := min x.toNat s.visibleWidth
      let x1 := min (x.toNat + w.toNat) s.visibleWidth
      let y0 := min y.toNat s.visibleHeight
      let y1 := min (y.toNat + h.toNat) s.visibleHeight
      if x0 = x1 ∨ y0 = y1 then succeed s else frameLoop (.framebuffer s.hostFb) x0 x1 y0 y1 s

/-- FILL_FRAME (46_frame_loop.md R227). -/
def execFillFrame (color : Word) (s : State) : Out :=
  inSession s <|
    if !s.deviceActive then raise s .inactive
    else if !s.flag .modeValid then raise s .noMode
    else if s.pool.held ≠ none then raise s .slotHeld
    else frameLoop (.fill color) 0 s.mode.xres.toNat 0 s.mode.yres.toNat s

end Sys2Proof.Machine
end

