-- ==== Sys2Proof/Machine/Pixel.lean ====
section
/-!
DEFINITION. The pure datapath requests: SPLIT, DIFF, BLENDPIX, BLENDLINE, LFSR16. They write no state; even so the session
check of 60_exceptions.md R252 applies to them.
-/

namespace Sys2Proof.Machine

/-- SPLIT (40_channel_split.md R120). -/
def execSplit (v : Word) (s : State) : Out :=
  inSession s (finish s .ok (.split (split16 v) (split8 v)))

/-- A narrowed range as the u32 results of DIFF. -/
def Narrowed.result (n : Narrowed) : Result :=
  .diff (BitVec.ofNat 32 n.start) (BitVec.ofNat 32 n.len) (BitVec.ofNat 32 n.ident)

/-- DIFF (41_frame_diff.md R130). -/
def execDiff (front back : List Byte) (s : State) : Out :=
  inSession s <|
    if front.length ≠ back.length then raise s .badArg
    else finish s .ok (narrow s.cfg.wordBytes front back).result

/-- BLENDPIX (43_cursor_blend.md R160). -/
def execBlendpix (src cur : Word) (s : State) : Out :=
  inSession s (finish s .ok (.pixel (blendPixel src cur)))

/-- BLENDLINE (43_cursor_blend.md R161). -/
def execBlendline (y x0 : Word) (pix : List Word) (s : State) : Out :=
  inSession s (finish s .ok (.pixels (s.cursor.blendLine y.toNat x0.toNat pix)))

/-- LFSR16 (44_register_commands.md R174). -/
def execLfsr16 (n : Half) (s : State) : Out :=
  inSession s (finish s .ok (.lfsr (lfsr16 s.cfg.lfsrTaps n)))

end Sys2Proof.Machine
end

