-- ==== Sys2Proof/Machine/PoolOps.lean ====
section
/-!
DEFINITION. The slot-pool requests (45_slot_pool.md): ACQUIRE, SUBMIT, RELEASE and TRANSPORT's COMPLETE.
-/

namespace Sys2Proof.Machine

/-- TAKE and the end of an ACQUIRE (45_slot_pool.md R200). -/
def acquireTake (s : State) : Out := succeed s.takeSlot

/-- The acquire timeout: LOST_PIXELS is set and the request ends with E_TIMEOUT (45_slot_pool.md R200, R201). -/
def acquireTimeout (s : State) : Out := raise (s.setFlag .lostPixels true) .timeout

/-- ACQUIRE (45_slot_pool.md R200): with no free slot the request holds at its wait point. -/
def execAcquire (s : State) : Out :=
  inSession s <|
    if s.pool.held ≠ none then raise s .slotHeld
    else if s.pool.avail = 0 then .next (s.waitAt .acquire)
    else acquireTake s

/-- The status of a SUBMIT with a given outcome (45_slot_pool.md R204). -/
def submitStatus (accept : Bool) : StatusCode := if accept then .ok else .reject

/-- SUBMIT (45_slot_pool.md R204); an empty slot stays held. -/
def execSubmit (s : State) : Out :=
  inSession s <|
    match s.pool.held with
    | none => raise s .noSlot
    | some k => if s.pool.wptr = 0 then raise s .badArg else finish (s.submitSlot k) (submitStatus s.nextChoice) .none

/-- RELEASE (45_slot_pool.md R206). -/
def execRelease (s : State) : Out :=
  inSession s <|
    match s.pool.held with
    | none => raise s .noSlot
    | some k => succeed (s.releaseSlot k)

/-- COMPLETE (45_slot_pool.md R205), TRANSPORT's step: HOST receives nothing. Without a session it changes nothing
(60_exceptions.md R252, log entry 14). -/
def execComplete (k : Nat) (s : State) : Out :=
  if s.flag .attached then .next (s.completeSlot k) else .next s

end Sys2Proof.Machine
end

