-- ==== Sys2Proof/Machine/Wire.lean ====
section
/-!
DEFINITION. The wire commands (30_encoding.md R94 to R96) as the reference reader takes them: the items of the reference
decoder (42_run_encoder.md R147) and the effect the spec gives each on device memory and device registers (R95, R146).
-/

namespace Sys2Proof.Machine

/-- The channel values a run command stands for (42_run_encoder.md R146). -/
def runValues {α : Type} (raw : List α) (rep : Nat) : List α :=
  match raw.getLast? with
  | some last => raw ++ List.replicate rep last
  | none => []

/-- The two bytes of a 16-bit value in device memory, in the order the spec leaves open (log entry 13). -/
def deviceBytes16 (v : Half) : List Byte :=
  if Config.deviceHighByteFirst then bytesBe16 v else bytesLe16 v

/-- Bytes into device memory from a 24-bit address on, each address mod 2^24 (20_memory.md R67). -/
def storeDevice : Memory → DevAddr → List Byte → Memory
  | m, _, [] => m
  | m, a, v :: vs => storeDevice (Memory.store m a.toNat v) (a + 1) vs

/-- The reader takes an item. -/
def State.takeItem (s : State) (item : WireItem) : State :=
  { s with device := { s.device with items := s.device.items ++ [item] } }

/-- Bytes of a run into device memory. -/
def State.storeRun (s : State) (addr : DevAddr) (bytes : List Byte) : State :=
  { s with device := { s.device with mem := storeDevice s.device.mem addr bytes } }

/-- A run command carries 1 to 255 raw values (30_encoding.md R97). -/
def rawCountOk (n : Nat) : Bool := decide (1 ≤ n) && decide (n ≤ 255)

/-- The item of a wire command, where the reference decoder takes it (42_run_encoder.md R147). -/
def wireItem : Instr → Option WireItem
  | .wRun16 addr rep raw => if rawCountOk raw.length then some (.run16 addr (runValues raw rep.toNat)) else none
  | .wRun8 addr rep raw => if rawCountOk raw.length then some (.run8 addr (runValues raw rep.toNat)) else none
  | .wRegw reg val => some (.regw reg val)
  | .wPad n => some (.pad n)
  | _ => none

/-- DecodeSlot (42_run_encoder.md R147): the items of a slot's declared bytes, or none where the decoder rejects them. -/
def decodeItems (p : Params) : Nat → List Byte → Option (List WireItem)
  | _, [] => some []
  | 0, _ :: _ => none
  | fuel + 1, b :: bs =>
    if b = 0xAF then
      match decodeWire p bs with
      | .ok (i, rest) =>
        match wireItem i, decodeItems p fuel rest with
        | some item, some items => some (item :: items)
        | _, _ => none
      | .error _ => none
    else none

/-- DecodeSlot(b, len) (42_run_encoder.md R147). -/
def decodeSlot (p : Params) (b : List Byte) : Option (List WireItem) := decodeItems p b.length b

/-- W_RUN16: its values go to consecutive device addresses, 2 apart (30_encoding.md R94, 42_run_encoder.md R146). A raw count
of 0 is rejected (R147). -/
def execWRun16 (addr : DevAddr) (rep : Byte) (raw : List Half) (s : State) : Out :=
  if rawCountOk raw.length then
    let vals := runValues raw rep.toNat
    .next ((s.takeItem (.run16 addr vals)).storeRun addr (vals.flatMap deviceBytes16))
  else .refused .wireRejected

/-- W_RUN8: its values go to consecutive device addresses, 1 apart (30_encoding.md R94, 42_run_encoder.md R146). -/
def execWRun8 (addr : DevAddr) (rep : Byte) (raw : List Byte) (s : State) : Out :=
  if rawCountOk raw.length then
    let vals := runValues raw rep.toNat
    .next ((s.takeItem (.run8 addr vals)).storeRun addr vals)
  else .refused .wireRejected

/-- W_REGW: device register `reg` is set to `val` (30_encoding.md R95). -/
def execWRegw (reg val : Byte) (s : State) : Out :=
  let taken := s.takeItem (.regw reg val)
  .next { taken with device := { taken.device with regs := Memory.store s.device.regs reg.toNat val } }

/-- W_PAD carries no command (30_encoding.md R96): the reader passes over it. -/
def execWPad (n : Nat) (s : State) : Out := .next (s.takeItem (.pad n))

end Sys2Proof.Machine
end

