-- ==== Sys2Proof/Machine/Dispatch.lean ====
section
/-!
DEFINITION. One arm per instruction: the meaning each one has.
-/

namespace Sys2Proof.Machine

def exec (i : Instr) (s : State) : Host.Outcome State Fault Refusal :=
  match i with
  | .split v => Sys2Proof.Machine.execSplit v s
  | .diff front back => Sys2Proof.Machine.execDiff front back s
  | .blendpix src cur => Sys2Proof.Machine.execBlendpix src cur s
  | .blendline y x0 pix => Sys2Proof.Machine.execBlendline y x0 pix s
  | .lfsr16 n => Sys2Proof.Machine.execLfsr16 n s
  | .enc16 vals k addr => Sys2Proof.Machine.execEnc16 vals k addr s
  | .enc8 vals k addr => Sys2Proof.Machine.execEnc8 vals k addr s
  | .regw reg val => Sys2Proof.Machine.execRegw reg val s
  | .regw16 reg v => Sys2Proof.Machine.execRegw16 reg v s
  | .regw16be reg v => Sys2Proof.Machine.execRegw16be reg v s
  | .regwl reg n => Sys2Proof.Machine.execRegwl reg n s
  | .vlock => Sys2Proof.Machine.execVlock s
  | .vunlock => Sys2Proof.Machine.execVunlock s
  | .setdepth split => Sys2Proof.Machine.execSetdepth split s
  | .setbase16 a => Sys2Proof.Machine.execSetbase16 a s
  | .setbase8 a => Sys2Proof.Machine.execSetbase8 a s
  | .settiming xres yres pixclock left right upper lower hsync vsync => Sys2Proof.Machine.execSettiming xres yres pixclock left right upper lower hsync vsync s
  | .setblank level => Sys2Proof.Machine.execSetblank level s
  | .acquire => Sys2Proof.Machine.execAcquire s
  | .submit => Sys2Proof.Machine.execSubmit s
  | .release => Sys2Proof.Machine.execRelease s
  | .complete k => Sys2Proof.Machine.execComplete k s
  | .renderFrame x y w h => Sys2Proof.Machine.execRenderFrame x y w h s
  | .fillFrame color => Sys2Proof.Machine.execFillFrame color s
  | .cfgw off val => Sys2Proof.Machine.execCfgw off val s
  | .cfgr off => Sys2Proof.Machine.execCfgr off s
  | .modeset xres yres pixclock left right upper lower hsync vsync refresh split => Sys2Proof.Machine.execModeset xres yres pixclock left right upper lower hsync vsync refresh split s
  | .setfb pitch bpp vx vy width height backingEn => Sys2Proof.Machine.execSetfb pitch bpp vx vy width height backingEn s
  | .setcursor x y w h bpp visible pix => Sys2Proof.Machine.execSetcursor x y w h bpp visible pix s
  | .attach => Sys2Proof.Machine.execAttach s
  | .detach => Sys2Proof.Machine.execDetach s
  | .wRun16 addr rep raw => Sys2Proof.Machine.execWRun16 addr rep raw s
  | .wRun8 addr rep raw => Sys2Proof.Machine.execWRun8 addr rep raw s
  | .wRegw reg val => Sys2Proof.Machine.execWRegw reg val s
  | .wPad n => Sys2Proof.Machine.execWPad n s

end Sys2Proof.Machine
end

