-- ==== Sys2Proof/Machine/Agents.lean ====
section
/-!
DEFINITION. What each agent's step does (20_memory.md R75): taking and running a record, continuing a waiting request, the
acquire timeout, HOST's and TRANSPORT's steps; and where a record must stand to be run next.
-/

namespace Sys2Proof.Machine

/-! ## Records -/

/-- PRODUCER takes a HOST request, or TRANSPORT issues a request: it is decoded and run. A record that is no instruction, or
whose instruction this agent may not issue, sets REFUSED and has no other effect (30_encoding.md R92, 60_exceptions.md R256).
DESIGN CHOICE (log entry 11): R92 and R256 do not say when; a HOST request is refused when PRODUCER takes it, so behind a waiting
request REFUSED is not set yet. -/
def runRequest (agent : Agent) (record : List Byte) (s : State) : Out :=
  match decode s.cfg record with
  | .ok i => if i.agent = agent then exec i s else .next s.markRefused
  | .error _ => .next s.markRefused

/-- The device's reader takes one wire command; bytes that are none are rejected (42_run_encoder.md R147). -/
def runCommand (command : List Byte) (s : State) : Out :=
  match decode s.cfg command with
  | .ok i => if i.agent = .device then exec i s else .refused .wireRejected
  | .error _ => .refused .wireRejected

/-! ## PRODUCER -/

/-- A waiting request goes on when its condition holds, and makes no step before (00_scope.md R11 `hold until`). -/
def resume : Pending → State → Out
  | .acquire, s => if s.pool.avail = 0 then .next s else acquireTake s
  | .modeset m split, s => if s.pool.avail = 0 then .next s else modesetTake m split s
  | .detach, s => if s.pool.inflight = 0 then detachDone s else .next s
  | .frame f, s => if s.pool.avail = 0 then .next s else resumeFrame f s

/-- PRODUCER's step: the waiting request, else the oldest request of the queue, else nothing (10_state.md R21, R22). -/
def producerStep (s : State) : Out :=
  match s.pending with
  | some p => resume p s
  | none =>
    match s.queue with
    | [] => .next s
    | record :: rest => runRequest .host record { s with queue := rest }

/-- The acquire timeout, possible only while an ACQUIRE waits with AVAIL = 0 (45_slot_pool.md R201); otherwise no step. -/
def timeoutStep (s : State) : Out :=
  if s.pool.avail = 0 then
    match s.pending with
    | some .acquire => acquireTimeout s
    | some (.modeset _ _) => acquireTimeout s
    | some (.frame f) => timeoutFrame f s
    | some .detach => .next s
    | none => .next s
  else .next s

/-! ## The step of a move -/

/-- The step of the agent a move names (20_memory.md R75). -/
def moveStep : Move → State → Out
  | .producer, s => producerStep s
  | .issue record, s => .next { s with queue := s.queue ++ [record] }
  | .hostWrite off bytes, s => .next { s with hostFb := Memory.storeList s.hostFb off bytes }
  | .timeout, s => timeoutStep s
  | .transport record, s => runRequest .transport record s
  | .device command, s => runCommand command s

/-- The lowest-numbered slot in flight. -/
def Pool.firstInflight (p : Pool) : Option Nat := p.slots.findIdx? fun slot => slot.state = .inflight

/-- The move that comes next: the first one listed. With none listed TRANSPORT pays what it owes, one COMPLETE for each slot in
flight, and then PRODUCER goes on: so every accepted slot is completed after finitely many steps (45_slot_pool.md R208). The order
of these last completions is a DESIGN CHOICE (log entries 8 and 19). -/
def State.nextMove (s : State) : Move :=
  match s.moves with
  | m :: _ => m
  | [] =>
    match s.pool.firstInflight with
    | some k => .transport (encode s.cfg (.complete k))
    | none => .producer

/-- The state with that move taken off the list. -/
def State.popMove (s : State) : State := { s with moves := s.moves.tail }

/-- A step ends with the pool check of 10_state.md R38. -/
def checked : Out → Out
  | .next t => .next t.checkPool
  | .fault f => .fault f
  | .refused r => .refused r

/-- One step: a configuration that breaks 00_scope.md R7 is refused (60_exceptions.md R256); otherwise the next move's agent
makes its step. -/
def oneStep (s : State) : Out :=
  if s.cfg.Valid then checked (moveStep s.nextMove s.popMove) else .next s.markRefused

/-! ## Placing a record -/

/-- Place a record so that the very next step runs it: a HOST request at the head of the queue with PRODUCER free and moving
next, a COMPLETE as TRANSPORT's next move, a wire command as the reader's (log entry 7). -/
def State.placeRecord (s : State) (record : List Byte) : State :=
  let agent :=
    match decode s.cfg record with
    | .ok i => i.agent
    | .error _ => .host
  match agent with
  | .host => { s with pending := none, queue := record :: s.queue, moves := .producer :: s.moves }
  | .transport => { s with moves := .transport record :: s.moves }
  | .device => { s with moves := .device record :: s.moves }

end Sys2Proof.Machine
end

