-- ==== Sys2Proof/Machine/Step.lean ====
section
/-!
DEFINITION. The step of the machine, and where an instruction's bits are stored for the next step to run it.
-/

namespace Sys2Proof.Machine

/-- One atomic step of one agent (20_memory.md R75, R79). -/
def step : State → Host.Outcome State Fault Refusal := oneStep

/-- The state in which the next step runs the instruction that a number of spec/opcode_table.json stands for. It stands for
HOST issuing that request now, TRANSPORT performing that COMPLETE, or the reader being handed that command (log entry 7). -/
def State.withFetchWord (s : State) (nbits w : Nat) : State := s.placeRecord (tableRecord s.cfg nbits w)

end Sys2Proof.Machine
end

