-- ==== Sys2Proof/Safety.lean ====
section
/-!
DEFINITION. What a good run is, in the words claims use: the marks, the invariants the spec gives the state, and what it means
that a request only wrote the held slot.
-/

namespace Sys2Proof.Machine

/-- The premise of every claim about a run: REFUSED is false and FAULTS is empty (10_state.md R43). -/
def State.unmarked (s : State) : Prop := s.marks = Marks.clear

/-! ## Slots -/

/-- A byte of a slot's buffer. -/
def Slot.byte (slot : Slot) (a : Nat) : Byte := Memory.read slot.buf.cells (.buffer slot.buf.tag) a

/-- The bytes of slot `k` from `a` on are `bytes`, and every other byte of it, its length and its state are those of `old`. -/
structure Slot.Rewritten (old new : Slot) (a : Nat) (bytes : List Byte) : Prop where
  written : ∀ j, (h : j < bytes.length) → new.byte (a + j) = bytes[j]
  kept : ∀ b, (b < a ∨ a + bytes.length ≤ b) → new.byte b = old.byte b
  len : new.len = old.len
  state : new.state = old.state

/-- The pool after bytes were emitted into the held slot `k` at WPTR (45_slot_pool.md R207): WPTR has advanced by their count,
slot `k` holds them there, every other byte of every slot and every other part of the pool is as before. -/
structure Pool.Emitted (old new : Pool) (k : Nat) (bytes : List Byte) : Prop where
  wptr : new.wptr = old.wptr + BitVec.ofNat 32 bytes.length
  held : new.held = old.held
  freeq : new.freeq = old.freeq
  avail : new.avail = old.avail
  slotCount : new.slots.length = old.slots.length
  others : ∀ j, j ≠ k → new.slots[j]? = old.slots[j]?
  slot : ∃ before after, old.slots[k]? = some before ∧ new.slots[k]? = some after ∧
    Slot.Rewritten before after old.wptr.toNat bytes

/-- A request that ends with a status and results and leaves everything but the pool, the replies and the wait as it was. -/
def State.RepliedWithPool (s t : State) (p : Pool) (status : StatusCode) (result : Result) : Prop :=
  t = { s with pool := p, replies := s.replies ++ [⟨status, result⟩], pending := none }

/-- A request that ends with a status and results and changes nothing else. -/
def State.replied (s : State) (status : StatusCode) (result : Result) : State :=
  { s with replies := s.replies ++ [⟨status, result⟩], pending := none }

/-- The first byte of an instruction's bytes: the request code of 30_encoding.md R91. -/
def HasCode (i : Instr) (code : Byte) : Prop := ∀ p, (encode p i).head? = some code

/-- What every register-write request does with the command bytes it emits (44_register_commands.md R171, R172): with no held
slot it ends with E_NOSLOT; where the bytes do not fit it ends with E_FULL and writes nothing; otherwise they go into the held
slot at WPTR and it ends with OK. Nothing else changes. -/
def WritesRegisters (i : Instr) (bytes : State → List Byte) : Prop :=
  ∀ s : State, s.flag .attached = true →
    (s.pool.held = none → exec i s = .next (s.replied .noSlot .none)) ∧
    (s.pool.held ≠ none → s.cfg.slotBytes < s.pool.wptr.toNat + (bytes s).length → exec i s = .next (s.replied .full .none)) ∧
    (∀ k slot, s.pool.held = some k → s.pool.slots[k]? = some slot →
      s.pool.wptr.toNat + (bytes s).length ≤ s.cfg.slotBytes →
      ∃ t p, exec i s = .next t ∧ s.RepliedWithPool t p .ok .none ∧ Pool.Emitted s.pool p k (bytes s))

/-- A byte of BACKING. -/
def State.backingByte (s : State) (a : Nat) : Byte := Memory.read s.backing.cells (.buffer s.backing.tag) a

/-- The modes that MODESET turns away with E_GEOMETRY: a zero size or period, an operand above 0xFFFF, or channel regions that do
not fit into the 2^24 device bytes (46_frame_loop.md R233). -/
def ModeRegs.Rejected (m : ModeRegs) (split : Bool) : Prop :=
  m.xres = 0 ∨ m.yres = 0 ∨ m.pixclock = 0 ∨
  (∃ v ∈ [m.xres, m.yres, m.pixclock, m.left, m.right, m.upper, m.lower, m.hsync, m.vsync, m.refresh], 0xFFFF < v.toNat) ∨
  2 ^ 24 < 2 * m.xres.toNat * m.yres.toNat ∨ (split = true ∧ 2 ^ 24 < 3 * m.xres.toNat * m.yres.toNat)

/-- The parts of the state that no frame operation changes (46_frame_loop.md R220, R227). -/
structure State.FrameKept (s t : State) : Prop where
  cfg : t.cfg = s.cfg
  link : t.link = s.link
  fbReg : t.fbReg = s.fbReg
  mode : t.mode = s.mode
  base16 : t.base16 = s.base16
  base8 : t.base8 = s.base8
  cursor : t.cursor = s.cursor
  marks : t.marks = s.marks
  hostFb : t.hostFb = s.hostFb
  device : t.device = s.device
  queue : t.queue = s.queue
  moves : t.moves = s.moves

/-- The pool after the free slot `k` at the head of FREEQ was taken, filled with `bytes` and accepted by TRANSPORT: `k` is in
flight with those bytes and that length, every other byte and slot is as before (45_slot_pool.md R200, R204, R207). -/
structure Pool.Sent (old new : Pool) (k : Nat) (bytes : List Byte) : Prop where
  freeq : old.freeq = k :: new.freeq
  avail : new.avail = old.avail - 1
  held : new.held = none
  wptr : new.wptr = 0
  slotCount : new.slots.length = old.slots.length
  others : ∀ j, j ≠ k → new.slots[j]? = old.slots[j]?
  slot : ∃ before after, old.slots[k]? = some before ∧ new.slots[k]? = some after ∧ after.state = .inflight ∧
    after.len = BitVec.ofNat 32 bytes.length ∧ (∀ j, (h : j < bytes.length) → after.byte j = bytes[j]) ∧
    ∀ j, bytes.length ≤ j → after.byte j = before.byte j

/-- The pool after the free slot `k` at the head of FREEQ was taken, filled with `bytes` and rejected by TRANSPORT: `k` is at the
tail of FREEQ with the full length `slotBytes`, every other byte and slot is as before (45_slot_pool.md R200, R204, R205). -/
structure Pool.Returned (slotBytes : Nat) (old new : Pool) (k : Nat) (bytes : List Byte) : Prop where
  freeq : ∃ rest, old.freeq = k :: rest ∧ new.freeq = rest ++ [k]
  avail : new.avail = old.avail - 1 + 1
  held : new.held = none
  wptr : new.wptr = 0
  slotCount : new.slots.length = old.slots.length
  others : ∀ j, j ≠ k → new.slots[j]? = old.slots[j]?
  slot : ∃ before after, old.slots[k]? = some before ∧ new.slots[k]? = some after ∧ after.state = .free ∧
    after.len = BitVec.ofNat 32 slotBytes ∧ (∀ j, (h : j < bytes.length) → after.byte j = bytes[j]) ∧
    ∀ j, bytes.length ≤ j → after.byte j = before.byte j

/-! ## Invariants -/

/-- The pool rules of 10_state.md R35 to R38 and 45_slot_pool.md R211: the configuration is legal, with a slot count that the u32
AVAIL can hold (log entry 15); without a session there is no pool; N slots exist; R38 holds; WPTR lies in the slot and is 0 with no
held slot; a waiting request has a session and holds no slot; slots in flight have a length of 1 to S and every other slot has
length S. -/
structure PoolInv (s : State) : Prop where
  config : s.cfg.Valid
  countable : s.cfg.slotCount < 2 ^ 32
  absent : s.flag .attached = false → s.pool = Pool.absent
  size : s.flag .attached = true → s.pool.slots.length = s.cfg.slotCount
  r38 : s.pool.holdsR38 = true
  wptrLe : s.pool.wptr.toNat ≤ s.cfg.slotBytes
  wptrNone : s.pool.held = none → s.pool.wptr = 0
  waiting : s.pending ≠ none → s.flag .attached = true ∧ s.pool.held = none
  lengths : ∀ slot ∈ s.pool.slots,
    if slot.state = .inflight then 1 ≤ slot.len.toNat ∧ slot.len.toNat ≤ s.cfg.slotBytes
    else slot.len.toNat = s.cfg.slotBytes

/-- Every memory of the state is in its canonical form. -/
structure MemoryInv (s : State) : Prop where
  backing : Memory.wf s.backing.cells
  hostFb : Memory.wf s.hostFb
  deviceMem : Memory.wf s.device.mem
  deviceRegs : Memory.wf s.device.regs
  slots : ∀ slot ∈ s.pool.slots, Memory.wf slot.buf.cells

/-- Whether a frame operation is waiting. -/
def State.inFrame (s : State) : Bool :=
  match s.pending with
  | some (.frame _) => true
  | _ => false

/-- The register rules of 10_state.md: the reserved bits of STATUS, LINK and CUR_VISIBLE read 0 (R26, R27, R31), FRAME_BUSY is
1 exactly while a frame operation is executing (R27), CUR_BPP is 32 (R31), the sprite has CUR_W × CUR_H pixels (R42). -/
structure RegisterInv (s : State) : Prop where
  status : s.status &&& 0xFFFFFF80 = 0
  link : s.link &&& 0xFFFFFFFE = 0
  visible : s.cursor.visible &&& 0xFFFFFFFE = 0
  busy : s.flag .frameBusy = s.inFrame
  cursorBpp : s.cursor.bpp = 32
  sprite : s.cursor.pix.length = s.cursor.w.toNat * s.cursor.h.toNat

/-- The size of BACKING (10_state.md R39). -/
def State.backingSize (s : State) : Nat := s.fbReg.pitch.toNat * (s.fbReg.vy.toNat + s.fbReg.height.toNat)

/-- The geometry rules: a valid framebuffer's pitch holds its rows (46_frame_loop.md R234), a backing buffer exists only with
one (10_state.md R39) and no byte outside its size has been written, and a waiting RENDER_FRAME stays inside the visible
area (46_frame_loop.md R220). -/
structure GeometryInv (s : State) : Prop where
  pitch : s.flag .fbValid = true → 4 * (s.fbReg.vx.toNat + s.fbReg.width.toNat) ≤ s.fbReg.pitch.toNat
  backingValid : s.flag .backingEn = true → s.flag .fbValid = true
  noBacking : s.flag .backingEn = false → s.backing.cells = []
  inside : ∀ c ∈ s.backing.cells, c.1 < s.backingSize
  frame : ∀ f snapshot, s.pending = some (.frame f) → f.source = .framebuffer snapshot →
    f.x1 ≤ s.visibleWidth ∧ f.yEnd ≤ s.visibleHeight

/-- The wire rules (30_encoding.md R98, R99, 45_slot_pool.md R204): the reference decoder takes the bytes of every SUBMIT event
and the bytes written so far into the held slot, and the held slot has padding only when it is full. -/
structure WireInv (s : State) : Prop where
  events : ∀ e ∈ s.events, ∃ items, decodeSlot s.cfg e.bytes = some items
  held : ∀ k, s.pool.held = some k → ∃ items, decodeSlot s.cfg (s.pool.slotBytes k s.pool.wptr.toNat) = some items ∧
    ((∃ n, .pad n ∈ items) → s.pool.wptr.toNat = s.cfg.slotBytes)

/-! ## Decoded runs -/

/-- The 16-bit channel values of decoded items, in order. -/
def itemValues16 : List WireItem → List Half
  | [] => []
  | .run16 _ vals :: items => vals ++ itemValues16 items
  | _ :: items => itemValues16 items

/-- The 8-bit channel values of decoded items, in order. -/
def itemValues8 : List WireItem → List Byte
  | [] => []
  | .run8 _ vals :: items => vals ++ itemValues8 items
  | _ :: items => itemValues8 items

/-- Each 16-bit run starts where the one before it ended, from address `addr` on (42_run_encoder.md R148). -/
def runsFollow16 : DevAddr → List WireItem → Prop
  | _, [] => True
  | addr, .run16 a vals :: items => a = addr ∧ runsFollow16 (addr + BitVec.ofNat 24 (vals.length * 2)) items
  | addr, _ :: items => runsFollow16 addr items

/-- Each 8-bit run starts where the one before it ended, from address `addr` on (42_run_encoder.md R148). -/
def runsFollow8 : DevAddr → List WireItem → Prop
  | _, [] => True
  | addr, .run8 a vals :: items => a = addr ∧ runsFollow8 (addr + BitVec.ofNat 24 (vals.length)) items
  | addr, _ :: items => runsFollow8 addr items

/-! ## EncodeRun as the spec writes it -/

/-- The innermost loop of EncodeRun (42_run_encoder.md R141), `while i < n and vals[i] = vals[i-1] and r + k < M and k < 255`:
the repeat count and the run cursor at its end. -/
def refRepeat {α : Type} [DecidableEq α] (vals : List α) (m r : Nat) : Nat → Nat → Nat → Nat × Nat
  | 0, k, i => (k, i)
  | fuel + 1, k, i =>
    if i < vals.length ∧ vals[i]? = vals[i - 1]? ∧ r + k < m ∧ k < 255 then refRepeat vals m r fuel (k + 1) (i + 1) else (k, i)

/-- The loop that appends raw values (42_run_encoder.md R141): the pixel bytes, `r`, `k` and the run cursor at its end. -/
def refRaw {α : Type} [DecidableEq α] (put : α → List Byte) (vals : List α) (m cap : Nat) :
    Nat → Nat → Nat → List Byte → List Byte × Nat × Nat × Nat
  | 0, r, i, pixels => (pixels, r, 0, i)
  | fuel + 1, r, i, pixels =>
    let pixels := pixels ++ vals[i]?.toList.flatMap put
    let r := r + 1
    let i := i + 1
    if i < vals.length ∧ vals[i]? = vals[i - 1]? ∧ r < m then
      let (k, i) := refRepeat vals m r vals.length 0 i
      (pixels, r, k, i)
    else if i = vals.length ∨ r = cap then (pixels, r, 0, i)
    else refRaw put vals m cap fuel r i pixels

/-- The outer loop (42_run_encoder.md R141), `while i < n and S - WPTR >= F`: the bytes written, WPTR, the run cursor and the
address at its end. -/
def refCommands {α : Type} [DecidableEq α] (p : Params) (ch : Channel α) (vals : List α) :
    Nat → List Byte → Nat → Nat → DevAddr → List Byte × Nat × Nat × DevAddr
  | 0, bytes, wptr, i, addr => (bytes, wptr, i, addr)
  | fuel + 1, bytes, wptr, i, addr =>
    if i < vals.length ∧ p.minCmdBytes ≤ p.slotBytes - wptr then
      let cap := min 255 (min p.maxCmdPixels ((p.slotBytes - wptr - 7) / ch.bpp))
      let (pixels, r, k, i) := refRaw ch.put vals p.maxCmdPixels cap vals.length 0 i []
      let header := [0xAF, ch.op, addr.extractLsb' 16 8, addr.extractLsb' 8 8, addr.extractLsb' 0 8, BitVec.ofNat 8 r,
        BitVec.ofNat 8 k]
      refCommands p ch vals fuel (bytes ++ header ++ pixels) (wptr + 7 + r * ch.bpp) i (addr + BitVec.ofNat 24 ((r + k) * ch.bpp))
    else (bytes, wptr, i, addr)

/-- EncodeRun line by line as 42_run_encoder.md R141 writes it, with an index into the values. Each loop ends within as many
rounds as there are values (R144 item 4). -/
def refEncodeRun {α : Type} [DecidableEq α] (p : Params) (ch : Channel α) (wptr : Nat) (vals : List α) (i : Nat)
    (addr : DevAddr) : RunResult :=
  let (bytes, wptr, i, addr) := refCommands p ch vals vals.length [] wptr i addr
  if p.slotBytes - wptr < p.minCmdBytes then ⟨bytes ++ List.replicate (p.slotBytes - wptr) 0xAF, i, addr, true⟩
  else ⟨bytes, i, addr, false⟩

/-! ## A run over several slots -/

/-- The slots that a run fills when EncodeRun is called again with a fresh slot each time one is full (42_run_encoder.md R148,
R151): the bytes written into each, and the run cursor at the end. The first slot has write pointer `wptr`. -/
def encodeSlots {α : Type} [DecidableEq α] (p : Params) (ch : Channel α) (vals : List α) :
    Nat → Nat → Nat → DevAddr → List (List Byte) × Nat
  | 0, _, i, _ => ([], i)
  | fuel + 1, wptr, i, addr =>
    let r := encodeRun p ch wptr vals i addr
    if r.full ∧ r.i ≠ vals.length then
      let more := encodeSlots p ch vals fuel 0 r.i r.addr
      (r.bytes :: more.1, more.2)
    else ([r.bytes], r.i)

/-! ## A whole frame -/

/-- The slots a frame fills: the full ones, oldest first, and the bytes in the one it holds. -/
structure Packing where
  full : List (List Byte)
  current : List Byte
deriving DecidableEq, Repr

/-- EncodeChannel (46_frame_loop.md R224) with a fresh slot each time one is full: the run goes on at the cursor and address that
EncodeRun returned. Two rounds more than there are values are enough (42_run_encoder.md R144). -/
def Packing.fill {α : Type} [DecidableEq α] (p : Params) (ch : Channel α) (vals : List α) :
    Nat → Nat → DevAddr → Packing → Packing
  | 0, _, _, k => k
  | fuel + 1, i, addr, k =>
    let r := encodeRun p ch k.current.length vals i addr
    if r.full then Packing.fill p ch vals fuel r.i r.addr ⟨k.full ++ [k.current ++ r.bytes], []⟩
    else ⟨k.full, k.current ++ r.bytes⟩

/-- The 16-bit channel's values from cursor `i` on. -/
def Packing.fill16 (p : Params) (vals : List Half) (i : Nat) (addr : DevAddr) (k : Packing) : Packing :=
  k.fill p ⟨2, p.op16, bytesBe16⟩ vals (vals.length + 2) i addr

/-- The 8-bit channel's values from cursor `i` on. -/
def Packing.fill8 (p : Params) (vals : List Byte) (i : Nat) (addr : DevAddr) (k : Packing) : Packing :=
  k.fill p ⟨1, p.op8, byte1⟩ vals (vals.length + 2) i addr

/-- The pixels `shown` of line `y` from column `p0` on: the whole 16-bit channel, then in split mode the whole 8-bit channel
(46_frame_loop.md R222, R223). The splitters are log entry 4. -/
def Packing.addPixels (s : State) (p0 y : Nat) (shown : List Word) (k : Packing) : Packing :=
  let k16 := k.fill16 s.cfg (shown.map split16) 0 (s.a16 p0 y)
  if s.flag .split then k16.fill8 s.cfg (shown.map split8) 0 (s.a8 p0 y) else k16

/-- What a stretch of a frame has done: the slots filled, the backing buffer, the bytes elided as identical. -/
structure FrameWork where
  packing : Packing
  backing : Buf
  identical : Nat
deriving DecidableEq, Repr

/-- ProcessLine of line `y` as 46_frame_loop.md R222 writes it, with a fresh slot at every AcquireF (R221, R227; 41_frame_diff.md
R134, R136; 43_cursor_blend.md R165). -/
def FrameWork.addLine (s : State) (f : FrameCtx) (work : FrameWork) (y : Nat) : FrameWork :=
  let n := f.x1 - f.x0
  match f.source with
  | .framebuffer snapshot =>
    let line := s.cursor.blendLine y f.x0
      ((List.range n).map fun j => Memory.readPixel snapshot .hostFb (s.pixelOffset (f.x0 + j) y))
    let front := line.flatMap bytesLe32
    let o0 := s.pixelOffset f.x0 y
    let range : Narrowed :=
      if s.flag .backingEn then narrow s.cfg.wordBytes front (work.backing.readList o0 (4 * n)) else ⟨0, 4 * n, 0⟩
    if range.len = 0 then { work with identical := work.identical + range.ident }
    else
      { packing := work.packing.addPixels s (f.x0 + range.start / 4) y ((line.drop (range.start / 4)).take (range.len / 4))
        backing :=
          if s.flag .backingEn then
            work.backing.storeList (o0 + range.start) ((front.drop range.start).take range.len)
          else work.backing
        identical := work.identical + range.ident }
  | .fill color =>
    { packing := work.packing.addPixels s f.x0 y (List.replicate n color)
      backing :=
        if s.flag .backingEn ∧ y < s.fbReg.height.toNat then
          work.backing.storeList (s.pixelOffset 0 y)
            ((List.replicate (min s.mode.xres.toNat s.fbReg.width.toNat) color).flatMap bytesLe32)
        else work.backing
      identical := work.identical }

/-- The lines that a frame at `f` has not begun yet. -/
def FrameCtx.linesLeft (f : FrameCtx) : List Nat :=
  match f.phase with
  | .line => List.range' f.y (f.yEnd - f.y)
  | .chan16 _ _ _ | .chan8 _ _ _ => List.range' (f.y + 1) (f.yEnd - (f.y + 1))

/-- The rest of the channel values of the line that a frame at `f` has begun (46_frame_loop.md R224). -/
def FrameCtx.restOfLine (s : State) (f : FrameCtx) : Packing :=
  match f.phase with
  | .line => ⟨[], []⟩
  | .chan16 p0 i addr =>
    let k16 := Packing.fill16 s.cfg s.line.scr16 i addr ⟨[], []⟩
    if s.flag .split then k16.fill8 s.cfg s.line.scr8 0 (s.a8 p0 f.y) else k16
  | .chan8 _ i addr => Packing.fill8 s.cfg s.line.scr8 i addr ⟨[], []⟩

/-- All that a frame at the AcquireF of `f` still does, with a fresh slot there and at every later AcquireF (46_frame_loop.md
R222 to R225). -/
def FrameCtx.workLeft (s : State) (f : FrameCtx) : FrameWork :=
  f.linesLeft.foldl (FrameWork.addLine s f) ⟨f.restOfLine s, s.backing, 0⟩

/-- `i` is a frame operation that passes its checks in state `s` and starts at `f` (46_frame_loop.md R220, R227). -/
def FrameStarts (i : Instr) (s : State) (f : FrameCtx) : Prop :=
  s.flag .attached = true ∧ s.link.getLsbD 0 = true ∧ s.flag .modeValid = true ∧ s.pool.held = none ∧ f.y < f.yEnd ∧
  ((∃ x y w h, i = .renderFrame x y w h ∧ s.flag .fbValid = true ∧ f.x0 < f.x1 ∧
      let vw := min s.mode.xres.toNat s.fbReg.width.toNat
      let vh := min s.mode.yres.toNat s.fbReg.height.toNat
      f = ⟨.framebuffer s.hostFb, min x.toNat vw, min (x.toNat + w.toNat) vw, min y.toNat vh, min (y.toNat + h.toNat) vh, 0,
        .line⟩) ∨
    ∃ color, i = .fillFrame color ∧ f = ⟨.fill color, 0, s.mode.xres.toNat, 0, s.mode.yres.toNat, 0, .line⟩)

/-- The state after `n` choices. -/
def State.afterDraws (s : State) : Nat → State
  | 0 => s
  | n + 1 => (s.afterDraws n).afterDraw

/-- What becomes of slots that are filled and submitted one after another: the bytes written into each, the SUBMIT events, the
free list at the end. -/
structure Delivery where
  written : List (Nat × List Byte)
  events : List SubmitEvent
  free : List Nat
deriving DecidableEq, Repr

/-- Each slot is the head of the free list; `accepts j` is TRANSPORT's outcome of number `j`; an accepted slot gives its SUBMIT
event, a rejected one goes to the tail of the free list (45_slot_pool.md R200, R203, R204, 46_frame_loop.md R229). -/
def deliver (accepts : Nat → Bool) : Nat → List Nat → List (List Byte) → Delivery
  | _, free, [] => ⟨[], [], free⟩
  | _, [], _ :: _ => ⟨[], [], []⟩
  | j, k :: free, bytes :: more =>
    if accepts j then
      let d := deliver accepts (j + 1) free more
      ⟨(k, bytes) :: d.written, ⟨k, BitVec.ofNat 32 bytes.length, bytes⟩ :: d.events, d.free⟩
    else
      let d := deliver accepts (j + 1) (free ++ [k]) more
      ⟨(k, bytes) :: d.written, d.events, d.free⟩

/-- Byte `a` of slot `k` after these writes, each from offset 0 on, where it was `old` before. -/
def byteAfter (k a : Nat) : List (Nat × List Byte) → Byte → Byte
  | [], old => old
  | (j, bytes) :: more, old => byteAfter k a more (if j = k then bytes[a]?.getD old else old)

/-- The slots of `new` are those of `old` after a delivery that leaves the free list `free`: the bytes are the ones written, an
accepted slot is in flight with its length, a free slot has its full length, and a slot that was not free is as before. -/
def Pool.Delivered (slotBytes : Nat) (old new : Pool) (d : Delivery) (free : List Nat) : Prop :=
  new.slots.length = old.slots.length ∧ new.freeq = free ∧ new.avail = BitVec.ofNat 32 free.length ∧ new.held = none ∧
  new.wptr = 0 ∧
  ∀ k before after, old.slots[k]? = some before → new.slots[k]? = some after →
    (∀ a, after.byte a = byteAfter k a d.written (before.byte a)) ∧
    (∀ e ∈ d.events, e.slot = k → after.state = .inflight ∧ after.len = e.len) ∧
    (k ∈ free → after.state = .free ∧ after.len = BitVec.ofNat 32 slotBytes) ∧
    (k ∉ old.freeq → after = before)

/-! ## Runs and TRANSPORT's duties (45_slot_pool.md R208, R211) -/

/-- Slot `k` was submitted and accepted, and its COMPLETE has not happened yet. -/
def State.inFlight (s : State) (k : Nat) : Prop := ∃ slot, s.pool.slots[k]? = some slot ∧ slot.state = .inflight

/-- The next step is TRANSPORT's COMPLETE of slot `k`. -/
def State.completes (s : State) (k : Nat) : Prop :=
  ∃ record, s.nextMove = .transport record ∧ decode s.cfg record = .ok (.complete k)

/-- The machine after `n` steps of its own, where none of them stops. -/
def State.afterSteps (s : State) : Nat → Option State
  | 0 => some s
  | n + 1 =>
    match s.afterSteps n with
    | some t =>
      match step t with
      | .next u => some u
      | _ => none
    | none => none

/-- The step from `s` to `t` accepts a SUBMIT of slot `k`. -/
def Accepts (s t : State) (k : Nat) : Prop := ∃ new, t.events = s.events ++ new ∧ ∃ e ∈ new, e.slot = k

/-- An infinite run: every state is the one before it after a step, the moves still to come being any (20_memory.md R75: every
interleaving of the agents' steps). -/
def IsRun (r : Nat → State) : Prop := ∀ n, ∃ t moves, step (r n) = .next t ∧ r (n + 1) = { t with moves := moves }

/-- A run in which TRANSPORT does its duty (45_slot_pool.md R208): it starts where the pool rules hold, TRANSPORT completes only
slots it was given, and every accepted slot is completed after finitely many steps. -/
structure TransportRun (r : Nat → State) : Prop where
  run : IsRun r
  start : PoolInv (r 0)
  given : ∀ n k, (r n).completes k → (r n).inFlight k
  fair : ∀ n k, (r n).inFlight k → ∃ m, n ≤ m ∧ (r m).completes k

end Sys2Proof.Machine
end

