-- ==== Sys2Proof/Certificates/Slice0/Obligations.lean ====
section
/-!
DEFINITION. The statements for the provers, in the order of OBLIGATIONS.json. Each docstring names the rule of spec/ that the
statement formalises, and the log entry where it rests on a choice of the model.
-/

open Sys2Proof Sys2Proof.Machine

/-! ## Encoding -/

/-- Decoding what the encoder writes gives the instruction back, for every legal configuration and every well-formed instruction
(30_encoding.md R91, R94 to R96, R98). The byte record of a request is the model's packing (log entry 6). -/
def Obligations.DecodeInvertsEncode : Prop :=
  ∀ (p : Params) (i : Instr), p.Valid → i.wellFormed = true → decode p (encode p i) = .ok i

/-- Words written out from the spec's own listings decode to the instructions they stand for (42_run_encoder.md R140, R145,
44_register_commands.md R177, 30_encoding.md R91, R96; the record of LFSR16 is log entry 6). -/
def Obligations.DecodeReadsSpecWords : Prop :=
  decode Params.default [0xAF, 0x6B, 0x00, 0x00, 0x04, 0x01, 0x01, 0xF8, 0x00] = .ok (.wRun16 4 1 [0xF800]) ∧
  decode Params.default [0xAF, 0x63, 0x10, 0x00, 0x00, 0x01, 0x01, 0x00] = .ok (.wRun8 0x100000 1 [0x00]) ∧
  decode Params.default [0xAF, 0x20, 0xFF, 0x00] = .ok (.wRegw 0xFF 0x00) ∧
  decode Params.default [0xAF] = .ok (.wPad 1) ∧
  decode Params.default [0x20] = .ok .acquire ∧
  decode Params.default [0x48] = .ok .attach ∧
  decode Params.default [0x05, 0x90, 0x00] = .ok (.lfsr16 144)

/-- No record that begins with a reserved code is a HOST request (30_encoding.md R92); PRODUCER takes a record that is no HOST
request without any effect but REFUSED, HOST receives nothing, and an illegal configuration is refused as a whole
(60_exceptions.md R256). The record of a request is log entry 6, the mark in a next state log entry 11. -/
def Obligations.ReservedRequestsRefused : Prop :=
  (∀ (p : Params) (c : Byte) (bs : List Byte) (i : Instr),
    (c.toNat = 0x00 ∨ (0x08 ≤ c.toNat ∧ c.toNat ≤ 0x0F) ∨ (0x1B ≤ c.toNat ∧ c.toNat ≤ 0x1F) ∨
      (0x23 ≤ c.toNat ∧ c.toNat ≤ 0x2F) ∨ (0x32 ≤ c.toNat ∧ c.toNat ≤ 0x3F) ∨ (0x45 ≤ c.toNat ∧ c.toNat ≤ 0x47) ∨
      0x4A ≤ c.toNat) →
    decode p (c :: bs) = .ok i → i.agent ≠ .host) ∧
  (∀ (s : State) (record : List Byte) (rest : List (List Byte)),
    s.cfg.Valid → s.nextMove = .producer → s.pending = none → s.queue = record :: rest →
    (∀ i, decode s.cfg record = .ok i → i.agent ≠ .host) →
    step s = .next ({ s with queue := rest, moves := s.moves.tail, marks := { s.marks with refused := true } }.checkPool)) ∧
  (∀ s : State, ¬ s.cfg.Valid → step s = .next { s with marks := { s.marks with refused := true } })

/-! ## Steps and the request queue -/

/-- A step runs the decoded instruction: PRODUCER the oldest request when none waits, TRANSPORT its own request, the reader its
command; around it stand only the move taken off the list, the request taken off the queue and the check of 10_state.md R38
(20_memory.md R75, 10_state.md R21). Every other step is the step of the agent that moves next. The list of moves is
log entry 8. -/
def Obligations.StepRunsDecodedInstruction : Prop :=
  (∀ (s : State) (record : List Byte) (rest : List (List Byte)) (i : Instr),
    s.cfg.Valid → s.nextMove = .producer → s.pending = none → s.queue = record :: rest →
    decode s.cfg record = .ok i → i.wellFormed = true → i.agent = .host →
    step s = checked (exec i { s with queue := rest, moves := s.moves.tail })) ∧
  (∀ (s : State) (record : List Byte) (i : Instr),
    s.cfg.Valid → s.nextMove = .transport record → decode s.cfg record = .ok i → i.agent = .transport →
    step s = checked (exec i { s with moves := s.moves.tail })) ∧
  (∀ (s : State) (command : List Byte) (i : Instr),
    s.cfg.Valid → s.nextMove = .device command → decode s.cfg command = .ok i → i.wellFormed = true → i.agent = .device →
    step s = checked (exec i { s with moves := s.moves.tail })) ∧
  (∀ s : State, s.cfg.Valid → step s = checked (moveStep s.nextMove { s with moves := s.moves.tail }))

/-- 10_state.md R21: a step leaves the queue as it is, or appends the request HOST issues, or takes the oldest one, and it takes
one only when no request is unfinished; a request that is finished by the step has received its status. -/
def Obligations.OneRequestAtATime : Prop :=
  ∀ s t : State, step s = .next t →
    (t.queue = s.queue ∨ (∃ record, s.nextMove = .issue record ∧ t.queue = s.queue ++ [record]) ∨
      (∃ record, s.nextMove = .producer ∧ s.pending = none ∧ s.queue = record :: t.queue)) ∧
    (s.pending ≠ none → t.pending = none → ∃ r, t.replies = s.replies ++ [r]) ∧
    (∀ record, s.nextMove = .issue record → s.cfg.Valid → t.queue = s.queue ++ [record])

/-- 60_exceptions.md R250: a HOST request that `exec` starts ends with exactly one status, or reaches its wait point with none
yet; and no step gives HOST more than one status. -/
def Obligations.RequestsEndWithOneStatus : Prop :=
  (∀ (i : Instr) (s t : State), i.agent = .host → exec i s = .next t →
    (∃ r, t.replies = s.replies ++ [r] ∧ t.pending = none) ∨ (t.replies = s.replies ∧ t.pending ≠ none)) ∧
  (∀ s t : State, step s = .next t →
    t.replies = s.replies ∨ ∃ r, t.replies = s.replies ++ [r] ∧ t.pending = none)

/-- 60_exceptions.md R252: without a session every request but ATTACH and CFGR ends with E_INACTIVE and changes nothing, and CFGR
behaves as 10_state.md R46 says. -/
def Obligations.SessionCheck : Prop :=
  (∀ (i : Instr) (s : State), i.agent = .host → i ≠ .attach → (∀ off, i ≠ .cfgr off) → s.flag .attached = false →
    exec i s = .next (s.replied .inactive .none)) ∧
  (∀ (off : Word) (s : State), s.flag .attached = false → off ≠ 0x000 →
    exec (.cfgr off) s = .next (s.replied .inactive (.value 0))) ∧
  (∀ s : State, s.flag .attached = false → exec (.cfgr 0x000) s = .next (s.replied .ok (.value 0)))

/-- 60_exceptions.md R251, "No status stops VPIPE": every step of HOST, PRODUCER and TRANSPORT has a next state, in every state;
and so has every request and COMPLETE that `exec` is given. -/
def Obligations.NoStepStops : Prop :=
  (∀ s : State, (∀ command, s.nextMove ≠ .device command) → ∃ t, step s = .next t) ∧
  (∀ (i : Instr) (s : State), s.cfg.Valid → i.agent ≠ .device → ∃ t, exec i s = .next t)

/-! ## Datapath -/

/-- SPLIT under the default splitters (40_channel_split.md R120 to R122; adopting the defaults is log entry 4), and R123: the two
results determine bits 23:0 of the pixel. -/
def Obligations.SplitGivesDefaultChannels : Prop :=
  ∀ (s : State) (v : Word), s.flag .attached = true →
    let c16 : Half := v.extractLsb' 19 5 ++ v.extractLsb' 10 6 ++ v.extractLsb' 3 5
    let c8 : Byte := v.extractLsb' 16 3 ++ v.extractLsb' 8 2 ++ v.extractLsb' 0 3
    exec (.split v) s = .next (s.replied .ok (.split c16 c8)) ∧
    v.extractLsb' 16 8 = c16.extractLsb' 11 5 ++ c8.extractLsb' 5 3 ∧
    v.extractLsb' 8 8 = c16.extractLsb' 5 6 ++ c8.extractLsb' 3 2 ∧
    v.extractLsb' 0 8 = c16.extractLsb' 0 5 ++ c8.extractLsb' 0 3

/-- DIFF (41_frame_diff.md R130 to R132): lines of different length are E_BADARG; the lines are compared in words of W bytes, equal
lines of L bytes give (L, 0, L), and otherwise the range runs from the first differing word to the last. -/
def Obligations.DiffNarrows : Prop :=
  ∀ (s : State) (front back : List Byte), s.cfg.Valid → s.flag .attached = true →
    let w := s.cfg.wordBytes
    let total := front.length
    let words := (total + w - 1) / w
    let word (buf : List Byte) (j : Nat) := (buf.drop (j * w)).take w
    (front.length ≠ back.length → exec (.diff front back) s = .next (s.replied .badArg .none)) ∧
    (front.length = back.length → (∀ j < words, word front j = word back j) →
      exec (.diff front back) s = .next (s.replied .ok (.diff (BitVec.ofNat 32 total) 0 (BitVec.ofNat 32 total)))) ∧
    (∀ first last, front.length = back.length → first ≤ last → last < words →
      word front first ≠ word back first → (∀ j < first, word front j = word back j) →
      word front last ≠ word back last → (∀ j < words, last < j → word front j = word back j) →
      let start := first * w
      let len := min total ((last + 1) * w) - start
      exec (.diff front back) s =
        .next (s.replied .ok (.diff (BitVec.ofNat 32 start) (BitVec.ofNat 32 len) (BitVec.ofNat 32 (total - len)))))

/-- 41_frame_diff.md R133: the range holds every byte that differs, `ident` counts the rest, its ends bound differing words, and
for whole pixels it holds whole pixels. -/
def Obligations.DiffBoundsDifferences : Prop :=
  ∀ (s : State) (front back : List Byte), s.cfg.Valid → s.flag .attached = true → front.length = back.length →
    ∃ start len ident : Nat,
      exec (.diff front back) s =
        .next (s.replied .ok (.diff (BitVec.ofNat 32 start) (BitVec.ofNat 32 len) (BitVec.ofNat 32 ident))) ∧
      start + len ≤ front.length ∧
      (∀ o : Nat, front[o]? ≠ back[o]? → start ≤ o ∧ o < start + len) ∧
      ident = start + (front.length - start - len) ∧
      (0 < len → s.cfg.wordBytes ∣ start ∧ (s.cfg.wordBytes ∣ start + len ∨ start + len = front.length) ∧
        (front.drop start).take s.cfg.wordBytes ≠ (back.drop start).take s.cfg.wordBytes ∧
        ∃ j, start ≤ j * s.cfg.wordBytes ∧ j * s.cfg.wordBytes < start + len ∧
          start + len ≤ (j + 1) * s.cfg.wordBytes ∧
          (front.drop (j * s.cfg.wordBytes)).take s.cfg.wordBytes ≠ (back.drop (j * s.cfg.wordBytes)).take s.cfg.wordBytes) ∧
      (4 ∣ front.length → 4 ∣ start ∧ 4 ∣ start + len)

/-- BLENDPIX (43_cursor_blend.md R160): each colour channel is (cur × α + src × (255 − α)) div 255, A is the source's; α = 0 keeps
the source, α = 255 gives the cursor's colour, and every channel lies between its two inputs. -/
def Obligations.BlendpixMixesChannels : Prop :=
  ∀ (s : State) (src cur : Word), s.flag .attached = true →
    HasCode (.blendpix src cur) 0x03 ∧
    ∃ out : Word, exec (.blendpix src cur) s = .next (s.replied .ok (.pixel out)) ∧
      out.extractLsb' 24 8 = src.extractLsb' 24 8 ∧
      (∀ lo : Nat, lo = 16 ∨ lo = 8 ∨ lo = 0 →
        let alpha := (cur.extractLsb' 24 8).toNat
        let c := (cur.extractLsb' lo 8).toNat
        let p := (src.extractLsb' lo 8).toNat
        (out.extractLsb' lo 8).toNat = (c * alpha + p * (255 - alpha)) / 255 ∧
        min c p ≤ (out.extractLsb' lo 8).toNat ∧ (out.extractLsb' lo 8).toNat ≤ max c p) ∧
      (cur.extractLsb' 24 8 = 0 → out = src) ∧
      (cur.extractLsb' 24 8 = 255 → out = src.extractLsb' 24 8 ++ cur.extractLsb' 0 24)

/-- BLENDLINE (43_cursor_blend.md R161, R162): a pixel inside the visible sprite rectangle is blended with the sprite's pixel of
its row and column, every other pixel is kept. The premise on CURPIX is 10_state.md R42. -/
def Obligations.BlendlineComposites : Prop :=
  ∀ (s : State) (y x0 : Word) (pix : List Word), s.flag .attached = true →
    s.cursor.pix.length = s.cursor.w.toNat * s.cursor.h.toNat →
    HasCode (.blendline y x0 pix) 0x04 ∧
    ∃ out : List Word, exec (.blendline y x0 pix) s = .next (s.replied .ok (.pixels out)) ∧ out.length = pix.length ∧
      ∀ (j : Nat) (v : Word), pix[j]? = some v →
        let x : Int := (x0.toNat + j : Nat)
        let row : Int := y.toNat - s.cursor.y.toInt
        let column : Int := x - s.cursor.x.toInt
        if s.cursor.visible.getLsbD 0 = true ∧ 0 ≤ row ∧ row < s.cursor.h.toNat ∧ 0 ≤ column ∧ column < s.cursor.w.toNat then
          ∃ c, s.cursor.pix[row.toNat * s.cursor.w.toNat + column.toNat]? = some c ∧ out[j]? = some (blendPixel v c)
        else out[j]? = some v

/-- LFSR16 (44_register_commands.md R174, R175): the state reached after n steps from all ones, a step shifting left by one and
entering at bit 0 the exclusive-or of the bits at the taps. -/
def Obligations.LfsrIteratesStep : Prop :=
  ∀ (s : State) (n : Half) (seq : Nat → Half), s.flag .attached = true → seq 0 = 0xFFFF →
    (∀ j, seq (j + 1) = (seq j <<< 1) |||
      BitVec.ofNat 16 ((List.range 16).countP (fun b => s.cfg.lfsrTaps.getLsbD b && (seq j).getLsbD b) % 2)) →
    HasCode (.lfsr16 n) 0x05 ∧ exec (.lfsr16 n) s = .next (s.replied .ok (.lfsr (seq n.toNat)))

/-- 44_register_commands.md R188: with bit 15 among the taps, as in the defaults, no count gives the all-zero state; and a count
of 0 gives all ones for every choice of taps. The default taps are
log entry 3. -/
def Obligations.LfsrNeverZero : Prop :=
  ∀ (s : State) (n : Half), s.flag .attached = true →
    ∃ v : Half, exec (.lfsr16 n) s = .next (s.replied .ok (.lfsr v)) ∧
      (s.cfg.lfsrTaps.getLsbD 15 = true → v ≠ 0) ∧ (n = 0 → v = 0xFFFF)

/-! ## Run encoder -/

/-- ENC16 (42_run_encoder.md R140): E_NOSLOT without a held slot, E_BADARG for a cursor past the values; otherwise the bytes of
EncodeRun go into the held slot at WPTR and its results come back. Nothing else changes. -/
def Obligations.Enc16WritesHeldSlot : Prop :=
  ∀ (s : State) (vals : List Half) (i : Word) (addr : DevAddr), s.flag .attached = true →
    HasCode (.enc16 vals i addr) 0x06 ∧
    (s.pool.held = none → exec (.enc16 vals i addr) s = .next (s.replied .noSlot .none)) ∧
    (s.pool.held ≠ none → vals.length < i.toNat → exec (.enc16 vals i addr) s = .next (s.replied .badArg .none)) ∧
    (∀ k slot, s.cfg.Valid → s.pool.held = some k → s.pool.slots[k]? = some slot → s.pool.wptr.toNat ≤ s.cfg.slotBytes →
      i.toNat ≤ vals.length →
      let r := encodeRun s.cfg ⟨2, s.cfg.op16, bytesBe16⟩ s.pool.wptr.toNat vals i.toNat addr
      ∃ t p, exec (.enc16 vals i addr) s = .next t ∧
        s.RepliedWithPool t p .ok (.enc (BitVec.ofNat 32 r.i) r.addr r.full) ∧ Pool.Emitted s.pool p k r.bytes)

/-- ENC8 (42_run_encoder.md R145), as ENC16 with one byte a value. -/
def Obligations.Enc8WritesHeldSlot : Prop :=
  ∀ (s : State) (vals : List Byte) (i : Word) (addr : DevAddr), s.flag .attached = true →
    HasCode (.enc8 vals i addr) 0x07 ∧
    (s.pool.held = none → exec (.enc8 vals i addr) s = .next (s.replied .noSlot .none)) ∧
    (s.pool.held ≠ none → vals.length < i.toNat → exec (.enc8 vals i addr) s = .next (s.replied .badArg .none)) ∧
    (∀ k slot, s.cfg.Valid → s.pool.held = some k → s.pool.slots[k]? = some slot → s.pool.wptr.toNat ≤ s.cfg.slotBytes →
      i.toNat ≤ vals.length →
      let r := encodeRun s.cfg ⟨1, s.cfg.op8, byte1⟩ s.pool.wptr.toNat vals i.toNat addr
      ∃ t p, exec (.enc8 vals i addr) s = .next t ∧
        s.RepliedWithPool t p .ok (.enc (BitVec.ofNat 32 r.i) r.addr r.full) ∧ Pool.Emitted s.pool p k r.bytes)

/-- EncodeRun is the algorithm of 42_run_encoder.md R141, padding included (R143): on both channels the model's function over the
values left equals the spec's loops over the run cursor. -/
def Obligations.EncodeRunIsSpecLoop : Prop :=
  ∀ (p : Params) (wptr i : Nat) (addr : DevAddr), p.Valid →
    (∀ vals : List Half, i ≤ vals.length →
      encodeRun p ⟨2, p.op16, bytesBe16⟩ wptr vals i addr = refEncodeRun p ⟨2, p.op16, bytesBe16⟩ wptr vals i addr) ∧
    (∀ vals : List Byte, i ≤ vals.length →
      encodeRun p ⟨1, p.op8, byte1⟩ wptr vals i addr = refEncodeRun p ⟨1, p.op8, byte1⟩ wptr vals i addr)

/-- 42_run_encoder.md R144 and 30_encoding.md R97, for a channel of 1 or 2 bytes a value: the bytes are whole commands, each within
its limits, that stand for exactly the values before the returned cursor, then padding exactly when the slot is full; the returned
address is that of the first value not encoded. -/
def Obligations.EncodeRunResults : Prop :=
  ∀ (α : Type) (_ : DecidableEq α) (p : Params) (ch : Channel α) (wptr i : Nat) (addr : DevAddr) (vals : List α),
    p.Valid → ch.bpp = 1 ∨ ch.bpp = 2 → (∀ v, (ch.put v).length = ch.bpp) → wptr ≤ p.slotBytes → i ≤ vals.length →
    let r := encodeRun p ch wptr vals i addr
    ∃ cmds : List (RunCmd α),
      let body := cmds.flatMap fun c => runBytes ch.op ch.put c.addr (BitVec.ofNat 8 c.rep) c.raw
      r.bytes = body ++ (if r.full = true then List.replicate (p.slotBytes - (wptr + body.length)) 0xAF else []) ∧
      (cmds.flatMap fun c => runValues c.raw c.rep) = (vals.drop i).take (r.i - i) ∧
      cmds.length ≤ r.i - i ∧ i ≤ r.i ∧ r.i ≤ vals.length ∧
      (∀ c ∈ cmds, 1 ≤ c.raw.length ∧ c.raw.length ≤ 255 ∧ c.rep ≤ 255 ∧ c.raw.length + c.rep ≤ p.maxCmdPixels) ∧
      wptr + body.length ≤ p.slotBytes ∧
      (r.i < vals.length → r.full = true) ∧
      (r.full = false → r.i = vals.length ∧ p.minCmdBytes ≤ p.slotBytes - (wptr + r.bytes.length)) ∧
      (r.full = true → wptr + r.bytes.length = p.slotBytes) ∧
      r.addr = addr + BitVec.ofNat 24 ((r.i - i) * ch.bpp)

/-- 42_run_encoder.md R148: a run encoded with a fresh slot whenever one is full, from any WPTR in the first slot, decodes slot by
slot to exactly the values, each item starting where the one before it ended. -/
def Obligations.EncodedRunDecodes : Prop :=
  ∀ (p : Params) (wptr : Nat) (addr : DevAddr), p.Valid → wptr ≤ p.slotBytes →
    (∀ vals : List Half,
      let slots := encodeSlots p ⟨2, p.op16, bytesBe16⟩ vals (vals.length + 2) wptr 0 addr
      slots.2 = vals.length ∧ ∃ items : List (List WireItem), slots.1.map (decodeSlot p) = items.map some ∧
        itemValues16 items.flatten = vals ∧ runsFollow16 addr items.flatten) ∧
    (∀ vals : List Byte,
      let slots := encodeSlots p ⟨1, p.op8, byte1⟩ vals (vals.length + 2) wptr 0 addr
      slots.2 = vals.length ∧ ∃ items : List (List WireItem), slots.1.map (decodeSlot p) = items.map some ∧
        itemValues8 items.flatten = vals ∧ runsFollow8 addr items.flatten)

/-! ## Register commands -/

/-- REGW, VLOCK and VUNLOCK (44_register_commands.md R171, R177, R178): one register-write command into the held slot. -/
def Obligations.RegwWritesOneCommand : Prop :=
  (∀ reg val : Byte, HasCode (.regw reg val) 0x10 ∧
    WritesRegisters (.regw reg val) fun _ => [0xAF, 0x20, reg, val]) ∧
  (HasCode .vlock 0x14 ∧ WritesRegisters .vlock fun _ => [0xAF, 0x20, 0xFF, 0x00]) ∧
  (HasCode .vunlock 0x15 ∧ WritesRegisters .vunlock fun _ => [0xAF, 0x20, 0xFF, 0xFF])

/-- REGW16, REGW16BE and REGWL (44_register_commands.md R172, R173, R176): two commands to adjacent registers, the second number
mod 256; high byte first, low byte first, and high byte first of LFSR16(n). -/
def Obligations.RegisterPairWrites : Prop :=
  (∀ (reg : Byte) (v : Half), HasCode (.regw16 reg v) 0x11 ∧ WritesRegisters (.regw16 reg v) fun _ =>
    [0xAF, 0x20, reg, v.extractLsb' 8 8, 0xAF, 0x20, reg + 1, v.extractLsb' 0 8]) ∧
  (∀ (reg : Byte) (v : Half), HasCode (.regw16be reg v) 0x12 ∧ WritesRegisters (.regw16be reg v) fun _ =>
    [0xAF, 0x20, reg, v.extractLsb' 0 8, 0xAF, 0x20, reg + 1, v.extractLsb' 8 8]) ∧
  (∀ (reg : Byte) (n : Half), HasCode (.regwl reg n) 0x13 ∧ WritesRegisters (.regwl reg n) fun s =>
    [0xAF, 0x20, reg, (lfsr16 s.cfg.lfsrTaps n).extractLsb' 8 8,
      0xAF, 0x20, reg + 1, (lfsr16 s.cfg.lfsrTaps n).extractLsb' 0 8])

/-- SETDEPTH, SETBASE16, SETBASE8 and SETBLANK (44_register_commands.md R179 to R181, R185) under the default register map, which
the model adopts (log entry 5); a blanking level above 4 is E_BADARG. -/
def Obligations.DeviceSetupWrites : Prop :=
  (∀ split : Bool, WritesRegisters (.setdepth split) fun _ => [0xAF, 0x20, 0x00, if split then 0x01 else 0x00]) ∧
  (∀ a : DevAddr, WritesRegisters (.setbase16 a) fun _ =>
    [0xAF, 0x20, 0x20, a.extractLsb' 16 8, 0xAF, 0x20, 0x21, a.extractLsb' 8 8, 0xAF, 0x20, 0x22, a.extractLsb' 0 8]) ∧
  (∀ a : DevAddr, WritesRegisters (.setbase8 a) fun _ =>
    [0xAF, 0x20, 0x26, a.extractLsb' 16 8, 0xAF, 0x20, 0x27, a.extractLsb' 8 8, 0xAF, 0x20, 0x28, a.extractLsb' 0 8]) ∧
  (∀ level b : Byte, (level, b) ∈ [((0 : Byte), (0x00 : Byte)), (1, 0x01), (2, 0x03), (3, 0x05), (4, 0x07)] →
    WritesRegisters (.setblank level) fun _ => [0xAF, 0x20, 0x1F, b]) ∧
  (∀ (level : Byte) (s : State), s.flag .attached = true → 4 < level.toNat →
    exec (.setblank level) s = .next (s.replied .badArg .none))

/-- SETTIMING (44_register_commands.md R182, R183) under the default register map (log entry 5): a zero period is E_BADARG;
otherwise 13 register pairs in order, each value computed on integers and taken mod 2^16. -/
def Obligations.SettimingWritesBlock : Prop :=
  ∀ xres yres pixclock left right upper lower hsync vsync : Word,
    (pixclock = 0 → ∀ s : State, s.flag .attached = true →
      exec (.settiming xres yres pixclock left right upper lower hsync vsync) s = .next (s.replied .badArg .none)) ∧
    (pixclock ≠ 0 → WritesRegisters (.settiming xres yres pixclock left right upper lower hsync vsync) fun s =>
      let u (v : Int) : Half := BitVec.ofInt 16 v
      let high (reg : Byte) (v : Half) : List Byte :=
        [0xAF, 0x20, reg, v.extractLsb' 8 8, 0xAF, 0x20, reg + 1, v.extractLsb' 0 8]
      let count (reg : Byte) (v : Half) : List Byte := high reg (lfsr16 s.cfg.lfsrTaps v)
      let pclk := BitVec.ofNat 16 (s.cfg.pclkNumerator / pixclock.toNat)
      count 0x01 (u (left.toNat + hsync.toNat)) ++ count 0x03 (u (left.toNat + hsync.toNat + xres.toNat)) ++
      count 0x05 (u (upper.toNat + vsync.toNat)) ++ count 0x07 (u (upper.toNat + vsync.toNat + yres.toNat)) ++
      count 0x09 (u ((left.toNat + hsync.toNat + xres.toNat + right.toNat : Nat) - 1)) ++ count 0x0B (u 1) ++
      count 0x0D (u (hsync.toNat + 1)) ++ high 0x0F (u xres.toNat) ++
      count 0x11 (u (yres.toNat + upper.toNat + lower.toNat + vsync.toNat)) ++ count 0x13 (u 0) ++
      count 0x15 (u vsync.toNat) ++ high 0x17 (u yres.toNat) ++
      [0xAF, 0x20, 0x1B, pclk.extractLsb' 0 8, 0xAF, 0x20, 0x1C, pclk.extractLsb' 8 8])

/-- 44_register_commands.md R186 and R187: the MODESET stream is 144 bytes for every mode, SETDEPTH's value stands at offset 7, and
the first 32 bytes and the last 8 are as R186 lays them out (default register map, log entry 5). -/
def Obligations.ModesetStreamLayout : Prop :=
  ∀ (p : Params) (m : ModeRegs) (split : Bool),
    let base8 : DevAddr := BitVec.ofNat 24 (2 * m.xres.toNat * m.yres.toNat)
    let stream := modesetStream p m split
    stream.length = 144 ∧
    stream.take 32 = [0xAF, 0x20, 0xFF, 0x00, 0xAF, 0x20, 0x00, if split then 0x01 else 0x00,
      0xAF, 0x20, 0x20, 0x00, 0xAF, 0x20, 0x21, 0x00, 0xAF, 0x20, 0x22, 0x00,
      0xAF, 0x20, 0x26, base8.extractLsb' 16 8, 0xAF, 0x20, 0x27, base8.extractLsb' 8 8,
      0xAF, 0x20, 0x28, base8.extractLsb' 0 8] ∧
    (stream.drop 32).take 104 = settimingBytes p m ∧
    stream.drop 136 = [0xAF, 0x20, 0x1F, 0x00, 0xAF, 0x20, 0xFF, 0xFF]

/-! ## Slot pool -/

/-- ACQUIRE (45_slot_pool.md R200, R201): E_SLOTHELD with a held slot; with no free slot it waits, and while AVAIL = 0 the wait ends
only by the timeout, which sets LOST_PIXELS and raises E_TIMEOUT; with a free slot the head of FREEQ is taken, and a timeout is
never chosen. -/
def Obligations.AcquireTakesOrWaits : Prop :=
  let taken (s : State) (k : Nat) (rest : List Nat) (slot : Slot) : State :=
    { s with pool := ⟨s.pool.slots.set k { slot with state := .held }, rest, s.pool.avail - 1, some k, 0⟩ }.replied .ok .none
  HasCode .acquire 0x20 ∧
  (∀ s : State, s.flag .attached = true →
    (s.pool.held ≠ none → exec .acquire s = .next (s.replied .slotHeld .none)) ∧
    (s.pool.held = none → s.pool.avail = 0 → exec .acquire s = .next { s with pending := some Pending.acquire }) ∧
    (∀ (k : Nat) (rest : List Nat) (slot : Slot), s.pool.held = none → s.pool.avail ≠ 0 → s.pool.freeq = k :: rest → s.pool.slots[k]? = some slot →
      exec .acquire s = .next (taken s k rest slot))) ∧
  (∀ s : State, s.pending = some .acquire →
    (s.pool.avail = 0 → moveStep .producer s = .next s ∧
      moveStep .timeout s = .next ({ s with status := s.status ||| 0x00000001 }.replied .timeout .none)) ∧
    (s.pool.avail ≠ 0 → moveStep .timeout s = .next s ∧
      ∀ (k : Nat) (rest : List Nat) (slot : Slot), s.pool.freeq = k :: rest → s.pool.slots[k]? = some slot →
        moveStep .producer s = .next (taken s k rest slot)))

/-- SUBMIT (45_slot_pool.md R204): E_NOSLOT without a slot, E_BADARG for an empty one; on ACCEPT the SUBMIT event carries the slot's
first L bytes, CNT_SENT grows by L and the slot is in flight with length L; on REJECT the slot is back on the free list with its
full length, LOST_PIXELS is set and the status is E_REJECT. That bit 0 of the draw means ACCEPT is
log entry 9. -/
def Obligations.SubmitHandsOverSlot : Prop :=
  HasCode .submit 0x21 ∧
  ∀ s : State, s.flag .attached = true →
    (s.pool.held = none → exec .submit s = .next (s.replied .noSlot .none)) ∧
    (s.pool.held ≠ none → s.pool.wptr = 0 → exec .submit s = .next (s.replied .badArg .none)) ∧
    (∀ k slot, s.pool.held = some k → s.pool.slots[k]? = some slot → s.pool.wptr ≠ 0 →
      (s.nextChoice = true → exec .submit s = .next ({ s.afterDraw with
        pool := { s.pool with
          slots := s.pool.slots.set k { slot with len := s.pool.wptr, state := .inflight }, held := none, wptr := 0 }
        counters := { s.counters with sent := s.counters.sent + s.pool.wptr }
        events := s.events ++ [SubmitEvent.mk k s.pool.wptr ((List.range s.pool.wptr.toNat).map slot.byte)] }.replied .ok .none)) ∧
      (s.nextChoice = false → exec .submit s = .next ({ s.afterDraw with
        pool := ⟨s.pool.slots.set k { slot with len := BitVec.ofNat 32 s.cfg.slotBytes, state := .free },
          s.pool.freeq ++ [k], s.pool.avail + 1, none, 0⟩
        status := s.status ||| 0x00000001 }.replied .reject .none)))

/-- RELEASE (45_slot_pool.md R206): the held slot goes to the tail of FREEQ with its full length, unsent. -/
def Obligations.ReleaseReturnsSlot : Prop :=
  HasCode .release 0x22 ∧
  ∀ s : State, s.flag .attached = true →
    (s.pool.held = none → exec .release s = .next (s.replied .noSlot .none)) ∧
    (∀ k slot, s.pool.held = some k → s.pool.slots[k]? = some slot →
      exec .release s = .next ({ s with
        pool := ⟨s.pool.slots.set k { slot with len := BitVec.ofNat 32 s.cfg.slotBytes, state := .free },
          s.pool.freeq ++ [k], s.pool.avail + 1, none, 0⟩ }.replied .ok .none))

/-- COMPLETE (45_slot_pool.md R205): a slot in flight goes to the tail of FREEQ with its full length and AVAIL grows by one, HOST
receives nothing; for a slot that is free or held F_BAD_COMPLETE is recorded and nothing else changes. -/
def Obligations.CompleteReturnsSlot : Prop :=
  ∀ (s : State) (k : Nat) (slot : Slot), s.flag .attached = true → s.pool.slots[k]? = some slot →
    HasCode (.complete k) 0x2F ∧
    (slot.state = .inflight → exec (.complete k) s = .next { s with pool := { s.pool with
      slots := s.pool.slots.set k { slot with len := BitVec.ofNat 32 s.cfg.slotBytes, state := .free }
      freeq := s.pool.freeq ++ [k], avail := s.pool.avail + 1 } }) ∧
    (slot.state ≠ .inflight → exec (.complete k) s = .next { s with marks := { s.marks with badComplete := true } })

/-- COMPLETE outside a pool is the model's choice (log entry 14): of a number with no slot it records F_BAD_COMPLETE, and without a
session it changes nothing. -/
def Obligations.CompleteWithoutSlot : Prop :=
  ∀ (s : State) (k : Nat),
    (s.flag .attached = true → s.pool.slots.length ≤ k →
      exec (.complete k) s = .next { s with marks := { s.marks with badComplete := true } }) ∧
    (s.flag .attached = false → exec (.complete k) s = .next s)

/-- Every step keeps the pool rules of 10_state.md R35 to R38 and 45_slot_pool.md R211. -/
def Obligations.PoolInvKept : Prop := ∀ s t : State, PoolInv s → step s = .next t → PoolInv t

/-- 10_state.md R38 item 4 and 45_slot_pool.md R211 items 1 and 2: the slots outside the free list are N − AVAIL, and with none
held and none in flight AVAIL is N. -/
def Obligations.PoolCountsOutstanding : Prop :=
  ∀ s : State, PoolInv s → s.flag .attached = true →
    s.pool.avail.toNat = s.pool.freeq.length ∧
    s.pool.avail.toNat = s.pool.slots.countP (fun slot => slot.state = .free) ∧
    s.pool.slots.countP (fun slot => slot.state ≠ .free) = s.cfg.slotCount - s.pool.avail.toNat ∧
    s.pool.avail.toNat ≤ s.cfg.slotCount ∧
    (s.pool.held = none → s.pool.inflight = 0 → s.pool.avail.toNat = s.cfg.slotCount)

/-- 45_slot_pool.md R209: no step changes the bytes or the length of a slot in flight, but for TRANSPORT's COMPLETE of that slot,
which frees it and restores its length. R211 item 5 and R208: a slot is in flight only after an accepted SUBMIT; in the machine's own
runs its COMPLETE comes after finitely many steps (the order of the last ones is log entry 8, fairness log entry 19); and in every run
in which TRANSPORT does its duty the accepted SUBMIT is followed by exactly one COMPLETE of that slot before the next SUBMIT of it. -/
def Obligations.InflightSlotUntouched : Prop :=
  (∀ (s t : State) (k : Nat) (slot : Slot), PoolInv s → step s = .next t →
    s.pool.slots[k]? = some slot → slot.state = .inflight →
    t.pool.slots[k]? = some slot ∨
    (s.completes k ∧ t.pool.slots[k]? = some { slot with len := BitVec.ofNat 32 s.cfg.slotBytes, state := .free })) ∧
  (∀ (s t : State) (k : Nat), PoolInv s → step s = .next t → t.inFlight k → s.inFlight k ∨ Accepts s t k) ∧
  (∀ (s : State) (k : Nat), PoolInv s → s.inFlight k → (∀ command, .device command ∉ s.moves) →
    ∃ n t, n ≤ s.moves.length + s.cfg.slotCount ∧ s.afterSteps n = some t ∧ t.completes k ∧ t.inFlight k) ∧
  (∀ (r : Nat → State) (n k : Nat), TransportRun r → Accepts (r n) (r (n + 1)) k →
    ∃ m, n < m ∧ (r m).completes k ∧ (∀ j, n < j → j ≤ m → (r j).inFlight k) ∧ (∀ j, n < j → j < m → ¬ (r j).completes k) ∧
      ¬ (r (m + 1)).inFlight k ∧
      ∀ j, m < j → (r j).completes k → ∃ i, m < i ∧ i < j ∧ Accepts (r i) (r (i + 1)) k)

/-- 60_exceptions.md R257: from a state that meets the pool rules no step records a fault, unless TRANSPORT completes a slot that is
not in flight. -/
def Obligations.FaultsOnlyFromBadComplete : Prop :=
  ∀ s t : State, PoolInv s → step s = .next t →
    (∀ record k, s.nextMove = .transport record → decode s.cfg record = .ok (.complete k) → s.flag .attached = true →
      ∃ slot, s.pool.slots[k]? = some slot ∧ slot.state = .inflight) →
    t.marks.poolInvariant = s.marks.poolInvariant ∧ t.marks.badComplete = s.marks.badComplete ∧
      t.marks.emitOverflow = s.marks.emitOverflow

/-! ## Frame operations -/

/-- The checks of RENDER_FRAME and FILL_FRAME in their order (46_frame_loop.md R220, R227, 60_exceptions.md R253), and the empty
rectangle, which changes nothing. A frame that passes them with AVAIL = 0 holds at the AcquireF before its first line with
FRAME_BUSY 1, and a waiting frame makes no step while AVAIL = 0 (R222, R225, 45_slot_pool.md R200). -/
def Obligations.FrameOpsCheckFirst : Prop :=
  ∀ (s : State) (x y w h color : Word), s.flag .attached = true →
    HasCode (.renderFrame x y w h) 0x30 ∧ HasCode (.fillFrame color) 0x31 ∧
    (s.link.getLsbD 0 = false →
      exec (.renderFrame x y w h) s = .next (s.replied .inactive .none) ∧
      exec (.fillFrame color) s = .next (s.replied .inactive .none)) ∧
    (s.link.getLsbD 0 = true → s.flag .modeValid = false →
      exec (.renderFrame x y w h) s = .next (s.replied .noMode .none) ∧
      exec (.fillFrame color) s = .next (s.replied .noMode .none)) ∧
    (s.link.getLsbD 0 = true → s.flag .fbValid = false →
      exec (.renderFrame x y w h) s = .next (s.replied .noMode .none)) ∧
    (s.link.getLsbD 0 = true → s.flag .modeValid = true → s.pool.held ≠ none →
      exec (.fillFrame color) s = .next (s.replied .slotHeld .none) ∧
      (s.flag .fbValid = true → exec (.renderFrame x y w h) s = .next (s.replied .slotHeld .none))) ∧
    (s.link.getLsbD 0 = true → s.flag .modeValid = true → s.flag .fbValid = true → s.pool.held = none →
      (let vw := min s.mode.xres.toNat s.fbReg.width.toNat
       let vh := min s.mode.yres.toNat s.fbReg.height.toNat
       min x.toNat vw = min (x.toNat + w.toNat) vw ∨ min y.toNat vh = min (y.toNat + h.toNat) vh) →
      exec (.renderFrame x y w h) s = .next (s.replied .ok .none)) ∧
    (∀ (i : Instr) (f : FrameCtx), FrameStarts i s f → s.pool.avail = 0 →
      exec i s = .next { s with status := s.status ||| 0x00000002, pending := some (.frame f) }) ∧
    (∀ f : FrameCtx, s.pending = some (.frame f) → s.pool.avail = 0 → moveStep .producer s = .next s)

/-- 41_frame_diff.md R137 and 46_frame_loop.md R230 item 1: a line equal to its backing bytes is elided. The frame of that one line
takes a slot and releases it unsent, counts the line in CNT_RENDERED and CNT_IDENTICAL, and returns OK. The draw for
CNT_CPU is log entry 9. -/
def Obligations.RenderElidesIdenticalLine : Prop :=
  ∀ (s : State) (x y w h : Word) (k : Nat) (rest : List Nat) (slot : Slot),
    s.flag .attached = true → s.link.getLsbD 0 = true → s.flag .modeValid = true → s.flag .fbValid = true →
    s.flag .backingEn = true → s.pool.held = none → s.pool.avail ≠ 0 → s.pool.freeq = k :: rest →
    s.pool.slots[k]? = some slot →
    let x0 := min x.toNat s.visibleWidth
    let x1 := min (x.toNat + w.toNat) s.visibleWidth
    let y0 := min y.toNat s.visibleHeight
    let line := s.cursor.blendLine y0 x0
      ((List.range (x1 - x0)).map fun j => Memory.readPixel s.hostFb .hostFb (s.pixelOffset (x0 + j) y0))
    x0 < x1 → min (y.toNat + h.toNat) s.visibleHeight = y0 + 1 →
    line.flatMap bytesLe32 = (List.range (4 * (x1 - x0))).map (fun j => s.backingByte (s.pixelOffset x0 y0 + j)) →
    exec (.renderFrame x y w h) s = .next ({ s.afterDraw with
      status := s.status &&& ~~~0x00000002#32
      counters := ⟨s.counters.rendered + BitVec.ofNat 32 (4 * (x1 - x0)),
        s.counters.identical + BitVec.ofNat 32 (4 * (x1 - x0)), s.counters.sent, s.counters.cpu + s.nextDraw⟩
      line := { s.line with base := x0, work := line }
      pool := ⟨s.pool.slots.set k { slot with len := BitVec.ofNat 32 s.cfg.slotBytes, state := .free },
        rest ++ [k], s.pool.avail - 1 + 1, none, 0⟩ }.replied .ok .none)

/-- RENDER_FRAME of one line that fits in one slot (46_frame_loop.md R220 to R226, R229, 40_channel_split.md R125, 41_frame_diff.md
R134): WORK is the line with the cursor, the narrowed bytes go to BACKING, the narrowed pixels are split, encoded at their device
addresses (the 16-bit channel first) and submitted with their actual length; the counters grow; nothing else changes. A rejected
slot gives no SUBMIT event, goes back to FREEQ and sets LOST_PIXELS, and the request still returns OK. The splitters split16 and
split8 are PRESUMED, log entry 4; the draws are log entry 9. Frames of more lines or slots: FrameSendsItsSlots. -/
def Obligations.RenderSendsChangedLine : Prop :=
  ∀ (s : State) (x y w h : Word) (k : Nat) (rest : List Nat) (slot : Slot), s.cfg.Valid →
    s.flag .attached = true → s.link.getLsbD 0 = true → s.flag .modeValid = true → s.flag .fbValid = true →
    s.pool.held = none → s.pool.avail ≠ 0 → s.pool.freeq = k :: rest → s.pool.slots[k]? = some slot →
    let x0 := min x.toNat s.visibleWidth
    let x1 := min (x.toNat + w.toNat) s.visibleWidth
    let y0 := min y.toNat s.visibleHeight
    let o0 := s.pixelOffset x0 y0
    let line := s.cursor.blendLine y0 x0
      ((List.range (x1 - x0)).map fun j => Memory.readPixel s.hostFb .hostFb (s.pixelOffset (x0 + j) y0))
    let front := line.flatMap bytesLe32
    let range : Narrowed :=
      if s.flag .backingEn = true then
        narrow s.cfg.wordBytes front ((List.range (4 * (x1 - x0))).map fun j => s.backingByte (o0 + j))
      else ⟨0, 4 * (x1 - x0), 0⟩
    let shown := (line.drop (range.start / 4)).take (range.len / 4)
    let p0 := x0 + range.start / 4
    let r16 := encodeRun s.cfg ⟨2, s.cfg.op16, bytesBe16⟩ 0 (shown.map split16) 0 (s.a16 p0 y0)
    let r8 := encodeRun s.cfg ⟨1, s.cfg.op8, byte1⟩ r16.bytes.length (shown.map split8) 0 (s.a8 p0 y0)
    let bytes := r16.bytes ++ (if s.flag .split = true then r8.bytes else [])
    x0 < x1 → min (y.toNat + h.toNat) s.visibleHeight = y0 + 1 → range.len ≠ 0 → r16.full = false →
    (s.flag .split = true → r8.full = false) →
    ∃ t, exec (.renderFrame x y w h) s = .next t ∧ s.FrameKept t ∧
      (s.nextChoice = true → Pool.Sent s.pool t.pool k bytes ∧
        t.events = s.events ++ [⟨k, BitVec.ofNat 32 bytes.length, bytes⟩] ∧
        t.counters.sent = s.counters.sent + BitVec.ofNat 32 bytes.length ∧ t.status = s.status &&& ~~~0x00000002#32) ∧
      (s.nextChoice = false → Pool.Returned s.cfg.slotBytes s.pool t.pool k bytes ∧ t.events = s.events ∧
        t.counters.sent = s.counters.sent ∧ t.status = (s.status ||| 0x00000001) &&& ~~~0x00000002#32) ∧
      t.counters.rendered = s.counters.rendered + BitVec.ofNat 32 (4 * (x1 - x0)) ∧
      t.counters.identical = s.counters.identical + BitVec.ofNat 32 range.ident ∧
      t.counters.cpu = s.counters.cpu + s.afterDraw.nextDraw ∧
      t.pending = none ∧ t.replies = s.replies ++ [⟨.ok, .none⟩] ∧
      t.draws = s.afterDraw.afterDraw.draws ∧ t.drawCount = s.afterDraw.afterDraw.drawCount ∧
      t.line.base = x0 ∧ t.line.work = line ∧ t.line.scr16 = shown.map split16 ∧
      t.line.scr8 = (if s.flag .split = true then shown.map split8 else s.line.scr8) ∧
      ∀ a, t.backingByte a =
        if s.flag .backingEn = true ∧ o0 + range.start ≤ a ∧ a < o0 + range.start + range.len then front[a - o0]?.getD 0
        else s.backingByte a

/-- FILL_FRAME of a display of one line that fits in one slot (46_frame_loop.md R227, R222 to R226, R229): every pixel of the line is
sent in the colour, without cursor and without differencing; with a backing buffer the colour goes to its visible columns. A rejected
slot gives no SUBMIT event, goes back to FREEQ and sets LOST_PIXELS, and the request still returns OK. The splitters split16 and
split8 are PRESUMED, log entry 4; the draws are log entry 9. Frames of more lines or slots: FrameSendsItsSlots. -/
def Obligations.FillSendsLine : Prop :=
  ∀ (s : State) (color : Word) (k : Nat) (rest : List Nat) (slot : Slot), s.cfg.Valid →
    s.flag .attached = true → s.link.getLsbD 0 = true → s.flag .modeValid = true →
    s.pool.held = none → s.pool.avail ≠ 0 → s.pool.freeq = k :: rest → s.pool.slots[k]? = some slot →
    s.mode.xres ≠ 0 → s.mode.yres = 1 →
    let width := s.mode.xres.toNat
    let o0 := s.pixelOffset 0 0
    let r16 := encodeRun s.cfg ⟨2, s.cfg.op16, bytesBe16⟩ 0 (List.replicate width (split16 color)) 0 (s.a16 0 0)
    let r8 := encodeRun s.cfg ⟨1, s.cfg.op8, byte1⟩ r16.bytes.length (List.replicate width (split8 color)) 0 (s.a8 0 0)
    let bytes := r16.bytes ++ (if s.flag .split = true then r8.bytes else [])
    r16.full = false → (s.flag .split = true → r8.full = false) →
    ∃ t, exec (.fillFrame color) s = .next t ∧ s.FrameKept t ∧
      (s.nextChoice = true → Pool.Sent s.pool t.pool k bytes ∧
        t.events = s.events ++ [⟨k, BitVec.ofNat 32 bytes.length, bytes⟩] ∧
        t.counters.sent = s.counters.sent + BitVec.ofNat 32 bytes.length ∧ t.status = s.status &&& ~~~0x00000002#32) ∧
      (s.nextChoice = false → Pool.Returned s.cfg.slotBytes s.pool t.pool k bytes ∧ t.events = s.events ∧
        t.counters.sent = s.counters.sent ∧ t.status = (s.status ||| 0x00000001) &&& ~~~0x00000002#32) ∧
      t.counters.rendered = s.counters.rendered + BitVec.ofNat 32 (4 * width) ∧
      t.counters.identical = s.counters.identical ∧ t.counters.cpu = s.counters.cpu + s.afterDraw.nextDraw ∧
      t.pending = none ∧ t.replies = s.replies ++ [⟨.ok, .none⟩] ∧
      t.draws = s.afterDraw.afterDraw.draws ∧ t.drawCount = s.afterDraw.afterDraw.drawCount ∧
      ∀ a, t.backingByte a =
        if s.flag .backingEn = true ∧ s.fbReg.height ≠ 0 ∧ o0 ≤ a ∧ a < o0 + 4 * min width s.fbReg.width.toNat then
          color.extractLsb' (8 * ((a - o0) % 4)) 8
        else s.backingByte a

/-- 46_frame_loop.md R228: a timeout inside a frame sets LOST_PIXELS and loses the rest of the line; the first one in a row goes on
with the next line, if there is one, and its fresh AcquireF; the second in a row, or one on the last line, ends the frame, which
still returns OK. The draw for CNT_CPU is log entry 9. -/
def Obligations.FrameTimeoutLosesLine : Prop :=
  ∀ (s : State) (f : FrameCtx), s.pending = some (.frame f) → s.pool.held = none → s.pool.avail = 0 →
    (f.t + 1 ≠ 2 → f.y + 1 < f.yEnd →
      moveStep .timeout s = .next { s with
        status := s.status ||| 0x00000001
        pending := some (.frame { f with t := f.t + 1, y := f.y + 1, phase := .line }) }) ∧
    (f.t + 1 = 2 ∨ f.yEnd ≤ f.y + 1 →
      moveStep .timeout s = .next ({ s.afterDraw with
        status := (s.status ||| 0x00000001) &&& ~~~0x00000002#32
        counters := { s.counters with cpu := s.counters.cpu + s.nextDraw } }.replied .ok .none))

/-- 46_frame_loop.md R230 item 4: a frame operation that returns OK leaves no slot held, whether it ran in one step or waited. -/
def Obligations.FrameOpsLeaveNoSlot : Prop :=
  (∀ (i : Instr) (s t : State), (∃ x y w h, i = .renderFrame x y w h) ∨ (∃ color, i = .fillFrame color) →
    exec i s = .next t → t.replies = s.replies ++ [⟨.ok, .none⟩] → t.pool.held = none) ∧
  (∀ (m : Move) (s t : State) (f : FrameCtx), s.pending = some (.frame f) → moveStep m s = .next t → t.pending = none →
    t.pool.held = none ∧ t.flag .frameBusy = false ∧ t.replies = s.replies ++ [⟨.ok, .none⟩])

/-! ## Configuration and session -/

/-- CFGW (46_frame_loop.md R231): STATUS bit 0 is write-1-to-clear, LINK takes bit 0, every other offset is E_BADARG. -/
def Obligations.CfgwWritesTwoBits : Prop :=
  ∀ (s : State) (off val : Word), s.flag .attached = true →
    HasCode (.cfgw off val) 0x40 ∧
    (off = 0x000 → exec (.cfgw off val) s = .next
      ((if val.getLsbD 0 then { s with status := s.status &&& ~~~0x00000001#32 } else s).replied .ok .none)) ∧
    (off = 0x008 → exec (.cfgw off val) s = .next
      ({ s with link := if val.getLsbD 0 then 1 else 0 }.replied .ok .none)) ∧
    (off ≠ 0x000 → off ≠ 0x008 → exec (.cfgw off val) s = .next (s.replied .badArg .none))

/-- CFGR (46_frame_loop.md R232, 10_state.md R24, R34): every mapped offset reads its register, every other one is E_BADARG with
value 0; without a session only STATUS reads OK. -/
def Obligations.CfgrReadsMap : Prop :=
  ∀ (s : State) (off : Word),
    let map : List (Word × Word) :=
      [(0x000#32, s.status), (0x008#32, s.link), (0x010#32, s.fbReg.pitch), (0x014#32, s.fbReg.bpp), (0x018#32, s.fbReg.vx),
        (0x01C#32, s.fbReg.vy), (0x020#32, s.fbReg.width), (0x024#32, s.fbReg.height), (0x040#32, s.mode.xres), (0x044#32, s.mode.yres),
        (0x048#32, s.mode.pixclock), (0x04C#32, s.mode.left), (0x050#32, s.mode.right), (0x054#32, s.mode.upper),
        (0x058#32, s.mode.lower), (0x05C#32, s.mode.hsync), (0x060#32, s.mode.vsync), (0x064#32, s.mode.refresh),
        (0x080#32, 0#8 ++ s.base16), (0x084#32, 0#8 ++ s.base8), (0x100#32, s.cursor.x), (0x104#32, s.cursor.y),
        (0x108#32, s.cursor.w), (0x10C#32, s.cursor.h), (0x110#32, s.cursor.bpp), (0x114#32, s.cursor.visible),
        (0x180#32, s.counters.rendered), (0x184#32, s.counters.identical), (0x188#32, s.counters.sent), (0x18C#32, s.counters.cpu),
        (0x190#32, s.pool.avail),
        (0x194#32, match s.pool.held with | some k => BitVec.ofNat 32 k | none => 0xFFFFFFFF),
        (0x198#32, BitVec.ofNat 32 (s.pool.slots.countP fun slot => slot.state = .inflight))]
    HasCode (.cfgr off) 0x41 ∧
    (s.flag .attached = true → ∀ v, (off, v) ∈ map → exec (.cfgr off) s = .next (s.replied .ok (.value v))) ∧
    (s.flag .attached = true → (∀ v, (off, v) ∉ map) → exec (.cfgr off) s = .next (s.replied .badArg (.value 0))) ∧
    (s.flag .attached = false → exec (.cfgr off) s =
      .next (if off = 0x000 then s.replied .ok (.value 0) else s.replied .inactive (.value 0)))

/-- The checks of MODESET in their order (46_frame_loop.md R233, 60_exceptions.md R253), and its wait for a slot: while AVAIL = 0
it ends only by the timeout, with the mode unchanged. -/
def Obligations.ModesetChecksAndWaits : Prop :=
  ∀ (s : State) (m : ModeRegs) (split : Bool), s.flag .attached = true →
    let request : Instr := .modeset m.xres m.yres m.pixclock m.left m.right m.upper m.lower m.hsync m.vsync m.refresh split
    HasCode request 0x42 ∧
    (s.link.getLsbD 0 = false → exec request s = .next (s.replied .inactive .none)) ∧
    (s.link.getLsbD 0 = true → s.pool.held ≠ none → exec request s = .next (s.replied .slotHeld .none)) ∧
    (s.link.getLsbD 0 = true → s.pool.held = none → m.Rejected split → exec request s = .next (s.replied .geometry .none)) ∧
    (s.link.getLsbD 0 = true → s.pool.held = none → ¬ m.Rejected split → s.pool.avail = 0 →
      exec request s = .next { s with pending := some (Pending.modeset m split) }) ∧
    (s.pending = some (.modeset m split) → s.pool.avail = 0 → moveStep .producer s = .next s ∧
      moveStep .timeout s = .next ({ s with status := s.status ||| 0x00000001 }.replied .timeout .none))

/-- MODESET with a free slot (46_frame_loop.md R233): the 144-byte stream goes out in a fresh slot; on ACCEPT the mode registers,
BASE16, BASE8, SPLIT and MODE_VALID are latched; on REJECT the slot is back on the free list, LOST_PIXELS is set and the mode is
as before. The same when it had waited. The stream is that of the default register map, PRESUMED, log entry 5; that bit 0 of the draw
means ACCEPT is log entry 9. -/
def Obligations.ModesetLatchesOnAccept : Prop :=
  ∀ (s : State) (m : ModeRegs) (split : Bool) (k : Nat) (rest : List Nat) (slot : Slot) (out : Host.Outcome State Fault Refusal),
    s.cfg.Valid → s.pool.held = none → s.pool.avail ≠ 0 → s.pool.freeq = k :: rest → s.pool.slots[k]? = some slot →
    (s.flag .attached = true ∧ s.link.getLsbD 0 = true ∧ ¬ m.Rejected split ∧
      out = exec (.modeset m.xres m.yres m.pixclock m.left m.right m.upper m.lower m.hsync m.vsync m.refresh split) s) ∨
    (s.pending = some (.modeset m split) ∧ out = moveStep .producer s) →
    let stream := modesetStream s.cfg m split
    (s.nextChoice = true → ∃ p, Pool.Sent s.pool p k stream ∧ out = .next ({ s.afterDraw with
      pool := p
      mode := m
      base16 := 0
      base8 := BitVec.ofNat 24 (2 * m.xres.toNat * m.yres.toNat)
      status := (if split then s.status ||| 0x00000010 else s.status &&& ~~~0x00000010#32) ||| 0x00000004
      counters := { s.counters with sent := s.counters.sent + 144 }
      events := s.events ++ [SubmitEvent.mk k 144 stream] }.replied .ok .none)) ∧
    (s.nextChoice = false → ∃ p,
      Pool.Returned s.cfg.slotBytes s.pool p k stream ∧
      out = .next ({ s.afterDraw with pool := p, status := s.status ||| 0x00000001 }.replied .reject .none))

/-- SETFB (46_frame_loop.md R234, R235): E_BADARG for a depth other than 32, an empty viewport or too small a pitch; otherwise the
descriptor is taken and FB_VALID set, the backing buffer dropped or replaced by one with unspecified bytes; a failed allocation is
E_GEOMETRY and changes nothing (the choice used is gone, log entry 9; the fresh bytes carry a fresh tag, log entry 10). -/
def Obligations.SetfbDescribesFramebuffer : Prop :=
  ∀ (s : State) (pitch bpp vx vy width height : Word), s.flag .attached = true →
    let request (backing : Bool) : Instr := .setfb pitch bpp vx vy width height backing
    let bad : Prop := bpp ≠ 32 ∨ width = 0 ∨ height = 0 ∨ pitch.toNat < 4 * (vx.toNat + width.toNat)
    (∀ backing, HasCode (request backing) 0x43 ∧ (bad → exec (request backing) s = .next (s.replied .badArg .none))) ∧
    (¬ bad → exec (request false) s = .next ({ s with
      fbReg := ⟨pitch, bpp, vx, vy, width, height⟩
      backing := ⟨[], 0⟩
      status := (s.status &&& ~~~0x00000040#32) ||| 0x00000008 }.replied .ok .none)) ∧
    (¬ bad → s.nextChoice = true → exec (request true) s = .next ({ s.afterDraw with
      drawCount := s.afterDraw.drawCount + 1
      fbReg := ⟨pitch, bpp, vx, vy, width, height⟩
      backing := ⟨[], s.afterDraw.drawCount⟩
      status := s.status ||| 0x00000040 ||| 0x00000008 }.replied .ok .none)) ∧
    (¬ bad → s.nextChoice = false → exec (request true) s = .next (s.afterDraw.replied .geometry .none))

/-- SETCURSOR (43_cursor_blend.md R166): E_INACTIVE before ATTACH; all cursor registers and CURPIX change together or not at all. -/
def Obligations.SetcursorSetsSprite : Prop :=
  ∀ (s : State) (x y w h bpp : Word) (visible : Bool) (pix : List Word),
    HasCode (.setcursor x y w h bpp visible pix) 0x44 ∧
    (s.flag .attached = false → exec (.setcursor x y w h bpp visible pix) s = .next (s.replied .inactive .none)) ∧
    (s.flag .attached = true → bpp ≠ 32 ∨ s.cfg.cursorMaxPixels < w.toNat * h.toNat ∨ pix.length ≠ w.toNat * h.toNat →
      exec (.setcursor x y w h bpp visible pix) s = .next (s.replied .badArg .none)) ∧
    (s.flag .attached = true → bpp = 32 → w.toNat * h.toNat ≤ s.cfg.cursorMaxPixels → pix.length = w.toNat * h.toNat →
      exec (.setcursor x y w h bpp visible pix) s =
        .next ({ s with cursor := ⟨x, y, w, h, 32, if visible then 1 else 0, pix⟩ }.replied .ok .none))

/-- ATTACH (46_frame_loop.md R236, 10_state.md R45): every piece of state at its value after ATTACH, N free slots of full length in
order, the marks kept; E_BADARG when already attached. The fresh slot bytes carry N fresh tags (log entry 10). -/
def Obligations.AttachCreatesSession : Prop :=
  ∀ s : State,
    HasCode .attach 0x48 ∧
    (s.flag .attached = true → exec .attach s = .next (s.replied .badArg .none)) ∧
    (s.flag .attached = false → ∃ slots : List Slot, slots.length = s.cfg.slotCount ∧
      (∀ slot ∈ slots, slot.state = .free ∧ slot.len = BitVec.ofNat 32 s.cfg.slotBytes ∧ slot.buf.cells = []) ∧
      exec .attach s = .next ({ s with
        status := 0x00000020
        link := 0
        fbReg := ⟨0, 0, 0, 0, 0, 0⟩
        mode := ⟨0, 0, 0, 0, 0, 0, 0, 0, 0, 0⟩
        base16 := 0
        base8 := 0
        cursor := ⟨0, 0, 0, 0, 32, 0, []⟩
        counters := ⟨0, 0, 0, 0⟩
        pool := ⟨slots, List.range s.cfg.slotCount, BitVec.ofNat 32 s.cfg.slotCount, none, 0⟩
        backing := ⟨[], 0⟩
        line := ⟨0, [], [], []⟩
        drawCount := s.drawCount + s.cfg.slotCount }.replied .ok .none))

/-- DETACH (46_frame_loop.md R237): a held slot is released, then the request holds until nothing is in flight, without a timeout,
and the power-on state is reached (10_state.md R46; the registers' values without a session are log entry 2). -/
def Obligations.DetachDrainsPool : Prop :=
  let off (s : State) : State := { s with
    status := 0
    link := 0
    fbReg := ⟨0, 0, 0, 0, 0, 0⟩
    mode := ⟨0, 0, 0, 0, 0, 0, 0, 0, 0, 0⟩
    base16 := 0
    base8 := 0
    cursor := ⟨0, 0, 0, 0, 32, 0, []⟩
    counters := ⟨0, 0, 0, 0⟩
    pool := ⟨[], [], 0, none, 0⟩
    backing := ⟨[], 0⟩
    line := ⟨0, [], [], []⟩ }
  (∀ (s : State) (pool : Pool), s.flag .attached = true →
    (s.pool.held = none ∧ pool = s.pool) ∨
    (∃ k slot, s.pool.held = some k ∧ s.pool.slots[k]? = some slot ∧
      pool = ⟨s.pool.slots.set k { slot with len := BitVec.ofNat 32 s.cfg.slotBytes, state := .free },
        s.pool.freeq ++ [k], s.pool.avail + 1, none, 0⟩) →
    exec .detach s =
      if pool.slots.countP (fun slot => slot.state = .inflight) = 0 then .next ((off s).replied .ok .none)
      else .next { s with pool := pool, pending := some .detach }) ∧
  (∀ s : State, s.pending = some .detach → moveStep .timeout s = .next s ∧
    moveStep .producer s =
      if s.pool.slots.countP (fun slot => slot.state = .inflight) = 0 then .next ((off s).replied .ok .none) else .next s)

/-! ## Whole-machine rules -/

/-- 10_state.md R27: LOST_PIXELS is sticky. A step clears it only by running CFGW of STATUS with bit 0 = 1, or by creating or
destroying the session. -/
def Obligations.LostPixelsSticky : Prop :=
  ∀ s t : State, step s = .next t → s.flag .lostPixels = true → t.flag .attached = s.flag .attached →
    t.flag .lostPixels = true ∨
    s.flag .attached = false ∨
    ∃ record rest val, s.nextMove = .producer ∧ s.pending = none ∧ s.queue = record :: rest ∧
      decode s.cfg record = .ok (.cfgw 0x000 val) ∧ val.getLsbD 0 = true

/-- The "written by" column of 10_state.md R24 and the writers of the STATUS bits (R27; 40_channel_split.md R124: MODESET is the only
writer of SPLIT): within a session only the named operations change a register or a STATUS bit, whether they run in one step or go on
after a wait. FILL_FRAME never changes CNT_IDENTICAL (46_frame_loop.md R227). -/
def Obligations.RegistersHaveOneWriter : Prop :=
  (∀ (i : Instr) (s t : State), s.flag .attached = true → t.flag .attached = true → exec i s = .next t →
    let modeset : Prop := ∃ a b c d e f g h j k l, i = .modeset a b c d e f g h j k l
    let render : Prop := ∃ x y w h, i = .renderFrame x y w h
    let fill : Prop := ∃ color, i = .fillFrame color
    (t.link ≠ s.link → ∃ val, i = .cfgw 0x008 val) ∧
    (t.fbReg ≠ s.fbReg ∨ t.flag .fbValid ≠ s.flag .fbValid ∨ t.flag .backingEn ≠ s.flag .backingEn →
      ∃ pitch bpp vx vy width height b, i = .setfb pitch bpp vx vy width height b) ∧
    (t.mode ≠ s.mode ∨ t.base16 ≠ s.base16 ∨ t.base8 ≠ s.base8 ∨ t.flag .modeValid ≠ s.flag .modeValid ∨
      t.flag .split ≠ s.flag .split → modeset) ∧
    (t.cursor ≠ s.cursor → ∃ x y w h bpp visible pix, i = .setcursor x y w h bpp visible pix) ∧
    (t.counters.rendered ≠ s.counters.rendered ∨ t.counters.cpu ≠ s.counters.cpu ∨ t.flag .frameBusy ≠ s.flag .frameBusy →
      render ∨ fill) ∧
    (t.counters.identical ≠ s.counters.identical → render) ∧
    (t.counters.sent ≠ s.counters.sent → i = .submit ∨ modeset ∨ render ∨ fill) ∧
    (t.flag .lostPixels ≠ s.flag .lostPixels → (∃ val, i = .cfgw 0x000 val) ∨ i = .submit ∨ modeset ∨ render ∨ fill)) ∧
  (∀ (m : Move) (p : Pending) (s t : State), s.flag .attached = true → t.flag .attached = true → s.pending = some p →
    m = .producer ∨ m = .timeout → moveStep m s = .next t →
    let modeset : Prop := ∃ mode split, p = .modeset mode split
    let frame : Prop := ∃ f, p = .frame f
    t.link = s.link ∧ t.fbReg = s.fbReg ∧ t.cursor = s.cursor ∧ t.flag .fbValid = s.flag .fbValid ∧
    t.flag .backingEn = s.flag .backingEn ∧
    (t.mode ≠ s.mode ∨ t.base16 ≠ s.base16 ∨ t.base8 ≠ s.base8 ∨ t.flag .modeValid ≠ s.flag .modeValid ∨
      t.flag .split ≠ s.flag .split → modeset) ∧
    (t.counters.rendered ≠ s.counters.rendered ∨ t.counters.cpu ≠ s.counters.cpu ∨ t.flag .frameBusy ≠ s.flag .frameBusy →
      frame) ∧
    (t.counters.identical ≠ s.counters.identical → ∃ f snapshot, p = .frame f ∧ f.source = .framebuffer snapshot) ∧
    (t.counters.sent ≠ s.counters.sent → modeset ∨ frame) ∧
    (t.flag .lostPixels ≠ s.flag .lostPixels → p = .acquire ∨ modeset ∨ frame))

/-- 10_state.md R33 and 45_slot_pool.md R204: within a session CNT_SENT grows, mod 2^32, by exactly the declared lengths of the
SUBMIT events the step adds. -/
def Obligations.SentCountsEvents : Prop :=
  ∀ s t : State, s.flag .attached = true → t.flag .attached = true → step s = .next t →
    ∃ new, t.events = s.events ++ new ∧
      t.counters.sent = s.counters.sent + (new.map SubmitEvent.len).sum

/-- 20_memory.md R61: VPIPE only reads FB. A HOST write stores its bytes and no other step changes a byte. -/
def Obligations.HostOwnsFramebuffer : Prop :=
  ∀ s t : State, step s = .next t →
    ((∀ off bytes, s.nextMove ≠ .hostWrite off bytes) → t.hostFb = s.hostFb) ∧
    (∀ off bytes, s.cfg.Valid → s.nextMove = .hostWrite off bytes →
      (∀ j, (h : j < bytes.length) → Memory.read t.hostFb .hostFb (off + j) = bytes[j]) ∧
      (∀ a, a < off ∨ off + bytes.length ≤ a → Memory.read t.hostFb .hostFb a = Memory.read s.hostFb .hostFb a) ∧
      t.pool = s.pool ∧ t.status = s.status ∧ t.replies = s.replies)

/-- 30_encoding.md R99, R98: the reference decoder takes every slot VPIPE submits. Every step keeps that, and that the held slot's
bytes are whole commands with padding only at the slot's end. -/
def Obligations.WireInvKept : Prop := ∀ s t : State, PoolInv s → WireInv s → step s = .next t → WireInv t

/-- Every step keeps every memory in its canonical form. The form is the model's (log entry 10). -/
def Obligations.MemoryInvKept : Prop := ∀ s t : State, MemoryInv s → step s = .next t → MemoryInv t

/-- Every step keeps the register rules of 10_state.md R26, R27, R31 and R42: reserved bits read 0, FRAME_BUSY is 1 exactly while a
frame operation waits between its steps, CUR_BPP is 32, the sprite has CUR_W × CUR_H pixels. CUR_BPP = 32 without a session is log entry 2. -/
def Obligations.RegisterInvKept : Prop := ∀ s t : State, RegisterInv s → step s = .next t → RegisterInv t

/-- Every step keeps the geometry rules: the pitch holds a row (46_frame_loop.md R234), BACKING exists only with a framebuffer and
is written only inside its size (10_state.md R39), a waiting RENDER_FRAME stays in the visible area (R220). -/
def Obligations.GeometryInvKept : Prop := ∀ s t : State, GeometryInv s → step s = .next t → GeometryInv t

/-- The state after reset is the power-on state of 10_state.md R46 (taking it as the reset is log entry 1): no session, no pool, no
backing buffer, no sprite, no mark, nothing issued; and it meets every invariant. -/
def Obligations.ResetIsPowerOnState : Prop :=
  State.reset.flag .attached = false ∧ State.reset.status = 0 ∧ State.reset.pool = ⟨[], [], 0, none, 0⟩ ∧
  State.reset.backing.cells = [] ∧ State.reset.cursor.pix = [] ∧ State.reset.marks = ⟨false, false, false, false⟩ ∧
  State.reset.pending = none ∧ State.reset.queue = [] ∧ State.reset.events = [] ∧
  PoolInv State.reset ∧ WireInv State.reset ∧ MemoryInv State.reset ∧ RegisterInv State.reset ∧ GeometryInv State.reset

/-! ## Wire commands -/

/-- W_RUN16 and W_RUN8 (30_encoding.md R94, 42_run_encoder.md R146): the raw values and then the copies of the last one go to
consecutive device addresses, 2 or 1 apart and mod 2^24, and the reader's list grows by the run; a run command whose raw count is
not 1 to 255 is rejected (30_encoding.md R97, R99, 42_run_encoder.md R147), on which the machine stops by name (log entry 24). That
the machine runs the commands is log entry 12; which byte of a 16-bit value lies lower is free (log entry 13). -/
def Obligations.RunsReachDevice : Prop :=
  (∀ (s : State) (addr : DevAddr) (rep : Byte) (raw : List Half),
    (raw.length = 0 ∨ 255 < raw.length → exec (.wRun16 addr rep raw) s = .refused .wireRejected) ∧
    ∀ last, raw.getLast? = some last → raw.length ≤ 255 →
    let vals := raw ++ List.replicate rep.toNat last
    ∃ mem, exec (.wRun16 addr rep raw) s =
        .next { s with device := ⟨mem, s.device.regs, s.device.items ++ [.run16 addr vals]⟩ } ∧
      (∀ j v, vals[j]? = some v →
        Memory.read mem .deviceMem (addr + BitVec.ofNat 24 (2 * j)).toNat =
          (if Config.deviceHighByteFirst then v.extractLsb' 8 8 else v.extractLsb' 0 8) ∧
        Memory.read mem .deviceMem (addr + BitVec.ofNat 24 (2 * j + 1)).toNat =
          (if Config.deviceHighByteFirst then v.extractLsb' 0 8 else v.extractLsb' 8 8)) ∧
      ∀ a, (∀ j < 2 * vals.length, a ≠ (addr + BitVec.ofNat 24 j).toNat) →
        Memory.read mem .deviceMem a = Memory.read s.device.mem .deviceMem a) ∧
  (∀ (s : State) (addr : DevAddr) (rep : Byte) (raw : List Byte),
    (raw.length = 0 ∨ 255 < raw.length → exec (.wRun8 addr rep raw) s = .refused .wireRejected) ∧
    ∀ last, raw.getLast? = some last → raw.length ≤ 255 →
    let vals := raw ++ List.replicate rep.toNat last
    ∃ mem, exec (.wRun8 addr rep raw) s =
        .next { s with device := ⟨mem, s.device.regs, s.device.items ++ [.run8 addr vals]⟩ } ∧
      (∀ j v, vals[j]? = some v → Memory.read mem .deviceMem (addr + BitVec.ofNat 24 j).toNat = v) ∧
      ∀ a, (∀ j < vals.length, a ≠ (addr + BitVec.ofNat 24 j).toNat) →
        Memory.read mem .deviceMem a = Memory.read s.device.mem .deviceMem a)

/-- W_REGW sets one device register (30_encoding.md R95) and W_PAD carries no command (R96); the reader notes each (log entry 12). -/
def Obligations.RegwAndPadReachDevice : Prop :=
  (∀ (s : State) (reg val : Byte), ∃ regs, exec (.wRegw reg val) s =
      .next { s with device := ⟨s.device.mem, regs, s.device.items ++ [.regw reg val]⟩ } ∧
    ∀ a, Memory.read regs .deviceReg a = if a = reg.toNat then val else Memory.read s.device.regs .deviceReg a) ∧
  (∀ (s : State) (n : Nat), exec (.wPad n) s =
    .next { s with device := { s.device with items := s.device.items ++ [.pad n] } })

/-! ## Whole frames -/

/-- RENDER_FRAME and FILL_FRAME with any number of lines and slots (46_frame_loop.md R220 to R229, 42_run_encoder.md R151), at once
or when a slot comes free for a waiting frame: what they have still to do is the work of `FrameCtx.workLeft`, line after line and
within a line the 16-bit channel first, a fresh slot each time one is full.
Where the free slots are enough, every slot is submitted, the last one with its actual length or released when empty; accepted slots
are in flight and give their SUBMIT events in order, rejected ones go back to FREEQ and set LOST_PIXELS; BACKING and the counters are
those of the lines; the request returns OK.
Where they run out after `c + 1` slots, the frame waits with FRAME_BUSY as it was begun, and what it has still to do there is exactly
the rest: no pixel is encoded twice and none is left out.
The splitters are PRESUMED, log entry 4; the draws are log entry 9. -/
def Obligations.FrameSendsItsSlots : Prop :=
  ∀ (s : State) (f : FrameCtx) (begun : Word) (out : Host.Outcome State Fault Refusal), PoolInv s → s.pool.freeq ≠ [] →
    (∃ i, FrameStarts i s f ∧ out = exec i s ∧ begun = s.status ||| 0x00000002) ∨
    (s.pending = some (.frame f) ∧ (f.phase = .line → f.y < f.yEnd) ∧ out = moveStep .producer s ∧ begun = s.status) →
    let work := f.workLeft s
    let deliver (slots : List (List Byte)) := deliver (fun j => (s.afterDraws j).nextChoice) 0 s.pool.freeq slots
    ((deliver work.packing.full).free ≠ [] →
      let slots := work.packing.full ++ (if work.packing.current = [] then [] else [work.packing.current])
      let d := deliver slots
      ∃ t, out = .next t ∧ s.FrameKept t ∧
        Pool.Delivered s.cfg.slotBytes s.pool t.pool d
          (if work.packing.current = [] then d.free.tail ++ d.free.take 1 else d.free) ∧
        t.events = s.events ++ d.events ∧ t.backing = work.backing ∧
        t.counters = ⟨s.counters.rendered + BitVec.ofNat 32 (4 * (f.x1 - f.x0) * f.linesLeft.length),
          s.counters.identical + BitVec.ofNat 32 work.identical, s.counters.sent + (d.events.map SubmitEvent.len).sum,
          s.counters.cpu + (s.afterDraws slots.length).nextDraw⟩ ∧
        t.status = (if d.events.length = slots.length then s.status else s.status ||| 0x00000001) &&& ~~~0x00000002#32 ∧
        t.pending = none ∧ t.replies = s.replies ++ [⟨.ok, .none⟩] ∧
        t.draws = (s.afterDraws (slots.length + 1)).draws ∧ t.drawCount = (s.afterDraws (slots.length + 1)).drawCount) ∧
    (∀ c, c < work.packing.full.length → (deliver (work.packing.full.take c)).free ≠ [] →
      (deliver (work.packing.full.take (c + 1))).free = [] →
      let d := deliver (work.packing.full.take (c + 1))
      ∃ t g, out = .next t ∧ s.FrameKept t ∧ t.pending = some (.frame g) ∧
        g.source = f.source ∧ g.x0 = f.x0 ∧ g.x1 = f.x1 ∧ g.yEnd = f.yEnd ∧ g.t = 0 ∧ g.phase ≠ .line ∧ f.y ≤ g.y ∧
        Pool.Delivered s.cfg.slotBytes s.pool t.pool d [] ∧ t.events = s.events ++ d.events ∧ t.replies = s.replies ∧
        t.counters.rendered =
          s.counters.rendered + BitVec.ofNat 32 (4 * (f.x1 - f.x0) * (f.linesLeft.length - g.linesLeft.length)) ∧
        t.counters.sent = s.counters.sent + (d.events.map SubmitEvent.len).sum ∧ t.counters.cpu = s.counters.cpu ∧
        t.status = (if d.events.length = c + 1 then begun else begun ||| 0x00000001) ∧
        t.draws = (s.afterDraws (c + 1)).draws ∧ t.drawCount = (s.afterDraws (c + 1)).drawCount ∧
        (g.workLeft t).packing = ⟨work.packing.full.drop (c + 1), work.packing.current⟩ ∧
        (g.workLeft t).backing = work.backing ∧
        t.counters.identical + BitVec.ofNat 32 (g.workLeft t).identical =
          s.counters.identical + BitVec.ofNat 32 work.identical)
end

