-- ==== Sys2Proof/Laws/Bits.lean ====
section
/-!
SUPPORT. Byte order: taking a value apart into bytes and putting it together again; each reader of Decode.lean takes back what
the encoder wrote.
-/

namespace Sys2Proof

/-- Neighbouring fields join. -/
theorem joinBits {n : Nat} (v : BitVec n) (lo a b : Nat) :
    v.extractLsb' (lo + a) b ++ v.extractLsb' lo a = v.extractLsb' lo (b + a) := by
  rw [BitVec.extractLsb'_append_extractLsb'_eq_extractLsb' (by rfl)]

theorem append32 (v : Word) :
    (v.extractLsb' 24 8 ++ v.extractLsb' 16 8 ++ v.extractLsb' 8 8 ++ v.extractLsb' 0 8 : BitVec 32) = v := by
  have h1 : v.extractLsb' 24 8 ++ v.extractLsb' 16 8 = v.extractLsb' 16 16 := joinBits v 16 8 8
  have h2 : v.extractLsb' 16 16 ++ v.extractLsb' 8 8 = v.extractLsb' 8 24 := joinBits v 8 8 16
  have h3 : v.extractLsb' 8 24 ++ v.extractLsb' 0 8 = v.extractLsb' 0 32 := joinBits v 0 8 24
  rw [h1]
  erw [h2, h3]
  exact BitVec.extractLsb'_eq_self

theorem append24 (v : DevAddr) : (v.extractLsb' 16 8 ++ v.extractLsb' 8 8 ++ v.extractLsb' 0 8 : BitVec 24) = v := by
  have h2 : v.extractLsb' 16 8 ++ v.extractLsb' 8 8 = v.extractLsb' 8 16 := joinBits v 8 8 8
  have h3 : v.extractLsb' 8 16 ++ v.extractLsb' 0 8 = v.extractLsb' 0 24 := joinBits v 0 8 16
  rw [h2]
  erw [h3]
  exact BitVec.extractLsb'_eq_self

theorem append16 (v : Half) : (v.extractLsb' 8 8 ++ v.extractLsb' 0 8 : BitVec 16) = v := by
  have h3 : v.extractLsb' 8 8 ++ v.extractLsb' 0 8 = v.extractLsb' 0 16 := joinBits v 0 8 8
  erw [h3]
  exact BitVec.extractLsb'_eq_self

@[simp] theorem le32_bytesLe32 (v : Word) :
    le32 (v.extractLsb' 0 8) (v.extractLsb' 8 8) (v.extractLsb' 16 8) (v.extractLsb' 24 8) = v := append32 v

@[simp] theorem rd32_bytesLe32 (v : Word) (bs : List Byte) : rd32 (bytesLe32 v ++ bs) = .ok (v, bs) := by
  simp [bytesLe32, rd32]

@[simp] theorem rd24_bytesLe24 (v : DevAddr) (bs : List Byte) : rd24 (bytesLe24 v ++ bs) = .ok (v, bs) := by
  simp only [bytesLe24, rd24, List.cons_append, List.nil_append]
  rw [append24]

@[simp] theorem rd16_bytesLe16 (v : Half) (bs : List Byte) : rd16 (bytesLe16 v ++ bs) = .ok (v, bs) := by
  simp only [bytesLe16, rd16, List.cons_append, List.nil_append]
  rw [append16]

@[simp] theorem rdBe16_bytesBe16 (v : Half) (bs : List Byte) : rdBe16 (bytesBe16 v ++ bs) = .ok (v, bs) := by
  simp only [bytesBe16, rdBe16, List.cons_append, List.nil_append]
  rw [append16]

@[simp] theorem rd8_cons (b : Byte) (bs : List Byte) : rd8 (b :: bs) = .ok (b, bs) := rfl

@[simp] theorem rd8_byte1 (b : Byte) (bs : List Byte) : rd8 (byte1 b ++ bs) = .ok (b, bs) := rfl

@[simp] theorem rdBit_byteOfBool (b : Bool) (bs : List Byte) : rdBit (byteOfBool b :: bs) = .ok (b, bs) := by
  cases b <;> simp [rdBit, byteOfBool]

/-- A reader that takes back each element takes back the list. -/
theorem rdMany_flatMap {α : Type} (rd : List Byte → Except DecodeError (α × List Byte)) (put : α → List Byte)
    (h : ∀ x bs, rd (put x ++ bs) = .ok (x, bs)) (xs : List α) (bs : List Byte) :
    rdMany rd xs.length (xs.flatMap put ++ bs) = .ok (xs, bs) := by
  induction xs with
  | nil => rfl
  | cons x xs ih => simp [rdMany, h, ih, bind, Except.bind]

theorem rdNat_bytesNatUpTo {bound n : Nat} (h : n ≤ bound) (bs : List Byte) :
    rdNat (bytesNatUpTo bound n ++ bs) = .ok (n, bs) := by
  induction bound generalizing n with
  | zero =>
    obtain rfl : n = 0 := by omega
    rfl
  | succ bound ih =>
    unfold bytesNatUpTo
    split
    · next hn =>
      have hb : (BitVec.ofNat 8 n).toNat = n := by simp; omega
      simp [rdNat, hb, hn]
    · next hn =>
      have hb : (BitVec.ofNat 8 (128 + n % 128)).toNat = 128 + n % 128 := by simp; omega
      have hq : 128 + n % 128 - 128 + 128 * (n / 128) = n := by omega
      simp only [List.cons_append, rdNat, hb, ih (show n / 128 ≤ bound by omega), bind, Except.bind, hq]
      rw [if_neg (by omega)]

/-- A number of any size is taken back. -/
@[simp] theorem rdNat_bytesNat (n : Nat) (bs : List Byte) : rdNat (bytesNat n ++ bs) = .ok (n, bs) :=
  rdNat_bytesNatUpTo le_rfl bs

/-- A counted list is taken back. -/
theorem rdList_encList {α : Type} (rd : List Byte → Except DecodeError (α × List Byte)) (put : α → List Byte)
    (h : ∀ x bs, rd (put x ++ bs) = .ok (x, bs)) (xs : List α) (bs : List Byte) :
    rdList rd (encList put xs ++ bs) = .ok (xs, bs) := by
  simp only [rdList, encList, List.append_assoc, rdNat_bytesNat, bind, Except.bind]
  rw [rdMany_flatMap rd put h]

/-- TRANSPORT's record of a COMPLETE decodes to it. -/
@[simp] theorem decode_encode_complete (p : Params) (k : Nat) : decode p (encode p (.complete k)) = .ok (.complete k) := by
  have h := rdNat_bytesNat k []
  rw [List.append_nil] at h
  simp [decode, decodeFirst, decodeOp, encode, h, bind, Except.bind]

/-- What follows the opcode bytes of a run command is taken back. -/
theorem rdRun_runBytes {α : Type} (rd : List Byte → Except DecodeError (α × List Byte)) (put : α → List Byte)
    (h : ∀ x bs, rd (put x ++ bs) = .ok (x, bs)) (addr : DevAddr) (rep : Byte) (raw : List α) (hlen : raw.length ≤ 255)
    (bs : List Byte) :
    rdRun rd (bytesBe24 addr ++ [BitVec.ofNat 8 raw.length, rep] ++ raw.flatMap put ++ bs) = .ok ((addr, rep, raw), bs) := by
  have hn : (BitVec.ofNat 8 raw.length).toNat = raw.length := by simp; omega
  simp only [bytesBe24, rdRun, List.cons_append, List.nil_append, hn, rdMany_flatMap rd put h, bind, Except.bind]
  rw [append24]

end Sys2Proof
end

