-- ==== Sys2Proof/Laws/Memory.lean ====
section
/-!
SUPPORT. Byte memories: a read after a write, the bytes a write leaves alone, and that every write keeps the canonical form.
-/

namespace Sys2Proof.Machine

@[simp] theorem Memory.find_nil (a : Nat) : Memory.find [] a = none := rfl

@[simp] theorem Memory.find_store_same (m : Memory) (a : Nat) (v : Byte) : Memory.find (Memory.store m a v) a = some v := by
  induction m with
  | nil => simp [Memory.store, Memory.find]
  | cons c m ih =>
    obtain ⟨b, w⟩ := c
    simp only [Memory.store]
    split
    · simp [Memory.find]
    · split
      · simp [Memory.find]
      · simp [Memory.find, *]

theorem Memory.find_store_other (m : Memory) {a b : Nat} (v : Byte) (h : b ≠ a) :
    Memory.find (Memory.store m a v) b = Memory.find m b := by
  induction m with
  | nil => simp [Memory.store, Memory.find, h]
  | cons c m ih =>
    obtain ⟨d, w⟩ := c
    simp only [Memory.store]
    split
    · simp [Memory.find, h]
    · split
      · next hd => subst hd; simp [Memory.find, h]
      · simp [Memory.find, ih]

theorem Memory.mem_store {m : Memory} {a : Nat} {v : Byte} {c : Host.Cell} (h : c ∈ Memory.store m a v) :
    c = (a, v) ∨ c ∈ m := by
  induction m with
  | nil => simpa [Memory.store] using h
  | cons d m ih =>
    obtain ⟨b, w⟩ := d
    simp only [Memory.store] at h
    split at h
    · simpa using h
    · split at h
      · simp at h ⊢; tauto
      · simp at h ⊢
        rcases h with h | h
        · exact .inr (.inl h)
        · rcases ih h with h | h <;> simp [h]

/-- A write keeps the canonical form. -/
theorem Memory.store_wf {m : Memory} (a : Nat) (v : Byte) (h : Memory.wf m) : Memory.wf (Memory.store m a v) := by
  induction m with
  | nil => simp [Memory.store, Memory.wf]
  | cons c m ih =>
    obtain ⟨b, w⟩ := c
    have hm : Memory.wf m := (List.pairwise_cons.mp h).2
    have hb : ∀ c ∈ m, b < c.1 := (List.pairwise_cons.mp h).1
    simp only [Memory.store]
    split
    · next hab =>
      refine List.pairwise_cons.mpr ⟨?_, h⟩
      intro c hc
      rcases List.mem_cons.mp hc with rfl | hc
      · exact hab
      · exact lt_trans hab (hb c hc)
    · next hab =>
      split
      · next hEq => subst hEq; exact List.pairwise_cons.mpr ⟨hb, hm⟩
      · next hne =>
        refine List.pairwise_cons.mpr ⟨?_, ih hm⟩
        intro c hc
        rcases Memory.mem_store hc with rfl | hc
        · show b < a
          omega
        · exact hb c hc

/-- Writing bytes keeps the canonical form. -/
theorem Memory.storeList_wf {m : Memory} (a : Nat) (vs : List Byte) (h : Memory.wf m) :
    Memory.wf (Memory.storeList m a vs) := by
  induction vs generalizing m a with
  | nil => exact h
  | cons v vs ih => exact ih (a + 1) (Memory.store_wf a v h)

@[simp] theorem Memory.storeList_nil (m : Memory) (a : Nat) : Memory.storeList m a [] = m := rfl

/-- An address outside the written range keeps its byte. -/
theorem Memory.find_storeList_other (m : Memory) {a b : Nat} (vs : List Byte) (h : b < a ∨ a + vs.length ≤ b) :
    Memory.find (Memory.storeList m a vs) b = Memory.find m b := by
  induction vs generalizing m a with
  | nil => rfl
  | cons v vs ih =>
    simp only [Memory.storeList, List.length_cons] at h ⊢
    rw [ih _ (by omega), Memory.find_store_other _ _ (by omega)]

/-- An address inside the written range holds its byte. -/
theorem Memory.find_storeList_inside (m : Memory) (a : Nat) (vs : List Byte) {j : Nat} (h : j < vs.length) :
    Memory.find (Memory.storeList m a vs) (a + j) = some vs[j] := by
  induction vs generalizing m a j with
  | nil => simp at h
  | cons v vs ih =>
    simp only [Memory.storeList]
    cases j with
    | zero => rw [Memory.find_storeList_other _ _ (by omega)]; simp
    | succ j =>
      have := ih (Memory.store m a v) (a + 1) (j := j) (by simpa using h)
      rw [show a + (j + 1) = a + 1 + j by omega, this]
      simp

theorem Memory.read_storeList_other (m : Memory) (sp : Config.Space) {a b : Nat} (vs : List Byte)
    (h : b < a ∨ a + vs.length ≤ b) : Memory.read (Memory.storeList m a vs) sp b = Memory.read m sp b := by
  simp [Memory.read, Memory.find_storeList_other m vs h]

theorem Memory.read_storeList_inside (m : Memory) (sp : Config.Space) (a : Nat) (vs : List Byte) {j : Nat}
    (h : j < vs.length) : Memory.read (Memory.storeList m a vs) sp (a + j) = vs[j] := by
  simp [Memory.read, Memory.find_storeList_inside m a vs h]

@[simp] theorem Memory.length_readList (m : Memory) (sp : Config.Space) (a n : Nat) :
    (Memory.readList m sp a n).length = n := by
  simp [Memory.readList]

/-- Reading back the bytes just written. -/
theorem Memory.readList_storeList (m : Memory) (sp : Config.Space) (a : Nat) (vs : List Byte) :
    Memory.readList (Memory.storeList m a vs) sp a vs.length = vs := by
  refine List.ext_getElem (by simp) fun j h₁ h₂ => ?_
  simp [Memory.readList, Memory.read_storeList_inside m sp a vs h₂]

/-- Reading a range that a write does not touch. -/
theorem Memory.readList_storeList_other (m : Memory) (sp : Config.Space) {a b n : Nat} (vs : List Byte)
    (h : b + n ≤ a ∨ a + vs.length ≤ b) :
    Memory.readList (Memory.storeList m a vs) sp b n = Memory.readList m sp b n := by
  refine List.ext_getElem (by simp) fun j h₁ h₂ => ?_
  simp only [Memory.length_readList] at h₁
  simp only [Memory.readList, List.getElem_map, List.getElem_range]
  exact Memory.read_storeList_other m sp vs (by omega)

/-- Two writes, one after the other in memory, are one write. -/
theorem Memory.storeList_append (m : Memory) (a : Nat) (us vs : List Byte) :
    Memory.storeList m a (us ++ vs) = Memory.storeList (Memory.storeList m a us) (a + us.length) vs := by
  induction us generalizing m a with
  | nil => simp
  | cons u us ih => simp [Memory.storeList, ih, Nat.add_assoc, Nat.add_comm 1]

/-- Every entry after a write is an old one or lies in the written range. -/
theorem Memory.mem_storeList {m : Memory} {a : Nat} {vs : List Byte} {c : Host.Cell} (h : c ∈ Memory.storeList m a vs) :
    c ∈ m ∨ (a ≤ c.1 ∧ c.1 < a + vs.length) := by
  induction vs generalizing m a with
  | nil => exact .inl h
  | cons v vs ih =>
    rcases ih h with h | h
    · rcases Memory.mem_store h with rfl | h
      · right; simp
      · exact .inl h
    · right; simp only [List.length_cons]; omega

/-- In canonical form, an entry is what its address finds. -/
theorem Memory.find_of_mem {m : Memory} (h : Memory.wf m) {c : Host.Cell} (hc : c ∈ m) : Memory.find m c.1 = some c.2 := by
  induction m with
  | nil => simp at hc
  | cons d m ih =>
    obtain ⟨b, w⟩ := d
    rcases List.mem_cons.mp hc with rfl | hc
    · simp [Memory.find]
    · have hlt := (List.pairwise_cons.mp h).1 c hc
      have : c.1 ≠ b := by intro e; simp [e] at hlt
      simp [Memory.find, this, ih (List.pairwise_cons.mp h).2 hc]

end Sys2Proof.Machine
end

