-- ==== Sys2Proof/Laws/State.lean ====
section
/-!
SUPPORT. What each update of the state leaves alone, one lemma per field per update, and the flags after a flag is written.
-/

namespace Sys2Proof.Machine

/-! ## Flags -/

theorem getLsbD_setBit (w : Word) (i j : Nat) (b : Bool) (hj : j < 32) :
    (setBit w i b).getLsbD j = if i = j then b else w.getLsbD j := by
  cases b <;> by_cases h : i = j <;>
    simp [setBit, hj, h]
  all_goals omega

theorem StatusFlag.bit_lt (f : StatusFlag) : f.bit < 32 := by cases f <;> decide

theorem StatusFlag.bit_injective {f g : StatusFlag} (h : f.bit = g.bit) : f = g := by
  cases f <;> cases g <;> first | rfl | exact absurd h (by decide)

/-- A flag after a flag is written. -/
@[simp] theorem State.flag_setFlag (s : State) (f g : StatusFlag) (b : Bool) :
    (s.setFlag f b).flag g = if f = g then b else s.flag g := by
  unfold State.flag State.setFlag
  rw [getLsbD_setBit _ _ _ _ g.bit_lt]
  by_cases h : f = g
  · simp [h]
  · rw [if_neg (fun e => h (StatusFlag.bit_injective e)), if_neg h]

@[simp] theorem State.deviceActive_setDeviceActive (s : State) (b : Bool) : (s.setDeviceActive b).deviceActive = b := by
  cases b <;> simp [State.deviceActive, State.setDeviceActive]

/-! ## Fields -/

@[simp] theorem State.setFlag_cfg (s : State) (f : StatusFlag) (b : Bool) : (s.setFlag f b).cfg = s.cfg := rfl
@[simp] theorem State.setFlag_link (s : State) (f : StatusFlag) (b : Bool) : (s.setFlag f b).link = s.link := rfl
@[simp] theorem State.setFlag_fbReg (s : State) (f : StatusFlag) (b : Bool) : (s.setFlag f b).fbReg = s.fbReg := rfl
@[simp] theorem State.setFlag_mode (s : State) (f : StatusFlag) (b : Bool) : (s.setFlag f b).mode = s.mode := rfl
@[simp] theorem State.setFlag_base16 (s : State) (f : StatusFlag) (b : Bool) : (s.setFlag f b).base16 = s.base16 := rfl
@[simp] theorem State.setFlag_base8 (s : State) (f : StatusFlag) (b : Bool) : (s.setFlag f b).base8 = s.base8 := rfl
@[simp] theorem State.setFlag_cursor (s : State) (f : StatusFlag) (b : Bool) : (s.setFlag f b).cursor = s.cursor := rfl
@[simp] theorem State.setFlag_counters (s : State) (f : StatusFlag) (b : Bool) : (s.setFlag f b).counters = s.counters := rfl
@[simp] theorem State.setFlag_pool (s : State) (f : StatusFlag) (b : Bool) : (s.setFlag f b).pool = s.pool := rfl
@[simp] theorem State.setFlag_backing (s : State) (f : StatusFlag) (b : Bool) : (s.setFlag f b).backing = s.backing := rfl
@[simp] theorem State.setFlag_line (s : State) (f : StatusFlag) (b : Bool) : (s.setFlag f b).line = s.line := rfl
@[simp] theorem State.setFlag_marks (s : State) (f : StatusFlag) (b : Bool) : (s.setFlag f b).marks = s.marks := rfl
@[simp] theorem State.setFlag_pending (s : State) (f : StatusFlag) (b : Bool) : (s.setFlag f b).pending = s.pending := rfl
@[simp] theorem State.setFlag_hostFb (s : State) (f : StatusFlag) (b : Bool) : (s.setFlag f b).hostFb = s.hostFb := rfl
@[simp] theorem State.setFlag_device (s : State) (f : StatusFlag) (b : Bool) : (s.setFlag f b).device = s.device := rfl
@[simp] theorem State.setFlag_queue (s : State) (f : StatusFlag) (b : Bool) : (s.setFlag f b).queue = s.queue := rfl
@[simp] theorem State.setFlag_moves (s : State) (f : StatusFlag) (b : Bool) : (s.setFlag f b).moves = s.moves := rfl
@[simp] theorem State.setFlag_replies (s : State) (f : StatusFlag) (b : Bool) : (s.setFlag f b).replies = s.replies := rfl
@[simp] theorem State.setFlag_events (s : State) (f : StatusFlag) (b : Bool) : (s.setFlag f b).events = s.events := rfl
@[simp] theorem State.setFlag_draws (s : State) (f : StatusFlag) (b : Bool) : (s.setFlag f b).draws = s.draws := rfl
@[simp] theorem State.setFlag_drawCount (s : State) (f : StatusFlag) (b : Bool) : (s.setFlag f b).drawCount = s.drawCount := rfl
@[simp] theorem State.setFlag_deviceActive (s : State) (f : StatusFlag) (b : Bool) : (s.setFlag f b).deviceActive = s.deviceActive := by simp [State.deviceActive]

@[simp] theorem State.setDeviceActive_cfg (s : State) (b : Bool) : (s.setDeviceActive b).cfg = s.cfg := rfl
@[simp] theorem State.setDeviceActive_status (s : State) (b : Bool) : (s.setDeviceActive b).status = s.status := rfl
@[simp] theorem State.setDeviceActive_fbReg (s : State) (b : Bool) : (s.setDeviceActive b).fbReg = s.fbReg := rfl
@[simp] theorem State.setDeviceActive_mode (s : State) (b : Bool) : (s.setDeviceActive b).mode = s.mode := rfl
@[simp] theorem State.setDeviceActive_base16 (s : State) (b : Bool) : (s.setDeviceActive b).base16 = s.base16 := rfl
@[simp] theorem State.setDeviceActive_base8 (s : State) (b : Bool) : (s.setDeviceActive b).base8 = s.base8 := rfl
@[simp] theorem State.setDeviceActive_cursor (s : State) (b : Bool) : (s.setDeviceActive b).cursor = s.cursor := rfl
@[simp] theorem State.setDeviceActive_counters (s : State) (b : Bool) : (s.setDeviceActive b).counters = s.counters := rfl
@[simp] theorem State.setDeviceActive_pool (s : State) (b : Bool) : (s.setDeviceActive b).pool = s.pool := rfl
@[simp] theorem State.setDeviceActive_backing (s : State) (b : Bool) : (s.setDeviceActive b).backing = s.backing := rfl
@[simp] theorem State.setDeviceActive_line (s : State) (b : Bool) : (s.setDeviceActive b).line = s.line := rfl
@[simp] theorem State.setDeviceActive_marks (s : State) (b : Bool) : (s.setDeviceActive b).marks = s.marks := rfl
@[simp] theorem State.setDeviceActive_pending (s : State) (b : Bool) : (s.setDeviceActive b).pending = s.pending := rfl
@[simp] theorem State.setDeviceActive_hostFb (s : State) (b : Bool) : (s.setDeviceActive b).hostFb = s.hostFb := rfl
@[simp] theorem State.setDeviceActive_device (s : State) (b : Bool) : (s.setDeviceActive b).device = s.device := rfl
@[simp] theorem State.setDeviceActive_queue (s : State) (b : Bool) : (s.setDeviceActive b).queue = s.queue := rfl
@[simp] theorem State.setDeviceActive_moves (s : State) (b : Bool) : (s.setDeviceActive b).moves = s.moves := rfl
@[simp] theorem State.setDeviceActive_replies (s : State) (b : Bool) : (s.setDeviceActive b).replies = s.replies := rfl
@[simp] theorem State.setDeviceActive_events (s : State) (b : Bool) : (s.setDeviceActive b).events = s.events := rfl
@[simp] theorem State.setDeviceActive_draws (s : State) (b : Bool) : (s.setDeviceActive b).draws = s.draws := rfl
@[simp] theorem State.setDeviceActive_drawCount (s : State) (b : Bool) : (s.setDeviceActive b).drawCount = s.drawCount := rfl
@[simp] theorem State.setDeviceActive_flag (s : State) (b : Bool) (g : StatusFlag) : (s.setDeviceActive b).flag g = s.flag g := by simp [State.flag]

@[simp] theorem State.countRendered_cfg (s : State) (n : Nat) : (s.countRendered n).cfg = s.cfg := rfl
@[simp] theorem State.countRendered_status (s : State) (n : Nat) : (s.countRendered n).status = s.status := rfl
@[simp] theorem State.countRendered_link (s : State) (n : Nat) : (s.countRendered n).link = s.link := rfl
@[simp] theorem State.countRendered_fbReg (s : State) (n : Nat) : (s.countRendered n).fbReg = s.fbReg := rfl
@[simp] theorem State.countRendered_mode (s : State) (n : Nat) : (s.countRendered n).mode = s.mode := rfl
@[simp] theorem State.countRendered_base16 (s : State) (n : Nat) : (s.countRendered n).base16 = s.base16 := rfl
@[simp] theorem State.countRendered_base8 (s : State) (n : Nat) : (s.countRendered n).base8 = s.base8 := rfl
@[simp] theorem State.countRendered_cursor (s : State) (n : Nat) : (s.countRendered n).cursor = s.cursor := rfl
@[simp] theorem State.countRendered_pool (s : State) (n : Nat) : (s.countRendered n).pool = s.pool := rfl
@[simp] theorem State.countRendered_backing (s : State) (n : Nat) : (s.countRendered n).backing = s.backing := rfl
@[simp] theorem State.countRendered_line (s : State) (n : Nat) : (s.countRendered n).line = s.line := rfl
@[simp] theorem State.countRendered_marks (s : State) (n : Nat) : (s.countRendered n).marks = s.marks := rfl
@[simp] theorem State.countRendered_pending (s : State) (n : Nat) : (s.countRendered n).pending = s.pending := rfl
@[simp] theorem State.countRendered_hostFb (s : State) (n : Nat) : (s.countRendered n).hostFb = s.hostFb := rfl
@[simp] theorem State.countRendered_device (s : State) (n : Nat) : (s.countRendered n).device = s.device := rfl
@[simp] theorem State.countRendered_queue (s : State) (n : Nat) : (s.countRendered n).queue = s.queue := rfl
@[simp] theorem State.countRendered_moves (s : State) (n : Nat) : (s.countRendered n).moves = s.moves := rfl
@[simp] theorem State.countRendered_replies (s : State) (n : Nat) : (s.countRendered n).replies = s.replies := rfl
@[simp] theorem State.countRendered_events (s : State) (n : Nat) : (s.countRendered n).events = s.events := rfl
@[simp] theorem State.countRendered_draws (s : State) (n : Nat) : (s.countRendered n).draws = s.draws := rfl
@[simp] theorem State.countRendered_drawCount (s : State) (n : Nat) : (s.countRendered n).drawCount = s.drawCount := rfl
@[simp] theorem State.countRendered_flag (s : State) (n : Nat) (g : StatusFlag) : (s.countRendered n).flag g = s.flag g := by simp [State.flag]
@[simp] theorem State.countRendered_deviceActive (s : State) (n : Nat) : (s.countRendered n).deviceActive = s.deviceActive := by simp [State.deviceActive]

@[simp] theorem State.countIdentical_cfg (s : State) (n : Nat) : (s.countIdentical n).cfg = s.cfg := rfl
@[simp] theorem State.countIdentical_status (s : State) (n : Nat) : (s.countIdentical n).status = s.status := rfl
@[simp] theorem State.countIdentical_link (s : State) (n : Nat) : (s.countIdentical n).link = s.link := rfl
@[simp] theorem State.countIdentical_fbReg (s : State) (n : Nat) : (s.countIdentical n).fbReg = s.fbReg := rfl
@[simp] theorem State.countIdentical_mode (s : State) (n : Nat) : (s.countIdentical n).mode = s.mode := rfl
@[simp] theorem State.countIdentical_base16 (s : State) (n : Nat) : (s.countIdentical n).base16 = s.base16 := rfl
@[simp] theorem State.countIdentical_base8 (s : State) (n : Nat) : (s.countIdentical n).base8 = s.base8 := rfl
@[simp] theorem State.countIdentical_cursor (s : State) (n : Nat) : (s.countIdentical n).cursor = s.cursor := rfl
@[simp] theorem State.countIdentical_pool (s : State) (n : Nat) : (s.countIdentical n).pool = s.pool := rfl
@[simp] theorem State.countIdentical_backing (s : State) (n : Nat) : (s.countIdentical n).backing = s.backing := rfl
@[simp] theorem State.countIdentical_line (s : State) (n : Nat) : (s.countIdentical n).line = s.line := rfl
@[simp] theorem State.countIdentical_marks (s : State) (n : Nat) : (s.countIdentical n).marks = s.marks := rfl
@[simp] theorem State.countIdentical_pending (s : State) (n : Nat) : (s.countIdentical n).pending = s.pending := rfl
@[simp] theorem State.countIdentical_hostFb (s : State) (n : Nat) : (s.countIdentical n).hostFb = s.hostFb := rfl
@[simp] theorem State.countIdentical_device (s : State) (n : Nat) : (s.countIdentical n).device = s.device := rfl
@[simp] theorem State.countIdentical_queue (s : State) (n : Nat) : (s.countIdentical n).queue = s.queue := rfl
@[simp] theorem State.countIdentical_moves (s : State) (n : Nat) : (s.countIdentical n).moves = s.moves := rfl
@[simp] theorem State.countIdentical_replies (s : State) (n : Nat) : (s.countIdentical n).replies = s.replies := rfl
@[simp] theorem State.countIdentical_events (s : State) (n : Nat) : (s.countIdentical n).events = s.events := rfl
@[simp] theorem State.countIdentical_draws (s : State) (n : Nat) : (s.countIdentical n).draws = s.draws := rfl
@[simp] theorem State.countIdentical_drawCount (s : State) (n : Nat) : (s.countIdentical n).drawCount = s.drawCount := rfl
@[simp] theorem State.countIdentical_flag (s : State) (n : Nat) (g : StatusFlag) : (s.countIdentical n).flag g = s.flag g := by simp [State.flag]
@[simp] theorem State.countIdentical_deviceActive (s : State) (n : Nat) : (s.countIdentical n).deviceActive = s.deviceActive := by simp [State.deviceActive]

@[simp] theorem State.countSent_cfg (s : State) (n : Word) : (s.countSent n).cfg = s.cfg := rfl
@[simp] theorem State.countSent_status (s : State) (n : Word) : (s.countSent n).status = s.status := rfl
@[simp] theorem State.countSent_link (s : State) (n : Word) : (s.countSent n).link = s.link := rfl
@[simp] theorem State.countSent_fbReg (s : State) (n : Word) : (s.countSent n).fbReg = s.fbReg := rfl
@[simp] theorem State.countSent_mode (s : State) (n : Word) : (s.countSent n).mode = s.mode := rfl
@[simp] theorem State.countSent_base16 (s : State) (n : Word) : (s.countSent n).base16 = s.base16 := rfl
@[simp] theorem State.countSent_base8 (s : State) (n : Word) : (s.countSent n).base8 = s.base8 := rfl
@[simp] theorem State.countSent_cursor (s : State) (n : Word) : (s.countSent n).cursor = s.cursor := rfl
@[simp] theorem State.countSent_pool (s : State) (n : Word) : (s.countSent n).pool = s.pool := rfl
@[simp] theorem State.countSent_backing (s : State) (n : Word) : (s.countSent n).backing = s.backing := rfl
@[simp] theorem State.countSent_line (s : State) (n : Word) : (s.countSent n).line = s.line := rfl
@[simp] theorem State.countSent_marks (s : State) (n : Word) : (s.countSent n).marks = s.marks := rfl
@[simp] theorem State.countSent_pending (s : State) (n : Word) : (s.countSent n).pending = s.pending := rfl
@[simp] theorem State.countSent_hostFb (s : State) (n : Word) : (s.countSent n).hostFb = s.hostFb := rfl
@[simp] theorem State.countSent_device (s : State) (n : Word) : (s.countSent n).device = s.device := rfl
@[simp] theorem State.countSent_queue (s : State) (n : Word) : (s.countSent n).queue = s.queue := rfl
@[simp] theorem State.countSent_moves (s : State) (n : Word) : (s.countSent n).moves = s.moves := rfl
@[simp] theorem State.countSent_replies (s : State) (n : Word) : (s.countSent n).replies = s.replies := rfl
@[simp] theorem State.countSent_events (s : State) (n : Word) : (s.countSent n).events = s.events := rfl
@[simp] theorem State.countSent_draws (s : State) (n : Word) : (s.countSent n).draws = s.draws := rfl
@[simp] theorem State.countSent_drawCount (s : State) (n : Word) : (s.countSent n).drawCount = s.drawCount := rfl
@[simp] theorem State.countSent_flag (s : State) (n : Word) (g : StatusFlag) : (s.countSent n).flag g = s.flag g := by simp [State.flag]
@[simp] theorem State.countSent_deviceActive (s : State) (n : Word) : (s.countSent n).deviceActive = s.deviceActive := by simp [State.deviceActive]

@[simp] theorem State.countCpu_cfg (s : State) (d : Word) : (s.countCpu d).cfg = s.cfg := rfl
@[simp] theorem State.countCpu_status (s : State) (d : Word) : (s.countCpu d).status = s.status := rfl
@[simp] theorem State.countCpu_link (s : State) (d : Word) : (s.countCpu d).link = s.link := rfl
@[simp] theorem State.countCpu_fbReg (s : State) (d : Word) : (s.countCpu d).fbReg = s.fbReg := rfl
@[simp] theorem State.countCpu_mode (s : State) (d : Word) : (s.countCpu d).mode = s.mode := rfl
@[simp] theorem State.countCpu_base16 (s : State) (d : Word) : (s.countCpu d).base16 = s.base16 := rfl
@[simp] theorem State.countCpu_base8 (s : State) (d : Word) : (s.countCpu d).base8 = s.base8 := rfl
@[simp] theorem State.countCpu_cursor (s : State) (d : Word) : (s.countCpu d).cursor = s.cursor := rfl
@[simp] theorem State.countCpu_pool (s : State) (d : Word) : (s.countCpu d).pool = s.pool := rfl
@[simp] theorem State.countCpu_backing (s : State) (d : Word) : (s.countCpu d).backing = s.backing := rfl
@[simp] theorem State.countCpu_line (s : State) (d : Word) : (s.countCpu d).line = s.line := rfl
@[simp] theorem State.countCpu_marks (s : State) (d : Word) : (s.countCpu d).marks = s.marks := rfl
@[simp] theorem State.countCpu_pending (s : State) (d : Word) : (s.countCpu d).pending = s.pending := rfl
@[simp] theorem State.countCpu_hostFb (s : State) (d : Word) : (s.countCpu d).hostFb = s.hostFb := rfl
@[simp] theorem State.countCpu_device (s : State) (d : Word) : (s.countCpu d).device = s.device := rfl
@[simp] theorem State.countCpu_queue (s : State) (d : Word) : (s.countCpu d).queue = s.queue := rfl
@[simp] theorem State.countCpu_moves (s : State) (d : Word) : (s.countCpu d).moves = s.moves := rfl
@[simp] theorem State.countCpu_replies (s : State) (d : Word) : (s.countCpu d).replies = s.replies := rfl
@[simp] theorem State.countCpu_events (s : State) (d : Word) : (s.countCpu d).events = s.events := rfl
@[simp] theorem State.countCpu_draws (s : State) (d : Word) : (s.countCpu d).draws = s.draws := rfl
@[simp] theorem State.countCpu_drawCount (s : State) (d : Word) : (s.countCpu d).drawCount = s.drawCount := rfl
@[simp] theorem State.countCpu_flag (s : State) (d : Word) (g : StatusFlag) : (s.countCpu d).flag g = s.flag g := by simp [State.flag]
@[simp] theorem State.countCpu_deviceActive (s : State) (d : Word) : (s.countCpu d).deviceActive = s.deviceActive := by simp [State.deviceActive]

@[simp] theorem State.reply_cfg (s : State) (c : StatusCode) (r : Result) : (s.reply c r).cfg = s.cfg := rfl
@[simp] theorem State.reply_status (s : State) (c : StatusCode) (r : Result) : (s.reply c r).status = s.status := rfl
@[simp] theorem State.reply_link (s : State) (c : StatusCode) (r : Result) : (s.reply c r).link = s.link := rfl
@[simp] theorem State.reply_fbReg (s : State) (c : StatusCode) (r : Result) : (s.reply c r).fbReg = s.fbReg := rfl
@[simp] theorem State.reply_mode (s : State) (c : StatusCode) (r : Result) : (s.reply c r).mode = s.mode := rfl
@[simp] theorem State.reply_base16 (s : State) (c : StatusCode) (r : Result) : (s.reply c r).base16 = s.base16 := rfl
@[simp] theorem State.reply_base8 (s : State) (c : StatusCode) (r : Result) : (s.reply c r).base8 = s.base8 := rfl
@[simp] theorem State.reply_cursor (s : State) (c : StatusCode) (r : Result) : (s.reply c r).cursor = s.cursor := rfl
@[simp] theorem State.reply_counters (s : State) (c : StatusCode) (r : Result) : (s.reply c r).counters = s.counters := rfl
@[simp] theorem State.reply_pool (s : State) (c : StatusCode) (r : Result) : (s.reply c r).pool = s.pool := rfl
@[simp] theorem State.reply_backing (s : State) (c : StatusCode) (r : Result) : (s.reply c r).backing = s.backing := rfl
@[simp] theorem State.reply_line (s : State) (c : StatusCode) (r : Result) : (s.reply c r).line = s.line := rfl
@[simp] theorem State.reply_marks (s : State) (c : StatusCode) (r : Result) : (s.reply c r).marks = s.marks := rfl
@[simp] theorem State.reply_hostFb (s : State) (c : StatusCode) (r : Result) : (s.reply c r).hostFb = s.hostFb := rfl
@[simp] theorem State.reply_device (s : State) (c : StatusCode) (r : Result) : (s.reply c r).device = s.device := rfl
@[simp] theorem State.reply_queue (s : State) (c : StatusCode) (r : Result) : (s.reply c r).queue = s.queue := rfl
@[simp] theorem State.reply_moves (s : State) (c : StatusCode) (r : Result) : (s.reply c r).moves = s.moves := rfl
@[simp] theorem State.reply_events (s : State) (c : StatusCode) (r : Result) : (s.reply c r).events = s.events := rfl
@[simp] theorem State.reply_draws (s : State) (c : StatusCode) (r : Result) : (s.reply c r).draws = s.draws := rfl
@[simp] theorem State.reply_drawCount (s : State) (c : StatusCode) (r : Result) : (s.reply c r).drawCount = s.drawCount := rfl
@[simp] theorem State.reply_flag (s : State) (c : StatusCode) (r : Result) (g : StatusFlag) : (s.reply c r).flag g = s.flag g := by simp [State.flag]
@[simp] theorem State.reply_deviceActive (s : State) (c : StatusCode) (r : Result) : (s.reply c r).deviceActive = s.deviceActive := by simp [State.deviceActive]

@[simp] theorem State.waitAt_cfg (s : State) (p : Pending) : (s.waitAt p).cfg = s.cfg := rfl
@[simp] theorem State.waitAt_status (s : State) (p : Pending) : (s.waitAt p).status = s.status := rfl
@[simp] theorem State.waitAt_link (s : State) (p : Pending) : (s.waitAt p).link = s.link := rfl
@[simp] theorem State.waitAt_fbReg (s : State) (p : Pending) : (s.waitAt p).fbReg = s.fbReg := rfl
@[simp] theorem State.waitAt_mode (s : State) (p : Pending) : (s.waitAt p).mode = s.mode := rfl
@[simp] theorem State.waitAt_base16 (s : State) (p : Pending) : (s.waitAt p).base16 = s.base16 := rfl
@[simp] theorem State.waitAt_base8 (s : State) (p : Pending) : (s.waitAt p).base8 = s.base8 := rfl
@[simp] theorem State.waitAt_cursor (s : State) (p : Pending) : (s.waitAt p).cursor = s.cursor := rfl
@[simp] theorem State.waitAt_counters (s : State) (p : Pending) : (s.waitAt p).counters = s.counters := rfl
@[simp] theorem State.waitAt_pool (s : State) (p : Pending) : (s.waitAt p).pool = s.pool := rfl
@[simp] theorem State.waitAt_backing (s : State) (p : Pending) : (s.waitAt p).backing = s.backing := rfl
@[simp] theorem State.waitAt_line (s : State) (p : Pending) : (s.waitAt p).line = s.line := rfl
@[simp] theorem State.waitAt_marks (s : State) (p : Pending) : (s.waitAt p).marks = s.marks := rfl
@[simp] theorem State.waitAt_hostFb (s : State) (p : Pending) : (s.waitAt p).hostFb = s.hostFb := rfl
@[simp] theorem State.waitAt_device (s : State) (p : Pending) : (s.waitAt p).device = s.device := rfl
@[simp] theorem State.waitAt_queue (s : State) (p : Pending) : (s.waitAt p).queue = s.queue := rfl
@[simp] theorem State.waitAt_moves (s : State) (p : Pending) : (s.waitAt p).moves = s.moves := rfl
@[simp] theorem State.waitAt_replies (s : State) (p : Pending) : (s.waitAt p).replies = s.replies := rfl
@[simp] theorem State.waitAt_events (s : State) (p : Pending) : (s.waitAt p).events = s.events := rfl
@[simp] theorem State.waitAt_draws (s : State) (p : Pending) : (s.waitAt p).draws = s.draws := rfl
@[simp] theorem State.waitAt_drawCount (s : State) (p : Pending) : (s.waitAt p).drawCount = s.drawCount := rfl
@[simp] theorem State.waitAt_flag (s : State) (p : Pending) (g : StatusFlag) : (s.waitAt p).flag g = s.flag g := by simp [State.flag]
@[simp] theorem State.waitAt_deviceActive (s : State) (p : Pending) : (s.waitAt p).deviceActive = s.deviceActive := by simp [State.deviceActive]

@[simp] theorem State.markRefused_cfg (s : State) : (s.markRefused).cfg = s.cfg := rfl
@[simp] theorem State.markRefused_status (s : State) : (s.markRefused).status = s.status := rfl
@[simp] theorem State.markRefused_link (s : State) : (s.markRefused).link = s.link := rfl
@[simp] theorem State.markRefused_fbReg (s : State) : (s.markRefused).fbReg = s.fbReg := rfl
@[simp] theorem State.markRefused_mode (s : State) : (s.markRefused).mode = s.mode := rfl
@[simp] theorem State.markRefused_base16 (s : State) : (s.markRefused).base16 = s.base16 := rfl
@[simp] theorem State.markRefused_base8 (s : State) : (s.markRefused).base8 = s.base8 := rfl
@[simp] theorem State.markRefused_cursor (s : State) : (s.markRefused).cursor = s.cursor := rfl
@[simp] theorem State.markRefused_counters (s : State) : (s.markRefused).counters = s.counters := rfl
@[simp] theorem State.markRefused_pool (s : State) : (s.markRefused).pool = s.pool := rfl
@[simp] theorem State.markRefused_backing (s : State) : (s.markRefused).backing = s.backing := rfl
@[simp] theorem State.markRefused_line (s : State) : (s.markRefused).line = s.line := rfl
@[simp] theorem State.markRefused_pending (s : State) : (s.markRefused).pending = s.pending := rfl
@[simp] theorem State.markRefused_hostFb (s : State) : (s.markRefused).hostFb = s.hostFb := rfl
@[simp] theorem State.markRefused_device (s : State) : (s.markRefused).device = s.device := rfl
@[simp] theorem State.markRefused_queue (s : State) : (s.markRefused).queue = s.queue := rfl
@[simp] theorem State.markRefused_moves (s : State) : (s.markRefused).moves = s.moves := rfl
@[simp] theorem State.markRefused_replies (s : State) : (s.markRefused).replies = s.replies := rfl
@[simp] theorem State.markRefused_events (s : State) : (s.markRefused).events = s.events := rfl
@[simp] theorem State.markRefused_draws (s : State) : (s.markRefused).draws = s.draws := rfl
@[simp] theorem State.markRefused_drawCount (s : State) : (s.markRefused).drawCount = s.drawCount := rfl
@[simp] theorem State.markRefused_flag (s : State) (g : StatusFlag) : (s.markRefused).flag g = s.flag g := by simp [State.flag]
@[simp] theorem State.markRefused_deviceActive (s : State) : (s.markRefused).deviceActive = s.deviceActive := by simp [State.deviceActive]

@[simp] theorem State.launchSlot_cfg (s : State) (k : Nat) : (s.launchSlot k).cfg = s.cfg := rfl
@[simp] theorem State.launchSlot_status (s : State) (k : Nat) : (s.launchSlot k).status = s.status := rfl
@[simp] theorem State.launchSlot_link (s : State) (k : Nat) : (s.launchSlot k).link = s.link := rfl
@[simp] theorem State.launchSlot_fbReg (s : State) (k : Nat) : (s.launchSlot k).fbReg = s.fbReg := rfl
@[simp] theorem State.launchSlot_mode (s : State) (k : Nat) : (s.launchSlot k).mode = s.mode := rfl
@[simp] theorem State.launchSlot_base16 (s : State) (k : Nat) : (s.launchSlot k).base16 = s.base16 := rfl
@[simp] theorem State.launchSlot_base8 (s : State) (k : Nat) : (s.launchSlot k).base8 = s.base8 := rfl
@[simp] theorem State.launchSlot_cursor (s : State) (k : Nat) : (s.launchSlot k).cursor = s.cursor := rfl
@[simp] theorem State.launchSlot_counters (s : State) (k : Nat) : (s.launchSlot k).counters = s.counters := rfl
@[simp] theorem State.launchSlot_backing (s : State) (k : Nat) : (s.launchSlot k).backing = s.backing := rfl
@[simp] theorem State.launchSlot_line (s : State) (k : Nat) : (s.launchSlot k).line = s.line := rfl
@[simp] theorem State.launchSlot_marks (s : State) (k : Nat) : (s.launchSlot k).marks = s.marks := rfl
@[simp] theorem State.launchSlot_pending (s : State) (k : Nat) : (s.launchSlot k).pending = s.pending := rfl
@[simp] theorem State.launchSlot_hostFb (s : State) (k : Nat) : (s.launchSlot k).hostFb = s.hostFb := rfl
@[simp] theorem State.launchSlot_device (s : State) (k : Nat) : (s.launchSlot k).device = s.device := rfl
@[simp] theorem State.launchSlot_queue (s : State) (k : Nat) : (s.launchSlot k).queue = s.queue := rfl
@[simp] theorem State.launchSlot_moves (s : State) (k : Nat) : (s.launchSlot k).moves = s.moves := rfl
@[simp] theorem State.launchSlot_replies (s : State) (k : Nat) : (s.launchSlot k).replies = s.replies := rfl
@[simp] theorem State.launchSlot_events (s : State) (k : Nat) : (s.launchSlot k).events = s.events := rfl
@[simp] theorem State.launchSlot_draws (s : State) (k : Nat) : (s.launchSlot k).draws = s.draws := rfl
@[simp] theorem State.launchSlot_drawCount (s : State) (k : Nat) : (s.launchSlot k).drawCount = s.drawCount := rfl
@[simp] theorem State.launchSlot_flag (s : State) (k : Nat) (g : StatusFlag) : (s.launchSlot k).flag g = s.flag g := by simp [State.flag]
@[simp] theorem State.launchSlot_deviceActive (s : State) (k : Nat) : (s.launchSlot k).deviceActive = s.deviceActive := by simp [State.deviceActive]

@[simp] theorem State.releaseSlot_cfg (s : State) (k : Nat) : (s.releaseSlot k).cfg = s.cfg := rfl
@[simp] theorem State.releaseSlot_status (s : State) (k : Nat) : (s.releaseSlot k).status = s.status := rfl
@[simp] theorem State.releaseSlot_link (s : State) (k : Nat) : (s.releaseSlot k).link = s.link := rfl
@[simp] theorem State.releaseSlot_fbReg (s : State) (k : Nat) : (s.releaseSlot k).fbReg = s.fbReg := rfl
@[simp] theorem State.releaseSlot_mode (s : State) (k : Nat) : (s.releaseSlot k).mode = s.mode := rfl
@[simp] theorem State.releaseSlot_base16 (s : State) (k : Nat) : (s.releaseSlot k).base16 = s.base16 := rfl
@[simp] theorem State.releaseSlot_base8 (s : State) (k : Nat) : (s.releaseSlot k).base8 = s.base8 := rfl
@[simp] theorem State.releaseSlot_cursor (s : State) (k : Nat) : (s.releaseSlot k).cursor = s.cursor := rfl
@[simp] theorem State.releaseSlot_counters (s : State) (k : Nat) : (s.releaseSlot k).counters = s.counters := rfl
@[simp] theorem State.releaseSlot_backing (s : State) (k : Nat) : (s.releaseSlot k).backing = s.backing := rfl
@[simp] theorem State.releaseSlot_line (s : State) (k : Nat) : (s.releaseSlot k).line = s.line := rfl
@[simp] theorem State.releaseSlot_marks (s : State) (k : Nat) : (s.releaseSlot k).marks = s.marks := rfl
@[simp] theorem State.releaseSlot_pending (s : State) (k : Nat) : (s.releaseSlot k).pending = s.pending := rfl
@[simp] theorem State.releaseSlot_hostFb (s : State) (k : Nat) : (s.releaseSlot k).hostFb = s.hostFb := rfl
@[simp] theorem State.releaseSlot_device (s : State) (k : Nat) : (s.releaseSlot k).device = s.device := rfl
@[simp] theorem State.releaseSlot_queue (s : State) (k : Nat) : (s.releaseSlot k).queue = s.queue := rfl
@[simp] theorem State.releaseSlot_moves (s : State) (k : Nat) : (s.releaseSlot k).moves = s.moves := rfl
@[simp] theorem State.releaseSlot_replies (s : State) (k : Nat) : (s.releaseSlot k).replies = s.replies := rfl
@[simp] theorem State.releaseSlot_events (s : State) (k : Nat) : (s.releaseSlot k).events = s.events := rfl
@[simp] theorem State.releaseSlot_draws (s : State) (k : Nat) : (s.releaseSlot k).draws = s.draws := rfl
@[simp] theorem State.releaseSlot_drawCount (s : State) (k : Nat) : (s.releaseSlot k).drawCount = s.drawCount := rfl
@[simp] theorem State.releaseSlot_flag (s : State) (k : Nat) (g : StatusFlag) : (s.releaseSlot k).flag g = s.flag g := by simp [State.flag]
@[simp] theorem State.releaseSlot_deviceActive (s : State) (k : Nat) : (s.releaseSlot k).deviceActive = s.deviceActive := by simp [State.deviceActive]

@[simp] theorem State.popMove_cfg (s : State) : (s.popMove).cfg = s.cfg := rfl
@[simp] theorem State.popMove_status (s : State) : (s.popMove).status = s.status := rfl
@[simp] theorem State.popMove_link (s : State) : (s.popMove).link = s.link := rfl
@[simp] theorem State.popMove_fbReg (s : State) : (s.popMove).fbReg = s.fbReg := rfl
@[simp] theorem State.popMove_mode (s : State) : (s.popMove).mode = s.mode := rfl
@[simp] theorem State.popMove_base16 (s : State) : (s.popMove).base16 = s.base16 := rfl
@[simp] theorem State.popMove_base8 (s : State) : (s.popMove).base8 = s.base8 := rfl
@[simp] theorem State.popMove_cursor (s : State) : (s.popMove).cursor = s.cursor := rfl
@[simp] theorem State.popMove_counters (s : State) : (s.popMove).counters = s.counters := rfl
@[simp] theorem State.popMove_pool (s : State) : (s.popMove).pool = s.pool := rfl
@[simp] theorem State.popMove_backing (s : State) : (s.popMove).backing = s.backing := rfl
@[simp] theorem State.popMove_line (s : State) : (s.popMove).line = s.line := rfl
@[simp] theorem State.popMove_marks (s : State) : (s.popMove).marks = s.marks := rfl
@[simp] theorem State.popMove_pending (s : State) : (s.popMove).pending = s.pending := rfl
@[simp] theorem State.popMove_hostFb (s : State) : (s.popMove).hostFb = s.hostFb := rfl
@[simp] theorem State.popMove_device (s : State) : (s.popMove).device = s.device := rfl
@[simp] theorem State.popMove_queue (s : State) : (s.popMove).queue = s.queue := rfl
@[simp] theorem State.popMove_replies (s : State) : (s.popMove).replies = s.replies := rfl
@[simp] theorem State.popMove_events (s : State) : (s.popMove).events = s.events := rfl
@[simp] theorem State.popMove_draws (s : State) : (s.popMove).draws = s.draws := rfl
@[simp] theorem State.popMove_drawCount (s : State) : (s.popMove).drawCount = s.drawCount := rfl
@[simp] theorem State.popMove_flag (s : State) (g : StatusFlag) : (s.popMove).flag g = s.flag g := by simp [State.flag]
@[simp] theorem State.popMove_deviceActive (s : State) : (s.popMove).deviceActive = s.deviceActive := by simp [State.deviceActive]

@[simp] theorem State.markFault_cfg (s : State) (f : FaultMark) : (s.markFault f).cfg = s.cfg := by cases f <;> rfl
@[simp] theorem State.markFault_status (s : State) (f : FaultMark) : (s.markFault f).status = s.status := by cases f <;> rfl
@[simp] theorem State.markFault_link (s : State) (f : FaultMark) : (s.markFault f).link = s.link := by cases f <;> rfl
@[simp] theorem State.markFault_fbReg (s : State) (f : FaultMark) : (s.markFault f).fbReg = s.fbReg := by cases f <;> rfl
@[simp] theorem State.markFault_mode (s : State) (f : FaultMark) : (s.markFault f).mode = s.mode := by cases f <;> rfl
@[simp] theorem State.markFault_base16 (s : State) (f : FaultMark) : (s.markFault f).base16 = s.base16 := by cases f <;> rfl
@[simp] theorem State.markFault_base8 (s : State) (f : FaultMark) : (s.markFault f).base8 = s.base8 := by cases f <;> rfl
@[simp] theorem State.markFault_cursor (s : State) (f : FaultMark) : (s.markFault f).cursor = s.cursor := by cases f <;> rfl
@[simp] theorem State.markFault_counters (s : State) (f : FaultMark) : (s.markFault f).counters = s.counters := by cases f <;> rfl
@[simp] theorem State.markFault_pool (s : State) (f : FaultMark) : (s.markFault f).pool = s.pool := by cases f <;> rfl
@[simp] theorem State.markFault_backing (s : State) (f : FaultMark) : (s.markFault f).backing = s.backing := by cases f <;> rfl
@[simp] theorem State.markFault_line (s : State) (f : FaultMark) : (s.markFault f).line = s.line := by cases f <;> rfl
@[simp] theorem State.markFault_pending (s : State) (f : FaultMark) : (s.markFault f).pending = s.pending := by cases f <;> rfl
@[simp] theorem State.markFault_hostFb (s : State) (f : FaultMark) : (s.markFault f).hostFb = s.hostFb := by cases f <;> rfl
@[simp] theorem State.markFault_device (s : State) (f : FaultMark) : (s.markFault f).device = s.device := by cases f <;> rfl
@[simp] theorem State.markFault_queue (s : State) (f : FaultMark) : (s.markFault f).queue = s.queue := by cases f <;> rfl
@[simp] theorem State.markFault_moves (s : State) (f : FaultMark) : (s.markFault f).moves = s.moves := by cases f <;> rfl
@[simp] theorem State.markFault_replies (s : State) (f : FaultMark) : (s.markFault f).replies = s.replies := by cases f <;> rfl
@[simp] theorem State.markFault_events (s : State) (f : FaultMark) : (s.markFault f).events = s.events := by cases f <;> rfl
@[simp] theorem State.markFault_draws (s : State) (f : FaultMark) : (s.markFault f).draws = s.draws := by cases f <;> rfl
@[simp] theorem State.markFault_drawCount (s : State) (f : FaultMark) : (s.markFault f).drawCount = s.drawCount := by cases f <;> rfl
@[simp] theorem State.markFault_flag (s : State) (f : FaultMark) (g : StatusFlag) : (s.markFault f).flag g = s.flag g := by simp [State.flag]
@[simp] theorem State.markFault_deviceActive (s : State) (f : FaultMark) : (s.markFault f).deviceActive = s.deviceActive := by simp [State.deviceActive]

@[simp] theorem State.afterDraw_cfg (s : State) : (s.afterDraw).cfg = s.cfg := by unfold State.afterDraw; split <;> rfl
@[simp] theorem State.afterDraw_status (s : State) : (s.afterDraw).status = s.status := by unfold State.afterDraw; split <;> rfl
@[simp] theorem State.afterDraw_link (s : State) : (s.afterDraw).link = s.link := by unfold State.afterDraw; split <;> rfl
@[simp] theorem State.afterDraw_fbReg (s : State) : (s.afterDraw).fbReg = s.fbReg := by unfold State.afterDraw; split <;> rfl
@[simp] theorem State.afterDraw_mode (s : State) : (s.afterDraw).mode = s.mode := by unfold State.afterDraw; split <;> rfl
@[simp] theorem State.afterDraw_base16 (s : State) : (s.afterDraw).base16 = s.base16 := by unfold State.afterDraw; split <;> rfl
@[simp] theorem State.afterDraw_base8 (s : State) : (s.afterDraw).base8 = s.base8 := by unfold State.afterDraw; split <;> rfl
@[simp] theorem State.afterDraw_cursor (s : State) : (s.afterDraw).cursor = s.cursor := by unfold State.afterDraw; split <;> rfl
@[simp] theorem State.afterDraw_counters (s : State) : (s.afterDraw).counters = s.counters := by unfold State.afterDraw; split <;> rfl
@[simp] theorem State.afterDraw_pool (s : State) : (s.afterDraw).pool = s.pool := by unfold State.afterDraw; split <;> rfl
@[simp] theorem State.afterDraw_backing (s : State) : (s.afterDraw).backing = s.backing := by unfold State.afterDraw; split <;> rfl
@[simp] theorem State.afterDraw_line (s : State) : (s.afterDraw).line = s.line := by unfold State.afterDraw; split <;> rfl
@[simp] theorem State.afterDraw_marks (s : State) : (s.afterDraw).marks = s.marks := by unfold State.afterDraw; split <;> rfl
@[simp] theorem State.afterDraw_pending (s : State) : (s.afterDraw).pending = s.pending := by unfold State.afterDraw; split <;> rfl
@[simp] theorem State.afterDraw_hostFb (s : State) : (s.afterDraw).hostFb = s.hostFb := by unfold State.afterDraw; split <;> rfl
@[simp] theorem State.afterDraw_device (s : State) : (s.afterDraw).device = s.device := by unfold State.afterDraw; split <;> rfl
@[simp] theorem State.afterDraw_queue (s : State) : (s.afterDraw).queue = s.queue := by unfold State.afterDraw; split <;> rfl
@[simp] theorem State.afterDraw_moves (s : State) : (s.afterDraw).moves = s.moves := by unfold State.afterDraw; split <;> rfl
@[simp] theorem State.afterDraw_replies (s : State) : (s.afterDraw).replies = s.replies := by unfold State.afterDraw; split <;> rfl
@[simp] theorem State.afterDraw_events (s : State) : (s.afterDraw).events = s.events := by unfold State.afterDraw; split <;> rfl
@[simp] theorem State.afterDraw_flag (s : State) (g : StatusFlag) : (s.afterDraw).flag g = s.flag g := by simp [State.flag]
@[simp] theorem State.afterDraw_deviceActive (s : State) : (s.afterDraw).deviceActive = s.deviceActive := by simp [State.deviceActive]

@[simp] theorem State.emit_cfg (s : State) (bs : List Byte) : (s.emit bs).cfg = s.cfg := by unfold State.emit; split <;> (try split) <;> rfl
@[simp] theorem State.emit_status (s : State) (bs : List Byte) : (s.emit bs).status = s.status := by unfold State.emit; split <;> (try split) <;> rfl
@[simp] theorem State.emit_link (s : State) (bs : List Byte) : (s.emit bs).link = s.link := by unfold State.emit; split <;> (try split) <;> rfl
@[simp] theorem State.emit_fbReg (s : State) (bs : List Byte) : (s.emit bs).fbReg = s.fbReg := by unfold State.emit; split <;> (try split) <;> rfl
@[simp] theorem State.emit_mode (s : State) (bs : List Byte) : (s.emit bs).mode = s.mode := by unfold State.emit; split <;> (try split) <;> rfl
@[simp] theorem State.emit_base16 (s : State) (bs : List Byte) : (s.emit bs).base16 = s.base16 := by unfold State.emit; split <;> (try split) <;> rfl
@[simp] theorem State.emit_base8 (s : State) (bs : List Byte) : (s.emit bs).base8 = s.base8 := by unfold State.emit; split <;> (try split) <;> rfl
@[simp] theorem State.emit_cursor (s : State) (bs : List Byte) : (s.emit bs).cursor = s.cursor := by unfold State.emit; split <;> (try split) <;> rfl
@[simp] theorem State.emit_counters (s : State) (bs : List Byte) : (s.emit bs).counters = s.counters := by unfold State.emit; split <;> (try split) <;> rfl
@[simp] theorem State.emit_backing (s : State) (bs : List Byte) : (s.emit bs).backing = s.backing := by unfold State.emit; split <;> (try split) <;> rfl
@[simp] theorem State.emit_line (s : State) (bs : List Byte) : (s.emit bs).line = s.line := by unfold State.emit; split <;> (try split) <;> rfl
@[simp] theorem State.emit_pending (s : State) (bs : List Byte) : (s.emit bs).pending = s.pending := by unfold State.emit; split <;> (try split) <;> rfl
@[simp] theorem State.emit_hostFb (s : State) (bs : List Byte) : (s.emit bs).hostFb = s.hostFb := by unfold State.emit; split <;> (try split) <;> rfl
@[simp] theorem State.emit_device (s : State) (bs : List Byte) : (s.emit bs).device = s.device := by unfold State.emit; split <;> (try split) <;> rfl
@[simp] theorem State.emit_queue (s : State) (bs : List Byte) : (s.emit bs).queue = s.queue := by unfold State.emit; split <;> (try split) <;> rfl
@[simp] theorem State.emit_moves (s : State) (bs : List Byte) : (s.emit bs).moves = s.moves := by unfold State.emit; split <;> (try split) <;> rfl
@[simp] theorem State.emit_replies (s : State) (bs : List Byte) : (s.emit bs).replies = s.replies := by unfold State.emit; split <;> (try split) <;> rfl
@[simp] theorem State.emit_events (s : State) (bs : List Byte) : (s.emit bs).events = s.events := by unfold State.emit; split <;> (try split) <;> rfl
@[simp] theorem State.emit_draws (s : State) (bs : List Byte) : (s.emit bs).draws = s.draws := by unfold State.emit; split <;> (try split) <;> rfl
@[simp] theorem State.emit_drawCount (s : State) (bs : List Byte) : (s.emit bs).drawCount = s.drawCount := by unfold State.emit; split <;> (try split) <;> rfl
@[simp] theorem State.emit_flag (s : State) (bs : List Byte) (g : StatusFlag) : (s.emit bs).flag g = s.flag g := by simp [State.flag]
@[simp] theorem State.emit_deviceActive (s : State) (bs : List Byte) : (s.emit bs).deviceActive = s.deviceActive := by simp [State.deviceActive]

@[simp] theorem State.takeSlot_cfg (s : State) : (s.takeSlot).cfg = s.cfg := by unfold State.takeSlot; split <;> rfl
@[simp] theorem State.takeSlot_status (s : State) : (s.takeSlot).status = s.status := by unfold State.takeSlot; split <;> rfl
@[simp] theorem State.takeSlot_link (s : State) : (s.takeSlot).link = s.link := by unfold State.takeSlot; split <;> rfl
@[simp] theorem State.takeSlot_fbReg (s : State) : (s.takeSlot).fbReg = s.fbReg := by unfold State.takeSlot; split <;> rfl
@[simp] theorem State.takeSlot_mode (s : State) : (s.takeSlot).mode = s.mode := by unfold State.takeSlot; split <;> rfl
@[simp] theorem State.takeSlot_base16 (s : State) : (s.takeSlot).base16 = s.base16 := by unfold State.takeSlot; split <;> rfl
@[simp] theorem State.takeSlot_base8 (s : State) : (s.takeSlot).base8 = s.base8 := by unfold State.takeSlot; split <;> rfl
@[simp] theorem State.takeSlot_cursor (s : State) : (s.takeSlot).cursor = s.cursor := by unfold State.takeSlot; split <;> rfl
@[simp] theorem State.takeSlot_counters (s : State) : (s.takeSlot).counters = s.counters := by unfold State.takeSlot; split <;> rfl
@[simp] theorem State.takeSlot_backing (s : State) : (s.takeSlot).backing = s.backing := by unfold State.takeSlot; split <;> rfl
@[simp] theorem State.takeSlot_line (s : State) : (s.takeSlot).line = s.line := by unfold State.takeSlot; split <;> rfl
@[simp] theorem State.takeSlot_pending (s : State) : (s.takeSlot).pending = s.pending := by unfold State.takeSlot; split <;> rfl
@[simp] theorem State.takeSlot_hostFb (s : State) : (s.takeSlot).hostFb = s.hostFb := by unfold State.takeSlot; split <;> rfl
@[simp] theorem State.takeSlot_device (s : State) : (s.takeSlot).device = s.device := by unfold State.takeSlot; split <;> rfl
@[simp] theorem State.takeSlot_queue (s : State) : (s.takeSlot).queue = s.queue := by unfold State.takeSlot; split <;> rfl
@[simp] theorem State.takeSlot_moves (s : State) : (s.takeSlot).moves = s.moves := by unfold State.takeSlot; split <;> rfl
@[simp] theorem State.takeSlot_replies (s : State) : (s.takeSlot).replies = s.replies := by unfold State.takeSlot; split <;> rfl
@[simp] theorem State.takeSlot_events (s : State) : (s.takeSlot).events = s.events := by unfold State.takeSlot; split <;> rfl
@[simp] theorem State.takeSlot_draws (s : State) : (s.takeSlot).draws = s.draws := by unfold State.takeSlot; split <;> rfl
@[simp] theorem State.takeSlot_drawCount (s : State) : (s.takeSlot).drawCount = s.drawCount := by unfold State.takeSlot; split <;> rfl
@[simp] theorem State.takeSlot_flag (s : State) (g : StatusFlag) : (s.takeSlot).flag g = s.flag g := by simp [State.flag]
@[simp] theorem State.takeSlot_deviceActive (s : State) : (s.takeSlot).deviceActive = s.deviceActive := by simp [State.deviceActive]

@[simp] theorem State.completeSlot_cfg (s : State) (k : Nat) : (s.completeSlot k).cfg = s.cfg := by unfold State.completeSlot; split <;> (try split) <;> rfl
@[simp] theorem State.completeSlot_status (s : State) (k : Nat) : (s.completeSlot k).status = s.status := by unfold State.completeSlot; split <;> (try split) <;> rfl
@[simp] theorem State.completeSlot_link (s : State) (k : Nat) : (s.completeSlot k).link = s.link := by unfold State.completeSlot; split <;> (try split) <;> rfl
@[simp] theorem State.completeSlot_fbReg (s : State) (k : Nat) : (s.completeSlot k).fbReg = s.fbReg := by unfold State.completeSlot; split <;> (try split) <;> rfl
@[simp] theorem State.completeSlot_mode (s : State) (k : Nat) : (s.completeSlot k).mode = s.mode := by unfold State.completeSlot; split <;> (try split) <;> rfl
@[simp] theorem State.completeSlot_base16 (s : State) (k : Nat) : (s.completeSlot k).base16 = s.base16 := by unfold State.completeSlot; split <;> (try split) <;> rfl
@[simp] theorem State.completeSlot_base8 (s : State) (k : Nat) : (s.completeSlot k).base8 = s.base8 := by unfold State.completeSlot; split <;> (try split) <;> rfl
@[simp] theorem State.completeSlot_cursor (s : State) (k : Nat) : (s.completeSlot k).cursor = s.cursor := by unfold State.completeSlot; split <;> (try split) <;> rfl
@[simp] theorem State.completeSlot_counters (s : State) (k : Nat) : (s.completeSlot k).counters = s.counters := by unfold State.completeSlot; split <;> (try split) <;> rfl
@[simp] theorem State.completeSlot_backing (s : State) (k : Nat) : (s.completeSlot k).backing = s.backing := by unfold State.completeSlot; split <;> (try split) <;> rfl
@[simp] theorem State.completeSlot_line (s : State) (k : Nat) : (s.completeSlot k).line = s.line := by unfold State.completeSlot; split <;> (try split) <;> rfl
@[simp] theorem State.completeSlot_pending (s : State) (k : Nat) : (s.completeSlot k).pending = s.pending := by unfold State.completeSlot; split <;> (try split) <;> rfl
@[simp] theorem State.completeSlot_hostFb (s : State) (k : Nat) : (s.completeSlot k).hostFb = s.hostFb := by unfold State.completeSlot; split <;> (try split) <;> rfl
@[simp] theorem State.completeSlot_device (s : State) (k : Nat) : (s.completeSlot k).device = s.device := by unfold State.completeSlot; split <;> (try split) <;> rfl
@[simp] theorem State.completeSlot_queue (s : State) (k : Nat) : (s.completeSlot k).queue = s.queue := by unfold State.completeSlot; split <;> (try split) <;> rfl
@[simp] theorem State.completeSlot_moves (s : State) (k : Nat) : (s.completeSlot k).moves = s.moves := by unfold State.completeSlot; split <;> (try split) <;> rfl
@[simp] theorem State.completeSlot_replies (s : State) (k : Nat) : (s.completeSlot k).replies = s.replies := by unfold State.completeSlot; split <;> (try split) <;> rfl
@[simp] theorem State.completeSlot_events (s : State) (k : Nat) : (s.completeSlot k).events = s.events := by unfold State.completeSlot; split <;> (try split) <;> rfl
@[simp] theorem State.completeSlot_draws (s : State) (k : Nat) : (s.completeSlot k).draws = s.draws := by unfold State.completeSlot; split <;> (try split) <;> rfl
@[simp] theorem State.completeSlot_drawCount (s : State) (k : Nat) : (s.completeSlot k).drawCount = s.drawCount := by unfold State.completeSlot; split <;> (try split) <;> rfl
@[simp] theorem State.completeSlot_flag (s : State) (k : Nat) (g : StatusFlag) : (s.completeSlot k).flag g = s.flag g := by simp [State.flag]
@[simp] theorem State.completeSlot_deviceActive (s : State) (k : Nat) : (s.completeSlot k).deviceActive = s.deviceActive := by simp [State.deviceActive]

@[simp] theorem State.submitWith_cfg (s : State) (k : Nat) (a : Bool) : (s.submitWith k a).cfg = s.cfg := by cases a <;> simp [State.submitWith]
@[simp] theorem State.submitWith_link (s : State) (k : Nat) (a : Bool) : (s.submitWith k a).link = s.link := by cases a <;> simp [State.submitWith]
@[simp] theorem State.submitWith_fbReg (s : State) (k : Nat) (a : Bool) : (s.submitWith k a).fbReg = s.fbReg := by cases a <;> simp [State.submitWith]
@[simp] theorem State.submitWith_mode (s : State) (k : Nat) (a : Bool) : (s.submitWith k a).mode = s.mode := by cases a <;> simp [State.submitWith]
@[simp] theorem State.submitWith_base16 (s : State) (k : Nat) (a : Bool) : (s.submitWith k a).base16 = s.base16 := by cases a <;> simp [State.submitWith]
@[simp] theorem State.submitWith_base8 (s : State) (k : Nat) (a : Bool) : (s.submitWith k a).base8 = s.base8 := by cases a <;> simp [State.submitWith]
@[simp] theorem State.submitWith_cursor (s : State) (k : Nat) (a : Bool) : (s.submitWith k a).cursor = s.cursor := by cases a <;> simp [State.submitWith]
@[simp] theorem State.submitWith_backing (s : State) (k : Nat) (a : Bool) : (s.submitWith k a).backing = s.backing := by cases a <;> simp [State.submitWith]
@[simp] theorem State.submitWith_line (s : State) (k : Nat) (a : Bool) : (s.submitWith k a).line = s.line := by cases a <;> simp [State.submitWith]
@[simp] theorem State.submitWith_pending (s : State) (k : Nat) (a : Bool) : (s.submitWith k a).pending = s.pending := by cases a <;> simp [State.submitWith]
@[simp] theorem State.submitWith_hostFb (s : State) (k : Nat) (a : Bool) : (s.submitWith k a).hostFb = s.hostFb := by cases a <;> simp [State.submitWith]
@[simp] theorem State.submitWith_device (s : State) (k : Nat) (a : Bool) : (s.submitWith k a).device = s.device := by cases a <;> simp [State.submitWith]
@[simp] theorem State.submitWith_queue (s : State) (k : Nat) (a : Bool) : (s.submitWith k a).queue = s.queue := by cases a <;> simp [State.submitWith]
@[simp] theorem State.submitWith_moves (s : State) (k : Nat) (a : Bool) : (s.submitWith k a).moves = s.moves := by cases a <;> simp [State.submitWith]
@[simp] theorem State.submitWith_replies (s : State) (k : Nat) (a : Bool) : (s.submitWith k a).replies = s.replies := by cases a <;> simp [State.submitWith]
@[simp] theorem State.submitWith_draws (s : State) (k : Nat) (a : Bool) : (s.submitWith k a).draws = s.draws := by cases a <;> simp [State.submitWith]
@[simp] theorem State.submitWith_drawCount (s : State) (k : Nat) (a : Bool) : (s.submitWith k a).drawCount = s.drawCount := by cases a <;> simp [State.submitWith]
@[simp] theorem State.submitWith_deviceActive (s : State) (k : Nat) (a : Bool) : (s.submitWith k a).deviceActive = s.deviceActive := by simp [State.deviceActive]

@[simp] theorem State.submitSlot_cfg (s : State) (k : Nat) : (s.submitSlot k).cfg = s.cfg := by simp [State.submitSlot]
@[simp] theorem State.submitSlot_link (s : State) (k : Nat) : (s.submitSlot k).link = s.link := by simp [State.submitSlot]
@[simp] theorem State.submitSlot_fbReg (s : State) (k : Nat) : (s.submitSlot k).fbReg = s.fbReg := by simp [State.submitSlot]
@[simp] theorem State.submitSlot_mode (s : State) (k : Nat) : (s.submitSlot k).mode = s.mode := by simp [State.submitSlot]
@[simp] theorem State.submitSlot_base16 (s : State) (k : Nat) : (s.submitSlot k).base16 = s.base16 := by simp [State.submitSlot]
@[simp] theorem State.submitSlot_base8 (s : State) (k : Nat) : (s.submitSlot k).base8 = s.base8 := by simp [State.submitSlot]
@[simp] theorem State.submitSlot_cursor (s : State) (k : Nat) : (s.submitSlot k).cursor = s.cursor := by simp [State.submitSlot]
@[simp] theorem State.submitSlot_backing (s : State) (k : Nat) : (s.submitSlot k).backing = s.backing := by simp [State.submitSlot]
@[simp] theorem State.submitSlot_line (s : State) (k : Nat) : (s.submitSlot k).line = s.line := by simp [State.submitSlot]
@[simp] theorem State.submitSlot_pending (s : State) (k : Nat) : (s.submitSlot k).pending = s.pending := by simp [State.submitSlot]
@[simp] theorem State.submitSlot_hostFb (s : State) (k : Nat) : (s.submitSlot k).hostFb = s.hostFb := by simp [State.submitSlot]
@[simp] theorem State.submitSlot_device (s : State) (k : Nat) : (s.submitSlot k).device = s.device := by simp [State.submitSlot]
@[simp] theorem State.submitSlot_queue (s : State) (k : Nat) : (s.submitSlot k).queue = s.queue := by simp [State.submitSlot]
@[simp] theorem State.submitSlot_moves (s : State) (k : Nat) : (s.submitSlot k).moves = s.moves := by simp [State.submitSlot]
@[simp] theorem State.submitSlot_replies (s : State) (k : Nat) : (s.submitSlot k).replies = s.replies := by simp [State.submitSlot]
@[simp] theorem State.submitSlot_deviceActive (s : State) (k : Nat) : (s.submitSlot k).deviceActive = s.deviceActive := by simp [State.deviceActive]

@[simp] theorem State.submitF_cfg (s : State) : (s.submitF).cfg = s.cfg := by unfold State.submitF; split <;> simp
@[simp] theorem State.submitF_link (s : State) : (s.submitF).link = s.link := by unfold State.submitF; split <;> simp
@[simp] theorem State.submitF_fbReg (s : State) : (s.submitF).fbReg = s.fbReg := by unfold State.submitF; split <;> simp
@[simp] theorem State.submitF_mode (s : State) : (s.submitF).mode = s.mode := by unfold State.submitF; split <;> simp
@[simp] theorem State.submitF_base16 (s : State) : (s.submitF).base16 = s.base16 := by unfold State.submitF; split <;> simp
@[simp] theorem State.submitF_base8 (s : State) : (s.submitF).base8 = s.base8 := by unfold State.submitF; split <;> simp
@[simp] theorem State.submitF_cursor (s : State) : (s.submitF).cursor = s.cursor := by unfold State.submitF; split <;> simp
@[simp] theorem State.submitF_backing (s : State) : (s.submitF).backing = s.backing := by unfold State.submitF; split <;> simp
@[simp] theorem State.submitF_line (s : State) : (s.submitF).line = s.line := by unfold State.submitF; split <;> simp
@[simp] theorem State.submitF_pending (s : State) : (s.submitF).pending = s.pending := by unfold State.submitF; split <;> simp
@[simp] theorem State.submitF_hostFb (s : State) : (s.submitF).hostFb = s.hostFb := by unfold State.submitF; split <;> simp
@[simp] theorem State.submitF_device (s : State) : (s.submitF).device = s.device := by unfold State.submitF; split <;> simp
@[simp] theorem State.submitF_queue (s : State) : (s.submitF).queue = s.queue := by unfold State.submitF; split <;> simp
@[simp] theorem State.submitF_moves (s : State) : (s.submitF).moves = s.moves := by unfold State.submitF; split <;> simp
@[simp] theorem State.submitF_replies (s : State) : (s.submitF).replies = s.replies := by unfold State.submitF; split <;> simp
@[simp] theorem State.submitF_deviceActive (s : State) : (s.submitF).deviceActive = s.deviceActive := by simp [State.deviceActive]

@[simp] theorem State.countLine_cfg (s : State) (f : FrameCtx) : (s.countLine f).cfg = s.cfg := by unfold State.countLine; split <;> (try split) <;> rfl
@[simp] theorem State.countLine_status (s : State) (f : FrameCtx) : (s.countLine f).status = s.status := by unfold State.countLine; split <;> (try split) <;> rfl
@[simp] theorem State.countLine_link (s : State) (f : FrameCtx) : (s.countLine f).link = s.link := by unfold State.countLine; split <;> (try split) <;> rfl
@[simp] theorem State.countLine_fbReg (s : State) (f : FrameCtx) : (s.countLine f).fbReg = s.fbReg := by unfold State.countLine; split <;> (try split) <;> rfl
@[simp] theorem State.countLine_mode (s : State) (f : FrameCtx) : (s.countLine f).mode = s.mode := by unfold State.countLine; split <;> (try split) <;> rfl
@[simp] theorem State.countLine_base16 (s : State) (f : FrameCtx) : (s.countLine f).base16 = s.base16 := by unfold State.countLine; split <;> (try split) <;> rfl
@[simp] theorem State.countLine_base8 (s : State) (f : FrameCtx) : (s.countLine f).base8 = s.base8 := by unfold State.countLine; split <;> (try split) <;> rfl
@[simp] theorem State.countLine_cursor (s : State) (f : FrameCtx) : (s.countLine f).cursor = s.cursor := by unfold State.countLine; split <;> (try split) <;> rfl
@[simp] theorem State.countLine_pool (s : State) (f : FrameCtx) : (s.countLine f).pool = s.pool := by unfold State.countLine; split <;> (try split) <;> rfl
@[simp] theorem State.countLine_backing (s : State) (f : FrameCtx) : (s.countLine f).backing = s.backing := by unfold State.countLine; split <;> (try split) <;> rfl
@[simp] theorem State.countLine_marks (s : State) (f : FrameCtx) : (s.countLine f).marks = s.marks := by unfold State.countLine; split <;> (try split) <;> rfl
@[simp] theorem State.countLine_pending (s : State) (f : FrameCtx) : (s.countLine f).pending = s.pending := by unfold State.countLine; split <;> (try split) <;> rfl
@[simp] theorem State.countLine_hostFb (s : State) (f : FrameCtx) : (s.countLine f).hostFb = s.hostFb := by unfold State.countLine; split <;> (try split) <;> rfl
@[simp] theorem State.countLine_device (s : State) (f : FrameCtx) : (s.countLine f).device = s.device := by unfold State.countLine; split <;> (try split) <;> rfl
@[simp] theorem State.countLine_queue (s : State) (f : FrameCtx) : (s.countLine f).queue = s.queue := by unfold State.countLine; split <;> (try split) <;> rfl
@[simp] theorem State.countLine_moves (s : State) (f : FrameCtx) : (s.countLine f).moves = s.moves := by unfold State.countLine; split <;> (try split) <;> rfl
@[simp] theorem State.countLine_replies (s : State) (f : FrameCtx) : (s.countLine f).replies = s.replies := by unfold State.countLine; split <;> (try split) <;> rfl
@[simp] theorem State.countLine_events (s : State) (f : FrameCtx) : (s.countLine f).events = s.events := by unfold State.countLine; split <;> (try split) <;> rfl
@[simp] theorem State.countLine_draws (s : State) (f : FrameCtx) : (s.countLine f).draws = s.draws := by unfold State.countLine; split <;> (try split) <;> rfl
@[simp] theorem State.countLine_drawCount (s : State) (f : FrameCtx) : (s.countLine f).drawCount = s.drawCount := by unfold State.countLine; split <;> (try split) <;> rfl
@[simp] theorem State.countLine_flag (s : State) (f : FrameCtx) (g : StatusFlag) : (s.countLine f).flag g = s.flag g := by simp [State.flag]
@[simp] theorem State.countLine_deviceActive (s : State) (f : FrameCtx) : (s.countLine f).deviceActive = s.deviceActive := by simp [State.deviceActive]

@[simp] theorem State.prepareLine_cfg (s : State) (f : FrameCtx) : (s.prepareLine f).cfg = s.cfg := by simp [State.prepareLine]
@[simp] theorem State.prepareLine_status (s : State) (f : FrameCtx) : (s.prepareLine f).status = s.status := by simp [State.prepareLine]
@[simp] theorem State.prepareLine_link (s : State) (f : FrameCtx) : (s.prepareLine f).link = s.link := by simp [State.prepareLine]
@[simp] theorem State.prepareLine_fbReg (s : State) (f : FrameCtx) : (s.prepareLine f).fbReg = s.fbReg := by simp [State.prepareLine]
@[simp] theorem State.prepareLine_mode (s : State) (f : FrameCtx) : (s.prepareLine f).mode = s.mode := by simp [State.prepareLine]
@[simp] theorem State.prepareLine_base16 (s : State) (f : FrameCtx) : (s.prepareLine f).base16 = s.base16 := by simp [State.prepareLine]
@[simp] theorem State.prepareLine_base8 (s : State) (f : FrameCtx) : (s.prepareLine f).base8 = s.base8 := by simp [State.prepareLine]
@[simp] theorem State.prepareLine_cursor (s : State) (f : FrameCtx) : (s.prepareLine f).cursor = s.cursor := by simp [State.prepareLine]
@[simp] theorem State.prepareLine_pool (s : State) (f : FrameCtx) : (s.prepareLine f).pool = s.pool := by simp [State.prepareLine]
@[simp] theorem State.prepareLine_marks (s : State) (f : FrameCtx) : (s.prepareLine f).marks = s.marks := by simp [State.prepareLine]
@[simp] theorem State.prepareLine_pending (s : State) (f : FrameCtx) : (s.prepareLine f).pending = s.pending := by simp [State.prepareLine]
@[simp] theorem State.prepareLine_hostFb (s : State) (f : FrameCtx) : (s.prepareLine f).hostFb = s.hostFb := by simp [State.prepareLine]
@[simp] theorem State.prepareLine_device (s : State) (f : FrameCtx) : (s.prepareLine f).device = s.device := by simp [State.prepareLine]
@[simp] theorem State.prepareLine_queue (s : State) (f : FrameCtx) : (s.prepareLine f).queue = s.queue := by simp [State.prepareLine]
@[simp] theorem State.prepareLine_moves (s : State) (f : FrameCtx) : (s.prepareLine f).moves = s.moves := by simp [State.prepareLine]
@[simp] theorem State.prepareLine_replies (s : State) (f : FrameCtx) : (s.prepareLine f).replies = s.replies := by simp [State.prepareLine]
@[simp] theorem State.prepareLine_events (s : State) (f : FrameCtx) : (s.prepareLine f).events = s.events := by simp [State.prepareLine]
@[simp] theorem State.prepareLine_draws (s : State) (f : FrameCtx) : (s.prepareLine f).draws = s.draws := by simp [State.prepareLine]
@[simp] theorem State.prepareLine_drawCount (s : State) (f : FrameCtx) : (s.prepareLine f).drawCount = s.drawCount := by simp [State.prepareLine]
@[simp] theorem State.prepareLine_flag (s : State) (f : FrameCtx) (g : StatusFlag) : (s.prepareLine f).flag g = s.flag g := by simp [State.flag]
@[simp] theorem State.prepareLine_deviceActive (s : State) (f : FrameCtx) : (s.prepareLine f).deviceActive = s.deviceActive := by simp [State.deviceActive]

@[simp] theorem State.checkPool_cfg (s : State) : (s.checkPool).cfg = s.cfg := by unfold State.checkPool; split <;> rfl
@[simp] theorem State.checkPool_status (s : State) : (s.checkPool).status = s.status := by unfold State.checkPool; split <;> rfl
@[simp] theorem State.checkPool_link (s : State) : (s.checkPool).link = s.link := by unfold State.checkPool; split <;> rfl
@[simp] theorem State.checkPool_fbReg (s : State) : (s.checkPool).fbReg = s.fbReg := by unfold State.checkPool; split <;> rfl
@[simp] theorem State.checkPool_mode (s : State) : (s.checkPool).mode = s.mode := by unfold State.checkPool; split <;> rfl
@[simp] theorem State.checkPool_base16 (s : State) : (s.checkPool).base16 = s.base16 := by unfold State.checkPool; split <;> rfl
@[simp] theorem State.checkPool_base8 (s : State) : (s.checkPool).base8 = s.base8 := by unfold State.checkPool; split <;> rfl
@[simp] theorem State.checkPool_cursor (s : State) : (s.checkPool).cursor = s.cursor := by unfold State.checkPool; split <;> rfl
@[simp] theorem State.checkPool_counters (s : State) : (s.checkPool).counters = s.counters := by unfold State.checkPool; split <;> rfl
@[simp] theorem State.checkPool_pool (s : State) : (s.checkPool).pool = s.pool := by unfold State.checkPool; split <;> rfl
@[simp] theorem State.checkPool_backing (s : State) : (s.checkPool).backing = s.backing := by unfold State.checkPool; split <;> rfl
@[simp] theorem State.checkPool_line (s : State) : (s.checkPool).line = s.line := by unfold State.checkPool; split <;> rfl
@[simp] theorem State.checkPool_pending (s : State) : (s.checkPool).pending = s.pending := by unfold State.checkPool; split <;> rfl
@[simp] theorem State.checkPool_hostFb (s : State) : (s.checkPool).hostFb = s.hostFb := by unfold State.checkPool; split <;> rfl
@[simp] theorem State.checkPool_device (s : State) : (s.checkPool).device = s.device := by unfold State.checkPool; split <;> rfl
@[simp] theorem State.checkPool_queue (s : State) : (s.checkPool).queue = s.queue := by unfold State.checkPool; split <;> rfl
@[simp] theorem State.checkPool_moves (s : State) : (s.checkPool).moves = s.moves := by unfold State.checkPool; split <;> rfl
@[simp] theorem State.checkPool_replies (s : State) : (s.checkPool).replies = s.replies := by unfold State.checkPool; split <;> rfl
@[simp] theorem State.checkPool_events (s : State) : (s.checkPool).events = s.events := by unfold State.checkPool; split <;> rfl
@[simp] theorem State.checkPool_draws (s : State) : (s.checkPool).draws = s.draws := by unfold State.checkPool; split <;> rfl
@[simp] theorem State.checkPool_drawCount (s : State) : (s.checkPool).drawCount = s.drawCount := by unfold State.checkPool; split <;> rfl
@[simp] theorem State.checkPool_flag (s : State) (g : StatusFlag) : (s.checkPool).flag g = s.flag g := by simp [State.flag]
@[simp] theorem State.checkPool_deviceActive (s : State) : (s.checkPool).deviceActive = s.deviceActive := by simp [State.deviceActive]

@[simp] theorem State.latchMode_cfg (s : State) (m : ModeRegs) (b : Bool) : (s.latchMode m b).cfg = s.cfg := rfl
@[simp] theorem State.latchMode_link (s : State) (m : ModeRegs) (b : Bool) : (s.latchMode m b).link = s.link := rfl
@[simp] theorem State.latchMode_fbReg (s : State) (m : ModeRegs) (b : Bool) : (s.latchMode m b).fbReg = s.fbReg := rfl
@[simp] theorem State.latchMode_cursor (s : State) (m : ModeRegs) (b : Bool) : (s.latchMode m b).cursor = s.cursor := rfl
@[simp] theorem State.latchMode_counters (s : State) (m : ModeRegs) (b : Bool) : (s.latchMode m b).counters = s.counters := rfl
@[simp] theorem State.latchMode_pool (s : State) (m : ModeRegs) (b : Bool) : (s.latchMode m b).pool = s.pool := rfl
@[simp] theorem State.latchMode_backing (s : State) (m : ModeRegs) (b : Bool) : (s.latchMode m b).backing = s.backing := rfl
@[simp] theorem State.latchMode_line (s : State) (m : ModeRegs) (b : Bool) : (s.latchMode m b).line = s.line := rfl
@[simp] theorem State.latchMode_marks (s : State) (m : ModeRegs) (b : Bool) : (s.latchMode m b).marks = s.marks := rfl
@[simp] theorem State.latchMode_pending (s : State) (m : ModeRegs) (b : Bool) : (s.latchMode m b).pending = s.pending := rfl
@[simp] theorem State.latchMode_hostFb (s : State) (m : ModeRegs) (b : Bool) : (s.latchMode m b).hostFb = s.hostFb := rfl
@[simp] theorem State.latchMode_device (s : State) (m : ModeRegs) (b : Bool) : (s.latchMode m b).device = s.device := rfl
@[simp] theorem State.latchMode_queue (s : State) (m : ModeRegs) (b : Bool) : (s.latchMode m b).queue = s.queue := rfl
@[simp] theorem State.latchMode_moves (s : State) (m : ModeRegs) (b : Bool) : (s.latchMode m b).moves = s.moves := rfl
@[simp] theorem State.latchMode_replies (s : State) (m : ModeRegs) (b : Bool) : (s.latchMode m b).replies = s.replies := rfl
@[simp] theorem State.latchMode_events (s : State) (m : ModeRegs) (b : Bool) : (s.latchMode m b).events = s.events := rfl
@[simp] theorem State.latchMode_draws (s : State) (m : ModeRegs) (b : Bool) : (s.latchMode m b).draws = s.draws := rfl
@[simp] theorem State.latchMode_drawCount (s : State) (m : ModeRegs) (b : Bool) : (s.latchMode m b).drawCount = s.drawCount := rfl
@[simp] theorem State.latchMode_deviceActive (s : State) (m : ModeRegs) (b : Bool) : (s.latchMode m b).deviceActive = s.deviceActive := by simp [State.deviceActive]

@[simp] theorem State.latchFb_cfg (s : State) (r : FbRegs) (b : Bool) (buf : Buf) : (s.latchFb r b buf).cfg = s.cfg := rfl
@[simp] theorem State.latchFb_link (s : State) (r : FbRegs) (b : Bool) (buf : Buf) : (s.latchFb r b buf).link = s.link := rfl
@[simp] theorem State.latchFb_mode (s : State) (r : FbRegs) (b : Bool) (buf : Buf) : (s.latchFb r b buf).mode = s.mode := rfl
@[simp] theorem State.latchFb_base16 (s : State) (r : FbRegs) (b : Bool) (buf : Buf) : (s.latchFb r b buf).base16 = s.base16 := rfl
@[simp] theorem State.latchFb_base8 (s : State) (r : FbRegs) (b : Bool) (buf : Buf) : (s.latchFb r b buf).base8 = s.base8 := rfl
@[simp] theorem State.latchFb_cursor (s : State) (r : FbRegs) (b : Bool) (buf : Buf) : (s.latchFb r b buf).cursor = s.cursor := rfl
@[simp] theorem State.latchFb_counters (s : State) (r : FbRegs) (b : Bool) (buf : Buf) : (s.latchFb r b buf).counters = s.counters := rfl
@[simp] theorem State.latchFb_pool (s : State) (r : FbRegs) (b : Bool) (buf : Buf) : (s.latchFb r b buf).pool = s.pool := rfl
@[simp] theorem State.latchFb_line (s : State) (r : FbRegs) (b : Bool) (buf : Buf) : (s.latchFb r b buf).line = s.line := rfl
@[simp] theorem State.latchFb_marks (s : State) (r : FbRegs) (b : Bool) (buf : Buf) : (s.latchFb r b buf).marks = s.marks := rfl
@[simp] theorem State.latchFb_pending (s : State) (r : FbRegs) (b : Bool) (buf : Buf) : (s.latchFb r b buf).pending = s.pending := rfl
@[simp] theorem State.latchFb_hostFb (s : State) (r : FbRegs) (b : Bool) (buf : Buf) : (s.latchFb r b buf).hostFb = s.hostFb := rfl
@[simp] theorem State.latchFb_device (s : State) (r : FbRegs) (b : Bool) (buf : Buf) : (s.latchFb r b buf).device = s.device := rfl
@[simp] theorem State.latchFb_queue (s : State) (r : FbRegs) (b : Bool) (buf : Buf) : (s.latchFb r b buf).queue = s.queue := rfl
@[simp] theorem State.latchFb_moves (s : State) (r : FbRegs) (b : Bool) (buf : Buf) : (s.latchFb r b buf).moves = s.moves := rfl
@[simp] theorem State.latchFb_replies (s : State) (r : FbRegs) (b : Bool) (buf : Buf) : (s.latchFb r b buf).replies = s.replies := rfl
@[simp] theorem State.latchFb_events (s : State) (r : FbRegs) (b : Bool) (buf : Buf) : (s.latchFb r b buf).events = s.events := rfl
@[simp] theorem State.latchFb_draws (s : State) (r : FbRegs) (b : Bool) (buf : Buf) : (s.latchFb r b buf).draws = s.draws := rfl
@[simp] theorem State.latchFb_drawCount (s : State) (r : FbRegs) (b : Bool) (buf : Buf) : (s.latchFb r b buf).drawCount = s.drawCount := rfl
@[simp] theorem State.latchFb_deviceActive (s : State) (r : FbRegs) (b : Bool) (buf : Buf) : (s.latchFb r b buf).deviceActive = s.deviceActive := by simp [State.deviceActive]

@[simp] theorem State.takeItem_cfg (s : State) (i : WireItem) : (s.takeItem i).cfg = s.cfg := rfl
@[simp] theorem State.takeItem_status (s : State) (i : WireItem) : (s.takeItem i).status = s.status := rfl
@[simp] theorem State.takeItem_link (s : State) (i : WireItem) : (s.takeItem i).link = s.link := rfl
@[simp] theorem State.takeItem_fbReg (s : State) (i : WireItem) : (s.takeItem i).fbReg = s.fbReg := rfl
@[simp] theorem State.takeItem_mode (s : State) (i : WireItem) : (s.takeItem i).mode = s.mode := rfl
@[simp] theorem State.takeItem_base16 (s : State) (i : WireItem) : (s.takeItem i).base16 = s.base16 := rfl
@[simp] theorem State.takeItem_base8 (s : State) (i : WireItem) : (s.takeItem i).base8 = s.base8 := rfl
@[simp] theorem State.takeItem_cursor (s : State) (i : WireItem) : (s.takeItem i).cursor = s.cursor := rfl
@[simp] theorem State.takeItem_counters (s : State) (i : WireItem) : (s.takeItem i).counters = s.counters := rfl
@[simp] theorem State.takeItem_pool (s : State) (i : WireItem) : (s.takeItem i).pool = s.pool := rfl
@[simp] theorem State.takeItem_backing (s : State) (i : WireItem) : (s.takeItem i).backing = s.backing := rfl
@[simp] theorem State.takeItem_line (s : State) (i : WireItem) : (s.takeItem i).line = s.line := rfl
@[simp] theorem State.takeItem_marks (s : State) (i : WireItem) : (s.takeItem i).marks = s.marks := rfl
@[simp] theorem State.takeItem_pending (s : State) (i : WireItem) : (s.takeItem i).pending = s.pending := rfl
@[simp] theorem State.takeItem_hostFb (s : State) (i : WireItem) : (s.takeItem i).hostFb = s.hostFb := rfl
@[simp] theorem State.takeItem_queue (s : State) (i : WireItem) : (s.takeItem i).queue = s.queue := rfl
@[simp] theorem State.takeItem_moves (s : State) (i : WireItem) : (s.takeItem i).moves = s.moves := rfl
@[simp] theorem State.takeItem_replies (s : State) (i : WireItem) : (s.takeItem i).replies = s.replies := rfl
@[simp] theorem State.takeItem_events (s : State) (i : WireItem) : (s.takeItem i).events = s.events := rfl
@[simp] theorem State.takeItem_draws (s : State) (i : WireItem) : (s.takeItem i).draws = s.draws := rfl
@[simp] theorem State.takeItem_drawCount (s : State) (i : WireItem) : (s.takeItem i).drawCount = s.drawCount := rfl
@[simp] theorem State.takeItem_flag (s : State) (i : WireItem) (g : StatusFlag) : (s.takeItem i).flag g = s.flag g := by simp [State.flag]
@[simp] theorem State.takeItem_deviceActive (s : State) (i : WireItem) : (s.takeItem i).deviceActive = s.deviceActive := by simp [State.deviceActive]

@[simp] theorem State.storeRun_cfg (s : State) (a : DevAddr) (bs : List Byte) : (s.storeRun a bs).cfg = s.cfg := rfl
@[simp] theorem State.storeRun_status (s : State) (a : DevAddr) (bs : List Byte) : (s.storeRun a bs).status = s.status := rfl
@[simp] theorem State.storeRun_link (s : State) (a : DevAddr) (bs : List Byte) : (s.storeRun a bs).link = s.link := rfl
@[simp] theorem State.storeRun_fbReg (s : State) (a : DevAddr) (bs : List Byte) : (s.storeRun a bs).fbReg = s.fbReg := rfl
@[simp] theorem State.storeRun_mode (s : State) (a : DevAddr) (bs : List Byte) : (s.storeRun a bs).mode = s.mode := rfl
@[simp] theorem State.storeRun_base16 (s : State) (a : DevAddr) (bs : List Byte) : (s.storeRun a bs).base16 = s.base16 := rfl
@[simp] theorem State.storeRun_base8 (s : State) (a : DevAddr) (bs : List Byte) : (s.storeRun a bs).base8 = s.base8 := rfl
@[simp] theorem State.storeRun_cursor (s : State) (a : DevAddr) (bs : List Byte) : (s.storeRun a bs).cursor = s.cursor := rfl
@[simp] theorem State.storeRun_counters (s : State) (a : DevAddr) (bs : List Byte) : (s.storeRun a bs).counters = s.counters := rfl
@[simp] theorem State.storeRun_pool (s : State) (a : DevAddr) (bs : List Byte) : (s.storeRun a bs).pool = s.pool := rfl
@[simp] theorem State.storeRun_backing (s : State) (a : DevAddr) (bs : List Byte) : (s.storeRun a bs).backing = s.backing := rfl
@[simp] theorem State.storeRun_line (s : State) (a : DevAddr) (bs : List Byte) : (s.storeRun a bs).line = s.line := rfl
@[simp] theorem State.storeRun_marks (s : State) (a : DevAddr) (bs : List Byte) : (s.storeRun a bs).marks = s.marks := rfl
@[simp] theorem State.storeRun_pending (s : State) (a : DevAddr) (bs : List Byte) : (s.storeRun a bs).pending = s.pending := rfl
@[simp] theorem State.storeRun_hostFb (s : State) (a : DevAddr) (bs : List Byte) : (s.storeRun a bs).hostFb = s.hostFb := rfl
@[simp] theorem State.storeRun_queue (s : State) (a : DevAddr) (bs : List Byte) : (s.storeRun a bs).queue = s.queue := rfl
@[simp] theorem State.storeRun_moves (s : State) (a : DevAddr) (bs : List Byte) : (s.storeRun a bs).moves = s.moves := rfl
@[simp] theorem State.storeRun_replies (s : State) (a : DevAddr) (bs : List Byte) : (s.storeRun a bs).replies = s.replies := rfl
@[simp] theorem State.storeRun_events (s : State) (a : DevAddr) (bs : List Byte) : (s.storeRun a bs).events = s.events := rfl
@[simp] theorem State.storeRun_draws (s : State) (a : DevAddr) (bs : List Byte) : (s.storeRun a bs).draws = s.draws := rfl
@[simp] theorem State.storeRun_drawCount (s : State) (a : DevAddr) (bs : List Byte) : (s.storeRun a bs).drawCount = s.drawCount := rfl
@[simp] theorem State.storeRun_flag (s : State) (a : DevAddr) (bs : List Byte) (g : StatusFlag) : (s.storeRun a bs).flag g = s.flag g := by simp [State.flag]
@[simp] theorem State.storeRun_deviceActive (s : State) (a : DevAddr) (bs : List Byte) : (s.storeRun a bs).deviceActive = s.deviceActive := by simp [State.deviceActive]

@[simp] theorem State.destroySession_cfg (s : State) : (s.destroySession).cfg = s.cfg := rfl
@[simp] theorem State.destroySession_marks (s : State) : (s.destroySession).marks = s.marks := rfl
@[simp] theorem State.destroySession_pending (s : State) : (s.destroySession).pending = s.pending := rfl
@[simp] theorem State.destroySession_hostFb (s : State) : (s.destroySession).hostFb = s.hostFb := rfl
@[simp] theorem State.destroySession_device (s : State) : (s.destroySession).device = s.device := rfl
@[simp] theorem State.destroySession_queue (s : State) : (s.destroySession).queue = s.queue := rfl
@[simp] theorem State.destroySession_moves (s : State) : (s.destroySession).moves = s.moves := rfl
@[simp] theorem State.destroySession_replies (s : State) : (s.destroySession).replies = s.replies := rfl
@[simp] theorem State.destroySession_events (s : State) : (s.destroySession).events = s.events := rfl
@[simp] theorem State.destroySession_draws (s : State) : (s.destroySession).draws = s.draws := rfl
@[simp] theorem State.destroySession_drawCount (s : State) : (s.destroySession).drawCount = s.drawCount := rfl

@[simp] theorem State.createSession_cfg (s : State) : (s.createSession).cfg = s.cfg := rfl
@[simp] theorem State.createSession_marks (s : State) : (s.createSession).marks = s.marks := rfl
@[simp] theorem State.createSession_pending (s : State) : (s.createSession).pending = s.pending := rfl
@[simp] theorem State.createSession_hostFb (s : State) : (s.createSession).hostFb = s.hostFb := rfl
@[simp] theorem State.createSession_device (s : State) : (s.createSession).device = s.device := rfl
@[simp] theorem State.createSession_queue (s : State) : (s.createSession).queue = s.queue := rfl
@[simp] theorem State.createSession_moves (s : State) : (s.createSession).moves = s.moves := rfl
@[simp] theorem State.createSession_replies (s : State) : (s.createSession).replies = s.replies := rfl
@[simp] theorem State.createSession_events (s : State) : (s.createSession).events = s.events := rfl
@[simp] theorem State.createSession_draws (s : State) : (s.createSession).draws = s.draws := rfl

@[simp] theorem State.reply_replies (s : State) (c : StatusCode) (r : Result) :
    (s.reply c r).replies = s.replies ++ [⟨c, r⟩] := rfl
@[simp] theorem State.reply_pending (s : State) (c : StatusCode) (r : Result) : (s.reply c r).pending = none := rfl
@[simp] theorem State.waitAt_pending (s : State) (p : Pending) : (s.waitAt p).pending = some p := rfl
@[simp] theorem State.popMove_moves (s : State) : s.popMove.moves = s.moves.tail := rfl
@[simp] theorem State.latchMode_mode (s : State) (m : ModeRegs) (b : Bool) : (s.latchMode m b).mode = m := rfl
@[simp] theorem State.latchMode_base16 (s : State) (m : ModeRegs) (b : Bool) : (s.latchMode m b).base16 = 0 := rfl
@[simp] theorem State.latchMode_base8 (s : State) (m : ModeRegs) (b : Bool) : (s.latchMode m b).base8 = modeBase8 m := rfl
@[simp] theorem State.latchMode_flag (s : State) (m : ModeRegs) (b : Bool) (g : StatusFlag) :
    (s.latchMode m b).flag g = if .modeValid = g then true else if .split = g then b else s.flag g := by
  rw [State.latchMode, State.flag_setFlag, State.flag_setFlag]; rfl
@[simp] theorem State.latchFb_fbReg (s : State) (r : FbRegs) (b : Bool) (buf : Buf) : (s.latchFb r b buf).fbReg = r := rfl
@[simp] theorem State.latchFb_backing (s : State) (r : FbRegs) (b : Bool) (buf : Buf) : (s.latchFb r b buf).backing = buf := rfl
@[simp] theorem State.latchFb_flag (s : State) (r : FbRegs) (b : Bool) (buf : Buf) (g : StatusFlag) :
    (s.latchFb r b buf).flag g = if .fbValid = g then true else if .backingEn = g then b else s.flag g := by
  rw [State.latchFb, State.flag_setFlag, State.flag_setFlag]; rfl
@[simp] theorem State.prepareLine_backing (s : State) (f : FrameCtx) : (s.prepareLine f).backing = nextBacking s f := rfl
@[simp] theorem State.prepareLine_line (s : State) (f : FrameCtx) : (s.prepareLine f).line = splitLine s f := rfl
@[simp] theorem State.destroySession_pool (s : State) : s.destroySession.pool = Pool.absent := rfl
@[simp] theorem State.destroySession_backing (s : State) : s.destroySession.backing = ⟨[], 0⟩ := rfl
@[simp] theorem State.destroySession_cursor (s : State) : s.destroySession.cursor = Cursor.reset := rfl
@[simp] theorem State.destroySession_mode (s : State) : s.destroySession.mode = ModeRegs.reset := rfl
@[simp] theorem State.destroySession_status (s : State) : s.destroySession.status = 0 := rfl
@[simp] theorem State.destroySession_link (s : State) : s.destroySession.link = 0 := rfl
@[simp] theorem State.destroySession_counters (s : State) : s.destroySession.counters = Counters.reset := rfl
@[simp] theorem State.destroySession_flag (s : State) (g : StatusFlag) : s.destroySession.flag g = false := by
  simp [State.flag]
@[simp] theorem State.createSession_pool (s : State) : s.createSession.pool = Pool.fresh s.cfg s.drawCount := rfl
@[simp] theorem State.createSession_backing (s : State) : s.createSession.backing = ⟨[], 0⟩ := rfl
@[simp] theorem State.createSession_cursor (s : State) : s.createSession.cursor = Cursor.reset := rfl
@[simp] theorem State.createSession_mode (s : State) : s.createSession.mode = ModeRegs.reset := rfl
@[simp] theorem State.createSession_status (s : State) : s.createSession.status = 0x00000020 := rfl
@[simp] theorem State.createSession_link (s : State) : s.createSession.link = 0 := rfl
@[simp] theorem State.createSession_counters (s : State) : s.createSession.counters = Counters.reset := rfl
@[simp] theorem State.createSession_flag (s : State) (g : StatusFlag) : s.createSession.flag g = decide (g = .attached) := by
  unfold State.flag
  rw [State.createSession_status]
  cases g <;> decide

end Sys2Proof.Machine
end

