-- ==== Sys2Proof/Laws/Ops.lean ====
section
/-!
SUPPORT. What each shared operation of Machine/Ops.lean can do, said once, for proofs to cite instead of unfolding it.
-/

namespace Sys2Proof.Machine

/-! ## Ending a request -/

@[simp] theorem finish_eq_next {s t : State} {st : StatusCode} {r : Result} :
    finish s st r = .next t ↔ t = s.replied st r := by
  simp [finish, State.reply, State.replied, eq_comm]

@[simp] theorem raise_eq_next {s t : State} {st : StatusCode} : raise s st = .next t ↔ t = s.replied st .none := by
  simp [raise]

@[simp] theorem succeed_eq_next {s t : State} : succeed s = .next t ↔ t = s.replied .ok .none := by simp [succeed]

theorem finish_eq (s : State) (st : StatusCode) (r : Result) : finish s st r = .next (s.replied st r) := rfl

theorem inSession_of_attached {s : State} {body : Out} (h : s.flag .attached = true) : inSession s body = body := by
  simp [inSession, h]

theorem inSession_of_detached {s : State} {body : Out} (h : s.flag .attached = false) :
    inSession s body = .next (s.replied .inactive .none) := by
  simp [inSession, h, raise, finish_eq]

/-- Everything the session check can answer. -/
theorem inSession_cases {s t : State} {body : Out} (h : inSession s body = .next t) :
    (s.flag .attached = false ∧ t = s.replied .inactive .none) ∨ (s.flag .attached = true ∧ body = .next t) := by
  cases ha : s.flag .attached
  · rw [inSession_of_detached ha] at h
    exact .inl ⟨rfl, by simpa using h.symm⟩
  · rw [inSession_of_attached ha] at h
    exact .inr ⟨rfl, h⟩

@[simp] theorem State.replied_cfg (s : State) (c : StatusCode) (r : Result) : (s.replied c r).cfg = s.cfg := rfl
@[simp] theorem State.replied_status (s : State) (c : StatusCode) (r : Result) : (s.replied c r).status = s.status := rfl
@[simp] theorem State.replied_link (s : State) (c : StatusCode) (r : Result) : (s.replied c r).link = s.link := rfl
@[simp] theorem State.replied_fbReg (s : State) (c : StatusCode) (r : Result) : (s.replied c r).fbReg = s.fbReg := rfl
@[simp] theorem State.replied_mode (s : State) (c : StatusCode) (r : Result) : (s.replied c r).mode = s.mode := rfl
@[simp] theorem State.replied_base16 (s : State) (c : StatusCode) (r : Result) : (s.replied c r).base16 = s.base16 := rfl
@[simp] theorem State.replied_base8 (s : State) (c : StatusCode) (r : Result) : (s.replied c r).base8 = s.base8 := rfl
@[simp] theorem State.replied_cursor (s : State) (c : StatusCode) (r : Result) : (s.replied c r).cursor = s.cursor := rfl
@[simp] theorem State.replied_counters (s : State) (c : StatusCode) (r : Result) : (s.replied c r).counters = s.counters := rfl
@[simp] theorem State.replied_pool (s : State) (c : StatusCode) (r : Result) : (s.replied c r).pool = s.pool := rfl
@[simp] theorem State.replied_backing (s : State) (c : StatusCode) (r : Result) : (s.replied c r).backing = s.backing := rfl
@[simp] theorem State.replied_line (s : State) (c : StatusCode) (r : Result) : (s.replied c r).line = s.line := rfl
@[simp] theorem State.replied_marks (s : State) (c : StatusCode) (r : Result) : (s.replied c r).marks = s.marks := rfl
@[simp] theorem State.replied_hostFb (s : State) (c : StatusCode) (r : Result) : (s.replied c r).hostFb = s.hostFb := rfl
@[simp] theorem State.replied_device (s : State) (c : StatusCode) (r : Result) : (s.replied c r).device = s.device := rfl
@[simp] theorem State.replied_queue (s : State) (c : StatusCode) (r : Result) : (s.replied c r).queue = s.queue := rfl
@[simp] theorem State.replied_moves (s : State) (c : StatusCode) (r : Result) : (s.replied c r).moves = s.moves := rfl
@[simp] theorem State.replied_events (s : State) (c : StatusCode) (r : Result) : (s.replied c r).events = s.events := rfl
@[simp] theorem State.replied_draws (s : State) (c : StatusCode) (r : Result) : (s.replied c r).draws = s.draws := rfl
@[simp] theorem State.replied_drawCount (s : State) (c : StatusCode) (r : Result) : (s.replied c r).drawCount = s.drawCount := rfl
@[simp] theorem State.replied_flag (s : State) (c : StatusCode) (r : Result) (g : StatusFlag) :
    (s.replied c r).flag g = s.flag g := rfl
@[simp] theorem State.replied_deviceActive (s : State) (c : StatusCode) (r : Result) :
    (s.replied c r).deviceActive = s.deviceActive := rfl
@[simp] theorem State.replied_pending (s : State) (c : StatusCode) (r : Result) : (s.replied c r).pending = none := rfl
@[simp] theorem State.replied_replies (s : State) (c : StatusCode) (r : Result) :
    (s.replied c r).replies = s.replies ++ [⟨c, r⟩] := rfl

/-! ## Slots -/

theorem Pool.getElem?_modifySlot (p : Pool) (k j : Nat) (f : Slot → Slot) :
    (p.modifySlot k f).slots[j]? = if k = j then p.slots[j]?.map f else p.slots[j]? := by
  simp only [Pool.modifySlot, List.getElem?_modify]
  split <;> simp

@[simp] theorem Pool.length_modifySlot (p : Pool) (k : Nat) (f : Slot → Slot) :
    (p.modifySlot k f).slots.length = p.slots.length := by
  simp [Pool.modifySlot]

@[simp] theorem Pool.modifySlot_freeq (p : Pool) (k : Nat) (f : Slot → Slot) : (p.modifySlot k f).freeq = p.freeq := rfl
@[simp] theorem Pool.modifySlot_avail (p : Pool) (k : Nat) (f : Slot → Slot) : (p.modifySlot k f).avail = p.avail := rfl
@[simp] theorem Pool.modifySlot_held (p : Pool) (k : Nat) (f : Slot → Slot) : (p.modifySlot k f).held = p.held := rfl
@[simp] theorem Pool.modifySlot_wptr (p : Pool) (k : Nat) (f : Slot → Slot) : (p.modifySlot k f).wptr = p.wptr := rfl

theorem Slot.byte_storeList_inside (slot : Slot) (a : Nat) (bs : List Byte) {j : Nat} (h : j < bs.length) :
    Slot.byte { slot with buf := slot.buf.storeList a bs } (a + j) = bs[j] :=
  Memory.read_storeList_inside _ _ a bs h

theorem Slot.byte_storeList_other (slot : Slot) (a : Nat) (bs : List Byte) {b : Nat} (h : b < a ∨ a + bs.length ≤ b) :
    Slot.byte { slot with buf := slot.buf.storeList a bs } b = slot.byte b :=
  Memory.read_storeList_other _ _ bs h

/-- Writing bytes into a slot's buffer rewrites exactly those bytes. -/
theorem Slot.rewritten_storeList (slot : Slot) (a : Nat) (bs : List Byte) :
    Slot.Rewritten slot { slot with buf := slot.buf.storeList a bs } a bs where
  written _ h := Slot.byte_storeList_inside slot a bs h
  kept _ h := Slot.byte_storeList_other slot a bs h
  len := rfl
  state := rfl

/-- `SLOT[k].buf[0 .. n)`, byte by byte. -/
theorem Pool.slotBytes_eq {p : Pool} {k : Nat} {slot : Slot} (h : p.slots[k]? = some slot) (n : Nat) :
    p.slotBytes k n = (List.range n).map slot.byte := by
  simp [Pool.slotBytes, h, Buf.readList, Memory.readList, Slot.byte]

/-! ## Emit -/

/-- Emit where its caller has checked: the bytes go to WPTR of the held slot, and WPTR moves on. -/
theorem State.emit_eq {s : State} {k : Nat} {bs : List Byte} (hk : s.pool.held = some k)
    (hfit : s.pool.wptr.toNat + bs.length ≤ s.cfg.slotBytes) :
    s.emit bs = { s with pool :=
      { s.pool.modifySlot k (fun slot => { slot with buf := slot.buf.storeList s.pool.wptr.toNat bs }) with
        wptr := s.pool.wptr + BitVec.ofNat 32 bs.length } } := by
  simp [State.emit, hk, hfit]

/-- Everything Emit can do. -/
theorem State.emit_cases (s : State) (bs : List Byte) :
    (∃ k, s.pool.held = some k ∧ s.pool.wptr.toNat + bs.length ≤ s.cfg.slotBytes ∧
      s.emit bs = { s with pool :=
        { s.pool.modifySlot k (fun slot => { slot with buf := slot.buf.storeList s.pool.wptr.toNat bs }) with
          wptr := s.pool.wptr + BitVec.ofNat 32 bs.length } }) ∨
    s.emit bs = s.markFault .emitOverflow := by
  unfold State.emit
  split
  · next k hk =>
    split
    · next h => exact .inl ⟨k, hk, h, rfl⟩
    · exact .inr rfl
  · exact .inr rfl

/-- Where its caller has checked, Emit changes the pool as `Pool.Emitted` says and nothing else. -/
theorem State.emit_emitted {s : State} {k : Nat} {bs : List Byte} (hk : s.pool.held = some k)
    (hlt : k < s.pool.slots.length) (hfit : s.pool.wptr.toNat + bs.length ≤ s.cfg.slotBytes) :
    s.emit bs = { s with pool := (s.emit bs).pool } ∧ Pool.Emitted s.pool (s.emit bs).pool k bs := by
  rw [State.emit_eq hk hfit]
  refine ⟨rfl, rfl, rfl, rfl, rfl, by simp, ?_, ?_⟩
  · intro j hj
    simp [Pool.getElem?_modifySlot, Ne.symm hj]
  · refine ⟨s.pool.slots[k], _, by simp [hlt], ?_, Slot.rewritten_storeList _ _ _⟩
    simp [Pool.modifySlot, hlt]

/-! ## Pool steps -/

/-- TAKE with a free slot. -/
theorem State.takeSlot_eq {s : State} {k : Nat} {rest : List Nat} (h : s.pool.freeq = k :: rest) :
    s.takeSlot = { s with pool :=
      { s.pool.modifySlot k (fun slot => { slot with state := .held }) with
        freeq := rest, avail := s.pool.avail - 1, held := some k, wptr := 0 } } := by
  simp [State.takeSlot, h]

/-- Everything TAKE can do. -/
theorem State.takeSlot_cases (s : State) :
    (∃ k rest, s.pool.freeq = k :: rest ∧
      s.takeSlot = { s with pool :=
        { s.pool.modifySlot k (fun slot => { slot with state := .held }) with
          freeq := rest, avail := s.pool.avail - 1, held := some k, wptr := 0 } }) ∨
    (s.pool.freeq = [] ∧
      s.takeSlot = ({ s with pool := { s.pool with wptr := 0 } } : State).markFault .poolInvariant) := by
  unfold State.takeSlot
  split
  · next k rest h => exact .inl ⟨k, rest, h, rfl⟩
  · next h => exact .inr ⟨h, rfl⟩

@[simp] theorem State.takeSlot_wptr (s : State) : s.takeSlot.pool.wptr = 0 := by
  rcases s.takeSlot_cases with ⟨k, rest, -, h⟩ | ⟨-, h⟩ <;> simp [h]

/-- CompleteSlot of a slot in flight. -/
theorem State.completeSlot_eq {s : State} {k : Nat} {slot : Slot} (h : s.pool.slots[k]? = some slot)
    (hs : slot.state = .inflight) :
    s.completeSlot k = { s with pool := s.pool.giveBack s.cfg.slotBytes k } := by
  simp [State.completeSlot, h, hs]

/-- Everything CompleteSlot can do. -/
theorem State.completeSlot_cases (s : State) (k : Nat) :
    (∃ slot, s.pool.slots[k]? = some slot ∧ slot.state = .inflight ∧
      s.completeSlot k = { s with pool := s.pool.giveBack s.cfg.slotBytes k }) ∨
    ((∀ slot, s.pool.slots[k]? = some slot → slot.state ≠ .inflight) ∧ s.completeSlot k = s.markFault .badComplete) := by
  unfold State.completeSlot
  split
  · next slot h =>
    split
    · next hs => exact .inl ⟨slot, h, hs, rfl⟩
    · next hs => exact .inr ⟨by rw [h]; simpa using hs, rfl⟩
  · next h => exact .inr ⟨by rw [h]; simp, rfl⟩

/-- RELEASE's body. -/
theorem State.releaseSlot_eq (s : State) (k : Nat) :
    s.releaseSlot k = { s with pool := { s.pool.giveBack s.cfg.slotBytes k with held := none, wptr := 0 } } := rfl

/-- SUBMIT's atomic step when TRANSPORT accepts. -/
theorem State.submitWith_accept (s : State) (k : Nat) :
    s.submitWith k true =
      ({ s.launchSlot k with
          events := s.events ++ [⟨k, s.pool.wptr, s.pool.slotBytes k s.pool.wptr.toNat⟩] } : State).countSent s.pool.wptr := rfl

/-- SUBMIT's atomic step when TRANSPORT rejects. -/
theorem State.submitWith_reject (s : State) (k : Nat) :
    s.submitWith k false = ((s.launchSlot k).completeSlot k).setFlag .lostPixels true := rfl

/-- A rejected slot that exists goes straight back, with its full length. -/
theorem State.launch_complete {s : State} {k : Nat} (h : k < s.pool.slots.length) :
    (s.launchSlot k).completeSlot k =
      { s with pool := { s.pool.giveBack s.cfg.slotBytes k with held := none, wptr := 0 } } := by
  have hk : (s.launchSlot k).pool.slots[k]? =
      some { s.pool.slots[k] with len := s.pool.wptr, state := .inflight } := by
    simp [State.launchSlot, Pool.modifySlot, h]
  rw [State.completeSlot_eq hk rfl]
  simp only [State.launchSlot, Pool.giveBack, Pool.modifySlot, State.mk.injEq, Pool.mk.injEq, true_and, and_true]
  refine List.ext_getElem? fun j => ?_
  simp only [List.getElem?_modify]
  by_cases hj : k = j
  · subst hj; simp [h]
  · simp [hj]

/-- CompleteSlot leaves HELD alone. -/
@[simp] theorem State.completeSlot_held (s : State) (k : Nat) : (s.completeSlot k).pool.held = s.pool.held := by
  rcases s.completeSlot_cases k with ⟨slot, -, -, e⟩ | ⟨-, e⟩ <;> simp [e, Pool.giveBack]

/-- After SUBMIT no slot is held. -/
@[simp] theorem State.submitSlot_held (s : State) (k : Nat) : (s.submitSlot k).pool.held = none := by
  unfold State.submitSlot
  cases s.nextChoice
  · simp [State.submitWith_reject, State.launchSlot]
  · simp [State.submitWith_accept, State.launchSlot]

/-- The STATUS bits after SUBMIT: a rejected one sets LOST_PIXELS. -/
theorem State.submitSlot_flag (s : State) (k : Nat) (g : StatusFlag) :
    (s.submitSlot k).flag g = (s.flag g || (!s.nextChoice && decide (g = .lostPixels))) := by
  unfold State.submitSlot
  cases s.nextChoice
  · simp [State.submitWith_reject, eq_comm (a := g), Bool.or_comm]
  · simp [State.submitWith_accept]
    rfl

/-- The STATUS bits after SubmitF. -/
theorem State.submitF_flag (s : State) {g : StatusFlag} (h : g ≠ .lostPixels) : s.submitF.flag g = s.flag g := by
  unfold State.submitF
  split
  · simp [State.submitSlot_flag, h]
  · rfl

/-! ## Choices -/

/-- A choice uses up one draw fixed from outside, or one free value. -/
theorem State.afterDraw_cases (s : State) :
    (∃ d ds, s.draws = d :: ds ∧ s.afterDraw = { s with draws := ds } ∧ s.nextDraw = d) ∨
    (s.draws = [] ∧ s.afterDraw = { s with drawCount := s.drawCount + 1 } ∧ s.nextDraw = Config.freeDraw s.drawCount) := by
  unfold State.afterDraw State.nextDraw
  split <;> simp_all

/-! ## The pool invariants of 10_state.md R38 -/

/-- R38 in words: what the check `Pool.holdsR38` says. -/
theorem Pool.holdsR38_iff (p : Pool) :
    p.holdsR38 = true ↔
      p.avail.toNat = p.freeq.length ∧ p.freeq.Nodup ∧ (∀ k ∈ p.freeq, k < p.slots.length) ∧
      (∀ k slot, p.slots[k]? = some slot → ((k ∈ p.freeq ↔ slot.state = .free) ∧ (p.held = some k ↔ slot.state = .held))) ∧
      (∀ k, p.held = some k → k < p.slots.length) := by
  simp only [Pool.holdsR38, Bool.and_eq_true, decide_eq_true_eq, List.all_eq_true, List.mem_range, and_assoc]
  refine and_congr_right fun _ => and_congr_right fun _ => and_congr_right fun _ => and_congr ?_ ?_
  · constructor
    · intro h k slot hk
      have hlt : k < p.slots.length := (List.getElem?_eq_some_iff.mp hk).1
      have := h k hlt
      rw [hk] at this
      simp only [Bool.and_eq_true, beq_iff_eq, decide_eq_decide] at this
      exact this
    · intro h k hlt
      have hk : p.slots[k]? = some p.slots[k] := by simp [hlt]
      rw [hk]
      simp only [Bool.and_eq_true, beq_iff_eq, decide_eq_decide]
      exact h k _ hk
  · cases hh : p.held <;> simp

/-- The check at the end of a step changes the marks at most. -/
theorem State.checkPool_cases (s : State) : s.checkPool = s ∨ s.checkPool = s.markFault .poolInvariant := by
  unfold State.checkPool; split <;> simp

/-- The check changes nothing where R38 holds. -/
theorem State.checkPool_eq {s : State} (h : s.pool.holdsR38 = true) : s.checkPool = s := by
  simp [State.checkPool, h]

end Sys2Proof.Machine
end

