-- ==== Sys2Proof/Laws/Frame.lean ====
section
/-!
SUPPORT. What a frame operation can do, said once: it is made of a few state changes, so a property that each of them keeps is
kept by the whole run between two wait points. Claims about frames cite `FrameRule` instead of unfolding the loops.
-/

namespace Sys2Proof.Machine

/-- `f` is a later point of the frame operation that `f0` is a point of: the source and the rectangle are the same. -/
def FrameCtx.Same (f0 f : FrameCtx) : Prop := f.source = f0.source ∧ f.x0 = f0.x0 ∧ f.x1 = f0.x1 ∧ f.yEnd = f0.yEnd

/-- The state changes a frame operation is made of. `P` holds while it may emit, `Q` while it is without a slot, `R` at the end
of the stretch. -/
structure FrameRule (c : Params) (f0 : FrameCtx) (P Q R : State → Prop) : Prop where
  cfg : ∀ s, P s → s.cfg = c
  emit16 : ∀ s vals i addr, P s → P (s.emit (encodeRun c (channel16 c) s.pool.wptr.toNat vals i addr).bytes)
  emit8 : ∀ s vals i addr, P s → P (s.emit (encodeRun c (channel8 c) s.pool.wptr.toNat vals i addr).bytes)
  full16 : ∀ s vals i addr, P s → (encodeRun c (channel16 c) s.pool.wptr.toNat vals i addr).full = true →
    Q (s.emit (encodeRun c (channel16 c) s.pool.wptr.toNat vals i addr).bytes).submitF
  full8 : ∀ s vals i addr, P s → (encodeRun c (channel8 c) s.pool.wptr.toNat vals i addr).full = true →
    Q (s.emit (encodeRun c (channel8 c) s.pool.wptr.toNat vals i addr).bytes).submitF
  take : ∀ s, Q s → s.pool.avail ≠ 0 → P s.takeSlot
  count : ∀ s f, FrameCtx.Same f0 f → f.y < f.yEnd → P s → P (s.countLine f)
  prepare : ∀ s f, FrameCtx.Same f0 f → f.y < f.yEnd → (lineRange s f).len ≠ 0 → P s → P (s.prepareLine f)
  lost : ∀ s, Q s → Q (s.setFlag .lostPixels true)
  slotless : ∀ s, P s → s.pool.held = none → Q s
  slotted : ∀ s, Q s → s.pool.held ≠ none → P s
  wait : ∀ s f, FrameCtx.Same f0 f → Q s → s.pool.avail = 0 → R (s.waitAt (.frame f))
  ends : ∀ s t, P s ∨ Q s → endOfFrame s = .next t → R t

variable {c : Params} {f0 : FrameCtx} {P Q R : State → Prop}

/-- The rule for a property that every state change of a frame operation keeps, with a slot or without. -/
theorem FrameRule.uniform (c : Params) (f0 : FrameCtx) {P R : State → Prop} (cfg : ∀ s, P s → s.cfg = c)
    (emit : ∀ s bs, P s → P (s.emit bs)) (submit : ∀ s, P s → P s.submitF) (take : ∀ s, P s → P s.takeSlot)
    (count : ∀ s f, P s → P (s.countLine f)) (prepare : ∀ s f, P s → P (s.prepareLine f))
    (lost : ∀ s, P s → P (s.setFlag .lostPixels true))
    (wait : ∀ s f, FrameCtx.Same f0 f → P s → R (s.waitAt (.frame f)))
    (ends : ∀ s t, P s → endOfFrame s = .next t → R t) : FrameRule c f0 P P R where
  cfg := cfg
  emit16 s _ _ _ h := emit s _ h
  emit8 s _ _ _ h := emit s _ h
  full16 s _ _ _ h _ := submit _ (emit s _ h)
  full8 s _ _ _ h _ := submit _ (emit s _ h)
  take s h _ := take s h
  count s f _ _ h := count s f h
  prepare s f _ _ _ h := prepare s f h
  lost := lost
  slotless _ h _ := h
  slotted _ h _ := h
  wait s f hf h _ := wait s f hf h
  ends s t h := ends s t (h.elim id id)

/-- What a stretch of EncodeChannel leaves. -/
def ChannelEnd.Leaves (P Q : State → Prop) : ChannelEnd → Prop
  | .done t => P t
  | .wait t _ _ => Q t ∧ t.pool.avail = 0
  | .stuck => True

theorem encodeChannel_leaves {α : Type} [DecidableEq α] {ch : Channel α} {vals : List α} (hcfg : ∀ s, P s → s.cfg = c)
    (hemit : ∀ s i addr, P s → P (s.emit (encodeRun c ch s.pool.wptr.toNat vals i addr).bytes))
    (hfull : ∀ s i addr, P s → (encodeRun c ch s.pool.wptr.toNat vals i addr).full = true →
      Q (s.emit (encodeRun c ch s.pool.wptr.toNat vals i addr).bytes).submitF) (htake : ∀ s, Q s → s.pool.avail ≠ 0 → P s.takeSlot)
    (fuel i : Nat) (addr : DevAddr) (s : State) (hs : P s) : (encodeChannel ch vals fuel i addr s).Leaves P Q := by
  induction fuel generalizing i addr s with
  | zero => trivial
  | succ fuel ih =>
    have he := hemit s i addr hs
    unfold encodeChannel
    simp only [hcfg s hs]
    split
    · next hr =>
      have hq := hfull s i addr hs hr
      split
      · next ha => exact ⟨hq, ha⟩
      · next ha =>
        have ht := htake _ hq ha
        split
        · exact ht
        · exact ih _ _ _ ht
    · exact he

/-- What a line leaves. -/
def LineEnd.Leaves (P Q : State → Prop) : LineEnd → Prop
  | .done t => P t
  | .wait t _ => Q t ∧ t.pool.avail = 0
  | .stuck => True

theorem FrameRule.runChannel8 (h : FrameRule c f0 P Q R) {p0 i : Nat} {addr : DevAddr} {s : State} (hs : P s) :
    (runChannel8 p0 i addr s).Leaves P Q := by
  have := encodeChannel_leaves (ch := channel8 s.cfg) (vals := s.line.scr8) h.cfg
    (by rw [h.cfg s hs]; exact fun s i a => h.emit8 s _ i a)
    (by rw [h.cfg s hs]; exact fun s i a => h.full8 s _ i a) h.take (s.line.scr8.length - i + 2) i addr s hs
  unfold Machine.runChannel8
  revert this
  cases encodeChannel (channel8 s.cfg) s.line.scr8 (s.line.scr8.length - i + 2) i addr s <;> exact id

theorem FrameRule.afterChannel16 (h : FrameRule c f0 P Q R) {p0 y : Nat} {s : State} (hs : P s) :
    (afterChannel16 p0 y s).Leaves P Q := by
  unfold Machine.afterChannel16
  split
  · exact h.runChannel8 hs
  · exact hs

theorem FrameRule.runChannel16 (h : FrameRule c f0 P Q R) {p0 y i : Nat} {addr : DevAddr} {s : State} (hs : P s) :
    (runChannel16 p0 y i addr s).Leaves P Q := by
  have := encodeChannel_leaves (ch := channel16 s.cfg) (vals := s.line.scr16) h.cfg
    (by rw [h.cfg s hs]; exact fun s i a => h.emit16 s _ i a)
    (by rw [h.cfg s hs]; exact fun s i a => h.full16 s _ i a) h.take (s.line.scr16.length - i + 2) i addr s hs
  unfold Machine.runChannel16
  revert this
  cases encodeChannel (channel16 s.cfg) s.line.scr16 (s.line.scr16.length - i + 2) i addr s
  · exact fun ht => h.afterChannel16 ht
  · exact id
  · exact id

theorem FrameRule.processLine (h : FrameRule c f0 P Q R) {f : FrameCtx} (hf : FrameCtx.Same f0 f) (hy : f.y < f.yEnd)
    {s : State} (hs : P s) : (processLine f s).Leaves P Q := by
  unfold Machine.processLine
  split
  · exact h.count s f hf hy hs
  · next hl => exact h.runChannel16 (h.prepare s f hf hy hl hs)

/-- The loop over lines. -/
theorem FrameRule.runLines (h : FrameRule c f0 P Q R) (n : Nat) {f : FrameCtx} (hf : FrameCtx.Same f0 f)
    (hn : n ≤ f.yEnd - f.y) {s t : State} (hs : P s ∨ Q s) (ht : runLines n f s = .next t) : R t := by
  induction n generalizing f s with
  | zero => exact h.ends s t hs ht
  | succ n ih =>
    have hy : f.y < f.yEnd := by omega
    unfold Machine.runLines at ht
    split at ht
    · next hw =>
      cases ht
      refine h.wait s _ hf ?_ hw.2
      rcases hs with hs | hs
      · exact h.slotless s hs hw.1
      · exact hs
    · next hw =>
      set ready := if s.pool.held = none then s.takeSlot else s
      set g : FrameCtx := if s.pool.held = none then { f with t := 0 } else f with hg
      have hready : P ready := by
        simp only [ready]
        split
        · next hh =>
          refine h.take s ?_ (fun ha => hw ⟨hh, ha⟩)
          rcases hs with hs | hs
          · exact h.slotless s hs hh
          · exact hs
        · next hh =>
          rcases hs with hs | hs
          · exact hs
          · exact h.slotted s hs hh
      have hgs : FrameCtx.Same f0 g ∧ g.y = f.y := by
        rw [hg]; split
        · exact ⟨hf, rfl⟩
        · exact ⟨hf, rfl⟩
      have hge : g.yEnd = f.yEnd := by rw [hgs.1.2.2.2, hf.2.2.2]
      have hline := h.processLine hgs.1 (by omega) hready
      simp only at ht
      revert ht hline
      cases Machine.processLine g ready with
      | done u =>
        intro ht hu
        exact ih (f := { g with y := g.y + 1 }) hgs.1 (by simp only; omega) (.inl hu) ht
      | wait u phase =>
        intro ht hu
        cases ht
        exact h.wait u _ hgs.1 hu.1 hu.2
      | stuck => intro ht; cases ht

theorem FrameRule.nextLines (h : FrameRule c f0 P Q R) {f : FrameCtx} (hf : FrameCtx.Same f0 f) {s t : State}
    (hs : P s ∨ Q s) (ht : nextLines f s = .next t) : R t :=
  h.runLines _ (f := { f with y := f.y + 1, phase := .line }) hf le_rfl hs ht

theorem FrameRule.afterLine (h : FrameRule c f0 P Q R) {f : FrameCtx} (hf : FrameCtx.Same f0 f) {e : LineEnd} {t : State}
    (he : e.Leaves P Q) (ht : afterLine f e = .next t) : R t := by
  cases e with
  | done u => exact h.nextLines hf (.inl he) ht
  | wait u phase => cases ht; exact h.wait u _ hf he.1 he.2
  | stuck => cases ht

/-- A frame operation that goes on after its wait point. -/
theorem FrameRule.resumeFrame (h : FrameRule c f0 P Q R) {f : FrameCtx} (hf : FrameCtx.Same f0 f) {s t : State} (hs : Q s)
    (ha : s.pool.avail ≠ 0) (ht : resumeFrame f s = .next t) : R t := by
  have hp := h.take s hs ha
  unfold Machine.resumeFrame at ht
  split at ht
  · exact h.runLines _ hf le_rfl (.inr hs) ht
  · simp only at ht
    split at ht
    · exact h.afterLine (f := { f with t := 0 }) hf (h.afterChannel16 hp) ht
    · exact h.afterLine (f := { f with t := 0 }) hf (h.runChannel16 hp) ht
  · simp only at ht
    split at ht
    · exact h.afterLine (f := { f with t := 0 }) hf (e := .done s.takeSlot) hp ht
    · exact h.afterLine (f := { f with t := 0 }) hf (h.runChannel8 hp) ht

/-- The acquire timeout in a frame. -/
theorem FrameRule.timeoutFrame (h : FrameRule c f0 P Q R) {f : FrameCtx} (hf : FrameCtx.Same f0 f) {s t : State} (hs : Q s)
    (ht : timeoutFrame f s = .next t) : R t := by
  unfold Machine.timeoutFrame at ht
  simp only at ht
  split at ht
  · exact h.ends _ t (.inr (h.lost s hs)) ht
  · exact h.nextLines (f := { f with t := f.t + 1 }) hf (.inr (h.lost s hs)) ht

/-- Everything the end of a frame can do: the held slot, if any, is submitted or released; CNT_CPU grows by a free increment;
FRAME_BUSY falls; the request returns OK. -/
theorem endOfFrame_cases {s t : State} (h : endOfFrame s = .next t) :
    ∃ closed, ((s.pool.held = none ∧ closed = s) ∨
        ∃ k, s.pool.held = some k ∧
          ((s.pool.wptr ≠ 0 ∧ closed = s.submitSlot k) ∨ (s.pool.wptr = 0 ∧ closed = s.releaseSlot k))) ∧
      t = ((closed.afterDraw.countCpu closed.nextDraw).setFlag .frameBusy false).replied .ok .none := by
  unfold endOfFrame at h
  simp only [succeed_eq_next] at h
  refine ⟨_, ?_, h⟩
  split
  · next k hk =>
    refine .inr ⟨k, hk, ?_⟩
    split
    · next hw => exact .inl ⟨hw, rfl⟩
    · next hw => exact .inr ⟨not_not.mp hw, rfl⟩
  · next hk => exact .inl ⟨hk, rfl⟩

end Sys2Proof.Machine
end

