-- ==== Sys2Proof/Laws/Encoder.lean ====
section
/-!
SUPPORT. What EncodeRun does (42_run_encoder.md R141 to R144), loop by loop, and how its bytes decode (R147, R148).
-/

namespace Sys2Proof.Machine

/-! ## The inner loop -/

/-- The values a run command stands for. -/
def RunCmd.values {α : Type} (c : RunCmd α) : List α := runValues c.raw c.rep

theorem runValues_of_ne_nil {α : Type} {raw : List α} (h : raw ≠ []) (k : Nat) :
    runValues raw k = raw ++ List.replicate k (raw.getLast h) := by
  simp [runValues, List.getLast?_eq_some_getLast h]

theorem runValues_cons {α : Type} (v : α) {raw : List α} (h : raw ≠ []) (k : Nat) :
    runValues (v :: raw) k = v :: runValues raw k := by
  rw [runValues_of_ne_nil h, runValues_of_ne_nil (List.cons_ne_nil v raw), List.getLast_cons h]
  rfl

section rawSpan

variable {α : Type} [DecidableEq α]

theorem leadingEq_le (v : α) (ws : List α) : leadingEq v ws ≤ ws.length := by
  induction ws with
  | nil => simp [leadingEq]
  | cons w ws ih => simp only [leadingEq]; split <;> simp; exact ih

theorem take_leadingEq (v : α) (ws : List α) {k : Nat} (h : k ≤ leadingEq v ws) : ws.take k = List.replicate k v := by
  induction ws generalizing k with
  | nil => simp [leadingEq] at h; simp [h]
  | cons w ws ih =>
    cases k with
    | zero => simp
    | succ k =>
      simp only [leadingEq] at h
      split at h
      · next hw => subst hw; simp [List.replicate_succ, ih (Nat.le_of_succ_le_succ h)]
      · omega

/-- What the inner loop yields: at least one raw value, the limits of R141 kept, and every value it has used up. -/
structure RawSpan (m cap r : Nat) (vals : List α) (raw : List α) (k : Nat) (rest : List α) : Prop where
  nonempty : raw ≠ []
  cap : r + raw.length ≤ cap
  limit : r + raw.length + k ≤ m
  saturated : k ≤ 255
  values : runValues raw k ++ rest = vals

theorem rawSpan_spec {m cap : Nat} (r : Nat) (v : α) (ws : List α) (hcap : r < cap) (hm : r < m) (hcm : cap ≤ m) :
    RawSpan m cap r (v :: ws) (rawSpan m cap r v ws).1 (rawSpan m cap r v ws).2.1 (rawSpan m cap r v ws).2.2 := by
  induction ws generalizing r v with
  | nil => exact ⟨by simp [rawSpan], by simp [rawSpan]; omega, by simp [rawSpan]; omega, by simp [rawSpan],
      by simp [rawSpan, runValues]⟩
  | cons w ws ih =>
    unfold rawSpan
    split
    · next h =>
      set k := min (leadingEq v (w :: ws)) (min 255 (m - (r + 1))) with hk
      refine ⟨by simp, by simp; omega, by simp; omega, by simp only; omega, ?_⟩
      show runValues [v] k ++ (w :: ws).drop k = v :: w :: ws
      have : (w :: ws).take k = List.replicate k v := take_leadingEq v _ (by omega)
      simp only [runValues, List.getLast?_singleton, ← this]
      simp
    · split
      · next h1 h2 => exact ⟨by simp, by simp; omega, by simp; omega, by simp, by simp [runValues]⟩
      · next h1 h2 =>
        have := ih (r + 1) w (by omega) (by omega)
        refine ⟨by simp, ?_, ?_, this.saturated, ?_⟩
        · have := this.cap; simp only [List.length_cons]; omega
        · have := this.limit
          simp only [List.length_cons]
          generalize (rawSpan m cap (r + 1) w ws).2.1 = k at this ⊢
          omega
        · simp only [runValues_cons v this.nonempty, List.cons_append, this.values]

omit [DecidableEq α] in
theorem RawSpan.length {m cap r k : Nat} {vals raw rest : List α} (h : RawSpan m cap r vals raw k rest) :
    vals.length = raw.length + k + rest.length := by
  rw [← h.values, runValues_of_ne_nil h.nonempty]; simp; omega

end rawSpan

/-! ## The outer loop -/

/-- The bytes of a channel's value: as many as its width says. -/
def Channel.Wide {α : Type} (ch : Channel α) : Prop := ∀ v, (ch.put v).length = ch.bpp

theorem channel16_wide (p : Params) : (channel16 p).Wide := fun _ => rfl

theorem channel8_wide (p : Params) : (channel8 p).Wide := fun _ => rfl

theorem length_runBytes {α : Type} (op : Byte) (put : α → List Byte) {bpp : Nat} (h : ∀ v, (put v).length = bpp)
    (addr : DevAddr) (rep : Byte) (raw : List α) : (runBytes op put addr rep raw).length = 7 + raw.length * bpp := by
  have : (raw.flatMap put).length = raw.length * bpp := by
    induction raw with
    | nil => simp
    | cons v raw ih => simp [h, ih, Nat.succ_mul]; omega
  simp [runBytes, runHeader, bytesBe24, this]; omega

/-- The commands follow one another: each has the limits of 30_encoding.md R97 and starts where the one before ended. -/
inductive Commands {α : Type} (p : Params) (bpp : Nat) : DevAddr → List (RunCmd α) → Prop
  | nil (addr) : Commands p bpp addr []
  | cons {addr} {c : RunCmd α} {cs} (haddr : c.addr = addr) (one : 1 ≤ c.raw.length) (raw : c.raw.length ≤ 255)
      (rep : c.rep ≤ 255) (limit : c.raw.length + c.rep ≤ p.maxCmdPixels)
      (more : Commands p bpp (addr + BitVec.ofNat 24 (c.values.length * bpp)) cs) : Commands p bpp addr (c :: cs)

/-- What the outer loop yields. -/
structure EncodedOk {α : Type} (p : Params) (bpp wptr : Nat) (addr : DevAddr) (vals : List α) (e : Encoded α) : Prop where
  values : e.cmds.flatMap RunCmd.values ++ e.rest = vals
  commands : Commands p bpp addr e.cmds
  pointer : e.wptr = wptr + (e.cmds.map fun c => 7 + c.raw.length * bpp).sum
  fits : wptr ≤ p.slotBytes → e.wptr ≤ p.slotBytes
  addr : e.addr = addr + BitVec.ofNat 24 ((vals.length - e.rest.length) * bpp)
  stopped : e.rest = [] ∨ p.slotBytes - e.wptr < p.minCmdBytes

theorem RunCmd.length_values {α : Type} {c : RunCmd α} (h : c.raw ≠ []) : c.values.length = c.raw.length + c.rep := by
  simp [RunCmd.values, runValues_of_ne_nil h]

/-- The outer loop of EncodeRun: every value it has used up is in a command, the commands fit, and it stops at the end of the
values or when fewer than F bytes are left. -/
theorem encodeCmds_spec {α : Type} [DecidableEq α] {p : Params} (hp : p.Valid) {bpp : Nat} (hb : bpp = 1 ∨ bpp = 2)
    (fuel wptr : Nat) (addr : DevAddr) (vals : List α) (hf : vals.length ≤ fuel) :
    EncodedOk p bpp wptr addr vals (encodeCmds p bpp fuel wptr addr vals) := by
  induction fuel generalizing wptr addr vals with
  | zero =>
    have : vals = [] := List.length_eq_zero_iff.mp (by omega)
    subst this
    exact ⟨rfl, .nil _, by simp [encodeCmds], fun h => h, by simp [encodeCmds], .inl rfl⟩
  | succ fuel ih =>
    cases vals with
    | nil => exact ⟨rfl, .nil _, by simp [encodeCmds], fun h => h, by simp [encodeCmds], .inl rfl⟩
    | cons v vs =>
      unfold encodeCmds
      split
      · next h => exact ⟨rfl, .nil _, by simp, fun h => h, by simp, .inr h⟩
      · next h =>
        obtain ⟨-, -, hM, hF, -, hS, -, -⟩ := hp
        have hcap : 0 < capRaw p bpp wptr ∧ capRaw p bpp wptr ≤ 255 ∧ capRaw p bpp wptr ≤ p.maxCmdPixels ∧
            capRaw p bpp wptr * bpp ≤ p.slotBytes - wptr - 7 := by
          unfold capRaw
          rcases hb with rfl | rfl <;> omega
        have hs := rawSpan_spec (m := p.maxCmdPixels) (cap := capRaw p bpp wptr) 0 v vs hcap.1 (by omega) hcap.2.2.1
        have hlen := hs.length
        rcases hsp : rawSpan p.maxCmdPixels (capRaw p bpp wptr) 0 v vs with ⟨raw, k, rest⟩
        rw [hsp] at hs hlen
        simp only at hs hlen ⊢
        have hraw : 1 ≤ raw.length := List.length_pos_iff.mpr hs.nonempty
        have hle := hs.cap
        have hlim := hs.limit
        have hmul : raw.length * bpp ≤ capRaw p bpp wptr * bpp := Nat.mul_le_mul_right _ (by omega)
        have e := ih (wptr + 7 + raw.length * bpp) (addr + BitVec.ofNat 24 ((raw.length + k) * bpp)) rest
          (by simp only [List.length_cons] at hlen hf; omega)
        generalize encodeCmds p bpp fuel (wptr + 7 + raw.length * bpp)
          (addr + BitVec.ofNat 24 ((raw.length + k) * bpp)) rest = enc at e ⊢
        have hv : (RunCmd.mk addr raw k).values.length = raw.length + k := RunCmd.length_values hs.nonempty
        refine ⟨?_, ?_, ?_, ?_, ?_, e.stopped⟩
        · simp only [List.flatMap_cons]
          rw [List.append_assoc, e.values]
          exact hs.values
        · exact .cons rfl hraw (by simp only; omega) hs.saturated (by simp only; omega) (by rw [hv]; exact e.commands)
        · simp only [List.map_cons, List.sum_cons, e.pointer]
          omega
        · intro hw
          exact e.fits (by omega)
        · have hr := congrArg List.length e.values
          simp only [List.length_append] at hr
          simp only [e.addr, BitVec.add_assoc, ← BitVec.ofNat_add, ← Nat.add_mul]
          congr 3
          omega

/-! ## EncodeRun -/

/-- What EncodeRun returns (42_run_encoder.md R144): `bytes` are commands and, when it is full, padding to the slot's end. -/
structure RunOk {α : Type} (p : Params) (ch : Channel α) (wptr : Nat) (vals : List α) (i : Nat) (addr : DevAddr)
    (cmds : List (RunCmd α)) (r : RunResult) : Prop where
  commands : Commands p ch.bpp addr cmds
  values : cmds.flatMap RunCmd.values = (vals.drop i).take (r.i - i)
  bytes : r.bytes = cmds.flatMap (RunCmd.bytes ch) ++ if r.full then padBytes (p.slotBytes - (wptr +
    (cmds.flatMap (RunCmd.bytes ch)).length)) else []
  cursor : i ≤ r.i ∧ r.i ≤ vals.length
  addr : r.addr = addr + BitVec.ofNat 24 ((r.i - i) * ch.bpp)
  notFull : r.full = false → r.i = vals.length ∧ wptr + r.bytes.length + p.minCmdBytes ≤ p.slotBytes
  full : r.full = true → wptr + r.bytes.length = p.slotBytes
  begun : r.i = i → cmds = []

theorem length_flatMap_bytes {α : Type} (ch : Channel α) (hw : ch.Wide) (cmds : List (RunCmd α)) :
    (cmds.flatMap (RunCmd.bytes ch)).length = (cmds.map fun c => 7 + c.raw.length * ch.bpp).sum := by
  induction cmds with
  | nil => rfl
  | cons c cs ih => simp [RunCmd.bytes, length_runBytes ch.op ch.put hw, ih]

theorem encodeRun_spec {α : Type} [DecidableEq α] {p : Params} (hp : p.Valid) (ch : Channel α) (hw : ch.Wide)
    (hb : ch.bpp = 1 ∨ ch.bpp = 2) {wptr : Nat} (hwptr : wptr ≤ p.slotBytes) (vals : List α) {i : Nat}
    (hi : i ≤ vals.length) (addr : DevAddr) :
    ∃ cmds, RunOk p ch wptr vals i addr cmds (encodeRun p ch wptr vals i addr) := by
  have e := encodeCmds_spec hp hb (vals.drop i).length wptr addr (vals.drop i) le_rfl
  refine ⟨(encodeCmds p ch.bpp (vals.drop i).length wptr addr (vals.drop i)).cmds, ?_⟩
  unfold encodeRun
  simp only
  generalize encodeCmds p ch.bpp (vals.drop i).length wptr addr (vals.drop i) = enc at e ⊢
  have hlen := congrArg List.length e.values
  simp only [List.length_append, List.length_drop] at hlen
  have hbytes := length_flatMap_bytes ch hw enc.cmds
  have hwe := e.pointer
  have hfit := e.fits hwptr
  refine ⟨e.commands, ?_, ?_, by dsimp only; omega, ?_, ?_, ?_, ?_⟩ <;> dsimp only
  · rw [← e.values, List.take_left']
    omega
  · simp only [decide_eq_true_eq]
    rw [hbytes, ← hwe]
  · rw [e.addr, List.length_drop]
    congr 3
    omega
  · intro h
    simp only [decide_eq_false_iff_not] at h
    rcases e.stopped with hr | hr
    · rw [hr] at hlen ⊢
      refine ⟨by simp, ?_⟩
      simp only [h, decide_false, Bool.false_eq_true, if_false, List.append_nil, hbytes]
      omega
    · exact absurd hr h
  · intro h
    simp only [decide_eq_true_eq] at h
    simp only [h, decide_true, if_true, List.length_append, hbytes, padBytes, List.length_replicate]
    omega
  · intro h
    have hz : (enc.cmds.flatMap RunCmd.values).length = 0 := by omega
    cases hc : enc.cmds with
    | nil => rfl
    | cons c cs =>
      exfalso
      have hcmds := e.commands
      rw [hc] at hcmds hz
      cases hcmds with
      | cons haddr one =>
        have := RunCmd.length_values (c := c) (by intro h0; simp [h0] at one)
        simp only [List.flatMap_cons, List.length_append] at hz
        omega

/-- EncodeRun never writes past the slot's end, whatever the run cursor. -/
theorem encodeRun_fits {α : Type} [DecidableEq α] {p : Params} (hp : p.Valid) (ch : Channel α) (hw : ch.Wide)
    (hb : ch.bpp = 1 ∨ ch.bpp = 2) {wptr : Nat} (hwptr : wptr ≤ p.slotBytes) (vals : List α) (i : Nat) (addr : DevAddr) :
    wptr + (encodeRun p ch wptr vals i addr).bytes.length ≤ p.slotBytes ∧
      ((encodeRun p ch wptr vals i addr).full = true →
        wptr + (encodeRun p ch wptr vals i addr).bytes.length = p.slotBytes) := by
  by_cases hi : i ≤ vals.length
  · obtain ⟨cmds, r⟩ := encodeRun_spec hp ch hw hb hwptr vals hi addr
    refine ⟨?_, r.full⟩
    cases hf : (encodeRun p ch wptr vals i addr).full
    · have := (r.notFull hf).2; omega
    · have := r.full hf; omega
  · have hd : vals.drop i = [] := by simp; omega
    by_cases hS : p.slotBytes - wptr < p.minCmdBytes <;>
      (simp [encodeRun, hd, encodeCmds, padBytes, hS]; try omega)

/-- A fresh slot takes at least one value. -/
theorem encodeRun_progress {α : Type} [DecidableEq α] {p : Params} (hp : p.Valid) (ch : Channel α)
    (hb : ch.bpp = 1 ∨ ch.bpp = 2) (vals : List α) {i : Nat} (hi : i < vals.length) (addr : DevAddr) :
    i < (encodeRun p ch 0 vals i addr).i := by
  unfold encodeRun
  simp only
  obtain ⟨v, vs, hv⟩ := List.exists_cons_of_length_pos (l := vals.drop i) (by simp; omega)
  have hl := congrArg List.length hv
  simp only [List.length_drop, List.length_cons] at hl
  rw [hv]
  show i < vals.length - (encodeCmds p ch.bpp (vs.length + 1) 0 addr (v :: vs)).rest.length
  have hF : ¬ p.slotBytes - 0 < p.minCmdBytes := by have := hp.2.2.2.1; omega
  unfold encodeCmds
  rw [if_neg hF]
  obtain ⟨-, -, hM, hF, -, hS, -, -⟩ := id hp
  have hcap : 0 < capRaw p ch.bpp 0 ∧ capRaw p ch.bpp 0 ≤ p.maxCmdPixels := by
    unfold capRaw
    rcases hb with hb | hb <;> rw [hb] <;> omega
  have hs := rawSpan_spec (m := p.maxCmdPixels) (cap := capRaw p ch.bpp 0) 0 v vs hcap.1 (by omega) hcap.2
  have hlen := hs.length
  rcases hsp : rawSpan p.maxCmdPixels (capRaw p ch.bpp 0) 0 v vs with ⟨raw, k, rest⟩
  rw [hsp] at hs hlen
  simp only at hs hlen ⊢
  have hraw : 1 ≤ raw.length := List.length_pos_iff.mpr hs.nonempty
  simp only [List.length_cons] at hlen
  have e := encodeCmds_spec hp hb vs.length (0 + 7 + raw.length * ch.bpp)
    (addr + BitVec.ofNat 24 ((raw.length + k) * ch.bpp)) rest (by omega)
  have := congrArg List.length e.values
  simp only [List.length_append] at this
  omega

end Sys2Proof.Machine
end

