-- ==== Sys2Proof/Laws/Wire.lean ====
section
/-!
SUPPORT. How emitted bytes decode (42_run_encoder.md R147): one command at a time, then whole stretches.
-/

namespace Sys2Proof.Machine

/-! ## Device memory -/

/-- Writing device memory keeps its canonical form. -/
theorem storeDevice_wf {m : Memory} (a : DevAddr) (bs : List Byte) (h : Memory.wf m) : Memory.wf (storeDevice m a bs) := by
  induction bs generalizing m a with
  | nil => exact h
  | cons b bs ih => exact ih _ (Memory.store_wf _ _ h)

/-! ## One command -/

theorem decodeWire_run16 {p : Params} (hp : p.Valid) (addr : DevAddr) (rep : Byte) {raw : List Half}
    (h : raw.length ≤ 255) (bs : List Byte) :
    decodeWire p (p.op16 :: (bytesBe24 addr ++ [BitVec.ofNat 8 raw.length, rep] ++ raw.flatMap bytesBe16 ++ bs)) =
      .ok (.wRun16 addr rep raw, bs) := by
  obtain ⟨⟨h1, h2, h3⟩, -⟩ := hp
  simp only [decodeWire, if_neg h1, if_neg h2, if_true]
  rw [rdRun_runBytes rdBe16 bytesBe16 rdBe16_bytesBe16 addr rep raw h bs]
  rfl

theorem decodeWire_run8 {p : Params} (hp : p.Valid) (addr : DevAddr) (rep : Byte) {raw : List Byte}
    (h : raw.length ≤ 255) (bs : List Byte) :
    decodeWire p (p.op8 :: (bytesBe24 addr ++ [BitVec.ofNat 8 raw.length, rep] ++ raw.flatMap byte1 ++ bs)) =
      .ok (.wRun8 addr rep raw, bs) := by
  obtain ⟨⟨-, -, h3⟩, ⟨h1, h2⟩, -⟩ := hp
  simp only [decodeWire, if_neg h1, if_neg h2, if_neg (Ne.symm h3), if_true]
  rw [rdRun_runBytes rd8 byte1 rd8_byte1 addr rep raw h bs]
  rfl

theorem decodeWire_regw (p : Params) (reg val : Byte) (bs : List Byte) :
    decodeWire p (0x20 :: reg :: val :: bs) = .ok (.wRegw reg val, bs) := rfl

/-! ## Stretches of commands -/

/-- Bytes that are whole commands, with the items they stand for; no padding. -/
inductive Framed (p : Params) : List Byte → List WireItem → Prop
  | nil : Framed p [] []
  | run16 {addr rep raw bs items} (one : 1 ≤ raw.length) (most : raw.length ≤ 255) (more : Framed p bs items) :
      Framed p (runBytes p.op16 bytesBe16 addr rep raw ++ bs) (.run16 addr (runValues raw rep.toNat) :: items)
  | run8 {addr rep raw bs items} (one : 1 ≤ raw.length) (most : raw.length ≤ 255) (more : Framed p bs items) :
      Framed p (runBytes p.op8 byte1 addr rep raw ++ bs) (.run8 addr (runValues raw rep.toNat) :: items)
  | regw {reg val bs items} (more : Framed p bs items) : Framed p (regwBytes reg val ++ bs) (.regw reg val :: items)

theorem Framed.append {p : Params} {bs cs : List Byte} {is js : List WireItem} (hb : Framed p bs is) (hc : Framed p cs js) :
    Framed p (bs ++ cs) (is ++ js) := by
  induction hb with
  | nil => exact hc
  | run16 h1 h2 _ ih => rw [List.append_assoc]; exact .run16 h1 h2 ih
  | run8 h1 h2 _ ih => rw [List.append_assoc]; exact .run8 h1 h2 ih
  | regw _ ih => rw [List.append_assoc]; exact .regw ih

theorem decodeItems_cons {p : Params} {fuel : Nat} {bs rest : List Byte} {i : Instr} {item : WireItem}
    (h : decodeWire p bs = .ok (i, rest)) (hi : wireItem i = some item) :
    decodeItems p (fuel + 1) (0xAF :: bs) = (decodeItems p fuel rest).map (item :: ·) := by
  simp only [decodeItems, if_true, h, hi]
  cases decodeItems p fuel rest <;> rfl

/-- Whole commands decode to their items, whatever follows them. -/
theorem Framed.decodeItems {p : Params} (hp : p.Valid) {bs : List Byte} {is : List WireItem} (h : Framed p bs is)
    (tail : List Byte) (fuel : Nat) (hf : bs.length ≤ fuel) :
    ∃ left, tail.length + fuel ≤ tail.length + left + bs.length ∧ left ≤ fuel ∧
      Machine.decodeItems p fuel (bs ++ tail) = (Machine.decodeItems p left tail).map (is ++ ·) := by
  induction h generalizing fuel with
  | nil => exact ⟨fuel, by simp, le_rfl, by simp⟩
  | @run16 addr rep raw bs items h1 h2 _ ih =>
    rw [List.length_append, length_runBytes _ _ (bpp := 2) (fun _ => rfl)] at hf
    obtain ⟨fuel, rfl⟩ : ∃ f, fuel = f + 1 := ⟨fuel - 1, by omega⟩
    obtain ⟨left, hl, hle, e⟩ := ih fuel (by omega)
    refine ⟨left, ?_, by omega, ?_⟩
    · rw [List.length_append, length_runBytes _ _ (bpp := 2) (fun _ => rfl)]; omega
    · have hw := decodeWire_run16 hp addr rep h2 (bs ++ tail)
      have hi : wireItem (.wRun16 addr rep raw) = some (.run16 addr (runValues raw rep.toNat)) := by
        simp [wireItem, rawCountOk, h1, h2]
      have hc := decodeItems_cons (fuel := fuel) hw hi
      simp only [runBytes, runHeader, List.append_assoc, List.cons_append, List.nil_append] at hc ⊢
      rw [hc, e]
      cases Machine.decodeItems p left tail <;> rfl
  | @run8 addr rep raw bs items h1 h2 _ ih =>
    rw [List.length_append, length_runBytes _ _ (bpp := 1) (fun _ => rfl)] at hf
    obtain ⟨fuel, rfl⟩ : ∃ f, fuel = f + 1 := ⟨fuel - 1, by omega⟩
    obtain ⟨left, hl, hle, e⟩ := ih fuel (by omega)
    refine ⟨left, ?_, by omega, ?_⟩
    · rw [List.length_append, length_runBytes _ _ (bpp := 1) (fun _ => rfl)]; omega
    · have hw := decodeWire_run8 hp addr rep h2 (bs ++ tail)
      have hi : wireItem (.wRun8 addr rep raw) = some (.run8 addr (runValues raw rep.toNat)) := by
        simp [wireItem, rawCountOk, h1, h2]
      have hc := decodeItems_cons (fuel := fuel) hw hi
      simp only [runBytes, runHeader, List.append_assoc, List.cons_append, List.nil_append] at hc ⊢
      rw [hc, e]
      cases Machine.decodeItems p left tail <;> rfl
  | @regw reg val bs items _ ih =>
    simp only [List.length_append, regwBytes, List.length_cons, List.length_nil] at hf
    obtain ⟨fuel, rfl⟩ : ∃ f, fuel = f + 1 := ⟨fuel - 1, by omega⟩
    obtain ⟨left, hl, hle, e⟩ := ih fuel (by omega)
    refine ⟨left, by simp only [List.length_append, regwBytes, List.length_cons, List.length_nil]; omega, by omega, ?_⟩
    have hc := decodeItems_cons (fuel := fuel) (decodeWire_regw p reg val (bs ++ tail)) (i := .wRegw reg val) rfl
    simp only [regwBytes, List.cons_append, List.nil_append] at hc ⊢
    rw [hc, e]
    cases Machine.decodeItems p left tail <;> rfl

theorem decodeItems_nil (p : Params) (fuel : Nat) : decodeItems p fuel [] = some [] := by cases fuel <;> rfl

/-- Padding decodes to one item. -/
theorem decodeItems_padBytes (p : Params) (fuel n : Nat) : decodeItems p (fuel + 1) (padBytes (n + 1)) = some [.pad (n + 1)] := by
  have hall : ∀ n, (padBytes n).all (· == 0xAF) = true := by intro n; simp [padBytes]
  have hw : decodeWire p (padBytes n) = .ok (.wPad (n + 1), []) := by
    cases n with
    | zero => rfl
    | succ n =>
      show decodeWire p (0xAF :: padBytes n) = _
      simp only [decodeWire, hall n, if_true]
      simp [padBytes]
  have := decodeItems_cons (fuel := fuel) hw (item := .pad (n + 1)) rfl
  rw [decodeItems_nil] at this
  exact this

/-- Commands and then padding: the reference decoder takes them all. -/
theorem Framed.decodeSlot {p : Params} (hp : p.Valid) {bs : List Byte} {is : List WireItem} (h : Framed p bs is) (n : Nat) :
    Machine.decodeSlot p (bs ++ padBytes n) = some (is ++ if n = 0 then [] else [.pad n]) := by
  unfold Machine.decodeSlot
  obtain ⟨left, hl, -, e⟩ := h.decodeItems hp (padBytes n) (bs ++ padBytes n).length (by simp)
  rw [e]
  cases n with
  | zero => rw [show padBytes 0 = [] from rfl, decodeItems_nil]; simp
  | succ n =>
    have : (padBytes (n + 1)).length = n + 1 := by simp [padBytes]
    rw [List.length_append] at hl
    obtain ⟨left, rfl⟩ : ∃ l, left = l + 1 := ⟨left - 1, by omega⟩
    rw [decodeItems_padBytes]
    simp

/-! ## The encoder's commands -/

/-- The item of a 16-bit command. -/
def RunCmd.item16 (c : RunCmd Half) : WireItem := .run16 c.addr c.values

/-- The item of an 8-bit command. -/
def RunCmd.item8 (c : RunCmd Byte) : WireItem := .run8 c.addr c.values

theorem toNat_ofNat8 {k : Nat} (h : k ≤ 255) : (BitVec.ofNat 8 k).toNat = k := by simp; omega

theorem Commands.framed16 {p : Params} {addr : DevAddr} {cs : List (RunCmd Half)} (h : Commands p 2 addr cs) :
    Framed p (cs.flatMap (RunCmd.bytes (channel16 p))) (cs.map RunCmd.item16) := by
  induction h with
  | nil => exact .nil
  | @cons addr c cs ha h1 h2 h3 h4 _ ih =>
    have := Framed.run16 (p := p) (addr := c.addr) (rep := BitVec.ofNat 8 c.rep) h1 h2 ih
    rw [toNat_ofNat8 h3] at this
    exact this

theorem Commands.framed8 {p : Params} {addr : DevAddr} {cs : List (RunCmd Byte)} (h : Commands p 1 addr cs) :
    Framed p (cs.flatMap (RunCmd.bytes (channel8 p))) (cs.map RunCmd.item8) := by
  induction h with
  | nil => exact .nil
  | @cons addr c cs ha h1 h2 h3 h4 _ ih =>
    have := Framed.run8 (p := p) (addr := c.addr) (rep := BitVec.ofNat 8 c.rep) h1 h2 ih
    rw [toNat_ofNat8 h3] at this
    exact this

@[simp] theorem itemValues16_map (cs : List (RunCmd Half)) : itemValues16 (cs.map RunCmd.item16) = cs.flatMap RunCmd.values := by
  induction cs with
  | nil => rfl
  | cons c cs ih => simp [itemValues16, RunCmd.item16, ← ih]

@[simp] theorem itemValues8_map (cs : List (RunCmd Byte)) : itemValues8 (cs.map RunCmd.item8) = cs.flatMap RunCmd.values := by
  induction cs with
  | nil => rfl
  | cons c cs ih => simp [itemValues8, RunCmd.item8, ← ih]

theorem Commands.follow16 {p : Params} {addr : DevAddr} {cs : List (RunCmd Half)} (h : Commands p 2 addr cs) :
    runsFollow16 addr (cs.map RunCmd.item16) := by
  induction h with
  | nil => trivial
  | @cons addr c cs ha h1 h2 h3 h4 _ ih => exact ⟨ha, ih⟩

theorem Commands.follow8 {p : Params} {addr : DevAddr} {cs : List (RunCmd Byte)} (h : Commands p 1 addr cs) :
    runsFollow8 addr (cs.map RunCmd.item8) := by
  induction h with
  | nil => trivial
  | @cons addr c cs ha h1 h2 h3 h4 _ ih => exact ⟨ha, by simpa using ih⟩

end Sys2Proof.Machine
end

