-- ==== Sys2Proof/Laws/Effects.lean ====
section
/-!
SUPPORT. What one instruction can do to the state, and what one step can do, each said once: `exec_effect` and `step_effect`.
A claim over all instructions or all steps is a case analysis of `Effect` and `MoveEffect`.
-/

namespace Sys2Proof.Machine

/-- What the device's reader can do with one command. -/
inductive DeviceEffect : Device → Device → Prop
  | run (d : Device) (item addr bytes) :
      DeviceEffect d { d with items := d.items ++ [item], mem := storeDevice d.mem addr bytes }
  | regw (d : Device) (reg val : Byte) :
      DeviceEffect d { d with items := d.items ++ [.regw reg val], regs := Memory.store d.regs reg.toNat val }
  | pad (d : Device) (n) : DeviceEffect d { d with items := d.items ++ [.pad n] }

/-- What a whole instruction can do, from `s` to `t`. -/
inductive Effect : Instr → State → State → Prop
  /-- A status and results, nothing else. -/
  | answered (i s st r) (agent : i.agent = .host) : Effect i s (s.replied st r)
  /-- A register command into the held slot. -/
  | wrote (i s) (regs : List (Byte × Byte)) (attached : s.flag .attached = true) (held : s.pool.held ≠ none)
      (fits : (regs.flatMap fun q => regwBytes q.1 q.2).length ≤ s.room) (agent : i.agent = .host) :
      Effect i s ((s.emit (regs.flatMap fun q => regwBytes q.1 q.2)).replied .ok .none)
  /-- ENC16. -/
  | encoded16 (vals k addr s) (attached : s.flag .attached = true) (held : s.pool.held ≠ none)
      (cursor : k.toNat ≤ vals.length) :
      Effect (.enc16 vals k addr) s ((s.emit (encodeRun s.cfg (channel16 s.cfg) s.pool.wptr.toNat vals k.toNat addr).bytes).replied
        .ok (encodeRun s.cfg (channel16 s.cfg) s.pool.wptr.toNat vals k.toNat addr).result)
  /-- ENC8. -/
  | encoded8 (vals k addr s) (attached : s.flag .attached = true) (held : s.pool.held ≠ none)
      (cursor : k.toNat ≤ vals.length) :
      Effect (.enc8 vals k addr) s ((s.emit (encodeRun s.cfg (channel8 s.cfg) s.pool.wptr.toNat vals k.toNat addr).bytes).replied
        .ok (encodeRun s.cfg (channel8 s.cfg) s.pool.wptr.toNat vals k.toNat addr).result)
  | acquireWaits (s) (attached : s.flag .attached = true) (held : s.pool.held = none) (none : s.pool.avail = 0) :
      Effect .acquire s (s.waitAt .acquire)
  | acquired (s) (attached : s.flag .attached = true) (held : s.pool.held = none) (some : s.pool.avail ≠ 0) :
      Effect .acquire s (s.takeSlot.replied .ok .none)
  | submitted (s k) (attached : s.flag .attached = true) (held : s.pool.held = some k) (filled : s.pool.wptr ≠ 0) :
      Effect .submit s ((s.submitSlot k).replied (submitStatus s.nextChoice) .none)
  | released (s k) (attached : s.flag .attached = true) (held : s.pool.held = some k) :
      Effect .release s ((s.releaseSlot k).replied .ok .none)
  | completed (s k) (attached : s.flag .attached = true) : Effect (.complete k) s (s.completeSlot k)
  | completeIgnored (s k) (attached : s.flag .attached = false) : Effect (.complete k) s s
  /-- RENDER_FRAME, from its first line. -/
  | rendered (x y w h s t x0 x1 y0 y1) (attached : s.flag .attached = true) (mode : s.flag .modeValid = true)
      (fb : s.flag .fbValid = true) (held : s.pool.held = none) (left : x0 < x1) (right : x1 ≤ s.visibleWidth)
      (top : y0 < y1) (bottom : y1 ≤ s.visibleHeight)
      (run : frameLoop (.framebuffer s.hostFb) x0 x1 y0 y1 s = .next t) : Effect (.renderFrame x y w h) s t
  /-- FILL_FRAME, from its first line. -/
  | filled (color s t) (attached : s.flag .attached = true) (mode : s.flag .modeValid = true) (held : s.pool.held = none)
      (run : frameLoop (.fill color) 0 s.mode.xres.toNat 0 s.mode.yres.toNat s = .next t) : Effect (.fillFrame color) s t
  | cleared (s val) (attached : s.flag .attached = true) (one : val.getLsbD 0 = true) :
      Effect (.cfgw 0x000 val) s ((s.setFlag .lostPixels false).replied .ok .none)
  | linked (s val) (attached : s.flag .attached = true) :
      Effect (.cfgw 0x008 val) s ((s.setDeviceActive (val.getLsbD 0)).replied .ok .none)
  | modesetWaits (m : ModeRegs) (split s) (attached : s.flag .attached = true) (held : s.pool.held = none)
      (fits : m.fits split = true) (none : s.pool.avail = 0) :
      Effect (.modeset m.xres m.yres m.pixclock m.left m.right m.upper m.lower m.hsync m.vsync m.refresh split) s
        (s.waitAt (.modeset m split))
  | modesetTakes (m : ModeRegs) (split s t) (attached : s.flag .attached = true) (held : s.pool.held = none)
      (fits : m.fits split = true) (some : s.pool.avail ≠ 0) (take : modesetTake m split s = .next t) :
      Effect (.modeset m.xres m.yres m.pixclock m.left m.right m.upper m.lower m.hsync m.vsync m.refresh split) s t
  | fbPlain (pitch vx vy width height s) (attached : s.flag .attached = true)
      (fits : 4 * (vx.toNat + width.toNat) ≤ pitch.toNat) :
      Effect (.setfb pitch 32 vx vy width height false) s
        ((s.latchFb ⟨pitch, 32, vx, vy, width, height⟩ false ⟨[], 0⟩).replied .ok .none)
  | fbBacked (pitch vx vy width height s) (attached : s.flag .attached = true)
      (fits : 4 * (vx.toNat + width.toNat) ≤ pitch.toNat) (allocated : s.nextChoice = true) :
      Effect (.setfb pitch 32 vx vy width height true) s
        (({ s.afterDraw with drawCount := s.afterDraw.drawCount + 1 }.latchFb ⟨pitch, 32, vx, vy, width, height⟩ true
          ⟨[], s.afterDraw.drawCount⟩).replied .ok .none)
  | fbFailed (pitch vx vy width height s) (attached : s.flag .attached = true) (failed : s.nextChoice = false) :
      Effect (.setfb pitch 32 vx vy width height true) s (s.afterDraw.replied .geometry .none)
  | cursorSet (x y w h visible pix s) (attached : s.flag .attached = true) (size : pix.length = w.toNat * h.toNat) :
      Effect (.setcursor x y w h 32 visible pix) s
        ({ s with cursor := ⟨x, y, w, h, 32, wordOfBool visible, pix⟩ }.replied .ok .none)
  | attaches (s) (detached : s.flag .attached = false) : Effect .attach s (s.createSession.replied .ok .none)
  /-- DETACH; `u` is the state after a held slot has been released. -/
  | detachWaits (s u) (attached : s.flag .attached = true)
      (release : (s.pool.held = none ∧ u = s) ∨ ∃ k, s.pool.held = some k ∧ u = s.releaseSlot k)
      (flying : u.pool.inflight ≠ 0) : Effect .detach s (u.waitAt .detach)
  | detaches (s u) (attached : s.flag .attached = true)
      (release : (s.pool.held = none ∧ u = s) ∨ ∃ k, s.pool.held = some k ∧ u = s.releaseSlot k)
      (drained : u.pool.inflight = 0) : Effect .detach s (u.destroySession.replied .ok .none)
  /-- A wire command read by the device's reader. -/
  | device (i s d) (agent : i.agent = .device) (effect : DeviceEffect s.device d) : Effect i s { s with device := d }

/-! ## Each meaning -/

theorem emitCommand_effect (i : Instr) (hi : i.agent = .host) (regs : List (Byte × Byte)) {s t : State}
    (h : inSession s (emitCommand (regs.flatMap fun q => regwBytes q.1 q.2) s) = .next t) : Effect i s t := by
  rcases inSession_cases h with ⟨-, rfl⟩ | ⟨ha, h⟩
  · exact .answered _ _ _ _ hi
  · unfold emitCommand at h
    split at h
    · cases h; exact .answered _ _ _ _ hi
    · next hh =>
      split at h
      · cases h; exact .answered _ _ _ _ hi
      · next hr => cases h; exact .wrote i s regs ha hh (Nat.le_of_not_lt hr) hi

theorem regw16Bytes_eq (reg : Byte) (v : Half) : regw16Bytes reg v =
    [(reg, v.extractLsb' 8 8), (reg + 1, v.extractLsb' 0 8)].flatMap fun q => regwBytes q.1 q.2 := by
  simp [regw16Bytes]

theorem regw16beBytes_eq (reg : Byte) (v : Half) : regw16beBytes reg v =
    [(reg, v.extractLsb' 0 8), (reg + 1, v.extractLsb' 8 8)].flatMap fun q => regwBytes q.1 q.2 := by
  simp [regw16beBytes]

/-- The register writes of a timing row. -/
def TimingRow.writes (taps : Half) (r : TimingRow) : List (Byte × Byte) :=
  match r.kind with
  | .lfsr => [(r.reg, (lfsr16 taps r.value).extractLsb' 8 8), (r.reg + 1, (lfsr16 taps r.value).extractLsb' 0 8)]
  | .plain => [(r.reg, r.value.extractLsb' 8 8), (r.reg + 1, r.value.extractLsb' 0 8)]
  | .bigEndian => [(r.reg, r.value.extractLsb' 0 8), (r.reg + 1, r.value.extractLsb' 8 8)]

theorem TimingRow.bytes_eq (taps : Half) (r : TimingRow) :
    r.bytes taps = (r.writes taps).flatMap fun q => regwBytes q.1 q.2 := by
  rcases r with ⟨reg, kind, v⟩
  cases kind <;> simp [TimingRow.bytes, TimingRow.writes, regwlBytes, regw16Bytes, regw16beBytes]

theorem settimingBytes_eq (p : Params) (m : ModeRegs) : settimingBytes p m =
    ((timingRows p m).flatMap (TimingRow.writes p.lfsrTaps)).flatMap fun q => regwBytes q.1 q.2 := by
  simp only [settimingBytes, List.flatMap_assoc]
  exact List.flatMap_congr fun r _ => r.bytes_eq _

theorem length_settimingBytes (p : Params) (m : ModeRegs) : (settimingBytes p m).length = 104 := rfl

/-- The MODESET stream is 144 bytes (44_register_commands.md R187). -/
@[simp] theorem length_modesetStream (p : Params) (m : ModeRegs) (split : Bool) : (modesetStream p m split).length = 144 := by
  simp [modesetStream, length_settimingBytes, vlockBytes, setdepthBytes, setbase16Bytes, setbase8Bytes, blankBytes,
    vunlockBytes, regwBytes]

theorem modesetStream_eq (p : Params) (m : ModeRegs) (split : Bool) :
    ∃ regs : List (Byte × Byte), modesetStream p m split = regs.flatMap fun q => regwBytes q.1 q.2 := by
  refine ⟨[(0xFF, 0x00), (0x00, if split then 0x01 else 0x00), (0x20, (0 : DevAddr).extractLsb' 16 8),
    (0x21, (0 : DevAddr).extractLsb' 8 8), (0x22, (0 : DevAddr).extractLsb' 0 8), (0x26, (modeBase8 m).extractLsb' 16 8),
    (0x27, (modeBase8 m).extractLsb' 8 8), (0x28, (modeBase8 m).extractLsb' 0 8)] ++
    (timingRows p m).flatMap (TimingRow.writes p.lfsrTaps) ++ [(0x1F, 0x00), (0xFF, 0xFF)], ?_⟩
  simp only [modesetStream, settimingBytes_eq, List.flatMap_append, vlockBytes, setdepthBytes, setbase16Bytes,
    setbase8Bytes, blankBytes, vunlockBytes, List.flatMap_cons, List.flatMap_nil, List.append_nil, List.append_assoc]

theorem execModeset_effect {m : ModeRegs} {split : Bool} {s t : State} (h : modesetRequest m split s = .next t) :
    Effect (.modeset m.xres m.yres m.pixclock m.left m.right m.upper m.lower m.hsync m.vsync m.refresh split) s t := by
  rcases inSession_cases h with ⟨-, rfl⟩ | ⟨ha, h⟩
  · exact .answered _ _ _ _ rfl
  split at h
  · cases h; exact .answered _ _ _ _ rfl
  split at h
  · cases h; exact .answered _ _ _ _ rfl
  next hh =>
  split at h
  · cases h; exact .answered _ _ _ _ rfl
  next hf =>
  split at h
  · next h0 => cases h; exact .modesetWaits m split s ha (not_not.mp hh) (by simpa using hf) h0
  · next h0 => exact .modesetTakes m split s t ha (not_not.mp hh) (by simpa using hf) h0 h

/-- What one instruction can do. -/
theorem exec_effect {i : Instr} {s t : State} (h : exec i s = .next t) : Effect i s t := by
  have answer : i.agent = .host → ∀ {st r}, inSession s (finish s st r) = .next t → Effect i s t := by
    intro hi st r h
    rcases inSession_cases h with ⟨-, rfl⟩ | ⟨-, h⟩
    · exact .answered _ _ _ _ hi
    · cases h; exact .answered _ _ _ _ hi
  cases i with
  | split v => exact answer rfl h
  | blendpix src cur => exact answer rfl h
  | blendline y x0 pix => exact answer rfl h
  | lfsr16 n => exact answer rfl h
  | diff front back =>
    rcases inSession_cases h with ⟨-, rfl⟩ | ⟨-, h⟩
    · exact .answered _ _ _ _ rfl
    · split at h <;> (cases h; exact .answered _ _ _ _ rfl)
  | enc16 vals k addr =>
    rcases inSession_cases h with ⟨-, rfl⟩ | ⟨ha, h⟩
    · exact .answered _ _ _ _ rfl
    split at h
    · cases h; exact .answered _ _ _ _ rfl
    next hh =>
    split at h
    · cases h; exact .answered _ _ _ _ rfl
    next hk => cases h; exact .encoded16 vals k addr s ha hh (Nat.le_of_not_lt hk)
  | enc8 vals k addr =>
    rcases inSession_cases h with ⟨-, rfl⟩ | ⟨ha, h⟩
    · exact .answered _ _ _ _ rfl
    split at h
    · cases h; exact .answered _ _ _ _ rfl
    next hh =>
    split at h
    · cases h; exact .answered _ _ _ _ rfl
    next hk => cases h; exact .encoded8 vals k addr s ha hh (Nat.le_of_not_lt hk)
  | regw reg val => exact emitCommand_effect _ rfl [(reg, val)] h
  | regw16 reg v =>
    have h' : inSession s (emitCommand (regw16Bytes reg v) s) = .next t := h
    rw [regw16Bytes_eq] at h'
    exact emitCommand_effect _ rfl _ h'
  | regw16be reg v =>
    have h' : inSession s (emitCommand (regw16beBytes reg v) s) = .next t := h
    rw [regw16beBytes_eq] at h'
    exact emitCommand_effect _ rfl _ h'
  | regwl reg n =>
    have h' : inSession s (emitCommand (regw16Bytes reg (lfsr16 s.cfg.lfsrTaps n)) s) = .next t := h
    rw [regw16Bytes_eq] at h'
    exact emitCommand_effect _ rfl _ h'
  | vlock => exact emitCommand_effect _ rfl [(0xFF, 0x00)] h
  | vunlock => exact emitCommand_effect _ rfl [(0xFF, 0xFF)] h
  | setdepth split => exact emitCommand_effect _ rfl [(0x00, if split then 0x01 else 0x00)] h
  | setbase16 a =>
    exact emitCommand_effect _ rfl [(0x20, a.extractLsb' 16 8), (0x21, a.extractLsb' 8 8), (0x22, a.extractLsb' 0 8)] h
  | setbase8 a =>
    exact emitCommand_effect _ rfl [(0x26, a.extractLsb' 16 8), (0x27, a.extractLsb' 8 8), (0x28, a.extractLsb' 0 8)] h
  | settiming xres yres pixclock left right upper lower hsync vsync =>
    rcases inSession_cases h with ⟨-, rfl⟩ | ⟨ha, h⟩
    · exact .answered _ _ _ _ rfl
    split at h
    · cases h; exact .answered _ _ _ _ rfl
    · rw [settimingBytes_eq] at h
      exact emitCommand_effect _ rfl _ (by rw [inSession_of_attached ha]; exact h)
  | setblank level =>
    rcases inSession_cases h with ⟨-, rfl⟩ | ⟨ha, h⟩
    · exact .answered _ _ _ _ rfl
    split at h
    · cases h; exact .answered _ _ _ _ rfl
    · next b _ => exact emitCommand_effect _ rfl [(0x1F, b)] (by rw [inSession_of_attached ha]; exact h)
  | acquire =>
    rcases inSession_cases h with ⟨-, rfl⟩ | ⟨ha, h⟩
    · exact .answered _ _ _ _ rfl
    split at h
    · cases h; exact .answered _ _ _ _ rfl
    next hh =>
    split at h
    · next h0 => cases h; exact .acquireWaits s ha (not_not.mp hh) h0
    · next h0 => cases h; exact .acquired s ha (not_not.mp hh) h0
  | submit =>
    rcases inSession_cases h with ⟨-, rfl⟩ | ⟨ha, h⟩
    · exact .answered _ _ _ _ rfl
    split at h
    · cases h; exact .answered _ _ _ _ rfl
    next k hk =>
    split at h
    · cases h; exact .answered _ _ _ _ rfl
    · next h0 => cases h; exact .submitted s k ha hk h0
  | release =>
    rcases inSession_cases h with ⟨-, rfl⟩ | ⟨ha, h⟩
    · exact .answered _ _ _ _ rfl
    split at h
    · cases h; exact .answered _ _ _ _ rfl
    · next k hk => cases h; exact .released s k ha hk
  | complete k =>
    simp only [exec, execComplete] at h
    split at h
    · next ha => cases h; exact .completed s k ha
    · next ha => cases h; exact .completeIgnored _ k (by simpa using ha)
  | renderFrame x y w hh =>
    rcases inSession_cases h with ⟨-, rfl⟩ | ⟨ha, h⟩
    · exact .answered _ _ _ _ rfl
    split at h
    · cases h; exact .answered _ _ _ _ rfl
    split at h
    · cases h; exact .answered _ _ _ _ rfl
    next hv =>
    split at h
    · cases h; exact .answered _ _ _ _ rfl
    next hheld =>
    simp only at h
    split at h
    · cases h; exact .answered _ _ _ _ rfl
    · next he =>
      simp only [Bool.not_eq_true', Bool.and_eq_false_iff, not_or, Bool.not_eq_false] at hv
      exact .rendered _ _ _ _ s t _ _ _ _ ha hv.1 hv.2 (not_not.mp hheld) (by omega) (Nat.min_le_right _ _) (by omega)
        (Nat.min_le_right _ _) h
  | fillFrame color =>
    rcases inSession_cases h with ⟨-, rfl⟩ | ⟨ha, h⟩
    · exact .answered _ _ _ _ rfl
    split at h
    · cases h; exact .answered _ _ _ _ rfl
    split at h
    · cases h; exact .answered _ _ _ _ rfl
    next hv =>
    split at h
    · cases h; exact .answered _ _ _ _ rfl
    next hheld => exact .filled color s t ha (by simpa using hv) (not_not.mp hheld) h
  | cfgw off val =>
    rcases inSession_cases h with ⟨-, rfl⟩ | ⟨ha, h'⟩
    · exact .answered _ _ _ _ rfl
    split at h'
    · next ho =>
      subst ho
      split at h'
      · next h1 => cases h'; exact .cleared s val ha h1
      · cases h'; exact .answered _ _ _ _ rfl
    split at h'
    · next ho => subst ho; cases h'; exact .linked s val ha
    · cases h'; exact .answered _ _ _ _ rfl
  | cfgr off =>
    simp only [exec, execCfgr] at h
    split at h
    · split at h <;> (cases h; exact .answered _ _ _ _ rfl)
    · split at h <;> (cases h; exact .answered _ _ _ _ rfl)
  | modeset xres yres pixclock left right upper lower hsync vsync refresh split =>
    exact execModeset_effect (m := ⟨xres, yres, pixclock, left, right, upper, lower, hsync, vsync, refresh⟩) h
  | setfb pitch bpp vx vy width height backingEn =>
    rcases inSession_cases h with ⟨-, rfl⟩ | ⟨ha, h'⟩
    · exact .answered _ _ _ _ rfl
    split at h'
    · cases h'; exact .answered _ _ _ _ rfl
    next hb =>
    rw [not_not] at hb
    subst hb
    split at h'
    · cases h'; exact .answered _ _ _ _ rfl
    next hg =>
    simp only [not_or, not_lt] at hg
    cases backingEn with
    | false => cases h'; exact .fbPlain pitch vx vy width height s ha hg.2.2
    | true =>
      simp only [if_true] at h'
      split at h'
      · next hc => cases h'; exact .fbBacked pitch vx vy width height s ha hg.2.2 hc
      · next hc => cases h'; exact .fbFailed pitch vx vy width height s ha (by simpa using hc)
  | setcursor x y w hh bpp visible pix =>
    rcases inSession_cases h with ⟨-, rfl⟩ | ⟨ha, h'⟩
    · exact .answered _ _ _ _ rfl
    split at h'
    · cases h'; exact .answered _ _ _ _ rfl
    next hb =>
    rw [not_not] at hb
    subst hb
    split at h'
    · cases h'; exact .answered _ _ _ _ rfl
    · next hs =>
      simp only [not_or, not_not] at hs
      cases h'
      exact .cursorSet x y w hh visible pix s ha hs.2
  | attach =>
    simp only [exec, execAttach] at h
    split at h
    · cases h; exact .answered _ _ _ _ rfl
    · next ha => cases h; exact .attaches s (by simpa using ha)
  | detach =>
    rcases inSession_cases h with ⟨-, rfl⟩ | ⟨ha, h⟩
    · exact .answered _ _ _ _ rfl
    cases hh : s.pool.held with
    | none =>
      rw [hh] at h
      simp only at h
      split at h
      · next h0 => cases h; exact .detaches s s ha (.inl ⟨hh, rfl⟩) h0
      · next h0 => cases h; exact .detachWaits s s ha (.inl ⟨hh, rfl⟩) h0
    | some k =>
      rw [hh] at h
      simp only at h
      split at h
      · next h0 => cases h; exact .detaches s _ ha (.inr ⟨k, hh, rfl⟩) h0
      · next h0 => cases h; exact .detachWaits s _ ha (.inr ⟨k, hh, rfl⟩) h0
  | wRun16 addr rep raw =>
    simp only [exec, execWRun16] at h
    split at h
    · cases h; exact .device _ s _ rfl (.run ..)
    · cases h
  | wRun8 addr rep raw =>
    simp only [exec, execWRun8] at h
    split at h
    · cases h; exact .device _ s _ rfl (.run ..)
    · cases h
  | wRegw reg val => cases h; exact .device _ s _ rfl (.regw ..)
  | wPad n => cases h; exact .device _ s _ rfl (.pad ..)

/-! ## One step -/

/-- What the agent whose move it is can do, from the state `s` whose move has been taken off the list. -/
inductive MoveEffect : Move → State → State → Prop
  /-- Nothing can move: no request, or the waiting request's condition does not hold. -/
  | idle (m s) : MoveEffect m s s
  /-- A record that is no instruction of this agent. -/
  | refused (m s rest) (queue : s.queue = rest ∨ m = .producer ∧ s.pending = none ∧ ∃ record, s.queue = record :: rest) :
      MoveEffect m s { s with queue := rest }.markRefused
  /-- PRODUCER takes and runs the oldest request. -/
  | ran (s record rest i t) (free : s.pending = none) (queue : s.queue = record :: rest)
      (decoded : decode s.cfg record = .ok i) (agent : i.agent = .host) (effect : Effect i { s with queue := rest } t) :
      MoveEffect .producer s t
  | acquireEnds (s) (waiting : s.pending = some .acquire) (some : s.pool.avail ≠ 0) :
      MoveEffect .producer s (s.takeSlot.replied .ok .none)
  | modesetEnds (s m split t) (waiting : s.pending = some (.modeset m split)) (some : s.pool.avail ≠ 0)
      (take : modesetTake m split s = .next t) : MoveEffect .producer s t
  | detachEnds (s) (waiting : s.pending = some .detach) (drained : s.pool.inflight = 0) :
      MoveEffect .producer s (s.destroySession.replied .ok .none)
  | frameGoesOn (s f t) (waiting : s.pending = some (.frame f)) (some : s.pool.avail ≠ 0)
      (run : resumeFrame f s = .next t) : MoveEffect .producer s t
  | issued (record s) : MoveEffect (.issue record) s { s with queue := s.queue ++ [record] }
  | hostWrote (off bytes s) : MoveEffect (.hostWrite off bytes) s { s with hostFb := Memory.storeList s.hostFb off bytes }
  | acquireTimesOut (s) (waiting : s.pending = some .acquire ∨ ∃ m split, s.pending = some (.modeset m split))
      (none : s.pool.avail = 0) : MoveEffect .timeout s ((s.setFlag .lostPixels true).replied .timeout .none)
  | frameTimesOut (s f t) (waiting : s.pending = some (.frame f)) (none : s.pool.avail = 0)
      (run : timeoutFrame f s = .next t) : MoveEffect .timeout s t
  /-- TRANSPORT's request. -/
  | transported (record s i t) (decoded : decode s.cfg record = .ok i) (agent : i.agent = .transport) (effect : Effect i s t) :
      MoveEffect (.transport record) s t
  /-- The reader's command. -/
  | read (command s i d) (decoded : decode s.cfg command = .ok i) (agent : i.agent = .device)
      (effect : DeviceEffect s.device d) : MoveEffect (.device command) s { s with device := d }

theorem runRequest_cases {agent : Agent} {record : List Byte} {s t : State} (h : runRequest agent record s = .next t) :
    t = s.markRefused ∨ ∃ i, decode s.cfg record = .ok i ∧ i.agent = agent ∧ exec i s = .next t := by
  unfold runRequest at h
  split at h
  · next i hi =>
    split at h
    · next ha => exact .inr ⟨i, hi, ha, h⟩
    · cases h; exact .inl rfl
  · cases h; exact .inl rfl

/-- What one move can do. -/
theorem moveStep_effect {m : Move} {s t : State} (h : moveStep m s = .next t) : MoveEffect m s t := by
  cases m with
  | producer =>
    simp only [moveStep, producerStep] at h
    split at h
    · next p hp =>
      cases p with
      | acquire =>
        simp only [resume, acquireTake] at h
        split at h
        · cases h; exact .idle ..
        · next h0 => cases h; exact .acquireEnds s hp h0
      | modeset m split =>
        simp only [resume] at h
        split at h
        · cases h; exact .idle ..
        · next h0 => exact .modesetEnds s m split t hp h0 h
      | detach =>
        simp only [resume, detachDone] at h
        split at h
        · next h0 => cases h; exact .detachEnds s hp h0
        · cases h; exact .idle ..
      | frame f =>
        simp only [resume] at h
        split at h
        · cases h; exact .idle ..
        · next h0 => exact .frameGoesOn s f t hp h0 h
    · next hp =>
      split at h
      · cases h; exact .idle ..
      · next record rest hq =>
        rcases runRequest_cases h with rfl | ⟨i, hi, ha, h⟩
        · exact .refused _ s rest (.inr ⟨rfl, hp, record, hq⟩)
        · exact .ran s record rest i t hp hq hi ha (exec_effect h)
  | issue record => cases h; exact .issued ..
  | hostWrite off bytes => cases h; exact .hostWrote ..
  | timeout =>
    simp only [moveStep, timeoutStep] at h
    split at h
    · next h0 =>
      split at h
      · next hp => cases h; exact .acquireTimesOut s (.inl hp) h0
      · next m split hp => cases h; exact .acquireTimesOut s (.inr ⟨m, split, hp⟩) h0
      · next f hp => exact .frameTimesOut s f t hp h0 h
      · cases h; exact .idle ..
      · cases h; exact .idle ..
    · cases h; exact .idle ..
  | transport record =>
    rcases runRequest_cases h with rfl | ⟨i, hi, ha, h⟩
    · exact .refused _ s s.queue (.inl rfl)
    · exact .transported record s i t hi ha (exec_effect h)
  | device command =>
    simp only [moveStep, runCommand] at h
    split at h
    · next i hi =>
      split at h
      · next ha =>
        cases exec_effect h with
        | device _ _ d _ he => exact .read command s i d hi ha he
        | answered _ _ _ _ hh => exact absurd (hh.symm.trans ha) (by decide)
        | wrote _ _ _ _ _ _ hh => exact absurd (hh.symm.trans ha) (by decide)
        | _ => cases ha
      · cases h
    · cases h

/-- The lowest-numbered slot in flight is one, and there is none only if no slot is in flight. -/
theorem Pool.firstInflight_cases (p : Pool) :
    (p.firstInflight = none ∧ ∀ slot ∈ p.slots, slot.state ≠ .inflight) ∨
    ∃ k slot, p.firstInflight = some k ∧ p.slots[k]? = some slot ∧ slot.state = .inflight := by
  unfold Pool.firstInflight
  cases h : p.slots.findIdx? fun slot => decide (slot.state = .inflight) with
  | none => exact .inl ⟨rfl, by simpa using List.findIdx?_eq_none_iff.mp h⟩
  | some k =>
    obtain ⟨hk, hs, _⟩ := List.findIdx?_eq_some_iff_getElem.mp h
    exact .inr ⟨k, _, rfl, List.getElem?_eq_getElem hk, of_decide_eq_true hs⟩

/-- Whose move comes next: the first one listed; with none listed a COMPLETE of a slot in flight, and PRODUCER only when no slot is
in flight. -/
theorem State.nextMove_cases (s : State) :
    (∃ m rest, s.moves = m :: rest ∧ s.nextMove = m) ∨
    (s.moves = [] ∧ (∃ k slot, s.nextMove = .transport (encode s.cfg (.complete k)) ∧ s.pool.slots[k]? = some slot ∧
      slot.state = .inflight)) ∨
    (s.moves = [] ∧ s.nextMove = .producer ∧ ∀ slot ∈ s.pool.slots, slot.state ≠ .inflight) := by
  cases hm : s.moves with
  | cons m rest => exact .inl ⟨m, rest, rfl, by simp [State.nextMove, hm]⟩
  | nil =>
    rcases s.pool.firstInflight_cases with ⟨hf, hn⟩ | ⟨k, slot, hf, hk, hs⟩
    · exact .inr (.inr ⟨rfl, by simp [State.nextMove, hm, hf], hn⟩)
    · exact .inr (.inl ⟨rfl, k, slot, by simp [State.nextMove, hm, hf], hk, hs⟩)

/-- What one step can do: refuse the configuration, or make one move and check the pool. -/
theorem step_effect {s t : State} (h : step s = .next t) :
    (¬ s.cfg.Valid ∧ t = s.markRefused) ∨ (s.cfg.Valid ∧ ∃ u, MoveEffect s.nextMove s.popMove u ∧ t = u.checkPool) := by
  unfold step oneStep at h
  split at h
  · next hv =>
    refine .inr ⟨hv, ?_⟩
    revert h
    cases hm : moveStep s.nextMove s.popMove with
    | next u => intro h; cases h; exact ⟨u, moveStep_effect hm, rfl⟩
    | fault f => intro h; cases h
    | refused r => intro h; cases h
  · next hv => cases h; exact .inl ⟨hv, rfl⟩

end Sys2Proof.Machine
end

