-- ==== Sys2Proof/Laws/PerInstr.lean ====
section
/-!
SUPPORT. A statement about every instruction, one lemma per constructor: the first byte of its bytes.
-/

namespace Sys2Proof

/-- The first byte of an instruction's bytes: its request code (30_encoding.md R91), or 0xAF for a wire command (R94 to R96). -/
def Instr.leadByte : Instr → Byte
  | .split _ => 0x01
  | .diff _ _ => 0x02
  | .blendpix _ _ => 0x03
  | .blendline _ _ _ => 0x04
  | .lfsr16 _ => 0x05
  | .enc16 _ _ _ => 0x06
  | .enc8 _ _ _ => 0x07
  | .regw _ _ => 0x10
  | .regw16 _ _ => 0x11
  | .regw16be _ _ => 0x12
  | .regwl _ _ => 0x13
  | .vlock => 0x14
  | .vunlock => 0x15
  | .setdepth _ => 0x16
  | .setbase16 _ => 0x17
  | .setbase8 _ => 0x18
  | .settiming _ _ _ _ _ _ _ _ _ => 0x19
  | .setblank _ => 0x1A
  | .acquire => 0x20
  | .submit => 0x21
  | .release => 0x22
  | .complete _ => 0x2F
  | .renderFrame _ _ _ _ => 0x30
  | .fillFrame _ => 0x31
  | .cfgw _ _ => 0x40
  | .cfgr _ => 0x41
  | .modeset _ _ _ _ _ _ _ _ _ _ _ => 0x42
  | .setfb _ _ _ _ _ _ _ => 0x43
  | .setcursor _ _ _ _ _ _ _ => 0x44
  | .attach => 0x48
  | .detach => 0x49
  | .wRun16 _ _ _ => 0xAF
  | .wRun8 _ _ _ => 0xAF
  | .wRegw _ _ => 0xAF
  | .wPad _ => 0xAF

namespace Laws

/-- The bytes of a well-formed instruction begin with its lead byte, in every configuration. -/
def LeadByte.Statement (i : Instr) : Prop :=
  i.wellFormed = true → ∀ p : Params, (encode p i).head? = some i.leadByte

theorem LeadByte.split : ∀ a0, LeadByte.Statement (.split a0) := fun _ _ _ => rfl
theorem LeadByte.diff : ∀ a0 a1, LeadByte.Statement (.diff a0 a1) := fun _ _ _ _ => rfl
theorem LeadByte.blendpix : ∀ a0 a1, LeadByte.Statement (.blendpix a0 a1) := fun _ _ _ _ => rfl
theorem LeadByte.blendline : ∀ a0 a1 a2, LeadByte.Statement (.blendline a0 a1 a2) := fun _ _ _ _ _ => rfl
theorem LeadByte.lfsr16 : ∀ a0, LeadByte.Statement (.lfsr16 a0) := fun _ _ _ => rfl
theorem LeadByte.enc16 : ∀ a0 a1 a2, LeadByte.Statement (.enc16 a0 a1 a2) := fun _ _ _ _ _ => rfl
theorem LeadByte.enc8 : ∀ a0 a1 a2, LeadByte.Statement (.enc8 a0 a1 a2) := fun _ _ _ _ _ => rfl
theorem LeadByte.regw : ∀ a0 a1, LeadByte.Statement (.regw a0 a1) := fun _ _ _ _ => rfl
theorem LeadByte.regw16 : ∀ a0 a1, LeadByte.Statement (.regw16 a0 a1) := fun _ _ _ _ => rfl
theorem LeadByte.regw16be : ∀ a0 a1, LeadByte.Statement (.regw16be a0 a1) := fun _ _ _ _ => rfl
theorem LeadByte.regwl : ∀ a0 a1, LeadByte.Statement (.regwl a0 a1) := fun _ _ _ _ => rfl
theorem LeadByte.vlock : LeadByte.Statement .vlock := fun _ _ => rfl
theorem LeadByte.vunlock : LeadByte.Statement .vunlock := fun _ _ => rfl
theorem LeadByte.setdepth : ∀ a0, LeadByte.Statement (.setdepth a0) := fun _ _ _ => rfl
theorem LeadByte.setbase16 : ∀ a0, LeadByte.Statement (.setbase16 a0) := fun _ _ _ => rfl
theorem LeadByte.setbase8 : ∀ a0, LeadByte.Statement (.setbase8 a0) := fun _ _ _ => rfl
theorem LeadByte.settiming : ∀ a0 a1 a2 a3 a4 a5 a6 a7 a8, LeadByte.Statement (.settiming a0 a1 a2 a3 a4 a5 a6 a7 a8) := fun _ _ _ _ _ _ _ _ _ _ _ => rfl
theorem LeadByte.setblank : ∀ a0, LeadByte.Statement (.setblank a0) := fun _ _ _ => rfl
theorem LeadByte.acquire : LeadByte.Statement .acquire := fun _ _ => rfl
theorem LeadByte.submit : LeadByte.Statement .submit := fun _ _ => rfl
theorem LeadByte.release : LeadByte.Statement .release := fun _ _ => rfl
theorem LeadByte.complete : ∀ a0, LeadByte.Statement (.complete a0) := fun _ _ _ => rfl
theorem LeadByte.renderFrame : ∀ a0 a1 a2 a3, LeadByte.Statement (.renderFrame a0 a1 a2 a3) := fun _ _ _ _ _ _ => rfl
theorem LeadByte.fillFrame : ∀ a0, LeadByte.Statement (.fillFrame a0) := fun _ _ _ => rfl
theorem LeadByte.cfgw : ∀ a0 a1, LeadByte.Statement (.cfgw a0 a1) := fun _ _ _ _ => rfl
theorem LeadByte.cfgr : ∀ a0, LeadByte.Statement (.cfgr a0) := fun _ _ _ => rfl
theorem LeadByte.modeset : ∀ a0 a1 a2 a3 a4 a5 a6 a7 a8 a9 a10, LeadByte.Statement (.modeset a0 a1 a2 a3 a4 a5 a6 a7 a8 a9 a10) := fun _ _ _ _ _ _ _ _ _ _ _ _ _ => rfl
theorem LeadByte.setfb : ∀ a0 a1 a2 a3 a4 a5 a6, LeadByte.Statement (.setfb a0 a1 a2 a3 a4 a5 a6) := fun _ _ _ _ _ _ _ _ _ => rfl
theorem LeadByte.setcursor : ∀ a0 a1 a2 a3 a4 a5 a6, LeadByte.Statement (.setcursor a0 a1 a2 a3 a4 a5 a6) := fun _ _ _ _ _ _ _ _ _ => rfl
theorem LeadByte.attach : LeadByte.Statement .attach := fun _ _ => rfl
theorem LeadByte.detach : LeadByte.Statement .detach := fun _ _ => rfl
theorem LeadByte.wRun16 : ∀ a0 a1 a2, LeadByte.Statement (.wRun16 a0 a1 a2) := fun _ _ _ _ _ => rfl
theorem LeadByte.wRun8 : ∀ a0 a1 a2, LeadByte.Statement (.wRun8 a0 a1 a2) := fun _ _ _ _ _ => rfl
theorem LeadByte.wRegw : ∀ a0 a1, LeadByte.Statement (.wRegw a0 a1) := fun _ _ _ _ => rfl
theorem LeadByte.wPad : ∀ a0, LeadByte.Statement (.wPad a0) := by
  intro a0 h p
  cases a0 with
  | zero => simp [Instr.wellFormed] at h
  | succ n => rfl

end Laws

end Sys2Proof
end

