-- ==== Sys2Proof/Laws/Pool.lean ====
section
/-!
SUPPORT. The pool rules of 10_state.md R36 to R38 and 45_slot_pool.md R211 as a property of the pool alone, kept by every pool
operation.
-/

namespace Sys2Proof.Machine

/-- A length of 1 to S for a slot in flight, and S for every other slot (45_slot_pool.md R211 item 4). -/
def Slot.LengthOk (S : Nat) (slot : Slot) : Prop :=
  if slot.state = .inflight then 1 ≤ slot.len.toNat ∧ slot.len.toNat ≤ S else slot.len.toNat = S

/-- The pool of a session with `n` slots of `S` bytes, both numbers that fit into a u32. -/
structure Pool.Sound (n S : Nat) (p : Pool) : Prop where
  countable : n < 2 ^ 32
  sizable : S < 2 ^ 32
  size : p.slots.length = n
  r38 : p.holdsR38 = true
  wptrLe : p.wptr.toNat ≤ S
  wptrNone : p.held = none → p.wptr = 0
  lengths : ∀ slot ∈ p.slots, slot.LengthOk S

variable {n S k : Nat} {p : Pool}

theorem lengthOk_modifySlot {f : Slot → Slot} (h : ∀ slot ∈ p.slots, slot.LengthOk S)
    (hf : ∀ slot, p.slots[k]? = some slot → (f slot).LengthOk S) : ∀ slot ∈ (p.modifySlot k f).slots, slot.LengthOk S := by
  intro slot hs
  obtain ⟨j, hj⟩ := List.mem_iff_getElem?.mp hs
  rw [Pool.getElem?_modifySlot] at hj
  split at hj
  · next e =>
    subst e
    obtain ⟨o, ho, rfl⟩ := Option.map_eq_some_iff.mp hj
    exact hf o ho
  · exact h _ (List.mem_of_getElem? hj)

/-- Emit keeps the pool sound: only the held slot's bytes and WPTR change. -/
theorem Pool.Sound.write {f : Slot → Slot} {w : Word} (h : p.Sound n S)
    (hf : ∀ slot, (f slot).state = slot.state ∧ (f slot).len = slot.len) (hw : w.toNat ≤ S) (hh : p.held = some k) :
    Pool.Sound n S { p.modifySlot k f with wptr := w } := by
  obtain ⟨a, b, c, d, e⟩ := (Pool.holdsR38_iff p).mp h.r38
  refine ⟨h.countable, h.sizable, by simpa using h.size,
    (Pool.holdsR38_iff _).mpr ⟨a, b, by simpa using c, ?_, by simpa using e⟩, hw,
    by simp [hh], ?_⟩
  · intro j slot hj
    have hj : (p.modifySlot k f).slots[j]? = some slot := hj
    rw [Pool.getElem?_modifySlot] at hj
    split at hj
    · obtain ⟨o, ho, rfl⟩ := Option.map_eq_some_iff.mp hj
      rw [(hf o).1]; exact d j o ho
    · exact d j slot hj
  · refine lengthOk_modifySlot h.lengths fun slot hs => ?_
    unfold Slot.LengthOk
    rw [(hf slot).1, (hf slot).2]
    exact h.lengths _ (List.mem_of_getElem? hs)

/-- TAKE keeps the pool sound. -/
theorem Pool.Sound.take {rest : List Nat} (h : p.Sound n S) (hq : p.freeq = k :: rest) (hh : p.held = none) :
    Pool.Sound n S { p.modifySlot k (fun slot => { slot with state := .held }) with
      freeq := rest, avail := p.avail - 1, held := some k, wptr := 0 } := by
  obtain ⟨a, b, c, d, e⟩ := (Pool.holdsR38_iff p).mp h.r38
  rw [hq] at a b c
  have b' := List.nodup_cons.mp b
  refine ⟨h.countable, h.sizable, by simpa using h.size, (Pool.holdsR38_iff _).mpr ⟨?_, b'.2, ?_, ?_, ?_⟩, by simp, by simp, ?_⟩
  · simp only [List.length_cons] at a ⊢; bv_omega
  · intro j hj; simpa using c j (List.mem_cons_of_mem _ hj)
  · intro j slot hj
    have hj : (p.modifySlot k _).slots[j]? = some slot := hj
    rw [Pool.getElem?_modifySlot] at hj
    split at hj
    · next e =>
      subst e
      obtain ⟨o, ho, rfl⟩ := Option.map_eq_some_iff.mp hj
      simp [b'.1]
    · next e =>
      have := d j slot hj
      rw [hq, hh] at this
      simpa [e, Ne.symm e] using this
  · intro j hj
    simp only [Option.some.injEq] at hj
    subst hj
    simpa using c k (by simp)
  · refine lengthOk_modifySlot h.lengths fun slot hs => ?_
    have := h.lengths _ (List.mem_of_getElem? hs)
    have hd := (d k slot hs).1.mp (by rw [hq]; simp)
    simpa [Slot.LengthOk, hd] using this

/-- A slot that is not free leaves room in the free list. -/
theorem freeq_lt (h : p.Sound n S) {slot : Slot} (hk : p.slots[k]? = some slot) (hkn : k ∉ p.freeq) : p.freeq.length < n := by
  obtain ⟨-, b, c, -, -⟩ := (Pool.holdsR38_iff p).mp h.r38
  have hlt : k < p.slots.length := (List.getElem?_eq_some_iff.mp hk).1
  have := (List.nodup_cons.mpr ⟨hkn, b⟩).length_le_of_subset (l₂ := List.range p.slots.length) fun j hj => by
    rcases List.mem_cons.mp hj with rfl | hj
    · simpa using hlt
    · simpa using c j hj
  simp only [List.length_cons, List.length_range, h.size] at this
  omega

/-- A slot that goes back keeps the pool sound: COMPLETE of a slot in flight, or the held slot dropped. -/
theorem Pool.Sound.giveBack {held : Option Nat} {w : Word} (h : p.Sound n S) {slot : Slot} (hk : p.slots[k]? = some slot)
    (hs : slot.state ≠ .free)
    (hheld : (slot.state = .inflight ∧ held = p.held ∧ w = p.wptr) ∨ (slot.state = .held ∧ held = none ∧ w = 0)) :
    Pool.Sound n S { p.giveBack S k with held := held, wptr := w } := by
  obtain ⟨a, b, c, d, e⟩ := (Pool.holdsR38_iff p).mp h.r38
  have hkn : k ∉ p.freeq := fun hm => hs ((d k slot hk).1.mp hm)
  have hlt : k < p.slots.length := (List.getElem?_eq_some_iff.mp hk).1
  have hfew := freeq_lt h hk hkn
  refine ⟨h.countable, h.sizable, by simpa [Pool.giveBack] using h.size,
    (Pool.holdsR38_iff _).mpr ⟨?_, ?_, ?_, ?_, ?_⟩, ?_, ?_, ?_⟩
  · have := h.countable
    simp only [Pool.giveBack, List.length_append, List.length_cons, List.length_nil]
    bv_omega
  · refine List.nodup_append.mpr ⟨b, by simp, fun x hx y hy exy => hkn ?_⟩
    simp only [List.mem_singleton] at hy
    rw [← hy, ← exy]; exact hx
  · intro j hj
    simp only [Pool.giveBack, List.mem_append, List.mem_singleton, Pool.length_modifySlot] at hj ⊢
    rcases hj with hj | rfl
    · exact c j hj
    · exact hlt
  · intro j other hj
    have hj : (p.modifySlot k _).slots[j]? = some other := hj
    rw [Pool.getElem?_modifySlot] at hj
    simp only [Pool.giveBack]
    split at hj
    · next e =>
      subst e
      simp only [hk, Option.map_some, Option.some.injEq] at hj
      subst hj
      rcases hheld with ⟨h1, h2, -⟩ | ⟨-, h2, -⟩
      · refine ⟨by simp, ?_⟩
        rw [h2]
        refine iff_of_false (fun hx => ?_) (by simp)
        have := (d k slot hk).2.mp hx
        rw [h1] at this
        cases this
      · simp [h2]
    · next e =>
      have := d j other hj
      refine ⟨by simpa [Ne.symm e] using this.1, ?_⟩
      rcases hheld with ⟨-, h2, -⟩ | ⟨h1, h2, -⟩
      · rw [h2]; exact this.2
      · have hp : p.held = some k := (d k slot hk).2.mpr h1
        rw [hp] at this
        rw [h2]
        simpa [e] using this.2
  · intro j hj
    rcases hheld with ⟨-, h2, -⟩ | ⟨-, h2, -⟩
    · simp only [h2] at hj
      simpa [Pool.giveBack] using e j hj
    · simp [h2] at hj
  · rcases hheld with ⟨-, -, h3⟩ | ⟨-, -, h3⟩ <;> simp [h3]
    exact h.wptrLe
  · intro hn
    rcases hheld with ⟨-, h2, h3⟩ | ⟨-, -, h3⟩
    · simp only [h2] at hn
      simp only [h3]; exact h.wptrNone hn
    · simp only [h3]
  · exact lengthOk_modifySlot h.lengths fun _ _ => by
      simpa [Slot.LengthOk] using h.sizable

/-- The held slot exists and has the state HELD. -/
theorem Pool.Sound.held_slot (h : p.Sound n S) (hh : p.held = some k) :
    ∃ slot, p.slots[k]? = some slot ∧ slot.state = .held := by
  obtain ⟨-, -, -, d, e⟩ := (Pool.holdsR38_iff p).mp h.r38
  have hlt := e k hh
  have hk : p.slots[k]? = some p.slots[k] := by simp [hlt]
  exact ⟨_, hk, (d k _ hk).2.mp hh⟩

/-- SUBMIT keeps the pool sound: the held slot is in flight with the length WPTR. -/
theorem Pool.Sound.launch (h : p.Sound n S) (hh : p.held = some k) (hw : p.wptr ≠ 0) :
    Pool.Sound n S { p.modifySlot k (fun slot => { slot with len := p.wptr, state := .inflight }) with
      held := none, wptr := 0 } := by
  obtain ⟨a, b, c, d, e⟩ := (Pool.holdsR38_iff p).mp h.r38
  refine ⟨h.countable, h.sizable, by simpa using h.size,
    (Pool.holdsR38_iff _).mpr ⟨a, b, by simpa using c, ?_, by simp⟩, by simp, by simp, ?_⟩
  · intro j slot hj
    have hj : (p.modifySlot k _).slots[j]? = some slot := hj
    rw [Pool.getElem?_modifySlot] at hj
    split at hj
    · next e =>
      subst e
      obtain ⟨o, ho, rfl⟩ := Option.map_eq_some_iff.mp hj
      have h2 := (d k o ho).2.mp hh
      refine ⟨iff_of_false (fun hm => ?_) (by simp), by simp⟩
      have h1 := (d k o ho).1.mp hm
      rw [h1] at h2
      cases h2
    · next e =>
      have := d j slot hj
      rw [hh] at this
      simpa [e] using this
  · have : 1 ≤ p.wptr.toNat := by bv_omega
    exact lengthOk_modifySlot h.lengths fun _ _ => by simpa [Slot.LengthOk] using ⟨this, h.wptrLe⟩

/-- RELEASE, or a rejected SUBMIT, keeps the pool sound. -/
theorem Pool.Sound.drop (h : p.Sound n S) (hh : p.held = some k) :
    Pool.Sound n S { p.giveBack S k with held := none, wptr := 0 } := by
  obtain ⟨slot, hk, hs⟩ := h.held_slot hh
  exact h.giveBack hk (by rw [hs]; decide) (.inr ⟨hs, rfl, rfl⟩)

/-- The pool right after ATTACH is sound. -/
theorem Pool.Sound.fresh (q : Params) (tag : Nat) (hn : q.slotCount < 2 ^ 32) (hS : q.slotBytes < 2 ^ 32) :
    (Pool.fresh q tag).Sound q.slotCount q.slotBytes := by
  refine ⟨hn, hS, by simp [Pool.fresh], (Pool.holdsR38_iff _).mpr ⟨by simpa [Pool.fresh] using hn, List.nodup_range, by simp [Pool.fresh],
    ?_, by simp [Pool.fresh]⟩, by simp [Pool.fresh], by simp [Pool.fresh], ?_⟩
  · intro k slot hk
    have hlt : k < q.slotCount := by simpa [Pool.fresh] using (List.getElem?_eq_some_iff.mp hk).1
    simp only [Pool.fresh, List.getElem?_map, List.getElem?_range hlt, Option.map_some, Option.some.injEq] at hk
    subst hk
    simp [Pool.fresh, hlt]
  · intro slot hs
    simp only [Pool.fresh, List.mem_map] at hs
    obtain ⟨k, -, rfl⟩ := hs
    simpa [Slot.LengthOk] using hS

end Sys2Proof.Machine
end

