-- ==== Sys2Proof/Laws/Runs.lean ====
section
/-!
SUPPORT. What a whole stretch of work between two wait points leaves as it was: a frame operation (46_frame_loop.md R222) and the
part of MODESET from its acquire on (R233).
-/

namespace Sys2Proof.Machine

/-! ## SUBMIT inside a stretch -/

/-- The SUBMIT events that came, and CNT_SENT grown by their lengths (10_state.md R33). -/
def SentSince (s t : State) : Prop :=
  ∃ new, t.events = s.events ++ new ∧ t.counters.sent = s.counters.sent + (new.map SubmitEvent.len).sum

theorem SentSince.of_eq {s t : State} (he : t.events = s.events) (hc : t.counters.sent = s.counters.sent) : SentSince s t :=
  ⟨[], by simp [he], by simp [hc]⟩

theorem SentSince.trans {s t u : State} (h : SentSince s t) (k : SentSince t u) : SentSince s u := by
  obtain ⟨a, ha, hc⟩ := h
  obtain ⟨b, hb, hd⟩ := k
  exact ⟨a ++ b, by rw [hb, ha, List.append_assoc], by
    rw [hd, hc, List.map_append, List.sum_append, BitVec.add_assoc]⟩

/-- SUBMIT's body: at most one event, counted. -/
theorem State.submitSlot_sent (s : State) (k : Nat) : SentSince s (s.submitSlot k) := by
  unfold State.submitSlot
  cases s.nextChoice
  · exact .of_eq (by simp [State.submitWith_reject, State.launchSlot]) (by simp [State.submitWith_reject, State.launchSlot])
  · exact ⟨[⟨k, s.pool.wptr, s.pool.slotBytes k s.pool.wptr.toNat⟩], by simp [State.submitWith_accept, State.launchSlot], by
      simp [State.submitWith_accept, State.launchSlot, State.countSent]⟩

/-- The counters after SUBMIT: only CNT_SENT can have changed. -/
theorem State.submitSlot_counters (s : State) (k : Nat) :
    (s.submitSlot k).counters = { s.counters with sent := (s.submitSlot k).counters.sent } := by
  unfold State.submitSlot
  cases s.nextChoice <;> simp [State.submitWith_accept, State.submitWith_reject, State.launchSlot, State.countSent]

/-! ## A frame operation -/

/-- What a frame operation leaves as it was since `s0`: HOST's registers and memories, the mode, the cursor, the requests; it can
set LOST_PIXELS and never clears it, and it changes no other STATUS bit but FRAME_BUSY; CNT_SENT counts its events, and
CNT_IDENTICAL changes only where lines are compared. -/
structure FrameStable (s0 : State) (f0 : FrameCtx) (s : State) : Prop where
  cfg : s.cfg = s0.cfg
  link : s.link = s0.link
  fbReg : s.fbReg = s0.fbReg
  mode : s.mode = s0.mode
  base16 : s.base16 = s0.base16
  base8 : s.base8 = s0.base8
  cursor : s.cursor = s0.cursor
  hostFb : s.hostFb = s0.hostFb
  device : s.device = s0.device
  queue : s.queue = s0.queue
  moves : s.moves = s0.moves
  flags : ∀ g, g ≠ .lostPixels → g ≠ .frameBusy → s.flag g = s0.flag g
  lost : s0.flag .lostPixels = true → s.flag .lostPixels = true
  sent : SentSince s0 s
  identical : ∀ color, f0.source = .fill color → s.counters.identical = s0.counters.identical

/-- One more state change that touches none of these. -/
theorem FrameStable.trans {s0 s t : State} {f0 : FrameCtx} (h : FrameStable s0 f0 s) (k : FrameStable s f0 t) :
    FrameStable s0 f0 t where
  cfg := k.cfg.trans h.cfg
  link := k.link.trans h.link
  fbReg := k.fbReg.trans h.fbReg
  mode := k.mode.trans h.mode
  base16 := k.base16.trans h.base16
  base8 := k.base8.trans h.base8
  cursor := k.cursor.trans h.cursor
  hostFb := k.hostFb.trans h.hostFb
  device := k.device.trans h.device
  queue := k.queue.trans h.queue
  moves := k.moves.trans h.moves
  flags g h1 h2 := (k.flags g h1 h2).trans (h.flags g h1 h2)
  lost hl := k.lost (h.lost hl)
  sent := h.sent.trans k.sent
  identical color hc := (k.identical color hc).trans (h.identical color hc)

theorem FrameStable.refl (s : State) (f0 : FrameCtx) : FrameStable s f0 s :=
  ⟨rfl, rfl, rfl, rfl, rfl, rfl, rfl, rfl, rfl, rfl, rfl, fun _ _ _ => rfl, id, .of_eq rfl rfl, fun _ _ => rfl⟩

theorem frameStable_emit (s : State) (f0 : FrameCtx) (bs : List Byte) : FrameStable s f0 (s.emit bs) := by
  constructor <;> first | simp | exact .of_eq (by simp) (by simp)

theorem frameStable_takeSlot (s : State) (f0 : FrameCtx) : FrameStable s f0 s.takeSlot := by
  constructor <;> first | simp | exact .of_eq (by simp) (by simp)

theorem frameStable_submitSlot (s : State) (f0 : FrameCtx) (k : Nat) : FrameStable s f0 (s.submitSlot k) := by
  constructor
  case flags => intro g h1 _; simp [State.submitSlot_flag, h1]
  case lost => intro h; simp [State.submitSlot_flag, h]
  case sent => exact s.submitSlot_sent k
  case identical => intro _ _; rw [State.submitSlot_counters]
  all_goals simp

theorem frameStable_submitF (s : State) (f0 : FrameCtx) : FrameStable s f0 s.submitF := by
  unfold State.submitF
  split
  · exact frameStable_submitSlot s f0 _
  · exact .refl s f0

theorem State.countLine_sent (s : State) (f : FrameCtx) : (s.countLine f).counters.sent = s.counters.sent := by
  unfold State.countLine
  split
  · split <;> rfl
  · rfl

theorem State.countLine_identical (s : State) (f : FrameCtx) {color : Word} (h : f.source = .fill color) :
    (s.countLine f).counters.identical = s.counters.identical := by
  unfold State.countLine
  rw [h]
  rfl

theorem frameStable_countLine (s : State) {f0 f : FrameCtx} (hf : FrameCtx.Same f0 f) : FrameStable s f0 (s.countLine f) := by
  constructor
  case sent => exact .of_eq (by simp) (s.countLine_sent f)
  case identical => intro color hc; exact s.countLine_identical f (hf.1.trans hc)
  all_goals simp

theorem frameStable_prepareLine (s : State) {f0 f : FrameCtx} (hf : FrameCtx.Same f0 f) :
    FrameStable s f0 (s.prepareLine f) := by
  have h := frameStable_countLine s hf
  exact ⟨h.cfg, h.link, h.fbReg, h.mode, h.base16, h.base8, h.cursor, h.hostFb, h.device, h.queue, h.moves, h.flags, h.lost,
    h.sent, h.identical⟩

theorem frameStable_lost (s : State) (f0 : FrameCtx) : FrameStable s f0 (s.setFlag .lostPixels true) := by
  constructor
  case flags => intro g h1 _; simp [Ne.symm h1]
  case sent => exact .of_eq (by simp) (by simp)
  all_goals simp

theorem frameStable_releaseSlot (s : State) (f0 : FrameCtx) (k : Nat) : FrameStable s f0 (s.releaseSlot k) := by
  constructor <;> first | simp | exact .of_eq (by simp) (by simp)

/-- How a stretch of a frame operation ends: with OK, no slot held and FRAME_BUSY 0, or at its next wait point. -/
structure FrameEnds (s0 : State) (f0 : FrameCtx) (t : State) : Prop where
  stable : FrameStable s0 f0 t
  ends : (t.replies = s0.replies ++ [⟨.ok, .none⟩] ∧ t.pending = none ∧ t.flag .frameBusy = false ∧ t.pool.held = none) ∨
    (t.replies = s0.replies ∧ t.flag .frameBusy = s0.flag .frameBusy ∧
      ∃ f, t.pending = some (.frame f) ∧ FrameCtx.Same f0 f ∧ t.pool.avail = 0)

theorem frameStable_endOfFrame {s t : State} (f0 : FrameCtx) (h : endOfFrame s = .next t) :
    FrameStable s f0 t ∧ t.replies = s.replies ++ [⟨.ok, .none⟩] ∧ t.pending = none ∧ t.flag .frameBusy = false ∧
      t.pool.held = none := by
  obtain ⟨u, hu, rfl⟩ := endOfFrame_cases h
  have hs : FrameStable s f0 u ∧ u.replies = s.replies ∧ u.pool.held = none := by
    rcases hu with ⟨h0, rfl⟩ | ⟨k, hk, ⟨hw, rfl⟩ | ⟨-, rfl⟩⟩
    · exact ⟨.refl _ f0, rfl, h0⟩
    · exact ⟨frameStable_submitSlot s f0 k, by simp, by simp⟩
    · exact ⟨frameStable_releaseSlot s f0 k, by simp, rfl⟩
  obtain ⟨hs, hr, hh⟩ := hs
  refine ⟨hs.trans ?_, by simp [hr], rfl, by simp, by simpa using hh⟩
  constructor
  case flags => intro g h1 h2; simp [Ne.symm h2]
  case sent => exact .of_eq (by simp) (by simp [State.countCpu])
  case identical => intro _ _; simp [State.countCpu]
  all_goals simp

/-- A frame operation between two wait points. -/
theorem frameStable_rule (s0 : State) (f0 : FrameCtx) :
    FrameRule s0.cfg f0
      (fun s => FrameStable s0 f0 s ∧ s.replies = s0.replies ∧ s.flag .frameBusy = s0.flag .frameBusy)
      (fun s => FrameStable s0 f0 s ∧ s.replies = s0.replies ∧ s.flag .frameBusy = s0.flag .frameBusy)
      (FrameEnds s0 f0) where
  cfg s h := h.1.cfg
  emit16 s vals i addr h := ⟨h.1.trans (frameStable_emit s f0 _), by simp [h.2.1], by simp [h.2.2]⟩
  emit8 s vals i addr h := ⟨h.1.trans (frameStable_emit s f0 _), by simp [h.2.1], by simp [h.2.2]⟩
  full16 s vals i addr h _ := ⟨(h.1.trans (frameStable_emit s f0 _)).trans (frameStable_submitF _ f0), by simp [h.2.1],
    by rw [State.submitF_flag _ (by decide)]; simp [h.2.2]⟩
  full8 s vals i addr h _ := ⟨(h.1.trans (frameStable_emit s f0 _)).trans (frameStable_submitF _ f0), by simp [h.2.1],
    by rw [State.submitF_flag _ (by decide)]; simp [h.2.2]⟩
  take s h _ := ⟨h.1.trans (frameStable_takeSlot s f0), by simp [h.2.1], by simp [h.2.2]⟩
  count s f hf _ h := ⟨h.1.trans (frameStable_countLine s hf), by simp [h.2.1], by simp [h.2.2]⟩
  prepare s f hf _ _ h := ⟨h.1.trans (frameStable_prepareLine s hf), by simp [h.2.1], by simp [h.2.2]⟩
  lost s h := ⟨h.1.trans (frameStable_lost s f0), by simp [h.2.1], by simp [h.2.2]⟩
  slotless _ h _ := h
  slotted _ h _ := h
  wait s f hf h h0 := by
    refine ⟨h.1.trans ?_, .inr ⟨by simp [h.2.1], by simp [h.2.2], f, rfl, hf, by simpa using h0⟩⟩
    constructor <;> first | simp | exact .of_eq (by simp) (by simp)
  ends s t h ht := by
    have h : FrameStable s0 f0 s ∧ s.replies = s0.replies ∧ s.flag .frameBusy = s0.flag .frameBusy := h.elim id id
    obtain ⟨h1, h2, h3, h4, h5⟩ := frameStable_endOfFrame f0 ht
    exact ⟨h.1.trans h1, .inl ⟨by rw [h2, h.2.1], h3, h4, h5⟩⟩

/-- A frame operation from its first line. -/
theorem frameLoop_ends {source : FrameSource} {x0 x1 y0 y1 : Nat} {s t : State}
    (h : frameLoop source x0 x1 y0 y1 s = .next t) :
    FrameEnds (s.setFlag .frameBusy true) ⟨source, x0, x1, y0, y1, 0, .line⟩ t :=
  (frameStable_rule (s.setFlag .frameBusy true) ⟨source, x0, x1, y0, y1, 0, .line⟩).runLines (y1 - y0)
    ⟨rfl, rfl, rfl, rfl⟩ le_rfl (.inl ⟨.refl _ _, rfl, rfl⟩) h

/-- A frame operation that goes on after its wait. -/
theorem resumeFrame_ends {f : FrameCtx} {s t : State} (ha : s.pool.avail ≠ 0) (h : resumeFrame f s = .next t) :
    FrameEnds s f t :=
  (frameStable_rule s f).resumeFrame ⟨rfl, rfl, rfl, rfl⟩ ⟨.refl _ _, rfl, rfl⟩ ha h

/-- A frame operation whose wait times out. -/
theorem timeoutFrame_ends {f : FrameCtx} {s t : State} (h : timeoutFrame f s = .next t) : FrameEnds s f t :=
  (frameStable_rule s f).timeoutFrame ⟨rfl, rfl, rfl, rfl⟩ ⟨.refl _ _, rfl, rfl⟩ h

/-! ## MODESET from its acquire on -/

/-- MODESET's geometry check turns away exactly the modes of 46_frame_loop.md R233. -/
theorem ModeRegs.fits_eq_false (m : ModeRegs) (split : Bool) : m.fits split = false ↔ m.Rejected split := by
  unfold ModeRegs.fits ModeRegs.inRange ModeRegs.Rejected
  cases split <;> simp only [List.all_cons, List.all_nil, List.mem_cons, List.not_mem_nil, Bool.and_eq_false_iff,
    exists_eq_or_imp, decide_eq_false_iff_not, Bool.not_eq_false', Bool.or_eq_true, decide_eq_true_eq, not_le, Bool.not_true,
    Bool.not_false, Bool.false_or, Bool.true_or] <;> simp [or_assoc]

/-- Everything MODESET can do once a slot is free: the mode is latched only where the stream was accepted. -/
theorem modesetTake_cases {m : ModeRegs} {split : Bool} {s t : State} (h : modesetTake m split s = .next t) :
    (∃ k, (s.takeSlot.emit (modesetStream s.cfg m split)).pool.held = some k ∧
      ((s.nextChoice = true ∧ t = (((s.takeSlot.emit (modesetStream s.cfg m split)).submitSlot k).latchMode m split).replied .ok .none) ∨
       (s.nextChoice = false ∧ t = ((s.takeSlot.emit (modesetStream s.cfg m split)).submitSlot k).replied .reject .none))) ∨
    ((s.takeSlot.emit (modesetStream s.cfg m split)).pool.held = none ∧
      t = (s.takeSlot.emit (modesetStream s.cfg m split)).replied .noSlot .none) := by
  have hc : (s.takeSlot.emit (modesetStream s.cfg m split)).nextChoice = s.nextChoice := by
    simp [State.nextChoice, State.nextDraw]
  unfold modesetTake at h
  simp only [hc] at h
  split at h
  · next k hk =>
    refine .inl ⟨k, hk, ?_⟩
    cases hn : s.nextChoice
    · rw [hn] at h
      exact .inr ⟨rfl, by simpa using h⟩
    · rw [hn] at h
      exact .inl ⟨rfl, by simpa using h⟩
  · next hk => exact .inr ⟨hk, by simpa using h⟩

end Sys2Proof.Machine
end

