-- ==== Sys2Proof/Laws/PoolRuns.lean ====
section
/-!
SUPPORT. The pool through a whole stretch of work: every operation a frame operation or MODESET is made of keeps the pool sound and
records no fault (10_state.md R38, 60_exceptions.md R257).
-/

namespace Sys2Proof.Machine

/-! ## The pool part of a state -/

/-- A legal configuration and a sound pool. -/
structure PoolOk (s : State) : Prop where
  config : s.cfg.Valid
  pool : s.pool.Sound s.cfg.slotCount s.cfg.slotBytes

theorem PoolOk.free {s : State} (h : PoolOk s) (ha : s.pool.avail ≠ 0) : ∃ k rest, s.pool.freeq = k :: rest := by
  obtain ⟨a, -⟩ := (Pool.holdsR38_iff _).mp h.pool.r38
  cases hq : s.pool.freeq with
  | nil => simp [hq] at a; exact absurd (BitVec.eq_of_toNat_eq (by simpa using a)) ha
  | cons k rest => exact ⟨k, rest, rfl⟩

theorem PoolOk.of_eq {s t : State} (h : PoolOk s) (hc : t.cfg = s.cfg) (hp : t.pool = s.pool) : PoolOk t :=
  ⟨hc ▸ h.config, by rw [hc, hp]; exact h.pool⟩

theorem PoolOk.held_lt {s : State} (h : PoolOk s) {k : Nat} (hk : s.pool.held = some k) : k < s.pool.slots.length :=
  ((Pool.holdsR38_iff _).mp h.pool.r38).2.2.2.2 k hk

theorem PoolOk.emit {s : State} (h : PoolOk s) (bs : List Byte) : PoolOk (s.emit bs) := by
  rcases s.emit_cases bs with ⟨k, hk, hfit, e⟩ | e
  · rw [e]; exact ⟨h.config, h.pool.write (fun _ => ⟨rfl, rfl⟩) (by bv_omega) hk⟩
  · rw [e]; exact h.of_eq (by simp) (by simp)

theorem PoolOk.take {s : State} (h : PoolOk s) (hh : s.pool.held = none) (ha : s.pool.avail ≠ 0) : PoolOk s.takeSlot := by
  obtain ⟨k, rest, hq⟩ := h.free ha
  rw [State.takeSlot_eq hq]; exact ⟨h.config, h.pool.take hq hh⟩

theorem PoolOk.release {s : State} (h : PoolOk s) {k : Nat} (hh : s.pool.held = some k) : PoolOk (s.releaseSlot k) :=
  ⟨h.config, h.pool.drop hh⟩

theorem PoolOk.complete {s : State} (h : PoolOk s) (k : Nat) : PoolOk (s.completeSlot k) := by
  rcases s.completeSlot_cases k with ⟨slot, hk, hs, e⟩ | ⟨-, e⟩
  · rw [e]; exact ⟨h.config, h.pool.giveBack hk (by rw [hs]; decide) (.inl ⟨hs, rfl, rfl⟩)⟩
  · rw [e]; exact h.of_eq (by simp) (by simp)

theorem PoolOk.submit {s : State} (h : PoolOk s) {k : Nat} (hh : s.pool.held = some k) (hw : s.pool.wptr ≠ 0) :
    PoolOk (s.submitSlot k) := by
  have hp : (s.afterDraw).pool = s.pool := by simp
  have hc : (s.afterDraw).cfg = s.cfg := by simp
  unfold State.submitSlot
  cases s.nextChoice
  · rw [State.submitWith_reject, State.launch_complete (by rw [hp]; exact h.held_lt hh)]
    refine ⟨by simpa using h.config, ?_⟩
    simp only [State.setFlag_cfg, State.setFlag_pool, hp, hc]
    exact h.pool.drop hh
  · rw [State.submitWith_accept]
    refine ⟨by simpa using h.config, ?_⟩
    simp only [State.countSent_cfg, State.countSent_pool, State.launchSlot, hp, hc]
    exact h.pool.launch hh hw

/-! ## A stretch of work in a session -/

/-- Within a session with configuration `c`: the pool is sound and the marks are still `m`. -/
structure PoolRun (c : Params) (m : Marks) (s : State) : Prop where
  cfg : s.cfg = c
  ok : PoolOk s
  marks : s.marks = m
  attached : s.flag .attached = true

/-- A stretch of work while a slot is held. -/
def WithSlot (c : Params) (m : Marks) (s : State) : Prop := PoolRun c m s ∧ ∃ k, s.pool.held = some k

/-- A stretch of work without a slot. -/
def WithoutSlot (c : Params) (m : Marks) (s : State) : Prop := PoolRun c m s ∧ s.pool.held = none

variable {c : Params} {m : Marks}

theorem PoolRun.of_eq {s t : State} (h : PoolRun c m s) (hc : t.cfg = s.cfg) (hp : t.pool = s.pool) (hm : t.marks = s.marks)
    (hf : t.flag .attached = s.flag .attached) : PoolRun c m t :=
  ⟨hc.trans h.cfg, h.ok.of_eq hc hp, hm.trans h.marks, hf.trans h.attached⟩

theorem PoolRun.emit {s : State} (h : PoolRun c m s) {k : Nat} (hk : s.pool.held = some k) {bs : List Byte}
    (hf : s.pool.wptr.toNat + bs.length ≤ s.cfg.slotBytes) : WithSlot c m (s.emit bs) := by
  have e := State.emit_eq hk hf
  exact ⟨⟨by simp [h.cfg], h.ok.emit bs, by rw [e]; exact h.marks, by simp [h.attached]⟩, k, by rw [e]; exact hk⟩

theorem PoolRun.take {s : State} (h : PoolRun c m s) (hh : s.pool.held = none) (ha : s.pool.avail ≠ 0) :
    WithSlot c m s.takeSlot := by
  obtain ⟨k, rest, hq⟩ := h.ok.free ha
  exact ⟨⟨by simp [h.cfg], h.ok.take hh ha, by rw [State.takeSlot_eq hq]; exact h.marks, by simp [h.attached]⟩, k, by
    rw [State.takeSlot_eq hq]⟩

theorem PoolRun.submit {s : State} (h : PoolRun c m s) {k : Nat} (hh : s.pool.held = some k) (hw : s.pool.wptr ≠ 0) :
    WithoutSlot c m (s.submitSlot k) := by
  refine ⟨⟨by simp [h.cfg], h.ok.submit hh hw, ?_, by simp [State.submitSlot_flag, h.attached]⟩, State.submitSlot_held s k⟩
  unfold State.submitSlot
  cases s.nextChoice
  · rw [State.submitWith_reject, State.launch_complete (by simpa using h.ok.held_lt hh)]
    simp [h.marks]
  · rw [State.submitWith_accept]; simp [State.launchSlot, h.marks]

theorem PoolRun.release {s : State} (h : PoolRun c m s) {k : Nat} (hh : s.pool.held = some k) :
    WithoutSlot c m (s.releaseSlot k) :=
  ⟨⟨h.cfg, h.ok.release hh, h.marks, h.attached⟩, rfl⟩

theorem PoolRun.replied {s : State} (h : PoolRun c m s) (st : StatusCode) (r : Result) : PoolRun c m (s.replied st r) :=
  ⟨h.cfg, ⟨h.ok.config, h.ok.pool⟩, h.marks, h.attached⟩

/-- EncodeRun's bytes go into the held slot. -/
theorem WithSlot.encode {α : Type} [DecidableEq α] {ch : Channel α} (hw : ch.Wide) (hb : ch.bpp = 1 ∨ ch.bpp = 2) {s : State}
    (h : WithSlot c m s) (vals : List α) (i : Nat) (addr : DevAddr) :
    WithSlot c m (s.emit (encodeRun c ch s.pool.wptr.toNat vals i addr).bytes) := by
  obtain ⟨h, k, hk⟩ := h
  have hv := h.ok.config
  rw [h.cfg] at hv
  have hwp := h.ok.pool.wptrLe
  have hf := encodeRun_fits hv ch hw hb (wptr := s.pool.wptr.toNat) (by rw [h.cfg] at hwp; exact hwp) vals i addr
  exact h.emit hk (by rw [h.cfg]; exact hf.1)

/-- A full slot is submitted. -/
theorem WithSlot.encode_full {α : Type} [DecidableEq α] {ch : Channel α} (hw : ch.Wide) (hb : ch.bpp = 1 ∨ ch.bpp = 2)
    {s : State} (h : WithSlot c m s) (vals : List α) (i : Nat) (addr : DevAddr)
    (hfull : (encodeRun c ch s.pool.wptr.toNat vals i addr).full = true) :
    WithoutSlot c m (s.emit (encodeRun c ch s.pool.wptr.toNat vals i addr).bytes).submitF := by
  obtain ⟨h, k, hk⟩ := h
  have hv := h.ok.config
  rw [h.cfg] at hv
  have hwp := h.ok.pool.wptrLe
  have hf := encodeRun_fits hv ch hw hb (wptr := s.pool.wptr.toNat) (by rw [h.cfg] at hwp; exact hwp) vals i addr
  have hfit : s.pool.wptr.toNat + (encodeRun c ch s.pool.wptr.toNat vals i addr).bytes.length ≤ s.cfg.slotBytes := by
    rw [h.cfg]; exact hf.1
  obtain ⟨he, k', hk'⟩ := h.emit hk hfit
  unfold State.submitF
  rw [hk']
  refine he.submit hk' ?_
  rw [State.emit_eq hk hfit]
  have h1 := hf.2 hfull
  have h2 := hv.2.2.2.2.2.1
  simp only
  bv_omega

/-- The end of a frame. -/
theorem PoolRun.ends {s t : State} (h : PoolRun c m s) (ht : endOfFrame s = .next t) : WithoutSlot c m t := by
  obtain ⟨u, hu, rfl⟩ := endOfFrame_cases ht
  have : WithoutSlot c m u := by
    rcases hu with ⟨h0, rfl⟩ | ⟨k, hk, ⟨hw, rfl⟩ | ⟨-, rfl⟩⟩
    · exact ⟨h, h0⟩
    · exact h.submit hk hw
    · exact h.release hk
  refine ⟨this.1.of_eq (by simp) (by simp) (by simp) ?_, by simpa using this.2⟩
  show State.flag (State.setFlag _ _ _) _ = _
  simp

/-- A frame operation between two wait points keeps the pool sound and records no fault. -/
theorem poolRun_rule (c : Params) (m : Marks) (f0 : FrameCtx) :
    FrameRule c f0 (WithSlot c m) (WithoutSlot c m) (WithoutSlot c m) where
  cfg s h := h.1.cfg
  emit16 s vals i addr h := h.encode (channel16_wide c) (.inr rfl) vals i addr
  emit8 s vals i addr h := h.encode (channel8_wide c) (.inl rfl) vals i addr
  full16 s vals i addr h := h.encode_full (channel16_wide c) (.inr rfl) vals i addr
  full8 s vals i addr h := h.encode_full (channel8_wide c) (.inl rfl) vals i addr
  take s h ha := h.1.take h.2 ha
  count s f _ _ h := ⟨h.1.of_eq (by simp) (by simp) (by simp) (by simp), by simpa using h.2⟩
  prepare s f _ _ _ h := ⟨h.1.of_eq (by simp) (by simp) (by simp) (by simp), by simpa using h.2⟩
  lost s h := ⟨h.1.of_eq (by simp) (by simp) (by simp) (by simp), by simpa using h.2⟩
  slotless s h hh := ⟨h.1, hh⟩
  slotted s h hh := absurd h.2 hh
  wait s f _ h _ := ⟨h.1.of_eq (by simp) (by simp) (by simp) (by simp), by simpa using h.2⟩
  ends s t h ht := by rcases h with h | h <;> exact h.1.ends ht

/-- A frame operation from its first line. -/
theorem frameLoop_pool {source : FrameSource} {x0 x1 y0 y1 : Nat} {s t : State} (h : PoolRun c m s) (hh : s.pool.held = none)
    (ht : frameLoop source x0 x1 y0 y1 s = .next t) : WithoutSlot c m t :=
  (poolRun_rule c m ⟨source, x0, x1, y0, y1, 0, .line⟩).runLines (y1 - y0) ⟨rfl, rfl, rfl, rfl⟩ le_rfl
    (.inr ⟨h.of_eq (by simp) (by simp) (by simp) (by simp), by simpa using hh⟩) ht

/-- MODESET from its acquire on. -/
theorem modesetTake_pool {mode : ModeRegs} {split : Bool} {s t : State} (h : PoolRun c m s) (hh : s.pool.held = none)
    (ha : s.pool.avail ≠ 0) (ht : modesetTake mode split s = .next t) : WithoutSlot c m t := by
  obtain ⟨hp, k, hk⟩ := h.take hh ha
  have h144 : 144 ≤ s.cfg.slotBytes := h.ok.config.2.2.2.2.2.1.1
  have hfit : s.takeSlot.pool.wptr.toNat + (modesetStream s.cfg mode split).length ≤ s.takeSlot.cfg.slotBytes := by simpa using h144
  obtain ⟨he, k', hk'⟩ := hp.emit hk hfit
  have hw : (s.takeSlot.emit (modesetStream s.cfg mode split)).pool.wptr ≠ 0 := by rw [State.emit_eq hk hfit]; simp
  rcases modesetTake_cases ht with ⟨k2, hk2, ⟨-, rfl⟩ | ⟨-, rfl⟩⟩ | ⟨h0, -⟩
  · have hs := he.submit hk2 hw
    exact ⟨(hs.1.of_eq (by simp) (by simp) (by simp) (by simp)).replied _ _, by simp⟩
  · have hs := he.submit hk2 hw
    exact ⟨hs.1.replied _ _, by simp⟩
  · rw [hk'] at h0; cases h0

/-- The pool part of the invariant. -/
theorem PoolInv.run {s : State} (h : PoolInv s) (ha : s.flag .attached = true) : PoolRun s.cfg s.marks s :=
  ⟨rfl, ⟨h.config, h.countable, h.config.2.2.2.2.2.1.2, h.size ha, h.r38, h.wptrLe, h.wptrNone, h.lengths⟩, rfl, ha⟩

/-- The invariant from its pool part. -/
theorem PoolRun.inv {s : State} (h : PoolRun c m s) (hp : s.pending ≠ none → s.pool.held = none) : PoolInv s :=
  ⟨h.ok.config, h.ok.pool.countable, by rw [h.attached]; simp, fun _ => h.ok.pool.size, h.ok.pool.r38, h.ok.pool.wptrLe, h.ok.pool.wptrNone,
    fun hh => ⟨h.attached, hp hh⟩, h.ok.pool.lengths⟩

end Sys2Proof.Machine
end

