-- ==== Sys2Proof/Tests/Slice0.lean ====
section
/-!
SUPPORT. Tests: ill-formed terms, words written out from the spec, small steps whose results come from 95_test_vectors.md and the
examples of the rules, and a witness of the hypotheses of every statement that has some.
-/

namespace Sys2Proof.Tests

open Sys2Proof Sys2Proof.Machine

set_option Elab.async false -- each theorem waits for the one before it: few threads, little memory

/-! ## States -/

/-- Right after ATTACH, the next choices ACCEPT. -/
def session : State := { State.reset.createSession with draws := [1, 0] }

/-- A held slot, nothing written. -/
def holding : State := session.takeSlot

/-- A held slot with `AF 20 FF 00` in it. -/
def filled : State := holding.emit [0xAF, 0x20, 0xFF, 0x00]

/-- That slot in flight. -/
def flying : State := filled.launchSlot 0

/-- One slot, in flight: AVAIL = 0. -/
def full : State :=
  let s : State := { ({ State.reset with cfg := { Params.default with slotCount := 1 } }).createSession with draws := [1, 0] }
  (s.takeSlot.emit [0xAF, 0x20, 0xFF, 0x00]).launchSlot 0

/-- The bytes of a line of the scenario (95_test_vectors.md section 1.1). -/
def grey4 : List Byte := [0xC8, 0x80, 0, 0, 0xC8, 0x80, 0, 0, 0xC8, 0x80, 0, 0, 0xC8, 0x80, 0, 0]

/-- The scenario's framebuffer. -/
def redTail : List Byte := [0xC8, 0x80, 0, 0, 0xC8, 0x80, 0, 0, 0, 0, 0xFF, 0, 0, 0, 0xFF, 0]

/-- The scenario before RENDER_FRAME: a 4x1 display in legacy mode, the backing buffer grey, the next choice ACCEPT, then a
CNT_CPU increment of 0. -/
def scenario : State := { session with
  status := 0x0000006C
  link := 1
  fbReg := ⟨16, 32, 0, 0, 4, 1⟩
  mode := ⟨4, 1, 39721, 1, 1, 1, 1, 1, 1, 60⟩
  base8 := 8
  backing := ⟨Memory.storeList [] 0 grey4, 9⟩
  hostFb := Memory.storeList [] 0 redTail
  draws := [1, 0] }

/-- The same with FB equal to the backing buffer. -/
def still : State := { scenario with hostFb := Memory.storeList [] 0 grey4 }

/-- A frame operation of three lines that waits for a slot before its first line. -/
def waitingFrame (t y : Nat) : State := { full with
  status := 0x00000026
  link := 1
  mode := ⟨4, 3, 39721, 1, 1, 1, 1, 1, 1, 60⟩
  pending := some (.frame ⟨.fill 0, 0, 4, y, 3, t, .line⟩) }

/-- What HOST receives last from one request. -/
def reply (i : Instr) (s : State) : Option Reply :=
  match exec i s with
  | .next t => t.replies.getLast?
  | _ => none

/-- The bytes in the held slot and the status after one request. -/
def written (i : Instr) (s : State) : Option (List Byte × Option StatusCode) :=
  match exec i s with
  | .next t => (t.pool.held.map fun k => t.pool.slotBytes k t.pool.wptr.toNat).map fun bs => (bs, t.replies.getLast?.map Reply.status)
  | _ => none

/-- FREEQ, AVAIL, HELD, POOL_INFLIGHT and the status after one request. -/
structure PoolView where
  freeq : List Nat
  avail : Word
  held : Option Nat
  inflight : Nat
  status : Option StatusCode
deriving DecidableEq

/-- That view. -/
def poolAfter (i : Instr) (s : State) : Option PoolView :=
  match exec i s with
  | .next t => some ⟨t.pool.freeq, t.pool.avail, t.pool.held, t.pool.inflight, t.replies.getLast?.map Reply.status⟩
  | _ => none

/-- One value of the state after one request. -/
def peek {α : Type} (i : Instr) (s : State) (f : State → α) : Option α :=
  match exec i s with
  | .next t => some (f t)
  | _ => none

/-! ## Ill-formed terms -/

/-- A list operand has no longest length (30_encoding.md R90). -/
theorem test_wellformed_long_list (v : Byte) : (Instr.diff (List.replicate (2 ^ 32) v) []).wellFormed = true := rfl
theorem test_illformed_run16 : (Instr.wRun16 0 0 []).wellFormed = false ∧
    (Instr.wRun16 0 0 (List.replicate 256 0)).wellFormed = false ∧ (Instr.wRun16 0 0 [0]).wellFormed = true := by
  decide +kernel
theorem test_illformed_run8 : (Instr.wRun8 0 0 []).wellFormed = false ∧
    (Instr.wRun8 0 0 (List.replicate 256 0)).wellFormed = false ∧ (Instr.wRun8 0 0 [0]).wellFormed = true := by
  decide +kernel
theorem test_illformed_pad : (Instr.wPad 0).wellFormed = false := by decide

/-! ## Decoding written-out words -/

/-- The instruction a record stands for under the default parameters. -/
def read (bs : List Byte) : Option Instr := (decode Params.default bs).toOption

theorem test_decode_pixel_family :
    read [0x01, 0x78, 0x56, 0x34, 0x12] = some (.split 0x12345678) ∧
    read [0x02, 2, 7, 8, 1, 9] = some (.diff [7, 8] [9]) ∧
    read [0x03, 0x04, 0x03, 0x02, 0x01, 0x08, 0x07, 0x06, 0x05] = some (.blendpix 0x01020304 0x05060708) ∧
    read [0x04, 1, 0, 0, 0, 2, 0, 0, 0, 1, 0x78, 0x56, 0x34, 0x12] = some (.blendline 1 2 [0x12345678]) ∧
    read [0x05, 0x34, 0x12] = some (.lfsr16 0x1234) := by
  decide +kernel

theorem test_decode_encoder_family :
    read [0x06, 2, 0x34, 0x12, 0x78, 0x56, 1, 0, 0, 0, 0x03, 0x02, 0x01] =
      some (.enc16 [0x1234, 0x5678] 1 0x010203) ∧
    read [0x07, 2, 0x34, 0x12, 1, 0, 0, 0, 0x03, 0x02, 0x01] = some (.enc8 [0x34, 0x12] 1 0x010203) := by
  decide +kernel

theorem test_decode_register_family :
    read [0x10, 0xFF, 0x01] = some (.regw 0xFF 0x01) ∧
    read [0x11, 0x0F, 0x80, 0x02] = some (.regw16 0x0F 0x0280) ∧
    read [0x12, 0x1B, 0xAB, 0x13] = some (.regw16be 0x1B 5035) ∧
    read [0x13, 0x01, 0x90, 0x00] = some (.regwl 0x01 144) ∧
    read [0x14] = some .vlock ∧ read [0x15] = some .vunlock ∧
    read [0x16, 0x01] = some (.setdepth true) ∧
    read [0x17, 0x03, 0x02, 0x01] = some (.setbase16 0x010203) ∧
    read [0x18, 0x00, 0x60, 0x09] = some (.setbase8 0x096000) ∧
    read [0x19, 1, 0, 0, 0, 2, 0, 0, 0, 3, 0, 0, 0, 4, 0, 0, 0, 5, 0, 0, 0, 6, 0, 0, 0, 7, 0, 0, 0, 8, 0, 0, 0, 9, 0, 0, 0] =
      some (.settiming 1 2 3 4 5 6 7 8 9) ∧
    read [0x1A, 0x04] = some (.setblank 4) := by
  decide +kernel

theorem test_decode_pool_family :
    read [0x20] = some .acquire ∧ read [0x21] = some .submit ∧ read [0x22] = some .release ∧
    read [0x2F, 0x03] = some (.complete 3) ∧ read [0x2F, 0x83, 0x02] = some (.complete 259) := by
  decide +kernel

theorem test_decode_frame_family :
    read [0x30, 1, 0, 0, 0, 2, 0, 0, 0, 3, 0, 0, 0, 4, 0, 0, 0] = some (.renderFrame 1 2 3 4) ∧
    read [0x31, 0xC8, 0x80, 0x00, 0x00] = some (.fillFrame 0x000080C8) := by
  decide +kernel

theorem test_decode_config_family :
    read [0x40, 0x08, 0, 0, 0, 0x01, 0, 0, 0] = some (.cfgw 0x008 1) ∧
    read [0x41, 0x90, 0x01, 0, 0] = some (.cfgr 0x190) ∧
    read ([0x42, 1, 0, 0, 0, 2, 0, 0, 0, 3, 0, 0, 0, 4, 0, 0, 0, 5, 0, 0, 0, 6, 0, 0, 0, 7, 0, 0, 0, 8, 0, 0, 0] ++
      [9, 0, 0, 0, 10, 0, 0, 0, 1]) = some (.modeset 1 2 3 4 5 6 7 8 9 10 true) ∧
    read [0x43, 16, 0, 0, 0, 32, 0, 0, 0, 1, 0, 0, 0, 2, 0, 0, 0, 3, 0, 0, 0, 4, 0, 0, 0, 0] =
      some (.setfb 16 32 1 2 3 4 false) ∧
    read [0x44, 0xFF, 0xFF, 0xFF, 0xFF, 2, 0, 0, 0, 1, 0, 0, 0, 1, 0, 0, 0, 32, 0, 0, 0, 1, 1, 5, 0, 0, 0] =
      some (.setcursor 0xFFFFFFFF 2 1 1 32 true [5]) ∧
    read [0x48] = some .attach ∧ read [0x49] = some .detach := by
  decide +kernel

/-- 30_encoding.md R94 to R96; the two run listings are the examples of 42_run_encoder.md R140 and R145. -/
theorem test_decode_wire_family :
    read [0xAF, 0x6B, 0x00, 0x00, 0x04, 0x01, 0x01, 0xF8, 0x00] = some (.wRun16 4 1 [0xF800]) ∧
    read [0xAF, 0x63, 0x10, 0x00, 0x00, 0x04, 0x00, 1, 2, 1, 2] = some (.wRun8 0x100000 0 [1, 2, 1, 2]) ∧
    read [0xAF, 0x20, 0xFF, 0x00] = some (.wRegw 0xFF 0x00) ∧
    read [0xAF] = some (.wPad 1) ∧ read [0xAF, 0xAF, 0xAF] = some (.wPad 3) := by
  decide +kernel

/-- Reserved codes, wrong counts of operands, a u1 of 2, an unknown wire opcode (30_encoding.md R92, R99). -/
theorem test_decode_rejects :
    read [] = none ∧ read [0x00] = none ∧ read [0x08] = none ∧ read [0x0F] = none ∧ read [0x1B] = none ∧ read [0x23] = none ∧
    read [0x2E] = none ∧ read [0x32] = none ∧ read [0x3F] = none ∧ read [0x45] = none ∧ read [0x47] = none ∧
    read [0x4A] = none ∧ read [0xFF] = none ∧ read [0x14, 0x00] = none ∧ read [0x10, 0xFF] = none ∧
    read [0x16, 0x02] = none ∧ read [0xAF, 0x21, 0, 0] = none ∧ read [0xAF, 0xAF, 0x20] = none := by
  decide +kernel

/-- The table's numbers: a request code, a register write with its two operand bytes of zeros, a run command (R91, R94, R95). -/
theorem test_table_words :
    decodeTableWord 8 0x48 = some .attach ∧ decodeTableWord 8 0x01 = some (.split 0) ∧
    decodeTableWord 32 0xAF200000 = some (.wRegw 0 0) ∧ decodeTableWord 8 0xAF = some (.wPad 1) := by
  decide +kernel

/-! ## Datapath -/

/-- 95_test_vectors.md section 2.1. -/
theorem test_split :
    reply (.split 0x12345678) session = some ⟨.ok, .split 0x32AF 0x90⟩ ∧
    reply (.split 0x00F8FCF8) session = some ⟨.ok, .split 0xFFFF 0x00⟩ := by decide +kernel

/-- 95_test_vectors.md section 2.2, L = 12 with a partial last word, and the scenario of section 1.1. -/
theorem test_diff :
    reply (.diff ((List.replicate 12 0).set 10 1) (List.replicate 12 0)) session = some ⟨.ok, .diff 8 4 8⟩ ∧
    reply (.diff redTail grey4) session = some ⟨.ok, .diff 8 8 8⟩ := by decide +kernel
theorem test_diff_ends :
    reply (.diff ((List.replicate 24 0).set 3 1) (List.replicate 24 0)) session = some ⟨.ok, .diff 0 8 16⟩ ∧
    reply (.diff [] []) session = some ⟨.ok, .diff 0 0 0⟩ ∧
    reply (.diff (List.replicate 8 0) (List.replicate 4 0)) session = some ⟨.badArg, .none⟩ := by decide +kernel

/-- 95_test_vectors.md section 2.4. -/
theorem test_blendpix :
    reply (.blendpix 0x00102030 0x40FF0000) session = some ⟨.ok, .pixel 0x004B1723⟩ ∧
    reply (.blendpix 0x80808080 0x7F000000) session = some ⟨.ok, .pixel 0x80404040⟩ ∧
    reply (.blendpix 0x12345678 0xFFABCDEF) session = some ⟨.ok, .pixel 0x12ABCDEF⟩ := by decide +kernel

/-- 95_test_vectors.md section 2.4: a sprite at column -1. -/
theorem test_blendline :
    let s := { session with cursor := ⟨0xFFFFFFFF, 0, 2, 1, 32, 1, [0xFF0000FF, 0xFF00FF00]⟩ }
    reply (.blendline 0 0 [0, 0]) s = some ⟨.ok, .pixels [0x0000FF00, 0]⟩ ∧
    reply (.blendline 1 0 [0, 0]) s = some ⟨.ok, .pixels [0, 0]⟩ := by decide +kernel

/-- 95_test_vectors.md section 2.5. -/
theorem test_lfsr :
    reply (.lfsr16 0) session = some ⟨.ok, .lfsr 0xFFFF⟩ ∧ reply (.lfsr16 5) session = some ⟨.ok, .lfsr 0xFFE5⟩ ∧
    reply (.lfsr16 144) session = some ⟨.ok, .lfsr 0x3260⟩ ∧ reply (.lfsr16 799) session = some ⟨.ok, .lfsr 0x07B3⟩ := by
  decide +kernel

/-! ## Run encoder (95_test_vectors.md section 2.3) -/

theorem test_enc16 :
    reply (.enc16 [1, 2, 2, 2, 3] 0 0) holding = some ⟨.ok, .enc 5 0x00000A false⟩ ∧
    (written (.enc16 [1, 2, 2, 2, 3] 0 0) holding).map Prod.fst =
      some [0xAF, 0x6B, 0, 0, 0, 2, 2, 0, 1, 0, 2, 0xAF, 0x6B, 0, 0, 8, 1, 0, 0, 3] := by decide +kernel
theorem test_enc16_boundary :
    let s := { holding with cfg := { Params.default with slotBytes := 144 }, pool := { holding.pool with wptr := 134 } }
    reply (.enc16 [1, 2, 3] 0 0) s = some ⟨.ok, .enc 0 0 true⟩ ∧
    peek (.enc16 [1, 2, 3] 0 0) s (fun t => t.pool.wptr) = some 144 ∧
    reply (.enc16 [1, 2] 3 0) holding = some ⟨.badArg, .none⟩ := by decide +kernel
theorem test_enc8 :
    written (.enc8 [0, 0, 5] 0 0x100000) holding =
      some ([0xAF, 0x63, 0x10, 0, 0, 1, 1, 0, 0xAF, 0x63, 0x10, 0, 2, 1, 0, 5], some .ok) ∧
    reply (.enc8 [1] 0 0) session = some ⟨.noSlot, .none⟩ := by decide +kernel
theorem test_enc8_saturates :
    written (.enc8 (List.replicate 300 0x11) 0 0) holding =
      some ([0xAF, 0x63, 0, 0, 0, 1, 0xFE, 0x11, 0xAF, 0x63, 0, 0, 0xFF, 1, 0x2C, 0x11], some .ok) := by decide +kernel

/-! ## Register commands (95_test_vectors.md section 2.6) -/

theorem test_regw :
    written (.regw 0xFF 0x00) holding = some ([0xAF, 0x20, 0xFF, 0x00], some .ok) ∧
    peek (.regw 1 2) { holding with pool := { holding.pool with wptr := 65021 } } (fun t => (t.replies, t.pool.wptr)) =
      some ([⟨.full, .none⟩], 65021) ∧
    reply (.regw 1 2) session = some ⟨.noSlot, .none⟩ := by decide +kernel
theorem test_regw16 : written (.regw16 0x0F 0x0280) holding =
    some ([0xAF, 0x20, 0x0F, 0x02, 0xAF, 0x20, 0x10, 0x80], some .ok) := by decide +kernel
theorem test_regw16be : written (.regw16be 0x1B 5035) holding =
    some ([0xAF, 0x20, 0x1B, 0xAB, 0xAF, 0x20, 0x1C, 0x13], some .ok) := by decide +kernel
theorem test_regwl : written (.regwl 0x01 144) holding =
    some ([0xAF, 0x20, 0x01, 0x32, 0xAF, 0x20, 0x02, 0x60], some .ok) := by decide +kernel
theorem test_lock :
    written .vlock holding = some ([0xAF, 0x20, 0xFF, 0x00], some .ok) ∧
    written .vunlock holding = some ([0xAF, 0x20, 0xFF, 0xFF], some .ok) := by decide +kernel
theorem test_setdepth : written (.setdepth true) holding = some ([0xAF, 0x20, 0x00, 0x01], some .ok) := by decide +kernel
theorem test_setbase16 : written (.setbase16 0x010203) holding =
    some ([0xAF, 0x20, 0x20, 0x01, 0xAF, 0x20, 0x21, 0x02, 0xAF, 0x20, 0x22, 0x03], some .ok) := by decide +kernel
theorem test_setbase8 : written (.setbase8 0x096000) holding =
    some ([0xAF, 0x20, 0x26, 0x09, 0xAF, 0x20, 0x27, 0x60, 0xAF, 0x20, 0x28, 0x00], some .ok) := by decide +kernel
theorem test_setblank :
    written (.setblank 4) holding = some ([0xAF, 0x20, 0x1F, 0x07], some .ok) ∧
    reply (.setblank 5) holding = some ⟨.badArg, .none⟩ := by decide +kernel

/-- 44_register_commands.md R184 for 640x480. -/
theorem test_settiming :
    (written (.settiming 640 480 39721 48 16 33 10 96 2) holding).map (fun x => (x.1.length, x.1.take 8, x.1.drop 96)) =
      some (104, [0xAF, 0x20, 0x01, 0x32, 0xAF, 0x20, 0x02, 0x60], [0xAF, 0x20, 0x1B, 0xAB, 0xAF, 0x20, 0x1C, 0x13]) ∧
    reply (.settiming 640 480 0 48 16 33 10 96 2) holding = some ⟨.badArg, .none⟩ := by decide +kernel

/-! ## Slot pool (95_test_vectors.md section 2.7) -/

theorem test_acquire :
    poolAfter .acquire session = some ⟨[1, 2, 3], 3, some 0, 0, some .ok⟩ ∧
    poolAfter .acquire holding = some ⟨[1, 2, 3], 3, some 0, 0, some .slotHeld⟩ := by decide +kernel
theorem test_acquire_waits :
    peek .acquire full (fun t => t.pending) = some (some .acquire) := by decide +kernel
theorem test_submit :
    poolAfter .submit filled = some ⟨[1, 2, 3], 3, none, 1, some .ok⟩ ∧
    peek .submit filled (fun t => (t.events, t.counters.sent)) = some ([⟨0, 4, [0xAF, 0x20, 0xFF, 0x00]⟩], 4) ∧
    poolAfter .submit holding = some ⟨[1, 2, 3], 3, some 0, 0, some .badArg⟩ := by decide +kernel
theorem test_submit_reject :
    let s := { filled with draws := [0] }
    poolAfter .submit s = some ⟨[1, 2, 3, 0], 4, none, 0, some .reject⟩ ∧
    peek .submit s (fun t => (t.events, t.counters.sent, t.status)) = some ([], 0, 0x00000021) := by decide +kernel
theorem test_release :
    poolAfter .release holding = some ⟨[1, 2, 3, 0], 4, none, 0, some .ok⟩ ∧
    poolAfter .release flying = some ⟨[1, 2, 3], 3, none, 1, some .noSlot⟩ := by decide +kernel
theorem test_complete :
    poolAfter (.complete 0) flying = some ⟨[1, 2, 3, 0], 4, none, 0, none⟩ ∧
    peek (.complete 2) flying (fun t => t.marks.badComplete) = some true := by decide +kernel

/-! ## Frames -/

/-- Program P1 of 95_test_vectors.md section 3: the scenario's RENDER_FRAME. -/
theorem test_render :
    peek (.renderFrame 0 0 4 1) scenario (fun t => (t.events, t.counters, t.status)) =
      some ([⟨0, 9, [0xAF, 0x6B, 0, 0, 4, 1, 1, 0xF8, 0]⟩], ⟨16, 8, 9, 0⟩, 0x0000006C) ∧
    peek (.renderFrame 0 0 4 1) scenario (fun t => t.backing.readList 0 16) = some redTail := by decide +kernel
theorem test_render_elides :
    peek (.renderFrame 0 0 4 1) still (fun t => (t.events, t.counters.identical, t.pool.freeq)) =
      some ([], 16, [1, 2, 3, 0]) ∧
    reply (.renderFrame 9 0 4 1) scenario = some ⟨.ok, .none⟩ := by decide +kernel

/-- Program P1: FILL_FRAME sends four 0x0419 values and fills the backing buffer. -/
theorem test_fill :
    peek (.fillFrame 0x000080C8) scenario (fun t => (t.events, t.counters)) =
      some ([⟨0, 9, [0xAF, 0x6B, 0, 0, 0, 1, 3, 0x04, 0x19]⟩], ⟨16, 0, 9, 0⟩) ∧
    peek (.fillFrame 0x000080C8) scenario (fun t => t.backing.readList 0 16) = some grey4 := by decide +kernel
theorem test_fill_no_mode :
    reply (.fillFrame 0) (session.setDeviceActive true) = some ⟨.noMode, .none⟩ ∧
    reply (.fillFrame 0) session = some ⟨.inactive, .none⟩ := by decide +kernel

/-! ## Configuration and session (95_test_vectors.md sections 2.8, 2.9) -/

theorem test_cfgw :
    peek (.cfgw 0x008 3) session (fun t => t.link) = some 1 ∧
    peek (.cfgw 0x000 0xFFFFFFFF) { session with status := 0x21 } (fun t => t.status) = some 0x20 ∧
    peek (.cfgw 0x000 0) { session with status := 0x21 } (fun t => t.status) = some 0x21 ∧
    reply (.cfgw 0x010 5) session = some ⟨.badArg, .none⟩ := by decide +kernel
theorem test_cfgr :
    reply (.cfgr 0x194) session = some ⟨.ok, .value 0xFFFFFFFF⟩ ∧ reply (.cfgr 0x190) session = some ⟨.ok, .value 4⟩ ∧
    reply (.cfgr 0x110) session = some ⟨.ok, .value 32⟩ ∧ reply (.cfgr 0x002) session = some ⟨.badArg, .value 0⟩ := by
  decide +kernel
theorem test_cfgr_power_on :
    reply (.cfgr 0x000) State.reset = some ⟨.ok, .value 0⟩ ∧ reply (.cfgr 0x190) State.reset = some ⟨.inactive, .value 0⟩ ∧
    reply .acquire State.reset = some ⟨.inactive, .none⟩ := by decide +kernel

/-- The stream of 44_register_commands.md R187. -/
def stream640 : List Byte :=
  [0xAF, 0x20, 0xFF, 0x00, 0xAF, 0x20, 0x00, 0x01, 0xAF, 0x20, 0x20, 0x00, 0xAF, 0x20, 0x21, 0x00,
   0xAF, 0x20, 0x22, 0x00, 0xAF, 0x20, 0x26, 0x09, 0xAF, 0x20, 0x27, 0x60, 0xAF, 0x20, 0x28, 0x00,
   0xAF, 0x20, 0x01, 0x32, 0xAF, 0x20, 0x02, 0x60, 0xAF, 0x20, 0x03, 0x4D, 0xAF, 0x20, 0x04, 0x28,
   0xAF, 0x20, 0x05, 0x60, 0xAF, 0x20, 0x06, 0xA9, 0xAF, 0x20, 0x07, 0xCE, 0xAF, 0x20, 0x08, 0x60,
   0xAF, 0x20, 0x09, 0x07, 0xAF, 0x20, 0x0A, 0xB3, 0xAF, 0x20, 0x0B, 0xFF, 0xAF, 0x20, 0x0C, 0xFE,
   0xAF, 0x20, 0x0D, 0x1E, 0xAF, 0x20, 0x0E, 0xF3, 0xAF, 0x20, 0x0F, 0x02, 0xAF, 0x20, 0x10, 0x80,
   0xAF, 0x20, 0x11, 0x83, 0xAF, 0x20, 0x12, 0xBC, 0xAF, 0x20, 0x13, 0xFF, 0xAF, 0x20, 0x14, 0xFF,
   0xAF, 0x20, 0x15, 0xFF, 0xAF, 0x20, 0x16, 0xFC, 0xAF, 0x20, 0x17, 0x01, 0xAF, 0x20, 0x18, 0xE0,
   0xAF, 0x20, 0x1B, 0xAB, 0xAF, 0x20, 0x1C, 0x13, 0xAF, 0x20, 0x1F, 0x00, 0xAF, 0x20, 0xFF, 0xFF]

theorem test_modeset :
    peek (.modeset 640 480 39721 48 16 33 10 96 2 60 true) (session.setDeviceActive true)
      (fun t => (t.events, t.base8, t.status, t.counters.sent)) =
      some ([⟨0, 144, stream640⟩], 0x096000, 0x00000034, 144) := by decide +kernel
theorem test_modeset_checks :
    let s := session.setDeviceActive true
    reply (.modeset 4096 2049 39721 0 0 0 0 0 0 60 false) s = some ⟨.geometry, .none⟩ ∧
    reply (.modeset 4096 2048 39721 0 0 0 0 0 0 60 false) s = some ⟨.ok, .none⟩ ∧
    reply (.modeset 4096 1366 39721 0 0 0 0 0 0 60 true) s = some ⟨.geometry, .none⟩ ∧
    reply (.modeset 70000 1 39721 0 0 0 0 0 0 60 false) s = some ⟨.geometry, .none⟩ := by decide +kernel
theorem test_setfb :
    peek (.setfb 16 32 0 0 4 1 true) session (fun t => (t.fbReg, t.status)) = some (⟨16, 32, 0, 0, 4, 1⟩, 0x68) ∧
    reply (.setfb 12 32 0 0 4 1 true) session = some ⟨.badArg, .none⟩ ∧
    peek (.setfb 16 32 0 0 4 1 true) { session with draws := [0] } (fun t => (t.replies, t.status)) =
      some ([⟨.geometry, .none⟩], 0x20) := by decide +kernel
theorem test_setcursor :
    peek (.setcursor 0 0 2 1 32 true [1, 2]) session (fun t => t.cursor) = some ⟨0, 0, 2, 1, 32, 1, [1, 2]⟩ ∧
    reply (.setcursor 0 0 2 1 24 true [1, 2]) session = some ⟨.badArg, .none⟩ ∧
    reply (.setcursor 0 0 2 1 32 true [1]) session = some ⟨.badArg, .none⟩ := by decide +kernel
theorem test_attach :
    peek .attach State.reset (fun t => (t.status, t.pool.freeq, t.pool.avail, t.cursor.bpp)) =
      some (0x20, [0, 1, 2, 3], 4, 32) ∧
    reply .attach session = some ⟨.badArg, .none⟩ := by decide +kernel
theorem test_detach :
    peek .detach holding (fun t => (t.status, t.pool.avail, t.pending)) = some (0, 0, none) ∧
    peek .detach flying (fun t => (t.status, t.pending)) = some (0x20, some .detach) := by decide +kernel

/-! ## Wire commands -/

/-- 42_run_encoder.md R146: the values of a run, 1 or 2 device bytes apart, addresses mod 2^24 (20_memory.md R67). -/
theorem test_run16 :
    peek (.wRun16 4 1 [0xF800]) State.reset (fun t => (t.device.mem.map Prod.fst, t.device.items)) =
      some ([4, 5, 6, 7], [.run16 4 [0xF800, 0xF800]]) ∧
    exec (.wRun16 4 1 []) State.reset = .refused .wireRejected := by
  refine ⟨?_, rfl⟩
  unfold peek exec execWRun16
  cases h : Config.deviceHighByteFirst <;>
    simp [rawCountOk, runValues, State.takeItem, State.storeRun, deviceBytes16, h, bytesBe16, bytesLe16, storeDevice,
      State.reset, Memory.store]
theorem test_run8 :
    peek (.wRun8 0xFFFFFF 1 [1, 2]) State.reset (fun t => t.device.mem) = some [(0, 2), (1, 2), (0xFFFFFF, 1)] := by
  decide +kernel
theorem test_wregw : peek (.wRegw 0xFF 0x01) State.reset (fun t => t.device.regs) = some [(0xFF, 1)] := by decide +kernel
theorem test_wpad : peek (.wPad 3) State.reset (fun t => t.device.items) = some [.pad 3] := by decide +kernel

/-! ## Steps -/

/-- One value of the state after one step. -/
def stepped {α : Type} (s : State) (f : State → α) : Option α :=
  match step s with
  | .next t => some (f t)
  | _ => none

/-- An instruction placed as a table number is run by the very next step from reset, by its own agent (20_memory.md R75). -/
theorem test_first_steps :
    stepped (State.reset.withFetchWord 8 0x48) (fun t => (t.status, t.pool.avail, t.queue)) = some (0x20, 4, []) ∧
    stepped (State.reset.withFetchWord 8 0x20) (fun t => t.replies) = some [⟨.inactive, .none⟩] ∧
    stepped (flying.withFetchWord 8 0x2F) (fun t => t.pool.freeq) = some [1, 2, 3, 0] ∧
    stepped (State.reset.withFetchWord 32 0xAF200000) (fun t => t.device.items) = some [.regw 0 0] := by decide +kernel

/-- Program P3 of 95_test_vectors.md section 3: the second ACQUIRE waits, and the timeout ends it. -/
theorem test_acquire_timeout :
    stepped { full with pending := some .acquire, moves := [.timeout] } (fun t => (t.replies, t.status, t.pending)) =
      some ([⟨.timeout, .none⟩], 0x21, none) ∧
    stepped { full with pending := some .acquire, moves := [.producer] } (fun t => t.pending) = some (some .acquire) := by
  decide +kernel

/-- With no move listed TRANSPORT completes what is in flight, and then PRODUCER goes on (45_slot_pool.md R208, log entry 8). -/
theorem test_completion_comes :
    stepped { flying with queue := [[0x20]] } (fun t => (t.pool.freeq, t.queue)) = some ([1, 2, 3, 0], [[0x20]]) ∧
    stepped { session with queue := [[0x20]] } (fun t => (t.pool.held, t.queue)) = some (some 0, []) := by decide +kernel

/-! ## Witnesses of the statements' hypotheses, in the order of the statements -/

theorem witness_DecodeInvertsEncode :
    Params.default.Valid ∧ (Instr.wRun16 0xFFFFFF 255 (List.replicate 255 1)).wellFormed = true ∧
    (Instr.setcursor 0 0 1 1 32 true [5]).wellFormed = true := by decide +kernel

/-- The only reserved code that opens an instruction is 0xAF; a record with code 0x00, one with 0x4A and one with 0x2F; an illegal
configuration. -/
theorem witness_ReservedRequestsRefused :
    (0x4A ≤ (0xAF : Byte).toNat ∧ decode Params.default (0xAF :: [0x20, 1, 2]) = .ok (.wRegw 1 2)) ∧
    (∀ record ∈ ([[0x00], [0x4A], [0x2F, 0]] : List (List Byte)),
      let s := { session with queue := [record] }
      s.cfg.Valid ∧ s.nextMove = .producer ∧ s.pending = none ∧ ∀ i, decode s.cfg record = .ok i → i.agent ≠ .host) ∧
    ¬ ({ session with cfg := { Params.default with minCmdBytes := 8 } } : State).cfg.Valid := by
  refine ⟨⟨by decide +kernel, rfl⟩, ?_, by decide +kernel⟩
  intro record h
  simp only [List.mem_cons, List.not_mem_nil, or_false] at h
  obtain rfl | rfl | rfl := h <;> refine ⟨by decide +kernel, rfl, rfl, ?_⟩ <;> intro i hi
  · exact absurd hi (by intro h; cases h)
  · exact absurd hi (by intro h; cases h)
  · cases hi
    decide +kernel

theorem witness_StepRunsDecodedInstruction :
    (let s := { session with queue := [[0x20], [0x22]] }
     s.cfg.Valid ∧ s.nextMove = .producer ∧ s.pending = none ∧ s.queue = [0x20] :: [[0x22]] ∧
     decode s.cfg [0x20] = .ok .acquire ∧ Instr.acquire.wellFormed = true ∧ Instr.acquire.agent = .host) ∧
    (let s := { flying with moves := [.transport [0x2F, 0]] }
     s.cfg.Valid ∧ s.nextMove = .transport [0x2F, 0] ∧ decode s.cfg [0x2F, 0] = .ok (.complete 0) ∧
     (Instr.complete 0).agent = .transport) ∧
    (let s := { session with moves := [.device [0xAF, 0x20, 1, 2]] }
     s.cfg.Valid ∧ s.nextMove = .device [0xAF, 0x20, 1, 2] ∧ decode s.cfg [0xAF, 0x20, 1, 2] = .ok (.wRegw 1 2) ∧
     (Instr.wRegw 1 2).wellFormed = true ∧ (Instr.wRegw 1 2).agent = .device) :=
  ⟨⟨by decide +kernel, rfl, rfl, rfl, rfl, rfl, rfl⟩, ⟨by decide +kernel, rfl, rfl, rfl⟩, by decide +kernel, rfl, rfl, rfl, rfl⟩

theorem witness_OneRequestAtATime :
    (let s := { full with pending := some .acquire, queue := [[0x22]], moves := [.timeout] }
     ∃ t, step s = .next t ∧ s.pending ≠ none ∧ t.pending = none) ∧
    (let s := { session with moves := [.issue [0x20]] }
     ∃ t, step s = .next t ∧ s.nextMove = .issue [0x20] ∧ s.cfg.Valid) :=
  ⟨⟨_, rfl, by decide +kernel, rfl⟩, _, rfl, rfl, by decide +kernel⟩

theorem witness_RequestsEndWithOneStatus :
    (∃ t, Instr.acquire.agent = .host ∧ exec .acquire session = .next t ∧ t.pending = none) ∧
    (∃ t, Instr.acquire.agent = .host ∧ exec .acquire full = .next t ∧ t.pending ≠ none) ∧
    (∃ t, step { full with pending := some .acquire, moves := [.timeout] } = .next t) :=
  ⟨⟨_, rfl, rfl, rfl⟩, ⟨_, rfl, rfl, by decide +kernel⟩, _, rfl⟩

theorem witness_SessionCheck :
    (Instr.release.agent = .host ∧ Instr.release ≠ .attach ∧ (∀ off, Instr.release ≠ .cfgr off) ∧
      State.reset.flag .attached = false) ∧ (0x004 : Word) ≠ 0x000 :=
  ⟨⟨rfl, by decide +kernel, (fun _ h => by cases h), rfl⟩, by decide +kernel⟩

theorem witness_NoStepStops :
    (∀ command, session.nextMove ≠ .device command) ∧ session.cfg.Valid ∧ (Instr.fillFrame 0).agent ≠ .device :=
  ⟨(fun _ h => by cases h), by decide +kernel, by decide +kernel⟩

/-- The premise of the datapath statements, with the sprite of SETCURSOR. -/
theorem witness_attached :
    session.flag .attached = true ∧ session.cfg.Valid ∧
    session.cursor.pix.length = session.cursor.w.toNat * session.cursor.h.toNat := by decide +kernel

/-- DIFF: lines of 12 bytes, compared in words of 8: equal, different in the first word only, in both, in the short last word. -/
theorem witness_DiffNarrows :
    let w := session.cfg.wordBytes
    let zero : List Byte := List.replicate 12 0
    let words := (12 + w - 1) / w
    let word (buf : List Byte) (j : Nat) := (buf.drop (j * w)).take w
    zero.length ≠ ([0] : List Byte).length ∧
    (∀ j < words, word zero j = word zero j) ∧
    (∀ c ∈ ([(zero.set 0 1, 0, 0), ((zero.set 0 1).set 11 1, 0, 1), (zero.set 8 1, 1, 1)] : List (List Byte × Nat × Nat)),
      c.1.length = zero.length ∧ c.2.1 ≤ c.2.2 ∧ c.2.2 < words ∧ word c.1 c.2.1 ≠ word zero c.2.1 ∧
      (∀ j < c.2.1, word c.1 j = word zero j) ∧ word c.1 c.2.2 ≠ word zero c.2.2 ∧
      (∀ j < words, c.2.2 < j → word c.1 j = word zero j)) := by decide +kernel

/-- DIFF's range: a differing byte, a nonempty range, whole pixels. -/
theorem witness_DiffBoundsDifferences :
    redTail.length = grey4.length ∧ 4 ∣ redTail.length ∧ redTail[8]? ≠ grey4[8]? ∧
    (narrow session.cfg.wordBytes redTail grey4).len = 8 := by decide +kernel

/-- BLENDPIX: alpha 0 and alpha 255. -/
theorem witness_BlendpixMixesChannels :
    (0x00ABCDEF : Word).extractLsb' 24 8 = 0 ∧ (0xFFABCDEF : Word).extractLsb' 24 8 = 255 := by decide +kernel

/-- BLENDLINE: a pixel inside the rectangle of a sprite whose left column lies outside the display, and one outside it. -/
theorem witness_BlendlineComposites :
    let s := { session with cursor := ⟨0xFFFFFFFF, 0, 2, 1, 32, 1, [0xFF0000FF, 0xFF00FF00]⟩ }
    s.flag .attached = true ∧ s.cursor.pix.length = s.cursor.w.toNat * s.cursor.h.toNat ∧
    ([7, 8] : List Word)[0]? = some 7 ∧ s.cursor.visible.getLsbD 0 = true ∧
    (let column (x : Int) := x - s.cursor.x.toInt
     0 ≤ column 0 ∧ column 0 < s.cursor.w.toNat ∧ ¬ column 1 < s.cursor.w.toNat) := by decide +kernel

/-- The sequence of LFSR states that LfsrIteratesStep speaks of. -/
def lfsrStates (taps : Half) : Nat → Half
  | 0 => 0xFFFF
  | j + 1 => (lfsrStates taps j <<< 1) |||
      BitVec.ofNat 16 ((List.range 16).countP (fun b => taps.getLsbD b && (lfsrStates taps j).getLsbD b) % 2)

theorem witness_LfsrIteratesStep :
    session.flag .attached = true ∧ lfsrStates session.cfg.lfsrTaps 0 = 0xFFFF ∧
    (∀ j, lfsrStates session.cfg.lfsrTaps (j + 1) = (lfsrStates session.cfg.lfsrTaps j <<< 1) |||
      BitVec.ofNat 16 ((List.range 16).countP
        (fun b => session.cfg.lfsrTaps.getLsbD b && (lfsrStates session.cfg.lfsrTaps j).getLsbD b) % 2)) :=
  ⟨rfl, rfl, fun _ => rfl⟩

theorem witness_LfsrNeverZero : session.flag .attached = true ∧ session.cfg.lfsrTaps.getLsbD 15 = true := by decide +kernel

/-- ENC16, ENC8 and the register writes: no slot held; a slot held with nothing written and with exactly no room left. -/
theorem witness_held_slot :
    (session.flag .attached = true ∧ session.pool.held = none) ∧
    (holding.flag .attached = true ∧ holding.pool.held = some 0 ∧ holding.pool.held ≠ none ∧
      (∃ slot, holding.pool.slots[0]? = some slot) ∧ holding.pool.wptr.toNat ≤ holding.cfg.slotBytes ∧ holding.cfg.Valid ∧
      ([1, 2] : List Half).length < (3 : Word).toNat ∧ (2 : Word).toNat ≤ ([1, 2] : List Half).length ∧
      holding.pool.wptr.toNat + 104 ≤ holding.cfg.slotBytes) ∧
    (let s := { holding with pool := { holding.pool with wptr := 65021 } }
     s.pool.held ≠ none ∧ s.cfg.slotBytes < s.pool.wptr.toNat + 4) :=
  ⟨⟨rfl, rfl⟩, ⟨rfl, rfl, by decide +kernel, ⟨_, rfl⟩, by decide +kernel, by decide +kernel, by decide +kernel, by decide +kernel, by decide +kernel⟩, by decide +kernel, by decide +kernel⟩

theorem witness_EncodeRunIsSpecLoop : Params.default.Valid ∧ 3 ≤ ([1, 2, 2] : List Half).length := by decide +kernel

theorem witness_EncodeRunResults :
    Params.default.Valid ∧ ((channel16 Params.default).bpp = 1 ∨ (channel16 Params.default).bpp = 2) ∧
    (∀ v, ((channel16 Params.default).put v).length = (channel16 Params.default).bpp) ∧
    65024 ≤ Params.default.slotBytes ∧ 3 ≤ ([1, 2, 2] : List Half).length ∧
    (encodeRun Params.default (channel16 Params.default) 0 [1, 2, 2] 0 0).full = false ∧
    (encodeRun Params.default (channel16 Params.default) 65014 [1, 2, 2] 0 0).full = true ∧
    (encodeRun Params.default (channel16 Params.default) 65014 [1, 2, 2] 0 0).i < 3 :=
  ⟨by decide +kernel, by decide +kernel, fun _ => rfl, by decide +kernel, by decide +kernel, by decide +kernel, by decide +kernel, by decide +kernel⟩

theorem witness_EncodedRunDecodes : Params.default.Valid ∧ 65014 ≤ Params.default.slotBytes := by decide +kernel

/-- SETBLANK's and SETTIMING's operands, at both ends. -/
theorem witness_register_operands :
    ((0 : Byte), (0x00 : Byte)) ∈ [((0 : Byte), (0x00 : Byte)), (1, 0x01), (2, 0x03), (3, 0x05), (4, 0x07)] ∧
    ((4 : Byte), (0x07 : Byte)) ∈ [((0 : Byte), (0x00 : Byte)), (1, 0x01), (2, 0x03), (3, 0x05), (4, 0x07)] ∧
    4 < (5 : Byte).toNat ∧ (1 : Word) ≠ 0 := by decide +kernel

theorem witness_AcquireTakesOrWaits :
    (holding.flag .attached = true ∧ holding.pool.held ≠ none) ∧
    (full.flag .attached = true ∧ full.pool.held = none ∧ full.pool.avail = 0) ∧
    (session.pool.held = none ∧ session.pool.avail ≠ 0 ∧ session.pool.freeq = 0 :: [1, 2, 3] ∧
      ∃ slot, session.pool.slots[0]? = some slot) ∧
    (let s := { full with pending := some .acquire }
     s.pending = some .acquire ∧ s.pool.avail = 0) ∧
    (let s := { session with pending := some .acquire }
     s.pending = some .acquire ∧ s.pool.avail ≠ 0) :=
  ⟨⟨rfl, by decide +kernel⟩, ⟨rfl, rfl, rfl⟩, ⟨rfl, by decide +kernel, rfl, _, rfl⟩, ⟨rfl, rfl⟩, rfl, by decide +kernel⟩

theorem witness_SubmitHandsOverSlot :
    (session.flag .attached = true ∧ session.pool.held = none) ∧ (holding.pool.held ≠ none ∧ holding.pool.wptr = 0) ∧
    (filled.flag .attached = true ∧ filled.pool.held = some 0 ∧ (∃ slot, filled.pool.slots[0]? = some slot) ∧
      filled.pool.wptr ≠ 0 ∧ filled.nextChoice = true) ∧
    ({ filled with draws := [0] } : State).nextChoice = false :=
  ⟨⟨rfl, rfl⟩, ⟨by decide +kernel, rfl⟩, ⟨rfl, rfl, ⟨_, rfl⟩, by decide +kernel, rfl⟩, rfl⟩

theorem witness_ReleaseReturnsSlot :
    (session.flag .attached = true ∧ session.pool.held = none) ∧
    (filled.flag .attached = true ∧ filled.pool.held = some 0 ∧ ∃ slot, filled.pool.slots[0]? = some slot) :=
  ⟨⟨rfl, rfl⟩, rfl, rfl, _, rfl⟩

/-- COMPLETE of a slot in flight, of a free one, of a number with no slot, and without a session. -/
theorem witness_CompleteReturnsSlot :
    flying.flag .attached = true ∧
    (∃ slot, flying.pool.slots[0]? = some slot ∧ slot.state = .inflight) ∧
    (∃ slot, flying.pool.slots[2]? = some slot ∧ slot.state ≠ .inflight) ∧
    flying.pool.slots.length ≤ 4 ∧ State.reset.flag .attached = false :=
  ⟨rfl, ⟨_, rfl, rfl⟩, ⟨_, rfl, by decide +kernel⟩, by decide +kernel, rfl⟩

/-- A state with a slot in flight meets the pool rules. -/
theorem flying_poolInv : PoolInv flying where
  config := by decide +kernel
  countable := by decide +kernel
  absent := by decide +kernel
  size := by decide +kernel
  r38 := by decide +kernel
  wptrLe := by decide +kernel
  wptrNone := by decide +kernel
  waiting := by decide +kernel
  lengths := by decide +kernel

/-- The pool rules and a step from them: TRANSPORT's COMPLETE of the slot in flight. -/
theorem witness_pool_steps :
    let s := { flying with moves := [.transport [0x2F, 0]] }
    PoolInv s ∧ s.flag .attached = true ∧ (∃ t, step s = .next t) ∧
    ∃ slot, s.pool.slots[0]? = some slot ∧ slot.state = .inflight :=
  ⟨⟨flying_poolInv.config, flying_poolInv.countable, flying_poolInv.absent, flying_poolInv.size, flying_poolInv.r38, flying_poolInv.wptrLe,
    flying_poolInv.wptrNone, flying_poolInv.waiting, flying_poolInv.lengths⟩, rfl, ⟨_, rfl⟩, _, rfl, rfl⟩

/-- The machine after one more step. -/
def after (s : State) : State :=
  match step s with
  | .next t => t
  | _ => s

/-- A run of the machine: SUBMIT of slot 0, its COMPLETE, and nothing more. -/
def shortRun : Nat → State
  | 0 => { filled with queue := [[0x21]] }
  | 1 => after { filled with queue := [[0x21]] }
  | _ + 2 => after (after { filled with queue := [[0x21]] })

theorem shortRun_idle (n : Nat) : step (shortRun (n + 2)) = .next (shortRun (n + 2)) := by
  have h : (match step (shortRun 2) with | .next t => decide (t = shortRun 2) | _ => false) = true := by decide +kernel
  show step (shortRun 2) = .next (shortRun 2)
  revert h
  cases step (shortRun 2) <;> simp

theorem shortRun_flying {n k : Nat} (h : (shortRun n).inFlight k) : n = 1 ∧ k = 0 := by
  obtain ⟨slot, hk, hs⟩ := h
  have none (m : Nat) (hm : ∀ slot ∈ (shortRun m).pool.slots, slot.state ≠ .inflight) : n ≠ m := by
    rintro rfl; exact hm slot (List.mem_of_getElem? hk) hs
  match n with
  | 0 => exact absurd rfl (none 0 (by decide +kernel))
  | 1 =>
    have hz : ∀ x ∈ (shortRun 1).pool.slots.zipIdx, x.1.state = .inflight → x.2 = 0 := by decide +kernel
    exact ⟨rfl, hz (slot, k) (List.mem_zipIdx_iff_getElem?.mpr hk) hs⟩
  | m + 2 => exact absurd rfl (none (m + 2) (show ∀ slot ∈ (shortRun 2).pool.slots, _ from by decide +kernel))

theorem shortRun_completes {n k : Nat} (h : (shortRun n).completes k) : n = 1 ∧ k = 0 := by
  obtain ⟨record, hm, hd⟩ := h
  match n with
  | 0 => exact absurd ((show (shortRun 0).nextMove = .producer from rfl).symm.trans hm) (fun h => by cases h)
  | 1 =>
    obtain rfl : [0x2F, 0] = record := Move.transport.inj ((show (shortRun 1).nextMove = .transport [0x2F, 0] from rfl).symm.trans hm)
    have := (show decode (shortRun 1).cfg [0x2F, 0] = .ok (.complete 0) from rfl).symm.trans hd
    exact ⟨rfl, (Instr.complete.inj (Except.ok.inj this)).symm⟩
  | m + 2 => exact absurd ((show (shortRun (m + 2)).nextMove = .producer from rfl).symm.trans hm) (fun h => by cases h)

/-- InflightSlotUntouched: a slot in flight that the machine's own run completes, an accepted SUBMIT, and a run in which TRANSPORT
does its duty. -/
theorem witness_InflightSlotUntouched :
    (PoolInv flying ∧ flying.inFlight 0 ∧ ∀ command, .device command ∉ flying.moves) ∧
    TransportRun shortRun ∧ Accepts (shortRun 0) (shortRun 1) 0 := by
  refine ⟨⟨flying_poolInv, ⟨_, rfl, rfl⟩, fun _ h => by cases h⟩, ⟨fun n => ?_, ?_, fun n k h => ?_, fun n k h => ?_⟩,
    _, rfl, _, List.mem_singleton_self _, rfl⟩
  · match n with
    | 0 => exact ⟨_, _, rfl, rfl⟩
    | 1 => exact ⟨_, _, rfl, rfl⟩
    | m + 2 => exact ⟨_, _, shortRun_idle m, rfl⟩
  · constructor <;> decide +kernel
  · obtain ⟨rfl, rfl⟩ := shortRun_completes h
    exact ⟨_, rfl, rfl⟩
  · obtain ⟨rfl, rfl⟩ := shortRun_flying h
    exact ⟨1, le_rfl, _, rfl, rfl⟩

/-- PoolCountsOutstanding: nothing held, nothing in flight. -/
theorem witness_PoolCountsOutstanding : session.pool.held = none ∧ session.pool.inflight = 0 ∧ session.pool.holdsR38 = true := by
  decide +kernel

/-- The states that the checks of RENDER_FRAME and FILL_FRAME tell apart. -/
theorem witness_FrameOpsCheckFirst :
    (session.flag .attached = true ∧ session.link.getLsbD 0 = false) ∧
    (let s := session.setDeviceActive true
     s.link.getLsbD 0 = true ∧ s.flag .modeValid = false ∧ s.flag .fbValid = false) ∧
    (let s := scenario.takeSlot
     s.link.getLsbD 0 = true ∧ s.flag .modeValid = true ∧ s.flag .fbValid = true ∧ s.pool.held ≠ none) ∧
    (scenario.flag .attached = true ∧ scenario.pool.held = none ∧
      (let vw := min scenario.mode.xres.toNat scenario.fbReg.width.toNat
       min (4 : Word).toNat vw = min ((4 : Word).toNat + (1 : Word).toNat) vw)) := by decide +kernel

/-- RENDER_FRAME and FILL_FRAME that pass their checks with the one slot in flight, and a frame that waits. -/
theorem witness_FrameOps_wait :
    let s := { scenario with cfg := full.cfg, pool := full.pool }
    (FrameStarts (.renderFrame 0 0 4 1) s ⟨.framebuffer s.hostFb, 0, 4, 0, 1, 0, .line⟩ ∧ s.pool.avail = 0) ∧
    (FrameStarts (.fillFrame 7) s ⟨.fill 7, 0, 4, 0, 1, 0, .line⟩ ∧ s.pool.avail = 0) ∧
    ((waitingFrame 0 0).pending = some (.frame ⟨.fill 0, 0, 4, 0, 3, 0, .line⟩) ∧ (waitingFrame 0 0).pool.avail = 0 ∧
      (waitingFrame 0 0).flag .attached = true) := by
  refine ⟨⟨⟨rfl, rfl, rfl, rfl, by decide +kernel, .inl ⟨0, 0, 4, 1, rfl, rfl, by decide +kernel, rfl⟩⟩, rfl⟩,
    ⟨⟨rfl, rfl, rfl, rfl, by decide +kernel, .inr ⟨7, rfl, rfl⟩⟩, rfl⟩, rfl, rfl, rfl⟩

theorem witness_RenderElidesIdenticalLine :
    let s := still
    s.flag .attached = true ∧ s.link.getLsbD 0 = true ∧ s.flag .modeValid = true ∧ s.flag .fbValid = true ∧
    s.flag .backingEn = true ∧ s.pool.held = none ∧ s.pool.avail ≠ 0 ∧ s.pool.freeq = 0 :: [1, 2, 3] ∧
    s.pool.slots[0]? = some ⟨⟨[], 0⟩, 65024, .free⟩ ∧
    (let x0 := min (0 : Word).toNat s.visibleWidth
     let x1 := min ((0 : Word).toNat + (4 : Word).toNat) s.visibleWidth
     let y0 := min (0 : Word).toNat s.visibleHeight
     let line := s.cursor.blendLine y0 x0
       ((List.range (x1 - x0)).map fun j => Memory.readPixel s.hostFb .hostFb (s.pixelOffset (x0 + j) y0))
     x0 < x1 ∧ min ((0 : Word).toNat + (1 : Word).toNat) s.visibleHeight = y0 + 1 ∧
     line.flatMap bytesLe32 = (List.range (4 * (x1 - x0))).map (fun j => s.backingByte (s.pixelOffset x0 y0 + j))) := by
  decide +kernel

/-- Both outcomes of TRANSPORT in the scenario. -/
theorem witness_outcomes : scenario.nextChoice = true ∧ ({ scenario with draws := [0, 0] } : State).nextChoice = false := by
  decide +kernel

/-- The hypotheses of RenderSendsChangedLine at the scenario, with the SPLIT bit set, and with a slot that is rejected. -/
theorem witness_RenderSendsChangedLine :
    ∀ s ∈ [scenario, { scenario with status := 0x0000007C }, { scenario with draws := [0, 0] }],
    s.cfg.Valid ∧ s.flag .attached = true ∧ s.link.getLsbD 0 = true ∧ s.flag .modeValid = true ∧ s.flag .fbValid = true ∧
    s.pool.held = none ∧ s.pool.avail ≠ 0 ∧ s.pool.freeq = 0 :: [1, 2, 3] ∧
    s.pool.slots[0]? = some ⟨⟨[], 0⟩, 65024, .free⟩ ∧
    (let x0 := min (0 : Word).toNat s.visibleWidth
     let x1 := min ((0 : Word).toNat + (4 : Word).toNat) s.visibleWidth
     let y0 := min (0 : Word).toNat s.visibleHeight
     let line := s.cursor.blendLine y0 x0
       ((List.range (x1 - x0)).map fun j => Memory.readPixel s.hostFb .hostFb (s.pixelOffset (x0 + j) y0))
     let range := narrow s.cfg.wordBytes (line.flatMap bytesLe32)
       ((List.range (4 * (x1 - x0))).map fun j => s.backingByte (s.pixelOffset x0 y0 + j))
     let shown := (line.drop (range.start / 4)).take (range.len / 4)
     let p0 := x0 + range.start / 4
     let r16 := encodeRun s.cfg ⟨2, s.cfg.op16, bytesBe16⟩ 0 (shown.map split16) 0 (s.a16 p0 y0)
     let r8 := encodeRun s.cfg ⟨1, s.cfg.op8, byte1⟩ r16.bytes.length (shown.map split8) 0 (s.a8 p0 y0)
     x0 < x1 ∧ min ((0 : Word).toNat + (1 : Word).toNat) s.visibleHeight = y0 + 1 ∧ range.len ≠ 0 ∧ r16.full = false ∧
     r8.full = false) := by
  decide +kernel

theorem witness_FillSendsLine :
    ∀ s ∈ [scenario, { scenario with status := 0x0000007C }, { scenario with draws := [0, 0] }],
    s.cfg.Valid ∧ s.flag .attached = true ∧ s.link.getLsbD 0 = true ∧ s.flag .modeValid = true ∧
    s.pool.held = none ∧ s.pool.avail ≠ 0 ∧ s.pool.freeq = 0 :: [1, 2, 3] ∧
    s.pool.slots[0]? = some ⟨⟨[], 0⟩, 65024, .free⟩ ∧ s.mode.xres ≠ 0 ∧ s.mode.yres = 1 ∧
    (let r16 := encodeRun s.cfg ⟨2, s.cfg.op16, bytesBe16⟩ 0 (List.replicate s.mode.xres.toNat (split16 7)) 0 (s.a16 0 0)
     let r8 := encodeRun s.cfg ⟨1, s.cfg.op8, byte1⟩ r16.bytes.length (List.replicate s.mode.xres.toNat (split8 7)) 0 (s.a8 0 0)
     r16.full = false ∧ r8.full = false) := by
  decide +kernel

/-- A display of two lines whose every pixel takes a command of its own, with `n` slots of 144 bytes: 40 commands of 9 bytes, 15 of
them in a slot. -/
def wide (n : Nat) (draws : List Word) : State :=
  let s : State := ({ State.reset with
    cfg := { Params.default with slotCount := n, slotBytes := 144, maxCmdPixels := 1 } }).createSession
  { s with
    status := 0x00000024
    link := 1
    mode := ⟨20, 2, 39721, 1, 1, 1, 1, 1, 1, 60⟩
    draws := draws }

/-- The FILL_FRAME of that display at its first line. -/
def wideFrame : FrameCtx := ⟨.fill 7, 0, 20, 0, 2, 0, .line⟩

/-- The frame that waits with one slot, after 3 values of its second line. -/
def wideWaiting : FrameCtx := { wideFrame with y := 1, phase := .chan16 0 3 46 }

/-- Enough slots, all accepted or the second one rejected; one slot; a waiting frame for which it has come free. -/
theorem wide_poolInv : ∀ s ∈ [wide 3 [1, 1, 1, 0], wide 3 [1, 0, 1, 0], wide 1 [1, 1, 1, 0],
    { wide 1 [1, 1] with pending := some (.frame wideWaiting) }], PoolInv s ∧ s.pool.freeq ≠ [] := by
  intro s h
  simp only [List.mem_cons, List.not_mem_nil, or_false] at h
  obtain rfl | rfl | rfl | rfl := h <;> refine ⟨?_, by decide +kernel⟩ <;> constructor <;> decide +kernel

/-- FrameSendsItsSlots: 3 slots are enough for the frame; with 1 slot it waits after the first. -/
theorem witness_FrameSendsItsSlots :
    (∀ s ∈ [wide 3 [1, 1, 1, 0], wide 3 [1, 0, 1, 0], wide 1 [1, 1, 1, 0]], FrameStarts (.fillFrame 7) s wideFrame) ∧
    (∀ s ∈ [wide 3 [1, 1, 1, 0], wide 3 [1, 0, 1, 0]],
      (wideFrame.workLeft s).packing.full.length = 2 ∧ (wideFrame.workLeft s).packing.current ≠ [] ∧
      (deliver (fun j => (s.afterDraws j).nextChoice) 0 s.pool.freeq (wideFrame.workLeft s).packing.full).free ≠ []) ∧
    (let s := wide 1 [1, 1, 1, 0]
     let full := (wideFrame.workLeft s).packing.full
     0 < full.length ∧
     (deliver (fun j => (s.afterDraws j).nextChoice) 0 s.pool.freeq (full.take 0)).free ≠ [] ∧
     (deliver (fun j => (s.afterDraws j).nextChoice) 0 s.pool.freeq (full.take 1)).free = []) := by
  refine ⟨fun s h => ?_, by decide +kernel, by decide +kernel⟩
  simp only [List.mem_cons, List.not_mem_nil, or_false] at h
  obtain rfl | rfl | rfl := h <;> refine ⟨?_, ?_, ?_, ?_, ?_, .inr ⟨7, rfl, ?_⟩⟩ <;> decide +kernel

/-- A frame that waits: the first timeout before the last line, the second one in a row, and one on the last line. -/
theorem witness_FrameTimeoutLosesLine :
    (∀ s ∈ [waitingFrame 0 0, waitingFrame 0 1, waitingFrame 1 0, waitingFrame 0 2], s.pool.held = none ∧ s.pool.avail = 0) ∧
    (waitingFrame 0 1).pending = some (.frame ⟨.fill 0, 0, 4, 1, 3, 0, .line⟩) ∧ 0 + 1 ≠ 2 ∧ 1 + 1 < 3 ∧
    (waitingFrame 1 0).pending = some (.frame ⟨.fill 0, 0, 4, 0, 3, 1, .line⟩) ∧ 1 + 1 = 2 ∧
    (waitingFrame 0 2).pending = some (.frame ⟨.fill 0, 0, 4, 2, 3, 0, .line⟩) ∧ 3 ≤ 2 + 1 := by decide +kernel

theorem witness_FrameOpsLeaveNoSlot :
    (∃ t, exec (.fillFrame 7) scenario = .next t ∧ t.replies = scenario.replies ++ [⟨.ok, .none⟩]) ∧
    (∃ t, exec (.renderFrame 0 0 4 1) scenario = .next t ∧ t.replies = scenario.replies ++ [⟨.ok, .none⟩]) ∧
    (∃ t, moveStep .timeout (waitingFrame 1 0) = .next t ∧ t.pending = none) :=
  ⟨⟨_, rfl, rfl⟩, ⟨_, rfl, rfl⟩, _, rfl, rfl⟩

/-- CFGW's three cases at neighbouring offsets. -/
theorem witness_CfgwWritesTwoBits :
    session.flag .attached = true ∧ (0x004 : Word) ≠ 0x000 ∧ (0x004 : Word) ≠ 0x008 ∧
    (0xFFFFFFFE : Word).getLsbD 0 = false ∧ (1 : Word).getLsbD 0 = true := by decide +kernel

/-- CFGR: the first and the last register of the map, an offset between two, and no session. -/
theorem witness_CfgrReadsMap :
    session.flag .attached = true ∧ State.reset.flag .attached = false ∧
    session.readReg 0x000 = some session.status ∧ session.readReg 0x198 = some 0 ∧ session.readReg 0x19C = none ∧
    session.readReg 0x002 = none := by decide +kernel

/-- MODESET's cases: link down; a slot held; a size that just does not fit and one that does; no free slot. -/
theorem witness_ModesetChecksAndWaits :
    let m (yres : Word) : ModeRegs := ⟨4096, yres, 39721, 0, 0, 0, 0, 0, 0, 60⟩
    (session.flag .attached = true ∧ session.link.getLsbD 0 = false) ∧
    (let s := holding.setDeviceActive true
     s.link.getLsbD 0 = true ∧ s.pool.held ≠ none) ∧
    (let s := full.setDeviceActive true
     s.flag .attached = true ∧ s.link.getLsbD 0 = true ∧ s.pool.held = none ∧ s.pool.avail = 0) ∧
    (m 2049).Rejected false ∧ ¬ (m 2048).Rejected false ∧ (m 1366).Rejected true ∧
    ({ full with pending := some (.modeset (m 1) false) } : State).pending = some (.modeset (m 1) false) := by
  refine ⟨⟨rfl, rfl⟩, ⟨rfl, by decide +kernel⟩, ⟨rfl, rfl, rfl, rfl⟩, ?_, ?_, ?_, rfl⟩ <;> rw [← ModeRegs.fits_eq_false] <;> decide +kernel

/-- MODESET with a free slot, at once and after a wait, accepted and rejected. -/
theorem witness_ModesetLatchesOnAccept :
    let m : ModeRegs := ⟨640, 480, 39721, 48, 16, 33, 10, 96, 2, 60⟩
    let s := session.setDeviceActive true
    s.cfg.Valid ∧ s.pool.held = none ∧ s.pool.avail ≠ 0 ∧ s.pool.freeq = 0 :: [1, 2, 3] ∧
    (∃ slot, s.pool.slots[0]? = some slot) ∧ s.flag .attached = true ∧ s.link.getLsbD 0 = true ∧ ¬ m.Rejected true ∧
    s.nextChoice = true ∧ ({ s with draws := [0] } : State).nextChoice = false ∧
    ({ s with pending := some (.modeset m true) } : State).pending = some (.modeset m true) := by
  refine ⟨by decide +kernel, rfl, by decide +kernel, rfl, ⟨_, rfl⟩, rfl, rfl, ?_, rfl, rfl, rfl⟩
  rw [← ModeRegs.fits_eq_false]
  decide +kernel

/-- SETFB: a pitch that just holds the row and one that does not; both allocation outcomes. -/
theorem witness_SetfbDescribesFramebuffer :
    session.flag .attached = true ∧ session.nextChoice = true ∧ ({ session with draws := [0] } : State).nextChoice = false ∧
    ¬ ((32 : Word) ≠ 32 ∨ (4 : Word) = 0 ∨ (1 : Word) = 0 ∨ (16 : Word).toNat < 4 * ((0 : Word).toNat + (4 : Word).toNat)) ∧
    (15 : Word).toNat < 4 * ((0 : Word).toNat + (4 : Word).toNat) := by decide +kernel

/-- SETCURSOR: a sprite of exactly P_CURSOR_MAX_PIXELS pixels, one over it, one with a missing pixel. -/
theorem witness_SetcursorSetsSprite :
    session.flag .attached = true ∧
    ((64 : Word).toNat * (64 : Word).toNat ≤ session.cfg.cursorMaxPixels ∧
      (List.replicate 4096 (0 : Word)).length = (64 : Word).toNat * (64 : Word).toNat) ∧
    session.cfg.cursorMaxPixels < (65 : Word).toNat * (64 : Word).toNat ∧
    ([1] : List Word).length ≠ (2 : Word).toNat * (1 : Word).toNat := by decide +kernel

theorem witness_AttachCreatesSession : session.flag .attached = true ∧ State.reset.flag .attached = false := by decide +kernel

/-- DETACH with nothing held, with a held slot, and waiting. -/
theorem witness_DetachDrainsPool :
    (flying.flag .attached = true ∧ flying.pool.held = none) ∧
    (holding.flag .attached = true ∧ holding.pool.held = some 0 ∧ ∃ slot, holding.pool.slots[0]? = some slot) ∧
    ({ flying with pending := some .detach } : State).pending = some .detach :=
  ⟨⟨rfl, rfl⟩, ⟨rfl, rfl, _, rfl⟩, rfl⟩

/-- LOST_PIXELS set: a CFGW that clears it, and one that does not. -/
theorem witness_LostPixelsSticky :
    ∀ val ∈ ([0, 1] : List Byte),
    let s := { session with status := 0x21, queue := [[0x40, 0, 0, 0, 0, val, 0, 0, 0]] }
    ∃ t, step s = .next t ∧ s.flag .lostPixels = true ∧ t.flag .attached = s.flag .attached ∧
      t.flag .lostPixels = (val == 0) := by
  intro val h
  simp only [List.mem_cons, List.not_mem_nil, or_false] at h
  obtain rfl | rfl := h <;> exact ⟨_, rfl, rfl, rfl, rfl⟩

/-- Each register group changed by its writer, and a waiting frame that counts. -/
theorem witness_RegistersHaveOneWriter :
    (peek (.cfgw 0x008 1) session (fun t => decide (t.link ≠ session.link ∧ t.flag .attached = true)) = some true) ∧
    (peek (.setfb 16 32 0 0 4 1 false) session (fun t => decide (t.fbReg ≠ session.fbReg ∧
      t.flag .fbValid ≠ session.flag .fbValid ∧ t.flag .attached = true)) =
      some true) ∧
    (peek (.modeset 4 1 39721 1 1 1 1 1 1 60 false) (session.setDeviceActive true)
      (fun t => decide (t.mode ≠ session.mode ∧ t.base8 ≠ session.base8 ∧ t.flag .modeValid ≠ session.flag .modeValid ∧
        t.flag .attached = true)) = some true) ∧
    (peek (.setcursor 1 0 0 0 32 true []) session (fun t => decide (t.cursor ≠ session.cursor ∧ t.flag .attached = true)) =
      some true) ∧
    (peek (.renderFrame 0 0 4 1) scenario (fun t => decide (t.counters.rendered ≠ scenario.counters.rendered ∧
      t.counters.identical ≠ scenario.counters.identical ∧ t.flag .attached = true)) = some true) ∧
    (∃ t, moveStep .timeout { waitingFrame 1 0 with draws := [5] } = .next t ∧ t.flag .attached = true ∧
      t.counters.cpu ≠ (waitingFrame 1 0).counters.cpu) ∧
    (∃ t, moveStep .producer { still with pending := some (.frame ⟨.framebuffer still.hostFb, 0, 4, 0, 1, 0, .line⟩) } = .next t ∧
      t.flag .attached = true ∧ t.counters.identical ≠ still.counters.identical) :=
  ⟨by decide +kernel, by decide +kernel, by decide +kernel, by decide +kernel, by decide +kernel,
    ⟨_, rfl, rfl, by decide +kernel⟩, _, rfl, rfl, by decide +kernel⟩

/-- A step that adds a SUBMIT event within a session. -/
theorem witness_SentCountsEvents :
    let s := { filled with queue := [[0x21]] }
    ∃ t, step s = .next t ∧ s.flag .attached = true ∧ t.flag .attached = true ∧ t.events.length = 1 :=
  ⟨_, rfl, rfl, rfl, rfl⟩

/-- A HOST write and another step. -/
theorem witness_HostOwnsFramebuffer :
    (let s := { session with moves := [.hostWrite 4 [7]] }
     ∃ t, step s = .next t ∧ s.cfg.Valid ∧ s.nextMove = .hostWrite 4 [7]) ∧
    (∃ t, step session = .next t ∧ ∀ off bytes, session.nextMove ≠ .hostWrite off bytes) :=
  ⟨⟨_, rfl, by decide +kernel, rfl⟩, _, rfl, fun _ _ h => by cases h⟩

/-- The invariants hold of the scenario with a register command in the held slot, and steps go on from it. -/
theorem witness_invariants :
    let s := { scenario with pool := filled.pool }
    MemoryInv s ∧ RegisterInv s ∧ GeometryInv s ∧ PoolInv s ∧ WireInv s ∧ ∃ t, step s = .next t := by
  refine ⟨⟨?_, ?_, ?_, ?_, ?_⟩, ⟨?_, ?_, ?_, ?_, ?_, ?_⟩, ⟨?_, ?_, ?_, ?_, ?_⟩, ⟨?_, ?_, ?_, ?_, ?_, ?_, ?_, ?_, ?_⟩, ⟨?_, ?_⟩, _, rfl⟩
  on_goal 16 => exact fun _ _ h => by cases h
  on_goal 25 => exact fun e h => by cases h
  on_goal 25 =>
    intro k hk
    cases hk
    refine ⟨_, rfl, ?_⟩
    rintro ⟨n, hn⟩
    simp at hn
  all_goals decide +kernel

/-- Runs of 1 and of 255 raw values, and of none and 256. -/
theorem witness_RunsReachDevice :
    ([7] : List Half).getLast? = some 7 ∧ ([7] : List Half).length ≤ 255 ∧
    (List.replicate 255 (7 : Byte)).getLast? = some 7 ∧ (List.replicate 255 (7 : Byte)).length ≤ 255 ∧
    255 < (List.replicate 256 (7 : Byte)).length ∧ ([] : List Half).length = 0 := by decide +kernel

end Sys2Proof.Tests
end

section
/-!
PROOFS. What every invariant of the whole machine rests on: an invariant that does not speak of the queue, the moves, FB, the
device or the marks is kept by every step as soon as the requests, TRANSPORT's COMPLETE and the ends of the waits keep it.
-/

namespace Sys2Proof.Machine

/-- TRANSPORT's only instruction is COMPLETE (30_encoding.md R92). -/
theorem Effect.transport {i : Instr} {s t : State} (h : Effect i s t) (hi : i.agent = .transport) :
    (s.flag .attached = true ∧ ∃ k, t = s.completeSlot k) ∨ (s.flag .attached = false ∧ t = s) := by
  cases h with
  | completed _ k ha => exact .inl ⟨ha, k, rfl⟩
  | completeIgnored _ _ ha => exact .inr ⟨ha, rfl⟩
  | answered _ _ _ _ hh => rw [hi] at hh; cases hh
  | wrote _ _ _ _ _ _ hh => rw [hi] at hh; cases hh
  | device _ _ _ hh => rw [hi] at hh; cases hh
  | _ => cases hi

/-- The check at the end of a step changes the marks at most. -/
theorem State.checkPool_eq_marks (s : State) : s.checkPool = { s with marks := s.checkPool.marks } := by
  rcases s.checkPool_cases with h | h
  · rw [h]
  · rw [h]; rfl

/-- The STATUS bits after a SETFB that has used a choice and a fresh tag. -/
theorem State.latchFb_drawn_flag (s : State) (tag : Nat) (r : FbRegs) (b : Bool) (buf : Buf) (g : StatusFlag) :
    (({ s.afterDraw with drawCount := tag } : State).latchFb r b buf).flag g =
      if .fbValid = g then true else if .backingEn = g then b else s.flag g := by
  rw [State.latchFb_flag, ← s.afterDraw_flag]
  rfl

/-- An invariant that each agent's part of a step keeps. The parts are those that change more than the queue, the moves, FB, the
device and the marks. -/
structure KeptByAgents (I : State → Prop) : Prop where
  outside : ∀ s queue moves hostFb device marks, I s →
    I { s with queue := queue, moves := moves, hostFb := hostFb, device := device, marks := marks }
  request : ∀ i s t, I s → s.pending = none → Effect i s t → I t
  complete : ∀ s k, I s → s.flag .attached = true → I (s.completeSlot k)
  acquireEnds : ∀ s, I s → s.pending = some .acquire → s.pool.avail ≠ 0 → I (s.takeSlot.replied .ok .none)
  modesetEnds : ∀ s m split t, I s → s.pending = some (.modeset m split) → s.pool.avail ≠ 0 →
    modesetTake m split s = .next t → I t
  detachEnds : ∀ s, I s → s.pending = some .detach → I (s.destroySession.replied .ok .none)
  acquireTimesOut : ∀ s, I s → (s.pending = some .acquire ∨ ∃ m split, s.pending = some (.modeset m split)) →
    I ((s.setFlag .lostPixels true).replied .timeout .none)
  frameGoesOn : ∀ s f t, I s → s.pending = some (.frame f) → s.pool.avail ≠ 0 → resumeFrame f s = .next t → I t
  frameTimesOut : ∀ s f t, I s → s.pending = some (.frame f) → timeoutFrame f s = .next t → I t

/-- One move keeps such an invariant. -/
theorem KeptByAgents.move {I : State → Prop} (h : KeptByAgents I) {m : Move} {s t : State} (hs : I s)
    (hm : MoveEffect m s t) : I t := by
  cases hm with
  | idle => exact hs
  | refused _ _ rest => exact h.outside s rest _ _ _ _ hs
  | ran _ _ rest i _ hp _ _ _ he => exact h.request i _ t (h.outside s rest _ _ _ _ hs) hp he
  | acquireEnds _ hp ha => exact h.acquireEnds s hs hp ha
  | modesetEnds _ m split _ hp ha ht => exact h.modesetEnds s m split t hs hp ha ht
  | detachEnds _ hp => exact h.detachEnds s hs hp
  | frameGoesOn _ f _ hp ha ht => exact h.frameGoesOn s f t hs hp ha ht
  | issued record => exact h.outside s (s.queue ++ [record]) _ _ _ _ hs
  | hostWrote off bytes => exact h.outside s _ _ (Memory.storeList s.hostFb off bytes) _ _ hs
  | acquireTimesOut _ hp => exact h.acquireTimesOut s hs hp
  | frameTimesOut _ f _ hp _ ht => exact h.frameTimesOut s f t hs hp ht
  | transported _ _ _ _ _ hi he =>
    rcases he.transport hi with ⟨ha, k, rfl⟩ | ⟨-, rfl⟩
    · exact h.complete s k hs ha
    · exact hs
  | read _ _ _ d => exact h.outside s _ _ _ d _ hs

/-- Every step keeps such an invariant. -/
theorem KeptByAgents.step {I : State → Prop} (h : KeptByAgents I) {s t : State} (hs : I s) (ht : step s = .next t) : I t := by
  rcases step_effect ht with ⟨-, rfl⟩ | ⟨-, u, hu, rfl⟩
  · exact h.outside s _ _ _ _ _ hs
  · rw [State.checkPool_eq_marks]
    exact h.outside u _ _ _ _ _ (h.move (h.outside s _ s.moves.tail _ _ _ hs) hu)

end Sys2Proof.Machine
end

section
/-!
PROOFS. The pool rules: every step keeps them (10_state.md R35 to R38, 45_slot_pool.md R211), and under them AVAIL counts the free
slots.
-/

namespace Sys2Proof.Machine

/-! ## Every step keeps the pool rules -/

/-- The rules do not speak of anything but the configuration, the pool, STATUS.ATTACHED and whether a request waits. -/
theorem PoolInv.of_eq {s t : State} (h : PoolInv s) (hc : t.cfg = s.cfg) (hp : t.pool = s.pool)
    (hf : t.flag .attached = s.flag .attached) (hw : t.pending ≠ none → s.pending ≠ none) : PoolInv t := by
  obtain ⟨config, countable, absent, size, r38, wptrLe, wptrNone, waiting, lengths⟩ := h
  constructor
  case waiting => intro ht; rw [hf, hp]; exact waiting (hw ht)
  all_goals simpa only [hc, hp, hf]

/-- Within a session a sound pool is all the rules ask for, but for a waiting request, which holds no slot. -/
theorem PoolOk.inv {s : State} (h : PoolOk s) (ha : s.flag .attached = true)
    (hp : s.pending = none ∨ s.pool.held = none) : PoolInv s :=
  PoolRun.inv (c := s.cfg) (m := s.marks) ⟨rfl, h, rfl, ha⟩ fun hw => hp.resolve_left hw

theorem PoolInv.ok {s : State} (h : PoolInv s) (ha : s.flag .attached = true) : PoolOk s := (h.run ha).ok

/-- A request that ends leaves the rules as they are. -/
theorem PoolInv.replied {s : State} (h : PoolInv s) (st : StatusCode) (r : Result) : PoolInv (s.replied st r) :=
  h.of_eq rfl rfl rfl fun hw => absurd rfl hw

theorem PoolOk.replied {s : State} (h : PoolOk s) (ha : s.flag .attached = true) (st : StatusCode) (r : Result) :
    PoolInv (s.replied st r) :=
  (h.of_eq rfl rfl : PoolOk (s.replied st r)).inv ha (.inl rfl)

theorem PoolOk.waitAt {s : State} (h : PoolOk s) (ha : s.flag .attached = true) (hh : s.pool.held = none) (p : Pending) :
    PoolInv (s.waitAt p) :=
  (h.of_eq rfl rfl : PoolOk (s.waitAt p)).inv ha (.inr hh)

/-- A stretch of work that ends without a slot keeps the rules. -/
theorem WithoutSlot.inv {c : Params} {m : Marks} {s : State} (h : WithoutSlot c m s) : PoolInv s := h.1.inv fun _ => h.2

/-- Destroying the session removes the pool. -/
theorem PoolInv.detached {s : State} (h : PoolInv s) : PoolInv (s.destroySession.replied .ok .none) where
  config := h.config
  countable := h.countable
  absent _ := rfl
  size ha := by simp at ha
  r38 := show Pool.absent.holdsR38 = true by decide
  wptrLe := Nat.zero_le _
  wptrNone _ := rfl
  waiting hp := absurd rfl hp
  lengths _ hs := by cases hs

/-- A legal slot size fits into a u32 (00_scope.md R7). -/
theorem slotBytes_lt_of_valid {c : Params} (h : c.Valid) : c.slotBytes < 2 ^ 32 := by
  obtain ⟨-, -, -, -, -, ⟨-, hS⟩, -⟩ := h
  exact hS

/-- ATTACH makes a sound pool. -/
theorem PoolInv.attached {s : State} (h : PoolInv s) : PoolInv (s.createSession.replied .ok .none) := by
  have ok : PoolOk s.createSession :=
    ⟨h.config, Pool.Sound.fresh s.cfg s.drawCount h.countable (slotBytes_lt_of_valid h.config)⟩
  exact ok.replied (by simp) _ _

/-- DETACH's release of a held slot. -/
theorem PoolOk.dropped {s u : State} (h : PoolOk s) (ha : s.flag .attached = true)
    (hu : (s.pool.held = none ∧ u = s) ∨ ∃ k, s.pool.held = some k ∧ u = s.releaseSlot k) :
    PoolOk u ∧ u.flag .attached = true ∧ u.pool.held = none := by
  rcases hu with ⟨hh, rfl⟩ | ⟨k, hk, rfl⟩
  · exact ⟨h, ha, hh⟩
  · exact ⟨h.release hk, ha, rfl⟩

/-- Every request keeps the pool rules. -/
theorem Effect.poolInv {i : Instr} {s t : State} (h : Effect i s t) (hs : PoolInv s) : PoolInv t := by
  cases h with
  | answered => exact hs.replied _ _
  | wrote _ _ regs ha => exact ((hs.ok ha).emit _).replied (by simpa using ha) _ _
  | encoded16 vals k addr _ ha => exact ((hs.ok ha).emit _).replied (by simpa using ha) _ _
  | encoded8 vals k addr _ ha => exact ((hs.ok ha).emit _).replied (by simpa using ha) _ _
  | acquireWaits _ ha hh => exact (hs.ok ha).waitAt ha hh _
  | acquired _ ha hh hsome => exact ((hs.ok ha).take hh hsome).replied (by simpa using ha) _ _
  | submitted _ k ha hk hw => exact ((hs.ok ha).submit hk hw).replied (by simp [State.submitSlot_flag, ha]) _ _
  | released _ k ha hk => exact ((hs.ok ha).release hk).replied (by simpa using ha) _ _
  | completed _ k ha =>
    exact ((hs.ok ha).complete k).inv (by simpa using ha) (by simpa [imp_iff_not_or] using fun hp => (hs.waiting hp).2)
  | completeIgnored => exact hs
  | rendered _ _ _ _ _ _ _ _ _ _ ha _ _ hh _ _ _ _ ht => exact (frameLoop_pool (hs.run ha) hh ht).inv
  | filled _ _ _ ha _ hh ht => exact (frameLoop_pool (hs.run ha) hh ht).inv
  | cleared => exact (hs.of_eq rfl rfl (by simp) id : PoolInv (s.setFlag .lostPixels false)).replied _ _
  | linked _ val => exact (hs.of_eq rfl rfl rfl id : PoolInv (s.setDeviceActive _)).replied _ _
  | modesetWaits m split _ ha hh => exact (hs.ok ha).waitAt ha hh _
  | modesetTakes m split _ _ ha hh _ hsome ht => exact (modesetTake_pool (hs.run ha) hh hsome ht).inv
  | fbPlain => exact hs.of_eq (by simp) (by simp) (by simp) (by simp)
  | fbBacked => exact hs.of_eq (by simp) (by simp) (State.latchFb_drawn_flag ..) (by simp)
  | fbFailed => exact hs.of_eq (by simp) (by simp) (by simp) (by simp)
  | cursorSet => exact hs.of_eq rfl rfl rfl (by simp)
  | attaches => exact hs.attached
  | detachWaits _ u ha hu =>
    obtain ⟨hok, hat, hh⟩ := (hs.ok ha).dropped ha hu
    exact hok.waitAt hat hh _
  | detaches _ u ha hu =>
    obtain ⟨hok, hat, hh⟩ := (hs.ok ha).dropped ha hu
    exact (hok.inv hat (.inr hh)).detached
  | device => exact hs.of_eq rfl rfl rfl id

theorem poolInv_keptByAgents : KeptByAgents PoolInv where
  outside _ _ _ _ _ _ hs := hs.of_eq rfl rfl rfl id
  request _ _ _ hs _ he := he.poolInv hs
  complete _ k hs ha := (Effect.completed _ k ha).poolInv hs
  acquireEnds s hs hp hsome :=
    have ⟨ha, hh⟩ := hs.waiting (by simp [hp])
    (Effect.acquired s ha hh hsome).poolInv hs
  modesetEnds s m split t hs hp hsome ht :=
    have ⟨ha, hh⟩ := hs.waiting (by simp [hp])
    (modesetTake_pool (hs.run ha) hh hsome ht).inv
  detachEnds s hs _ := hs.detached
  acquireTimesOut s hs _ := (hs.of_eq rfl rfl (by simp) id : PoolInv (s.setFlag .lostPixels true)).replied _ _
  frameGoesOn s f t hs hp hsome ht :=
    have ⟨ha, hh⟩ := hs.waiting (by simp [hp])
    ((poolRun_rule s.cfg s.marks f).resumeFrame ⟨rfl, rfl, rfl, rfl⟩ ⟨hs.run ha, hh⟩ hsome ht).inv
  frameTimesOut s f t hs hp ht :=
    have ⟨ha, hh⟩ := hs.waiting (by simp [hp])
    ((poolRun_rule s.cfg s.marks f).timeoutFrame ⟨rfl, rfl, rfl, rfl⟩ ⟨hs.run ha, hh⟩ ht).inv

/-- Settles O31: the agents' parts of a step keep the pool rules. -/
theorem poolInvKept : Obligations.PoolInvKept := fun _ _ hs ht => poolInv_keptByAgents.step hs ht

/-! ## AVAIL counts the free slots -/

/-- FREEQ holds each free slot once and nothing else, so it is as long as there are free slots (10_state.md R38). -/
theorem Pool.countP_free {p : Pool} (h : p.holdsR38 = true) :
    p.slots.countP (fun slot => slot.state = .free) = p.freeq.length := by
  obtain ⟨-, hnodup, hlt, hstate, -⟩ := (Pool.holdsR38_iff p).mp h
  have hperm : ((List.range p.slots.length).filter (· ∈ p.freeq)).Perm p.freeq :=
    (List.perm_ext_iff_of_nodup (List.nodup_range.filter _) hnodup).mpr fun k => by
      simpa using hlt k
  have hslots : p.slots.map some = (List.range p.slots.length).map (fun k => p.slots[k]?) :=
    List.ext_getElem (by simp) (by simp)
  calc p.slots.countP (fun slot => slot.state = .free)
      = (p.slots.map some).countP (fun o => o.any fun slot => slot.state = .free) := by simp [List.countP_map, Function.comp_def]
    _ = (List.range p.slots.length).countP (· ∈ p.freeq) := by
      rw [hslots, List.countP_map]
      refine List.countP_congr fun k hk => ?_
      have hslot := List.getElem?_eq_getElem (List.mem_range.mp hk)
      simpa only [Function.comp_apply, hslot, Option.any_some, decide_eq_true_eq] using (hstate k _ hslot).1.symm
    _ = p.freeq.length := by rw [List.countP_eq_length_filter, hperm.length_eq]

/-- Settles O32, by counting the free slots through FREEQ. -/
theorem poolCountsOutstanding : Obligations.PoolCountsOutstanding := by
  intro s hs ha
  have hfree := Pool.countP_free hs.r38
  obtain ⟨havail, -, -, hstate, -⟩ := (Pool.holdsR38_iff _).mp hs.r38
  have hsize := hs.size ha
  have hsum := List.length_eq_countP_add_countP (fun slot : Slot => slot.state = .free) (l := s.pool.slots)
  simp only [decide_eq_true_eq] at hsum
  have houtside : s.pool.slots.countP (fun slot => slot.state ≠ .free) = s.cfg.slotCount - s.pool.avail.toNat := by
    simp only [ne_eq]
    omega
  refine ⟨havail, by omega, houtside, by omega, fun hh hi => ?_⟩
  have hnone : s.pool.slots.countP (fun slot => slot.state ≠ .free) = 0 := by
    refine List.countP_eq_zero.mpr fun slot hmem => ?_
    obtain ⟨k, hk⟩ := List.mem_iff_getElem?.mp hmem
    have hheld : slot.state ≠ .held := fun hst => by simpa [hh] using (hstate k slot hk).2.mpr hst
    have hfly : slot.state ≠ .inflight := by simpa using List.countP_eq_zero.mp hi slot hmem
    cases hst : slot.state <;> simp_all
  omega

end Sys2Proof.Machine
end

section
/-!
PROOFS. Every step keeps the register rules (10_state.md R26, R27, R31, R42).
-/

namespace Sys2Proof.Machine

/-! ## The reserved bits of STATUS -/

/-- Bits 31:7 of STATUS read 0 (10_state.md R27). -/
def State.StatusReserved (s : State) : Prop := s.status &&& 0xFFFFFF80 = 0

theorem State.StatusReserved.of_eq {s t : State} (h : s.StatusReserved) (e : t.status = s.status) : t.StatusReserved := by
  unfold State.StatusReserved
  rw [e]
  exact h

/-- A named bit lies below the reserved ones. -/
theorem State.StatusReserved.setFlag {s : State} (h : s.StatusReserved) (f : StatusFlag) (b : Bool) :
    (s.setFlag f b).StatusReserved := by
  have hbit : 1#32 <<< f.bit &&& 0xFFFFFF80 = 0 := by cases f <;> decide
  unfold State.StatusReserved at *
  unfold State.setFlag setBit
  cases b
  · calc s.status &&& ~~~(1#32 <<< f.bit) &&& 0xFFFFFF80
        = (s.status &&& 0xFFFFFF80) &&& ~~~(1#32 <<< f.bit) := by ac_rfl
      _ = 0 := by rw [h]; simp
  · calc (s.status ||| 1#32 <<< f.bit) &&& 0xFFFFFF80
        = (s.status &&& 0xFFFFFF80) ||| (1#32 <<< f.bit &&& 0xFFFFFF80) := BitVec.and_or_distrib_right
      _ = 0 := by rw [h, hbit]; rfl

theorem State.StatusReserved.latchMode {s : State} (h : s.StatusReserved) (m : ModeRegs) (split : Bool) :
    (s.latchMode m split).StatusReserved :=
  ((h.of_eq rfl).setFlag .split split).setFlag .modeValid true

theorem State.StatusReserved.latchFb {s : State} (h : s.StatusReserved) (r : FbRegs) (b : Bool) (buf : Buf) :
    (s.latchFb r b buf).StatusReserved :=
  ((h.of_eq rfl).setFlag .backingEn b).setFlag .fbValid true

theorem State.StatusReserved.submitSlot {s : State} (h : s.StatusReserved) (k : Nat) : (s.submitSlot k).StatusReserved := by
  unfold State.submitSlot
  cases s.nextChoice
  · rw [State.submitWith_reject]
    exact (h.of_eq (by simp)).setFlag _ _
  · rw [State.submitWith_accept]
    exact h.of_eq (by simp)

theorem State.StatusReserved.submitF {s : State} (h : s.StatusReserved) : s.submitF.StatusReserved := by
  unfold State.submitF
  split
  · exact h.submitSlot _
  · exact h

theorem State.StatusReserved.endOfFrame {s t : State} (h : s.StatusReserved) (ht : endOfFrame s = .next t) :
    t.StatusReserved := by
  obtain ⟨u, hu, rfl⟩ := endOfFrame_cases ht
  have hr : u.StatusReserved := by
    rcases hu with ⟨-, rfl⟩ | ⟨k, -, ⟨-, rfl⟩ | ⟨-, rfl⟩⟩
    · exact h
    · exact h.submitSlot k
    · exact h.of_eq (by simp)
  exact (hr.of_eq (t := u.afterDraw.countCpu u.nextDraw) (by simp)).setFlag _ _

/-- A frame operation sets and clears named bits only. -/
theorem statusReserved_rule (c : Params) (f0 : FrameCtx) :
    FrameRule c f0 (fun s => s.cfg = c ∧ s.StatusReserved) (fun s => s.cfg = c ∧ s.StatusReserved) State.StatusReserved :=
  .uniform c f0 (fun _ h => h.1)
    (emit := fun _ _ h => ⟨by simpa using h.1, h.2.of_eq (by simp)⟩)
    (submit := fun _ h => ⟨by simpa using h.1, h.2.submitF⟩)
    (take := fun _ h => ⟨by simpa using h.1, h.2.of_eq (by simp)⟩)
    (count := fun _ _ h => ⟨by simpa using h.1, h.2.of_eq (by simp)⟩)
    (prepare := fun _ _ h => ⟨by simpa using h.1, h.2.of_eq (by simp)⟩)
    (lost := fun _ h => ⟨h.1, h.2.setFlag _ _⟩)
    (wait := fun _ _ _ h => h.2)
    (ends := fun _ _ h ht => h.2.endOfFrame ht)

/-! ## Each agent's part of a step -/

@[simp] theorem State.replied_inFrame (s : State) (st : StatusCode) (r : Result) : (s.replied st r).inFrame = false := rfl

theorem State.inFrame_of_pending {s : State} (h : s.pending = none) : s.inFrame = false := by
  simp [State.inFrame, h]

/-- The rules after a change that leaves LINK and the cursor alone. -/
theorem RegisterInv.of_eq {s t : State} (h : RegisterInv s) (hr : t.StatusReserved) (hl : t.link = s.link)
    (hc : t.cursor = s.cursor) (hb : t.flag .frameBusy = t.inFrame) : RegisterInv t where
  status := hr
  link := by rw [hl]; exact h.link
  visible := by rw [hc]; exact h.visible
  busy := hb
  cursorBpp := by rw [hc]; exact h.cursorBpp
  sprite := by rw [hc]; exact h.sprite

/-- The rules after a change that leaves STATUS alone too, from a state in which no frame operation waits to another. -/
theorem RegisterInv.quiet {s t : State} (h : RegisterInv s) (hs : t.status = s.status) (hl : t.link = s.link)
    (hc : t.cursor = s.cursor) (hi : t.inFrame = s.inFrame) : RegisterInv t :=
  h.of_eq (State.StatusReserved.of_eq h.status hs) hl hc (by rw [hi, ← h.busy, State.flag, State.flag, hs])

/-- A frame operation's FRAME_BUSY is 1 exactly while it waits (10_state.md R27). -/
theorem FrameEnds.registerInv {s s0 t : State} {f0 : FrameCtx} (h : FrameEnds s0 f0 t) (hr : t.StatusReserved)
    (hs : RegisterInv s) (hl : s0.link = s.link) (hc : s0.cursor = s.cursor) (hb : s0.flag .frameBusy = true) :
    RegisterInv t := by
  refine hs.of_eq hr (h.stable.link.trans hl) (h.stable.cursor.trans hc) ?_
  rcases h.ends with ⟨-, hp, hbusy, -⟩ | ⟨-, hbusy, f, hp, -⟩
  · rw [hbusy, State.inFrame_of_pending hp]
  · rw [hbusy, hb, State.inFrame, hp]

theorem frameLoop_registerInv {source : FrameSource} {x0 x1 y0 y1 : Nat} {s t : State} (hs : RegisterInv s)
    (ht : frameLoop source x0 x1 y0 y1 s = .next t) : RegisterInv t :=
  have hr : State.StatusReserved (s.setFlag .frameBusy true) := State.StatusReserved.setFlag hs.status _ _
  (frameLoop_ends ht).registerInv
    ((statusReserved_rule s.cfg ⟨source, x0, x1, y0, y1, 0, .line⟩).runLines (y1 - y0) ⟨rfl, rfl, rfl, rfl⟩ le_rfl
      (s := s.setFlag .frameBusy true) (.inl ⟨rfl, hr⟩) ht)
    hs rfl rfl (by simp)

/-- MODESET from its acquire on writes named bits of STATUS only. -/
theorem modesetTake_registerInv {m : ModeRegs} {split : Bool} {s t : State} (hs : RegisterInv s)
    (hb : s.flag .frameBusy = false) (ht : modesetTake m split s = .next t) : RegisterInv t := by
  have hr : (s.takeSlot.emit (modesetStream s.cfg m split)).StatusReserved := State.StatusReserved.of_eq hs.status (by simp)
  rcases modesetTake_cases ht with ⟨k, -, ⟨-, rfl⟩ | ⟨-, rfl⟩⟩ | ⟨-, rfl⟩
  · exact hs.of_eq ((hr.submitSlot k).latchMode m split) (by simp) (by simp) (by simp [State.submitSlot_flag, hb])
  · exact hs.of_eq (hr.submitSlot k) (by simp) (by simp) (by simp [State.submitSlot_flag, hb])
  · exact hs.of_eq hr (by simp) (by simp) (by simp [hb])

/-- The rules hold of the registers without a session, and of those ATTACH sets. -/
theorem RegisterInv.detached (s : State) : RegisterInv (s.destroySession.replied .ok .none) where
  status := by simp
  link := by simp
  visible := by simp [Cursor.reset]
  busy := by simp
  cursorBpp := rfl
  sprite := rfl

theorem RegisterInv.attached (s : State) : RegisterInv (s.createSession.replied .ok .none) where
  status := by simp
  link := by simp
  visible := by simp [Cursor.reset]
  busy := by simp
  cursorBpp := rfl
  sprite := rfl

/-- Every request keeps the register rules. -/
theorem Effect.registerInv {i : Instr} {s t : State} (h : Effect i s t) (hs : RegisterInv s) (hp : s.pending = none) :
    RegisterInv t := by
  have hi : s.inFrame = false := State.inFrame_of_pending hp
  have hb : s.flag .frameBusy = false := hs.busy.trans hi
  cases h with
  | answered => exact hs.quiet rfl rfl rfl hi.symm
  | wrote | encoded16 | encoded8 => exact hs.quiet (by simp) (by simp) (by simp) hi.symm
  | acquireWaits | modesetWaits => exact hs.quiet rfl rfl rfl hi.symm
  | acquired | released => exact hs.quiet (by simp) (by simp) (by simp) hi.symm
  | submitted _ k =>
    exact hs.of_eq (State.StatusReserved.submitSlot hs.status k) (by simp) (by simp) (by simp [State.submitSlot_flag, hb])
  | completed _ k => exact hs.quiet (by simp) (by simp) (by simp) (by simp [State.inFrame])
  | completeIgnored => exact hs
  | rendered _ _ _ _ _ _ _ _ _ _ _ _ _ _ _ _ _ _ ht => exact frameLoop_registerInv hs ht
  | filled _ _ _ _ _ _ ht => exact frameLoop_registerInv hs ht
  | cleared => exact hs.of_eq (State.StatusReserved.setFlag hs.status _ _) rfl rfl (by simp [hb])
  | linked _ val =>
    have hlink : (s.setDeviceActive (val.getLsbD 0)).link &&& 0xFFFFFFFE = 0 := by
      cases val.getLsbD 0 <;> simp [State.setDeviceActive]
    exact ⟨hs.status, hlink, hs.visible, by simpa using hb, hs.cursorBpp, hs.sprite⟩
  | modesetTakes m split _ _ _ _ _ _ ht => exact modesetTake_registerInv hs hb ht
  | fbPlain => exact hs.of_eq (State.StatusReserved.latchFb hs.status _ _ _) rfl rfl (by simp [hb])
  | fbBacked =>
    have hdrawn : State.StatusReserved { s.afterDraw with drawCount := s.afterDraw.drawCount + 1 } :=
      State.StatusReserved.of_eq hs.status (by simp)
    exact hs.of_eq (hdrawn.latchFb _ _ _) (by simp) (by simp) ((State.latchFb_drawn_flag ..).trans hb)
  | fbFailed => exact hs.quiet (by simp) (by simp) (by simp) hi.symm
  | cursorSet _ _ _ _ visible _ _ _ size =>
    exact ⟨hs.status, hs.link, by cases visible <;> simp [wordOfBool], hb, rfl, size⟩
  | attaches => exact .attached s
  | detachWaits _ u _ hu =>
    rcases hu with ⟨-, rfl⟩ | ⟨k, -, rfl⟩ <;> exact hs.quiet rfl rfl rfl hi.symm
  | detaches _ u => exact .detached u
  | device => exact hs.quiet rfl rfl rfl rfl

theorem registerInv_keptByAgents : KeptByAgents RegisterInv where
  outside _ _ _ _ _ _ hs := hs.quiet rfl rfl rfl rfl
  request _ _ _ hs hp he := he.registerInv hs hp
  complete _ k hs _ := hs.quiet (by simp) (by simp) (by simp) (by simp [State.inFrame])
  acquireEnds s hs hp _ := hs.quiet (by simp) (by simp) (by simp) (by simp [State.inFrame, hp])
  modesetEnds s m split t hs hp _ ht := modesetTake_registerInv hs (by simp [hs.busy, State.inFrame, hp]) ht
  detachEnds s _ _ := .detached s
  acquireTimesOut s hs hp := by
    have hb : s.flag .frameBusy = false := by
      rw [hs.busy]
      rcases hp with hp | ⟨m, split, hp⟩ <;> simp [State.inFrame, hp]
    exact hs.of_eq (State.StatusReserved.setFlag hs.status _ _) rfl rfl (by simp [hb])
  frameGoesOn s f t hs hp hsome ht :=
    (resumeFrame_ends hsome ht).registerInv
      ((statusReserved_rule s.cfg f).resumeFrame ⟨rfl, rfl, rfl, rfl⟩ ⟨rfl, hs.status⟩ hsome ht) hs rfl rfl
      (by simp [hs.busy, State.inFrame, hp])
  frameTimesOut s f t hs hp ht :=
    (timeoutFrame_ends ht).registerInv
      ((statusReserved_rule s.cfg f).timeoutFrame ⟨rfl, rfl, rfl, rfl⟩ ⟨rfl, hs.status⟩ ht) hs rfl rfl
      (by simp [hs.busy, State.inFrame, hp])

/-- Settles O55: the agents' parts of a step keep the register rules. -/
theorem registerInvKept : Obligations.RegisterInvKept := fun _ _ hs ht => registerInv_keptByAgents.step hs ht

end Sys2Proof.Machine
end

section
/-!
PROOFS. Every step keeps the geometry rules (10_state.md R39, 20_memory.md R64, 46_frame_loop.md R220, R234).
-/

namespace Sys2Proof.Machine

/-! ## The rules without the waiting request -/

/-- The framebuffer and BACKING part of the geometry rules. -/
structure State.BackingRules (s : State) : Prop where
  pitch : s.flag .fbValid = true → 4 * (s.fbReg.vx.toNat + s.fbReg.width.toNat) ≤ s.fbReg.pitch.toNat
  backingValid : s.flag .backingEn = true → s.flag .fbValid = true
  noBacking : s.flag .backingEn = false → s.backing.cells = []
  inside : ∀ c ∈ s.backing.cells, c.1 < s.backingSize

/-- A frame operation that reads FB stays in the visible area (46_frame_loop.md R220). -/
def FrameCtx.Visible (f : FrameCtx) (s : State) : Prop :=
  ∀ snapshot, f.source = .framebuffer snapshot → f.x1 ≤ s.visibleWidth ∧ f.yEnd ≤ s.visibleHeight

theorem FrameCtx.Visible.of_same {f g : FrameCtx} {s t : State} (h : f.Visible s) (hg : FrameCtx.Same f g)
    (hr : t.fbReg = s.fbReg) (hm : t.mode = s.mode) : g.Visible t := by
  obtain ⟨hsource, -, hx1, hyEnd⟩ := hg
  unfold FrameCtx.Visible State.visibleWidth State.visibleHeight at *
  rw [hsource, hx1, hyEnd, hr, hm]
  exact h

theorem State.BackingRules.of_eq {s t : State} (h : s.BackingRules) (hr : t.fbReg = s.fbReg) (hb : t.backing = s.backing)
    (hv : t.flag .fbValid = s.flag .fbValid) (he : t.flag .backingEn = s.flag .backingEn) : t.BackingRules := by
  obtain ⟨pitch, backingValid, noBacking, inside⟩ := h
  constructor
  all_goals simpa only [State.backingSize, hr, hb, hv, he]

theorem GeometryInv.rules {s : State} (h : GeometryInv s) : s.BackingRules := ⟨h.pitch, h.backingValid, h.noBacking, h.inside⟩

theorem GeometryInv.visible {s : State} (h : GeometryInv s) {f : FrameCtx} (hp : s.pending = some (.frame f)) : f.Visible s :=
  fun snapshot hf => h.frame f snapshot hp hf

theorem State.BackingRules.inv {s : State} (h : s.BackingRules) (hp : ∀ f, s.pending = some (.frame f) → f.Visible s) :
    GeometryInv s :=
  ⟨h.pitch, h.backingValid, h.noBacking, h.inside, fun f snapshot hf => hp f hf snapshot⟩

/-- The rules after a step that ends without a frame operation waiting. -/
theorem State.BackingRules.inv_of_not_inFrame {s : State} (h : s.BackingRules) (hp : s.inFrame = false) : GeometryInv s :=
  h.inv fun f hf => by simp [State.inFrame, hf] at hp

/-! ## What a line writes into BACKING -/

/-- A line of a valid framebuffer lies inside BACKING: no byte of row `y` from column `x` on passes the end of the buffer. -/
theorem State.BackingRules.row_inside {s : State} (h : s.BackingRules) (hv : s.flag .fbValid = true) {x n y : Nat}
    (hx : x + n ≤ s.fbReg.width.toNat) (hy : y < s.fbReg.height.toNat) :
    s.pixelOffset x y + 4 * n ≤ s.backingSize := by
  have hpitch := h.pitch hv
  have hrow : (s.fbReg.vy.toNat + y + 1) * s.fbReg.pitch.toNat ≤
      (s.fbReg.vy.toNat + s.fbReg.height.toNat) * s.fbReg.pitch.toNat :=
    Nat.mul_le_mul_right _ (by omega)
  calc s.pixelOffset x y + 4 * n
      = (s.fbReg.vy.toNat + y) * s.fbReg.pitch.toNat + 4 * (s.fbReg.vx.toNat + (x + n)) := by
        unfold State.pixelOffset; ring
    _ ≤ (s.fbReg.vy.toNat + y + 1) * s.fbReg.pitch.toNat := by rw [Nat.add_one_mul (s.fbReg.vy.toNat + y)]; omega
    _ ≤ s.backingSize := by unfold State.backingSize; rw [Nat.mul_comm s.fbReg.pitch.toNat]; exact hrow

theorem length_flatMap_bytesLe32 (pix : List Word) : (pix.flatMap bytesLe32).length = 4 * pix.length := by
  simp [List.length_flatMap, bytesLe32, Nat.mul_comm]

theorem length_lineBytes (s : State) (f : FrameCtx) : (lineBytes s f).length = 4 * (f.x1 - f.x0) := by
  have hlen : (linePixels s f).length = f.x1 - f.x0 := by
    unfold linePixels Cursor.blendLine sourcePixels
    split
    · split <;> simp
    · simp
  rw [lineBytes, length_flatMap_bytesLe32, hlen]

/-- The bytes a visible line writes into BACKING lie inside it (41_frame_diff.md R134, 46_frame_loop.md R227). -/
theorem State.BackingRules.nextBacking_inside {s : State} (h : s.BackingRules) {f : FrameCtx} (hf : f.Visible s)
    (hy : f.y < f.yEnd) : ∀ c ∈ (nextBacking s f).cells, c.1 < s.backingSize := by
  intro c hc
  unfold nextBacking at hc
  split at hc
  case isFalse => exact h.inside c hc
  case isTrue he =>
  have hv := h.backingValid he
  split at hc
  · next snapshot hsource =>
    obtain ⟨hx1, hyEnd⟩ := hf snapshot hsource
    have hrow : f.x0 ≤ f.x1 → s.pixelOffset f.x0 f.y + 4 * (f.x1 - f.x0) ≤ s.backingSize := fun hx =>
      h.row_inside hv (by rw [State.visibleWidth] at hx1; omega) (by rw [State.visibleHeight] at hyEnd; omega)
    rcases Memory.mem_storeList hc with hc | ⟨hlo, hhi⟩
    · exact h.inside c hc
    · simp only [List.length_take, List.length_drop, length_lineBytes] at hhi
      omega
  · next color hsource =>
    split at hc
    case isFalse => exact h.inside c hc
    case isTrue hvis =>
    have hrow : s.pixelOffset 0 f.y + 4 * s.visibleWidth ≤ s.backingSize :=
      h.row_inside hv (by rw [State.visibleWidth]; omega) hvis
    rcases Memory.mem_storeList hc with hc | ⟨hlo, hhi⟩
    · exact h.inside c hc
    · rw [length_flatMap_bytesLe32, List.length_replicate] at hhi
      exact hhi.trans_le hrow

/-- A line that is prepared for the encoder keeps the rules. -/
theorem State.BackingRules.prepareLine {s : State} (h : s.BackingRules) {f : FrameCtx} (hf : f.Visible s) (hy : f.y < f.yEnd) :
    (s.prepareLine f).BackingRules where
  pitch hv := by simpa using h.pitch (by simpa using hv)
  backingValid he := by simpa using h.backingValid (by simpa using he)
  noBacking he := by
    have he : s.flag .backingEn = false := by simpa using he
    simpa [nextBacking, he] using h.noBacking he
  inside c hc := by simpa [State.backingSize] using h.nextBacking_inside hf hy c (by simpa using hc)

/-! ## A frame operation -/

/-- The rules while a frame operation runs that is a later point of `f0`. -/
structure FrameGeometry (c : Params) (f0 : FrameCtx) (s : State) : Prop where
  cfg : s.cfg = c
  rules : s.BackingRules
  visible : f0.Visible s

theorem FrameGeometry.of_eq {c : Params} {f0 : FrameCtx} {s t : State} (h : FrameGeometry c f0 s) (hc : t.cfg = s.cfg)
    (hr : t.fbReg = s.fbReg) (hm : t.mode = s.mode) (hb : t.backing = s.backing) (hv : t.flag .fbValid = s.flag .fbValid)
    (he : t.flag .backingEn = s.flag .backingEn) : FrameGeometry c f0 t :=
  ⟨hc.trans h.cfg, h.rules.of_eq hr hb hv he, h.visible.of_same ⟨rfl, rfl, rfl, rfl⟩ hr hm⟩

theorem FrameGeometry.emit {c : Params} {f0 : FrameCtx} {s : State} (h : FrameGeometry c f0 s) (bs : List Byte) :
    FrameGeometry c f0 (s.emit bs) :=
  h.of_eq (by simp) (by simp) (by simp) (by simp) (by simp) (by simp)

theorem FrameGeometry.submitF {c : Params} {f0 : FrameCtx} {s : State} (h : FrameGeometry c f0 s) :
    FrameGeometry c f0 s.submitF :=
  h.of_eq (by simp) (by simp) (by simp) (by simp) (s.submitF_flag (by decide)) (s.submitF_flag (by decide))

theorem FrameGeometry.ends {c : Params} {f0 : FrameCtx} {s t : State} (h : FrameGeometry c f0 s)
    (ht : endOfFrame s = .next t) : GeometryInv t := by
  obtain ⟨u, hu, rfl⟩ := endOfFrame_cases ht
  have hrules : u.BackingRules := by
    rcases hu with ⟨-, rfl⟩ | ⟨k, -, ⟨-, rfl⟩ | ⟨-, rfl⟩⟩
    · exact h.rules
    · exact h.rules.of_eq (by simp) (by simp) (by simp [State.submitSlot_flag]) (by simp [State.submitSlot_flag])
    · exact h.rules.of_eq (by simp) (by simp) (by simp) (by simp)
  exact (hrules.of_eq (by simp) (by simp) (by simp) (by simp)).inv_of_not_inFrame rfl

/-- A frame operation writes BACKING line by line, inside its size, and waits with the rectangle it began with. -/
theorem frameGeometry_rule (c : Params) (f0 : FrameCtx) :
    FrameRule c f0 (FrameGeometry c f0) (FrameGeometry c f0) GeometryInv where
  cfg _ h := h.cfg
  emit16 _ _ _ _ h := h.emit _
  emit8 _ _ _ _ h := h.emit _
  full16 _ _ _ _ h _ := (h.emit _).submitF
  full8 _ _ _ _ h _ := (h.emit _).submitF
  take _ h _ := h.of_eq (by simp) (by simp) (by simp) (by simp) (by simp) (by simp)
  count _ _ _ _ h := h.of_eq (by simp) (by simp) (by simp) (by simp) (by simp) (by simp)
  prepare s f hf hy _ h :=
    ⟨by simpa using h.cfg, h.rules.prepareLine (h.visible.of_same hf rfl rfl) hy,
      h.visible.of_same ⟨rfl, rfl, rfl, rfl⟩ (by simp) (by simp)⟩
  lost _ h := h.of_eq rfl rfl rfl rfl (by simp) (by simp)
  slotless _ h _ := h
  slotted _ h _ := h
  wait s f hf h _ := by
    refine State.BackingRules.inv (h.rules.of_eq rfl rfl rfl rfl) fun g hg => ?_
    obtain rfl : f = g := by simpa using hg
    exact h.visible.of_same hf rfl rfl
  ends _ _ h ht := by rcases h with h | h <;> exact h.ends ht

theorem frameLoop_geometryInv {source : FrameSource} {x0 x1 y0 y1 : Nat} {s t : State} (hs : GeometryInv s)
    (hf : FrameCtx.Visible ⟨source, x0, x1, y0, y1, 0, .line⟩ s) (ht : frameLoop source x0 x1 y0 y1 s = .next t) :
    GeometryInv t :=
  have hbusy : FrameGeometry s.cfg ⟨source, x0, x1, y0, y1, 0, .line⟩ (s.setFlag .frameBusy true) :=
    ⟨rfl, hs.rules.of_eq rfl rfl (by simp) (by simp), hf⟩
  (frameGeometry_rule s.cfg _).runLines (y1 - y0) ⟨rfl, rfl, rfl, rfl⟩ le_rfl (.inl hbusy) ht

/-! ## Each agent's part of a step -/

/-- The rules after a change that leaves the framebuffer, the mode and BACKING alone and starts no frame operation. -/
theorem GeometryInv.of_eq {s t : State} (h : GeometryInv s) (hr : t.fbReg = s.fbReg) (hm : t.mode = s.mode)
    (hb : t.backing = s.backing) (hv : t.flag .fbValid = s.flag .fbValid) (he : t.flag .backingEn = s.flag .backingEn)
    (hp : t.inFrame = false ∨ t.pending = s.pending) : GeometryInv t := by
  have hrules := h.rules.of_eq hr hb hv he
  rcases hp with hp | hp
  · exact hrules.inv_of_not_inFrame hp
  · exact hrules.inv fun f hf => (h.visible (hp ▸ hf)).of_same ⟨rfl, rfl, rfl, rfl⟩ hr hm

/-- A new framebuffer whose pitch holds its rows, with a backing buffer in which nothing is written yet. -/
theorem GeometryInv.latchFb {s : State} {r : FbRegs} {b : Bool} {tag : Nat}
    (hr : 4 * (r.vx.toNat + r.width.toNat) ≤ r.pitch.toNat) (st : StatusCode) (res : Result) :
    GeometryInv ((s.latchFb r b ⟨[], tag⟩).replied st res) where
  pitch _ := hr
  backingValid _ := by simp
  noBacking _ := rfl
  inside _ hc := by cases hc
  frame _ _ hp := by cases hp

/-- No framebuffer, no BACKING and no waiting frame operation. -/
theorem GeometryInv.of_reset {s : State} (hv : s.flag .fbValid = false) (he : s.flag .backingEn = false)
    (hb : s.backing.cells = []) (hp : s.pending = none) : GeometryInv s where
  pitch h := by simp [hv] at h
  backingValid h := by simp [he] at h
  noBacking _ := hb
  inside c hc := by simp [hb] at hc
  frame _ _ h := by simp [hp] at h

/-- MODESET from its acquire on can change the mode, and no frame operation waits then. -/
theorem modesetTake_geometryInv {m : ModeRegs} {split : Bool} {s t : State} (hs : GeometryInv s)
    (ht : modesetTake m split s = .next t) : GeometryInv t := by
  rcases modesetTake_cases ht with ⟨k, -, ⟨-, rfl⟩ | ⟨-, rfl⟩⟩ | ⟨-, rfl⟩
  all_goals
    refine (hs.rules.of_eq ?_ ?_ ?_ ?_).inv_of_not_inFrame rfl <;> simp [State.submitSlot_flag]

/-- Every request keeps the geometry rules. -/
theorem Effect.geometryInv {i : Instr} {s t : State} (h : Effect i s t) (hs : GeometryInv s) : GeometryInv t := by
  cases h with
  | answered => exact hs.of_eq rfl rfl rfl rfl rfl (.inl rfl)
  | wrote | encoded16 | encoded8 | acquired | released | fbFailed =>
    exact hs.of_eq (by simp) (by simp) (by simp) (by simp) (by simp) (.inl rfl)
  | acquireWaits | modesetWaits => exact hs.of_eq rfl rfl rfl rfl rfl (.inl rfl)
  | submitted =>
    exact hs.of_eq (by simp) (by simp) (by simp) (by simp [State.submitSlot_flag]) (by simp [State.submitSlot_flag]) (.inl rfl)
  | completed => exact hs.of_eq (by simp) (by simp) (by simp) (by simp) (by simp) (.inr (by simp))
  | completeIgnored => exact hs
  | rendered _ _ _ _ _ _ _ _ _ _ _ _ _ _ _ right _ bottom ht => exact frameLoop_geometryInv hs (fun _ _ => ⟨right, bottom⟩) ht
  | filled _ _ _ _ _ _ ht => exact frameLoop_geometryInv hs (fun _ hsource => by cases hsource) ht
  | cleared => exact hs.of_eq rfl rfl rfl (by simp) (by simp) (.inl rfl)
  | linked => exact hs.of_eq rfl rfl rfl rfl rfl (.inl rfl)
  | modesetTakes _ _ _ _ _ _ _ _ ht => exact modesetTake_geometryInv hs ht
  | fbPlain _ _ _ _ _ _ _ fits => exact .latchFb fits _ _
  | fbBacked _ _ _ _ _ _ _ fits => exact .latchFb fits _ _
  | cursorSet => exact hs.of_eq rfl rfl rfl rfl rfl (.inl rfl)
  | attaches => exact .of_reset (by simp) (by simp) rfl rfl
  | detachWaits _ u _ hu => rcases hu with ⟨-, rfl⟩ | ⟨k, -, rfl⟩ <;> exact hs.of_eq rfl rfl rfl rfl rfl (.inl rfl)
  | detaches => exact .of_reset (by simp) (by simp) rfl rfl
  | device => exact hs.of_eq rfl rfl rfl rfl rfl (.inr rfl)

theorem geometryInv_keptByAgents : KeptByAgents GeometryInv where
  outside _ _ _ _ _ _ hs := hs.of_eq rfl rfl rfl rfl rfl (.inr rfl)
  request _ _ _ hs _ he := he.geometryInv hs
  complete _ k hs ha := (Effect.completed _ k ha).geometryInv hs
  acquireEnds _ hs _ _ := hs.of_eq (by simp) (by simp) (by simp) (by simp) (by simp) (.inl rfl)
  modesetEnds _ _ _ _ hs _ _ ht := modesetTake_geometryInv hs ht
  detachEnds _ _ _ := .of_reset (by simp) (by simp) rfl rfl
  acquireTimesOut _ hs _ := hs.of_eq rfl rfl rfl (by simp) (by simp) (.inl rfl)
  frameGoesOn s f _ hs hp hsome ht :=
    (frameGeometry_rule s.cfg f).resumeFrame ⟨rfl, rfl, rfl, rfl⟩ ⟨rfl, hs.rules, hs.visible hp⟩ hsome ht
  frameTimesOut s f _ hs hp ht :=
    (frameGeometry_rule s.cfg f).timeoutFrame ⟨rfl, rfl, rfl, rfl⟩ ⟨rfl, hs.rules, hs.visible hp⟩ ht

/-- Settles O56: the agents' parts of a step keep the geometry rules. -/
theorem geometryInvKept : Obligations.GeometryInvKept := fun _ _ hs ht => geometryInv_keptByAgents.step hs ht

end Sys2Proof.Machine
end

section
/-!
PROOFS. The queue of requests (10_state.md R21), LOST_PIXELS (R27), CNT_SENT (R33), and the state after reset (R46).
-/

namespace Sys2Proof.Machine

/-! ## Requests are taken in issue order, one at a time -/

/-- No instruction touches the queue. -/
theorem Effect.queue {i : Instr} {s t : State} (h : Effect i s t) : t.queue = s.queue := by
  cases h with
  | rendered _ _ _ _ _ _ _ _ _ _ _ _ _ _ _ _ _ _ ht => exact (frameLoop_ends ht).stable.queue
  | filled _ _ _ _ _ _ ht => exact (frameLoop_ends ht).stable.queue
  | modesetTakes _ _ _ _ _ _ _ _ ht =>
    rcases modesetTake_cases ht with ⟨k, -, ⟨-, rfl⟩ | ⟨-, rfl⟩⟩ | ⟨-, rfl⟩ <;> simp
  | detachWaits _ u _ hu => rcases hu with ⟨-, rfl⟩ | ⟨k, -, rfl⟩ <;> rfl
  | detaches _ u _ hu => rcases hu with ⟨-, rfl⟩ | ⟨k, -, rfl⟩ <;> rfl
  | _ => simp

/-- MODESET from its acquire on leaves the queue alone and ends with a status. -/
theorem modesetTake_replies {m : ModeRegs} {split : Bool} {s t : State} (ht : modesetTake m split s = .next t) :
    t.queue = s.queue ∧ ∃ r, t.replies = s.replies ++ [r] := by
  rcases modesetTake_cases ht with ⟨k, -, ⟨-, rfl⟩ | ⟨-, rfl⟩⟩ | ⟨-, rfl⟩ <;> simp

/-- A move leaves the queue as it is, appends the issued request, or takes the oldest one when no request is unfinished. -/
theorem MoveEffect.queue {m : Move} {s t : State} (h : MoveEffect m s t) :
    t.queue = s.queue ∨ (∃ record, m = .issue record ∧ t.queue = s.queue ++ [record]) ∨
      (∃ record, m = .producer ∧ s.pending = none ∧ s.queue = record :: t.queue) := by
  cases h with
  | issued record => exact .inr (.inl ⟨record, rfl, rfl⟩)
  | refused _ _ rest hq =>
    rcases hq with hq | ⟨rfl, hp, record, hq⟩
    · exact .inl hq.symm
    · exact .inr (.inr ⟨record, rfl, hp, hq⟩)
  | ran _ record rest i _ hp hq _ _ he => exact .inr (.inr ⟨record, rfl, hp, by rw [hq, he.queue]⟩)
  | modesetEnds _ _ _ _ _ _ ht => exact .inl (modesetTake_replies ht).1
  | frameGoesOn _ _ _ _ ha ht => exact .inl (resumeFrame_ends ha ht).stable.queue
  | frameTimesOut _ _ _ _ _ ht => exact .inl (timeoutFrame_ends ht).stable.queue
  | transported _ _ _ _ _ _ he => exact .inl he.queue
  | idle | acquireEnds | detachEnds | hostWrote | acquireTimesOut | read => exact .inl (by simp)

theorem FrameEnds.replies {s t : State} {f : FrameCtx} (h : FrameEnds s f t) (ht : t.pending = none) :
    ∃ r, t.replies = s.replies ++ [r] := by
  rcases h.ends with ⟨hr, -⟩ | ⟨-, -, g, hg, -⟩
  · exact ⟨_, hr⟩
  · rw [ht] at hg; cases hg

/-- A waiting request that a move finishes has received its status. -/
theorem MoveEffect.finished {m : Move} {s t : State} (h : MoveEffect m s t) (hs : s.pending ≠ none) (ht : t.pending = none) :
    ∃ r, t.replies = s.replies ++ [r] := by
  cases h with
  | idle | issued | hostWrote | read => exact absurd ht hs
  | refused => exact absurd (by simpa using ht) hs
  | ran _ _ _ _ _ hp => exact absurd hp hs
  | acquireEnds | detachEnds | acquireTimesOut => simp
  | modesetEnds _ _ _ _ _ _ hm => exact (modesetTake_replies hm).2
  | frameGoesOn _ _ _ _ ha hf => exact (resumeFrame_ends ha hf).replies ht
  | frameTimesOut _ _ _ _ _ hf => exact (timeoutFrame_ends hf).replies ht
  | transported _ _ _ _ _ hi he =>
    rcases he.transport hi with ⟨-, k, rfl⟩ | ⟨-, rfl⟩
    · exact absurd (by simpa using ht) hs
    · exact absurd ht hs

/-- A request that HOST issues is appended to the queue. -/
theorem step_issue {s t : State} {record : List Byte} (h : step s = .next t) (hm : s.nextMove = .issue record)
    (hv : s.cfg.Valid) : t.queue = s.queue ++ [record] := by
  have ht : step s = .next (State.checkPool { s.popMove with queue := s.popMove.queue ++ [record] }) := by
    rw [step, oneStep, if_pos hv, hm]
    rfl
  rw [ht] at h
  cases h
  simp

/-- Settles O5, by the case analysis of what one move can do. -/
theorem oneRequestAtATime : Obligations.OneRequestAtATime := by
  intro s t h
  refine ⟨?_, ?_, fun record hm hv => step_issue h hm hv⟩
  all_goals rcases step_effect h with ⟨-, rfl⟩ | ⟨-, u, hu, rfl⟩
  · exact .inl (by simp)
  · simpa using hu.queue
  · exact fun hs ht => absurd (by simpa using ht) hs
  · intro hs ht
    simpa using hu.finished (by simpa using hs) (by simpa using ht)

/-! ## LOST_PIXELS is sticky -/

/-- A frame operation that has begun: setting FRAME_BUSY hides no other bit. -/
theorem frameLoop_lost {source : FrameSource} {x0 x1 y0 y1 : Nat} {s t : State}
    (ht : frameLoop source x0 x1 y0 y1 s = .next t) (hs : s.flag .lostPixels = true) : t.flag .lostPixels = true :=
  (frameLoop_ends ht).stable.lost (by simpa using hs)

theorem modesetTake_lost {m : ModeRegs} {split : Bool} {s t : State} (ht : modesetTake m split s = .next t)
    (hs : s.flag .lostPixels = true) : t.flag .lostPixels = true := by
  rcases modesetTake_cases ht with ⟨k, -, ⟨-, rfl⟩ | ⟨-, rfl⟩⟩ | ⟨-, rfl⟩ <;> simp [State.submitSlot_flag, hs]

/-- An instruction that keeps the session clears LOST_PIXELS only if it is CFGW of STATUS with bit 0 = 1 (10_state.md R27). -/
theorem Effect.lost {i : Instr} {s t : State} (h : Effect i s t) (hs : s.flag .lostPixels = true)
    (ha : s.flag .attached = true) (hat : t.flag .attached = true) :
    t.flag .lostPixels = true ∨ ∃ val, i = .cfgw 0x000 val ∧ val.getLsbD 0 = true := by
  cases h with
  | cleared _ val _ one => exact .inr ⟨val, rfl, one⟩
  | rendered _ _ _ _ _ _ _ _ _ _ _ _ _ _ _ _ _ _ ht => exact .inl (frameLoop_lost ht hs)
  | filled _ _ _ _ _ _ ht => exact .inl (frameLoop_lost ht hs)
  | modesetTakes _ _ _ _ _ _ _ _ ht => exact .inl (modesetTake_lost ht hs)
  | submitted => exact .inl (by simp [State.submitSlot_flag, hs])
  | fbBacked => exact .inl ((State.latchFb_drawn_flag ..).trans hs)
  | attaches _ detached => rw [detached] at ha; cases ha
  | detachWaits _ u _ hu => rcases hu with ⟨-, rfl⟩ | ⟨k, -, rfl⟩ <;> exact .inl hs
  | detaches => simp at hat
  | device | cursorSet => exact .inl hs
  | answered | wrote | encoded16 | encoded8 | acquireWaits | acquired | released | completed | completeIgnored | linked
  | modesetWaits | fbPlain | fbFailed => exact .inl (by simpa using hs)

/-- A move that keeps the session clears LOST_PIXELS only by running such a CFGW. -/
theorem MoveEffect.lost {m : Move} {s t : State} (h : MoveEffect m s t) (hs : s.flag .lostPixels = true)
    (ha : s.flag .attached = true) (hat : t.flag .attached = true) :
    t.flag .lostPixels = true ∨ ∃ record rest val, m = .producer ∧ s.pending = none ∧ s.queue = record :: rest ∧
      decode s.cfg record = .ok (.cfgw 0x000 val) ∧ val.getLsbD 0 = true := by
  cases h with
  | ran _ record rest i _ hp hq hd _ he =>
    rcases he.lost hs ha hat with hl | ⟨val, rfl, one⟩
    · exact .inl hl
    · exact .inr ⟨record, rest, val, rfl, hp, hq, hd, one⟩
  | modesetEnds _ _ _ _ _ _ ht => exact .inl (modesetTake_lost ht hs)
  | detachEnds => simp at hat
  | frameGoesOn _ _ _ _ hsome ht => exact .inl ((resumeFrame_ends hsome ht).stable.lost hs)
  | frameTimesOut _ _ _ _ _ ht => exact .inl ((timeoutFrame_ends ht).stable.lost hs)
  | transported _ _ _ _ _ hi he =>
    rcases he.transport hi with ⟨-, k, rfl⟩ | ⟨-, rfl⟩
    · exact .inl (by simpa using hs)
    · exact .inl hs
  | idle | refused | issued | hostWrote | read => exact .inl hs
  | acquireEnds => exact .inl (by simpa using hs)
  | acquireTimesOut => exact .inl (by simp)

/-- Settles O49: a move keeps the bit unless it runs the clearing CFGW, and the pool check changes no STATUS bit. -/
theorem lostPixelsSticky : Obligations.LostPixelsSticky := by
  intro s t h hs hat
  rcases step_effect h with ⟨-, rfl⟩ | ⟨-, u, hu, rfl⟩
  · exact .inl (by simpa using hs)
  by_cases ha : s.flag .attached = true
  case neg => exact .inr (.inl (by simpa using ha))
  rcases hu.lost (by simpa using hs) (by simpa using ha) (by simpa [ha] using hat) with hl | hcfgw
  · exact .inl (by simpa using hl)
  · exact .inr (.inr hcfgw)

/-! ## CNT_SENT counts the SUBMIT events -/

theorem frameLoop_sent {source : FrameSource} {x0 x1 y0 y1 : Nat} {s t : State}
    (ht : frameLoop source x0 x1 y0 y1 s = .next t) : SentSince s t :=
  (frameLoop_ends ht).stable.sent

theorem modesetTake_sent {m : ModeRegs} {split : Bool} {s t : State} (ht : modesetTake m split s = .next t) :
    SentSince s t := by
  have hemit : SentSince s (s.takeSlot.emit (modesetStream s.cfg m split)) := .of_eq (by simp) (by simp)
  rcases modesetTake_cases ht with ⟨k, -, ⟨-, rfl⟩ | ⟨-, rfl⟩⟩ | ⟨-, rfl⟩
  · exact hemit.trans ((State.submitSlot_sent _ k).trans (.of_eq (by simp) (by simp)))
  · exact hemit.trans ((State.submitSlot_sent _ k).trans (.of_eq (by simp) (by simp)))
  · exact hemit.trans (.of_eq (by simp) (by simp))

/-- An instruction that keeps the session counts the events it adds (45_slot_pool.md R204). -/
theorem Effect.sent {i : Instr} {s t : State} (h : Effect i s t) (ha : s.flag .attached = true)
    (hat : t.flag .attached = true) : SentSince s t := by
  cases h with
  | rendered _ _ _ _ _ _ _ _ _ _ _ _ _ _ _ _ _ _ ht => exact frameLoop_sent ht
  | filled _ _ _ _ _ _ ht => exact frameLoop_sent ht
  | modesetTakes _ _ _ _ _ _ _ _ ht => exact modesetTake_sent ht
  | submitted _ k => exact (s.submitSlot_sent k).trans (.of_eq (by simp) (by simp))
  | attaches _ detached => rw [detached] at ha; cases ha
  | detachWaits _ u _ hu => rcases hu with ⟨-, rfl⟩ | ⟨k, -, rfl⟩ <;> exact .of_eq (by simp) (by simp)
  | detaches => simp at hat
  | answered | wrote | encoded16 | encoded8 | acquireWaits | acquired | released | completed | completeIgnored | cleared
  | linked | modesetWaits | fbPlain | fbBacked | fbFailed | cursorSet | device => exact .of_eq (by simp) (by simp)

/-- A move that keeps the session counts the events it adds. -/
theorem MoveEffect.sent {m : Move} {s t : State} (h : MoveEffect m s t) (ha : s.flag .attached = true)
    (hat : t.flag .attached = true) : SentSince s t := by
  cases h with
  | ran _ _ _ _ _ _ _ _ _ he => exact he.sent ha hat
  | modesetEnds _ _ _ _ _ _ ht => exact modesetTake_sent ht
  | detachEnds => simp at hat
  | frameGoesOn _ _ _ _ hsome ht => exact (resumeFrame_ends hsome ht).stable.sent
  | frameTimesOut _ _ _ _ _ ht => exact (timeoutFrame_ends ht).stable.sent
  | transported _ _ _ _ _ _ he => exact he.sent ha hat
  | idle | refused | acquireEnds | issued | hostWrote | acquireTimesOut | read => exact .of_eq (by simp) (by simp)

/-- Settles O51: each submitted slot adds its event and its length together. -/
theorem sentCountsEvents : Obligations.SentCountsEvents := by
  intro s t ha hat h
  show SentSince s t
  rcases step_effect h with ⟨-, rfl⟩ | ⟨-, u, hu, rfl⟩
  · exact .of_eq (by simp) (by simp)
  have hmove : SentSince s.popMove u := hu.sent (by simpa using ha) (by simpa using hat)
  exact hmove.trans (.of_eq (by simp) (by simp))

/-! ## The state after reset -/

theorem poolInv_reset : PoolInv State.reset where
  config := by decide
  countable := by decide
  absent _ := rfl
  size := by decide
  r38 := by decide
  wptrLe := Nat.zero_le _
  wptrNone _ := rfl
  waiting h := absurd rfl h
  lengths _ h := by cases h

theorem registerInv_reset : RegisterInv State.reset := by constructor <;> decide

/-- Settles O57: without a session, pool, framebuffer or sprite every invariant holds of nothing. -/
theorem resetIsPowerOnState : Obligations.ResetIsPowerOnState := by
  refine ⟨by decide, rfl, rfl, rfl, rfl, rfl, rfl, rfl, rfl, poolInv_reset, ?wire, ?memory, registerInv_reset,
    .of_reset (by decide) (by decide) rfl rfl⟩
  case wire => exact ⟨nofun, nofun⟩
  case memory => exact ⟨.nil, .nil, .nil, .nil, nofun⟩

end Sys2Proof.Machine
end

section
/-!
PROOFS. Who writes each control register (10_state.md R24) and each STATUS bit (R27): the registers in groups with one set of
writers, what each operation changes, and the writers of what an instruction or a waiting request changes.
-/

namespace Sys2Proof.Machine

/-! ## Groups of registers -/

/-- The registers and STATUS bits that have the same writers (the "written by" column of 10_state.md R24, R27). -/
inductive RegGroup where
  | link
  | fb
  | mode
  | cursor
  | frame
  | identical
  | sent
  | lost
deriving DecidableEq

/-- No register of the group changes. -/
def RegGroup.Kept (s t : State) : RegGroup → Prop
  | .link => t.link = s.link
  | .fb => t.fbReg = s.fbReg ∧ t.flag .fbValid = s.flag .fbValid ∧ t.flag .backingEn = s.flag .backingEn
  | .mode => t.mode = s.mode ∧ t.base16 = s.base16 ∧ t.base8 = s.base8 ∧ t.flag .modeValid = s.flag .modeValid ∧
      t.flag .split = s.flag .split
  | .cursor => t.cursor = s.cursor
  | .frame => t.counters.rendered = s.counters.rendered ∧ t.counters.cpu = s.counters.cpu ∧
      t.flag .frameBusy = s.flag .frameBusy
  | .identical => t.counters.identical = s.counters.identical
  | .sent => t.counters.sent = s.counters.sent
  | .lost => t.flag .lostPixels = s.flag .lostPixels

theorem RegGroup.Kept.trans {s t u : State} {g : RegGroup} (h : g.Kept s t) (k : g.Kept t u) : g.Kept s u := by
  cases g with
  | link | cursor | identical | sent | lost => exact Eq.trans k h
  | fb | frame =>
    obtain ⟨h1, h2, h3⟩ := h
    obtain ⟨k1, k2, k3⟩ := k
    exact ⟨k1.trans h1, k2.trans h2, k3.trans h3⟩
  | mode =>
    obtain ⟨h1, h2, h3, h4, h5⟩ := h
    obtain ⟨k1, k2, k3, k4, k5⟩ := k
    exact ⟨k1.trans h1, k2.trans h2, k3.trans h3, k4.trans h4, k5.trans h5⟩

/-- At most the listed groups change. -/
def ChangesOnly (groups : List RegGroup) (s t : State) : Prop := ∀ g, g ∉ groups → g.Kept s t

theorem ChangesOnly.trans {groups : List RegGroup} {s t u : State} (h : ChangesOnly groups s t) (k : ChangesOnly groups t u) :
    ChangesOnly groups s u :=
  fun g hg => (h g hg).trans (k g hg)

theorem ChangesOnly.mono {groups more : List RegGroup} {s t : State} (h : ChangesOnly groups s t) (hsub : groups ⊆ more) :
    ChangesOnly more s t :=
  fun g hg => h g fun hmem => hg (hsub hmem)

/-- Each group is kept, or has a writer, when each of the groups that may change has one. -/
theorem ChangesOnly.writers {groups : List RegGroup} {s t : State} {Writes : RegGroup → Prop} (h : ChangesOnly groups s t)
    (hw : ∀ g ∈ groups, Writes g) (g : RegGroup) : g.Kept s t ∨ Writes g := by
  by_cases hg : g ∈ groups
  · exact .inr (hw g hg)
  · exact .inl (h g hg)

/-! ## What each operation changes -/

/-- A change of the state that touches no register. -/
theorem changesOnly_of_eq {s t : State} (hstatus : t.status = s.status) (hlink : t.link = s.link) (hfb : t.fbReg = s.fbReg)
    (hmode : t.mode = s.mode) (h16 : t.base16 = s.base16) (h8 : t.base8 = s.base8) (hcursor : t.cursor = s.cursor)
    (hcounters : t.counters = s.counters) : ChangesOnly [] s t := by
  intro g _
  cases g <;> simp [RegGroup.Kept, State.flag, *]

theorem State.submitSlot_changes (s : State) (k : Nat) : ChangesOnly [.sent, .lost] s (s.submitSlot k) := by
  intro g hg
  have hcounters := s.submitSlot_counters k
  cases g with
  | sent | lost => simp at hg
  | link | cursor => simp [RegGroup.Kept]
  | fb | mode => simp [RegGroup.Kept, State.submitSlot_flag]
  | frame => exact ⟨by rw [hcounters], by rw [hcounters], by simp [State.submitSlot_flag]⟩
  | identical => rw [RegGroup.Kept, hcounters]

theorem State.setFlag_lostPixels_changes (s : State) (b : Bool) : ChangesOnly [.lost] s (s.setFlag .lostPixels b) := by
  intro g hg
  cases g with
  | lost => simp at hg
  | _ => simp [RegGroup.Kept]

/-- The end of a request changes no register. -/
theorem ChangesOnly.replied {groups : List RegGroup} {s t : State} (h : ChangesOnly groups s t) (st : StatusCode) (r : Result) :
    ChangesOnly groups s (t.replied st r) :=
  h.trans ((changesOnly_of_eq rfl rfl rfl rfl rfl rfl rfl rfl).mono (List.nil_subset _))

theorem State.latchMode_changes (s : State) (m : ModeRegs) (split : Bool) : ChangesOnly [.mode] s (s.latchMode m split) := by
  intro g hg
  cases g with
  | mode => simp at hg
  | _ => simp [RegGroup.Kept]

theorem State.latchFb_changes (s : State) (r : FbRegs) (b : Bool) (buf : Buf) : ChangesOnly [.fb] s (s.latchFb r b buf) := by
  intro g hg
  cases g with
  | fb => simp at hg
  | _ => simp [RegGroup.Kept]

/-- MODESET from its acquire on. -/
theorem modesetTake_changes {m : ModeRegs} {split : Bool} {s t : State} (ht : modesetTake m split s = .next t) :
    ChangesOnly [.mode, .sent, .lost] s t := by
  have hemit : ChangesOnly [.mode, .sent, .lost] s (s.takeSlot.emit (modesetStream s.cfg m split)) := by
    refine (changesOnly_of_eq ?_ ?_ ?_ ?_ ?_ ?_ ?_ ?_).mono (by simp) <;> simp
  have hsubmit (k : Nat) : ChangesOnly [.mode, .sent, .lost] s ((s.takeSlot.emit (modesetStream s.cfg m split)).submitSlot k) :=
    hemit.trans ((State.submitSlot_changes _ k).mono (by simp))
  rcases modesetTake_cases ht with ⟨k, -, ⟨-, rfl⟩ | ⟨-, rfl⟩⟩ | ⟨-, rfl⟩
  · exact (hsubmit k).trans ((State.latchMode_changes _ m split).mono (by simp)) |>.replied _ _
  · exact (hsubmit k).replied _ _
  · exact hemit.replied _ _

/-- The groups a frame operation may change: CNT_IDENTICAL counts only where lines are compared (46_frame_loop.md R227). -/
def FrameSource.groups : FrameSource → List RegGroup
  | .framebuffer _ => [.frame, .sent, .lost, .identical]
  | .fill _ => [.frame, .sent, .lost]

theorem FrameStable.changes {s t : State} {f : FrameCtx} (h : FrameStable s f t) : ChangesOnly f.source.groups s t := by
  intro g hg
  cases g with
  | frame | sent | lost => cases hf : f.source <;> simp [hf, FrameSource.groups] at hg
  | identical =>
    cases hf : f.source with
    | framebuffer => simp [hf, FrameSource.groups] at hg
    | fill color => exact h.identical color hf
  | link => exact h.link
  | cursor => exact h.cursor
  | fb => exact ⟨h.fbReg, h.flags _ (by decide) (by decide), h.flags _ (by decide) (by decide)⟩
  | mode => exact ⟨h.mode, h.base16, h.base8, h.flags _ (by decide) (by decide), h.flags _ (by decide) (by decide)⟩

theorem frameLoop_changes {source : FrameSource} {x0 x1 y0 y1 : Nat} {s t : State}
    (ht : frameLoop source x0 x1 y0 y1 s = .next t) : ChangesOnly source.groups s t := by
  have hbusy : ChangesOnly [.frame] s (s.setFlag .frameBusy true) := by
    intro g hg
    cases g with
    | frame => simp at hg
    | _ => simp [RegGroup.Kept]
  exact (hbusy.mono (by cases source <;> simp [FrameSource.groups])).trans (frameLoop_ends ht).stable.changes

/-! ## The writers of each group -/

/-- MODESET. -/
def IsModeset (i : Instr) : Prop := ∃ a b c d e f g h j k l, i = .modeset a b c d e f g h j k l

/-- RENDER_FRAME. -/
def IsRender (i : Instr) : Prop := ∃ x y w h, i = .renderFrame x y w h

/-- FILL_FRAME. -/
def IsFill (i : Instr) : Prop := ∃ color, i = .fillFrame color

/-- The instructions that may write a group. -/
def InstrWrites (i : Instr) : RegGroup → Prop
  | .link => ∃ val, i = .cfgw 0x008 val
  | .fb => ∃ pitch bpp vx vy width height b, i = .setfb pitch bpp vx vy width height b
  | .mode => IsModeset i
  | .cursor => ∃ x y w h bpp visible pix, i = .setcursor x y w h bpp visible pix
  | .frame => IsRender i ∨ IsFill i
  | .identical => IsRender i
  | .sent => i = .submit ∨ IsModeset i ∨ IsRender i ∨ IsFill i
  | .lost => (∃ val, i = .cfgw 0x000 val) ∨ i = .submit ∨ IsModeset i ∨ IsRender i ∨ IsFill i

/-- The waiting requests that may write a group when they go on or time out. -/
def Pending.Writes (p : Pending) : RegGroup → Prop
  | .link | .fb | .cursor => False
  | .mode => ∃ mode split, p = .modeset mode split
  | .frame => ∃ f, p = .frame f
  | .identical => ∃ f snapshot, p = .frame f ∧ f.source = .framebuffer snapshot
  | .sent => (∃ mode split, p = .modeset mode split) ∨ ∃ f, p = .frame f
  | .lost => p = .acquire ∨ (∃ mode split, p = .modeset mode split) ∨ ∃ f, p = .frame f

/-- Within a session an instruction changes only what it writes. -/
theorem Effect.writers {i : Instr} {s t : State} (h : Effect i s t) (ha : s.flag .attached = true)
    (hat : t.flag .attached = true) : ∀ g : RegGroup, g.Kept s t ∨ InstrWrites i g := by
  have quiet (hq : ChangesOnly [] s t) : ∀ g : RegGroup, g.Kept s t ∨ InstrWrites i g := hq.writers (by simp)
  cases h with
  | cleared _ val =>
    exact ((s.setFlag_lostPixels_changes false).replied _ _).writers (by simp [InstrWrites])
  | linked _ val =>
    intro g
    cases g with
    | link => exact .inr ⟨val, rfl⟩
    | _ => exact .inl (by simp [RegGroup.Kept])
  | submitted _ k =>
    exact ((s.submitSlot_changes k).replied _ _).writers (by simp [InstrWrites])
  | rendered _ _ _ _ _ _ _ _ _ _ _ _ _ _ _ _ _ _ ht =>
    exact (frameLoop_changes ht).writers (by simp [FrameSource.groups, InstrWrites, IsRender])
  | filled _ _ _ _ _ _ ht =>
    exact (frameLoop_changes ht).writers (by simp [FrameSource.groups, InstrWrites, IsFill])
  | modesetTakes _ _ _ _ _ _ _ _ ht =>
    exact (modesetTake_changes ht).writers (by simp [InstrWrites, IsModeset])
  | fbPlain =>
    exact ((s.latchFb_changes _ _ _).replied _ _).writers (by simp [InstrWrites])
  | fbBacked =>
    have hdrawn : ChangesOnly [] s { s.afterDraw with drawCount := s.afterDraw.drawCount + 1 } := by
      apply changesOnly_of_eq <;> simp
    exact (((hdrawn.mono (List.nil_subset _)).trans (State.latchFb_changes _ _ _ _)).replied _ _).writers (by simp [InstrWrites])
  | cursorSet =>
    intro g
    cases g with
    | cursor => exact .inr ⟨_, _, _, _, _, _, _, rfl⟩
    | link | identical | sent | lost => exact .inl rfl
    | fb | frame => exact .inl ⟨rfl, rfl, rfl⟩
    | mode => exact .inl ⟨rfl, rfl, rfl, rfl, rfl⟩
  | attaches _ detached => rw [detached] at ha; cases ha
  | detachWaits _ u _ hu =>
    rcases hu with ⟨-, rfl⟩ | ⟨k, -, rfl⟩ <;> exact quiet (changesOnly_of_eq rfl rfl rfl rfl rfl rfl rfl rfl)
  | detaches => simp at hat
  | answered | wrote | encoded16 | encoded8 | acquireWaits | acquired | released | completed | completeIgnored | modesetWaits
  | fbFailed | device => refine quiet (changesOnly_of_eq ?_ ?_ ?_ ?_ ?_ ?_ ?_ ?_) <;> simp

/-- Within a session a waiting request changes only what it writes. -/
theorem MoveEffect.writers {m : Move} {p : Pending} {s t : State} (h : MoveEffect m s t) (hat : t.flag .attached = true)
    (hp : s.pending = some p) (hm : m = .producer ∨ m = .timeout) : ∀ g : RegGroup, g.Kept s t ∨ p.Writes g := by
  have quiet (hq : ChangesOnly [] s t) : ∀ g : RegGroup, g.Kept s t ∨ p.Writes g := hq.writers (by simp)
  have frame {f : FrameCtx} (hf : s.pending = some (.frame f)) (hc : ChangesOnly f.source.groups s t) :
      ∀ g : RegGroup, g.Kept s t ∨ p.Writes g := by
    obtain rfl : p = .frame f := by simpa [hp] using hf
    refine hc.writers ?_
    cases hsource : f.source <;> simp [FrameSource.groups, Pending.Writes, hsource]
  cases h with
  | ran _ _ _ _ _ hfree => rw [hp] at hfree; cases hfree
  | modesetEnds _ m split _ hw _ ht =>
    obtain rfl : p = .modeset m split := by simpa [hp] using hw
    exact (modesetTake_changes ht).writers (by simp [Pending.Writes])
  | detachEnds => simp at hat
  | frameGoesOn _ f _ hw hsome ht => exact frame hw (resumeFrame_ends hsome ht).stable.changes
  | frameTimesOut _ f _ hw _ ht => exact frame hw (timeoutFrame_ends ht).stable.changes
  | acquireTimesOut _ hw =>
    refine ((s.setFlag_lostPixels_changes true).replied _ _).writers ?_
    rcases hw with hw | ⟨m, split, hw⟩
    · obtain rfl : p = .acquire := by simpa [hp] using hw
      simp [Pending.Writes]
    · obtain rfl : p = .modeset m split := by simpa [hp] using hw
      simp [Pending.Writes]
  | idle | refused | acquireEnds => refine quiet (changesOnly_of_eq ?_ ?_ ?_ ?_ ?_ ?_ ?_ ?_) <;> simp
  | issued | hostWrote | transported | read => simp at hm

/-- Settles O50, group by group: a group that is not kept has a writer. -/
theorem registersHaveOneWriter : Obligations.RegistersHaveOneWriter := by
  refine ⟨fun i s t ha hat h => ?_, fun m p s t _ hat hp hm h => ?_⟩
  · have hw := (exec_effect h).writers ha hat
    exact ⟨(hw .link).resolve_left, fun hc => (hw .fb).resolve_left (by simpa only [RegGroup.Kept, not_and_or] using hc),
      fun hc => (hw .mode).resolve_left (by simpa only [RegGroup.Kept, not_and_or] using hc), (hw .cursor).resolve_left,
      fun hc => (hw .frame).resolve_left (by simpa only [RegGroup.Kept, not_and_or] using hc), (hw .identical).resolve_left,
      (hw .sent).resolve_left, (hw .lost).resolve_left⟩
  · have hw := (moveStep_effect h).writers hat hp hm
    have hfb := (hw .fb).resolve_right id
    exact ⟨(hw .link).resolve_right id, hfb.1, (hw .cursor).resolve_right id, hfb.2.1, hfb.2.2,
      fun hc => (hw .mode).resolve_left (by simpa only [RegGroup.Kept, not_and_or] using hc),
      fun hc => (hw .frame).resolve_left (by simpa only [RegGroup.Kept, not_and_or] using hc), (hw .identical).resolve_left,
      (hw .sent).resolve_left, (hw .lost).resolve_left⟩

end Sys2Proof.Machine
end

section
/-!
PROOFS. The memories of 20_memory.md: every step keeps them in canonical form (R60, R61, R64, R65, R67, R68), FB is HOST's alone
(R61), and a step is the decoded instruction of the agent that moves next (R75).
-/

namespace Sys2Proof.Machine

/-! ## Slots and BACKING -/

/-- The bytes of every slot are in canonical form. -/
def Pool.CellsWf (p : Pool) : Prop := ∀ slot ∈ p.slots, Memory.wf slot.buf.cells

theorem Pool.CellsWf.modifySlot {p : Pool} (h : p.CellsWf) (k : Nat) {f : Slot → Slot}
    (hf : ∀ slot, Memory.wf slot.buf.cells → Memory.wf (f slot).buf.cells) : (p.modifySlot k f).CellsWf := by
  intro slot hslot
  obtain ⟨j, hj⟩ := List.mem_iff_getElem?.mp hslot
  rw [Pool.getElem?_modifySlot] at hj
  split at hj
  · obtain ⟨old, hold, rfl⟩ := Option.map_eq_some_iff.mp hj
    exact hf old (h old (List.mem_of_getElem? hold))
  · exact h slot (List.mem_of_getElem? hj)

theorem Pool.CellsWf.giveBack {p : Pool} (h : p.CellsWf) (slotBytes k : Nat) : (p.giveBack slotBytes k).CellsWf :=
  h.modifySlot k fun _ => id

theorem Pool.CellsWf.fresh (p : Params) (tag : Nat) : (Pool.fresh p tag).CellsWf := by
  intro slot hslot
  obtain ⟨k, -, rfl⟩ := List.mem_map.mp hslot
  exact .nil

/-- The buffers inside the machine: BACKING (20_memory.md R64) and the slots (R65). -/
structure State.BuffersWf (s : State) : Prop where
  backing : Memory.wf s.backing.cells
  slots : s.pool.CellsWf

theorem State.BuffersWf.of_eq {s t : State} (h : s.BuffersWf) (hb : t.backing = s.backing) (hp : t.pool = s.pool) :
    t.BuffersWf :=
  ⟨by rw [hb]; exact h.backing, by rw [hp]; exact h.slots⟩

theorem State.BuffersWf.replied {s : State} (h : s.BuffersWf) (st : StatusCode) (r : Result) : (s.replied st r).BuffersWf :=
  h.of_eq rfl rfl

/-- Emit stores into one slot. -/
theorem State.BuffersWf.emit {s : State} (h : s.BuffersWf) (bs : List Byte) : (s.emit bs).BuffersWf := by
  refine ⟨by simpa using h.backing, ?_⟩
  rcases s.emit_cases bs with ⟨k, -, -, e⟩ | e
  · rw [e]
    exact h.slots.modifySlot k fun slot hslot => Memory.storeList_wf _ bs hslot
  · rw [e, State.markFault_pool]
    exact h.slots

/-- The pool steps move slots between their states and change no byte of them. -/
theorem State.BuffersWf.takeSlot {s : State} (h : s.BuffersWf) : s.takeSlot.BuffersWf := by
  refine ⟨by simpa using h.backing, ?_⟩
  rcases s.takeSlot_cases with ⟨k, rest, -, e⟩ | ⟨-, e⟩
  · rw [e]
    exact h.slots.modifySlot k fun _ => id
  · rw [e, State.markFault_pool]
    exact h.slots

theorem State.BuffersWf.completeSlot {s : State} (h : s.BuffersWf) (k : Nat) : (s.completeSlot k).BuffersWf := by
  refine ⟨by simpa using h.backing, ?_⟩
  rcases s.completeSlot_cases k with ⟨slot, -, -, e⟩ | ⟨-, e⟩
  · rw [e]
    exact h.slots.giveBack _ k
  · rw [e, State.markFault_pool]
    exact h.slots

theorem State.BuffersWf.releaseSlot {s : State} (h : s.BuffersWf) (k : Nat) : (s.releaseSlot k).BuffersWf :=
  ⟨h.backing, h.slots.giveBack s.cfg.slotBytes k⟩

theorem State.BuffersWf.launchSlot {s : State} (h : s.BuffersWf) (k : Nat) : (s.launchSlot k).BuffersWf :=
  ⟨h.backing, h.slots.modifySlot k fun _ => id⟩

theorem State.BuffersWf.submitSlot {s : State} (h : s.BuffersWf) (k : Nat) : (s.submitSlot k).BuffersWf := by
  have hlaunched : (s.afterDraw.launchSlot k).BuffersWf := (h.of_eq (by simp) (by simp)).launchSlot k
  unfold State.submitSlot
  cases s.nextChoice
  · rw [State.submitWith_reject]
    exact (hlaunched.completeSlot k).of_eq rfl rfl
  · rw [State.submitWith_accept]
    exact hlaunched.of_eq rfl rfl

theorem State.BuffersWf.submitF {s : State} (h : s.BuffersWf) : s.submitF.BuffersWf := by
  unfold State.submitF
  split
  · exact h.submitSlot _
  · exact h

/-! ## A frame operation -/

/-- A line is stored into BACKING (41_frame_diff.md R134, 46_frame_loop.md R227), or nothing is. -/
theorem nextBacking_wf {s : State} (f : FrameCtx) (h : Memory.wf s.backing.cells) : Memory.wf (nextBacking s f).cells := by
  unfold nextBacking
  split
  case isFalse => exact h
  case isTrue =>
  split
  · exact Memory.storeList_wf _ _ h
  · split
    · exact Memory.storeList_wf _ _ h
    · exact h

theorem State.BuffersWf.prepareLine {s : State} (h : s.BuffersWf) (f : FrameCtx) : (s.prepareLine f).BuffersWf :=
  ⟨nextBacking_wf f h.backing, by simpa using h.slots⟩

theorem State.BuffersWf.endOfFrame {s t : State} (h : s.BuffersWf) (ht : endOfFrame s = .next t) : t.BuffersWf := by
  obtain ⟨closed, hclosed, rfl⟩ := endOfFrame_cases ht
  have hwf : closed.BuffersWf := by
    rcases hclosed with ⟨-, rfl⟩ | ⟨k, -, ⟨-, rfl⟩ | ⟨-, rfl⟩⟩
    · exact h
    · exact h.submitSlot k
    · exact h.releaseSlot k
  exact hwf.of_eq (by simp) (by simp)

/-- A frame operation stores into BACKING and into slots, and in no other way changes them. -/
theorem buffersWf_rule (c : Params) (f0 : FrameCtx) :
    FrameRule c f0 (fun s => s.cfg = c ∧ s.BuffersWf) (fun s => s.cfg = c ∧ s.BuffersWf) State.BuffersWf :=
  .uniform c f0 (fun _ h => h.1)
    (emit := fun _ bs h => ⟨by simpa using h.1, h.2.emit bs⟩)
    (submit := fun _ h => ⟨by simpa using h.1, h.2.submitF⟩)
    (take := fun _ h => ⟨by simpa using h.1, h.2.takeSlot⟩)
    (count := fun _ _ h => ⟨by simpa using h.1, h.2.of_eq (by simp) (by simp)⟩)
    (prepare := fun _ f h => ⟨by simpa using h.1, h.2.prepareLine f⟩)
    (lost := fun _ h => ⟨h.1, h.2.of_eq rfl rfl⟩)
    (wait := fun _ _ _ h => h.2.of_eq rfl rfl)
    (ends := fun _ _ h ht => h.2.endOfFrame ht)

theorem frameLoop_buffersWf {source : FrameSource} {x0 x1 y0 y1 : Nat} {s t : State} (hs : s.BuffersWf)
    (ht : frameLoop source x0 x1 y0 y1 s = .next t) : t.BuffersWf :=
  have hbusy : (s.setFlag .frameBusy true).BuffersWf := hs.of_eq rfl rfl
  (buffersWf_rule s.cfg ⟨source, x0, x1, y0, y1, 0, .line⟩).runLines (y1 - y0) ⟨rfl, rfl, rfl, rfl⟩ le_rfl
    (s := s.setFlag .frameBusy true) (.inl ⟨rfl, hbusy⟩) ht

/-! ## Each agent's part of a step -/

/-- MODESET from its acquire on stores its stream into the slot it takes. -/
theorem modesetTake_buffersWf {m : ModeRegs} {split : Bool} {s t : State} (hs : s.BuffersWf)
    (ht : modesetTake m split s = .next t) : t.BuffersWf := by
  have hfilled := hs.takeSlot.emit (modesetStream s.cfg m split)
  rcases modesetTake_cases ht with ⟨k, -, ⟨-, rfl⟩ | ⟨-, rfl⟩⟩ | ⟨-, rfl⟩
  · exact (hfilled.submitSlot k).of_eq rfl rfl
  · exact (hfilled.submitSlot k).replied _ _
  · exact hfilled.replied _ _

/-- Without a session there is no buffer, and ATTACH makes slots in which nothing is written (10_state.md R45, R46). -/
theorem State.BuffersWf.detached (s : State) : (s.destroySession.replied .ok .none).BuffersWf := ⟨.nil, nofun⟩

theorem State.BuffersWf.attached (s : State) : (s.createSession.replied .ok .none).BuffersWf :=
  ⟨.nil, .fresh s.cfg s.drawCount⟩

/-- Every instruction keeps the buffers in canonical form. -/
theorem Effect.buffersWf {i : Instr} {s t : State} (h : Effect i s t) (hs : s.BuffersWf) : t.BuffersWf := by
  cases h with
  | answered => exact hs.replied _ _
  | wrote | encoded16 | encoded8 => exact (hs.emit _).replied _ _
  | acquired => exact hs.takeSlot.replied _ _
  | submitted _ k => exact (hs.submitSlot k).replied _ _
  | released _ k => exact (hs.releaseSlot k).replied _ _
  | completed _ k => exact hs.completeSlot k
  | completeIgnored => exact hs
  | rendered _ _ _ _ _ _ _ _ _ _ _ _ _ _ _ _ _ _ ht => exact frameLoop_buffersWf hs ht
  | filled _ _ _ _ _ _ ht => exact frameLoop_buffersWf hs ht
  | modesetTakes _ _ _ _ _ _ _ _ ht => exact modesetTake_buffersWf hs ht
  | fbPlain => exact ⟨.nil, hs.slots⟩
  | fbBacked => exact ⟨.nil, by simpa using hs.slots⟩
  | fbFailed => exact hs.of_eq (by simp) (by simp)
  | acquireWaits | modesetWaits | cleared | linked | cursorSet | device => exact hs.of_eq rfl rfl
  | attaches => exact .attached s
  | detachWaits _ u _ hu =>
    rcases hu with ⟨-, rfl⟩ | ⟨k, -, rfl⟩
    · exact hs.of_eq rfl rfl
    · exact (hs.releaseSlot k).of_eq rfl rfl
  | detaches _ u => exact .detached u

theorem buffersWf_keptByAgents : KeptByAgents State.BuffersWf where
  outside _ _ _ _ _ _ hs := hs.of_eq rfl rfl
  request _ _ _ hs _ he := he.buffersWf hs
  complete _ k hs _ := hs.completeSlot k
  acquireEnds _ hs _ _ := hs.takeSlot.replied _ _
  modesetEnds _ _ _ _ hs _ _ ht := modesetTake_buffersWf hs ht
  detachEnds s _ _ := .detached s
  acquireTimesOut _ hs _ := hs.of_eq rfl rfl
  frameGoesOn s f _ hs _ hsome ht := (buffersWf_rule s.cfg f).resumeFrame ⟨rfl, rfl, rfl, rfl⟩ ⟨rfl, hs⟩ hsome ht
  frameTimesOut s f _ hs _ ht := (buffersWf_rule s.cfg f).timeoutFrame ⟨rfl, rfl, rfl, rfl⟩ ⟨rfl, hs⟩ ht

/-! ## FB and the device -/

/-- No request touches the memories outside the machine: FB (20_memory.md R61) and those of the device (R67, R68). -/
def State.OutsideKept (s t : State) : Prop := t.hostFb = s.hostFb ∧ t.device = s.device

theorem FrameStable.outsideKept {s t : State} {f : FrameCtx} (h : FrameStable s f t) : s.OutsideKept t := ⟨h.hostFb, h.device⟩

theorem frameLoop_outsideKept {source : FrameSource} {x0 x1 y0 y1 : Nat} {s t : State}
    (ht : frameLoop source x0 x1 y0 y1 s = .next t) : s.OutsideKept t :=
  (frameLoop_ends ht).stable.outsideKept

theorem modesetTake_outsideKept {m : ModeRegs} {split : Bool} {s t : State} (ht : modesetTake m split s = .next t) :
    s.OutsideKept t := by
  rcases modesetTake_cases ht with ⟨k, -, ⟨-, rfl⟩ | ⟨-, rfl⟩⟩ | ⟨-, rfl⟩ <;> exact ⟨by simp, by simp⟩

/-- Only a wire command changes a memory outside the machine. -/
theorem Effect.outsideKept {i : Instr} {s t : State} (h : Effect i s t) (hi : i.agent ≠ .device) : s.OutsideKept t := by
  cases h with
  | rendered _ _ _ _ _ _ _ _ _ _ _ _ _ _ _ _ _ _ ht => exact frameLoop_outsideKept ht
  | filled _ _ _ _ _ _ ht => exact frameLoop_outsideKept ht
  | modesetTakes _ _ _ _ _ _ _ _ ht => exact modesetTake_outsideKept ht
  | detachWaits _ u _ hu => rcases hu with ⟨-, rfl⟩ | ⟨k, -, rfl⟩ <;> exact ⟨rfl, rfl⟩
  | detaches _ u _ hu => rcases hu with ⟨-, rfl⟩ | ⟨k, -, rfl⟩ <;> exact ⟨rfl, rfl⟩
  | device _ _ _ hd => exact absurd hd hi
  | _ => exact ⟨by simp, by simp⟩

/-- What a move does to the memories outside the machine: HOST writes FB, the reader writes the device's, and every other move
keeps both. -/
theorem MoveEffect.outside {m : Move} {s t : State} (h : MoveEffect m s t) :
    s.OutsideKept t ∨
    (∃ off bytes, m = .hostWrite off bytes ∧ t.hostFb = Memory.storeList s.hostFb off bytes ∧ t.device = s.device) ∨
    (t.hostFb = s.hostFb ∧ DeviceEffect s.device t.device) := by
  cases h with
  | hostWrote off bytes => exact .inr (.inl ⟨off, bytes, rfl, rfl, rfl⟩)
  | read _ _ _ _ _ _ hd => exact .inr (.inr ⟨rfl, hd⟩)
  | ran _ _ _ _ _ _ _ _ hi he => exact .inl (he.outsideKept (by simp [hi]))
  | transported _ _ _ _ _ hi he => exact .inl (he.outsideKept (by simp [hi]))
  | modesetEnds _ _ _ _ _ _ ht => exact .inl (modesetTake_outsideKept ht)
  | frameGoesOn _ _ _ _ ha ht => exact .inl (resumeFrame_ends ha ht).stable.outsideKept
  | frameTimesOut _ _ _ _ _ ht => exact .inl (timeoutFrame_ends ht).stable.outsideKept
  | idle | refused | acquireEnds | detachEnds | issued | acquireTimesOut => exact .inl ⟨by simp, by simp⟩

/-- The same of a step, which adds only marks and the move taken off the list. -/
theorem step_outside {s t : State} (h : step s = .next t) :
    s.OutsideKept t ∨
    (∃ off bytes, s.nextMove = .hostWrite off bytes ∧ t.hostFb = Memory.storeList s.hostFb off bytes ∧ t.device = s.device) ∨
    (t.hostFb = s.hostFb ∧ DeviceEffect s.device t.device) := by
  rcases step_effect h with ⟨-, rfl⟩ | ⟨-, u, hu, rfl⟩
  · exact .inl ⟨rfl, rfl⟩
  · simpa [State.OutsideKept] using hu.outside

/-- The reader writes device memory and device registers byte by byte (20_memory.md R67, R68). -/
theorem DeviceEffect.wf {d e : Device} (h : DeviceEffect d e) (hmem : Memory.wf d.mem) (hregs : Memory.wf d.regs) :
    Memory.wf e.mem ∧ Memory.wf e.regs := by
  cases h with
  | run _ addr bytes => exact ⟨storeDevice_wf addr bytes hmem, hregs⟩
  | regw _ val => exact ⟨hmem, Memory.store_wf _ val hregs⟩
  | pad => exact ⟨hmem, hregs⟩

/-- Settles O54: the agents' parts of a step keep the buffers, and the memories outside change only by stores. -/
theorem memoryInvKept : Obligations.MemoryInvKept := by
  intro s t hs ht
  obtain ⟨hbacking, hslots⟩ := buffersWf_keptByAgents.step ⟨hs.backing, hs.slots⟩ ht
  rcases step_outside ht with ⟨hfb, hdev⟩ | ⟨off, bytes, -, hfb, hdev⟩ | ⟨hfb, hdev⟩
  · exact ⟨hbacking, hfb ▸ hs.hostFb, hdev ▸ hs.deviceMem, hdev ▸ hs.deviceRegs, hslots⟩
  · exact ⟨hbacking, hfb ▸ Memory.storeList_wf off bytes hs.hostFb, hdev ▸ hs.deviceMem, hdev ▸ hs.deviceRegs, hslots⟩
  · obtain ⟨hmem, hregs⟩ := hdev.wf hs.deviceMem hs.deviceRegs
    exact ⟨hbacking, hfb ▸ hs.hostFb, hmem, hregs, hslots⟩

/-! ## The step of the agent that moves next -/

/-- Under a legal configuration a step is the next move's, with the pool check after it (20_memory.md R75). -/
theorem step_of_valid {s : State} (h : s.cfg.Valid) : step s = checked (moveStep s.nextMove s.popMove) := if_pos h

/-- HOST's write is a step of its own (60_exceptions.md R255). -/
theorem step_hostWrite {s : State} {off : Nat} {bytes : List Byte} (hv : s.cfg.Valid)
    (hm : s.nextMove = .hostWrite off bytes) :
    step s = .next (State.checkPool { s.popMove with hostFb := Memory.storeList s.hostFb off bytes }) := by
  rw [step_of_valid hv, hm]
  rfl

/-- Settles O52: FB changes at a HOST write only, and there by a store of the bytes at the offset. -/
theorem hostOwnsFramebuffer : Obligations.HostOwnsFramebuffer := by
  intro s t h
  refine ⟨fun hm => ?_, fun off bytes hv hm => ?_⟩
  · rcases step_outside h with ⟨hfb, -⟩ | ⟨off, bytes, hw, -⟩ | ⟨hfb, -⟩
    · exact hfb
    · exact absurd hw (hm off bytes)
    · exact hfb
  · rw [step_hostWrite hv hm] at h
    cases h
    have hfb : (State.checkPool { s.popMove with hostFb := Memory.storeList s.hostFb off bytes }).hostFb =
        Memory.storeList s.hostFb off bytes := by simp
    rw [hfb]
    exact ⟨fun j hj => Memory.read_storeList_inside s.hostFb .hostFb off bytes hj,
      fun a ha => Memory.read_storeList_other s.hostFb .hostFb bytes ha, by simp, by simp, by simp⟩

/-- PRODUCER takes the oldest request when none waits (10_state.md R21). -/
theorem producerStep_of_queue {s : State} {record : List Byte} {rest : List (List Byte)} (hp : s.pending = none)
    (hq : s.queue = record :: rest) : producerStep s = runRequest .host record { s with queue := rest } := by
  simp [producerStep, hp, hq]

/-- A record that is an instruction of its agent is run. -/
theorem runRequest_of_decode {agent : Agent} {record : List Byte} {s : State} {i : Instr}
    (hd : decode s.cfg record = .ok i) (hi : i.agent = agent) : runRequest agent record s = exec i s := by
  simp [runRequest, hd, hi]

/-- Bytes that are a wire command are run. -/
theorem runCommand_of_decode {command : List Byte} {s : State} {i : Instr} (hd : decode s.cfg command = .ok i)
    (hi : i.agent = .device) : runCommand command s = exec i s := by
  simp [runCommand, hd, hi]

/-- Settles O4: a step is its move's, and a move whose record decodes to its agent's instruction runs that. -/
theorem stepRunsDecodedInstruction : Obligations.StepRunsDecodedInstruction := by
  refine ⟨fun s record rest i hv hm hp hq hd _ hi => ?producer, fun s record i hv hm hd hi => ?transport,
    fun s command i hv hm hd _ hi => ?device, fun s hv => step_of_valid hv⟩
  all_goals rw [step_of_valid hv, hm]
  case producer =>
    exact congrArg checked ((producerStep_of_queue (s := s.popMove) hp hq).trans (runRequest_of_decode hd hi))
  case transport => exact congrArg checked (runRequest_of_decode (s := s.popMove) hd hi)
  case device => exact congrArg checked (runCommand_of_decode (s := s.popMove) hd hi)

end Sys2Proof.Machine
end

section
/-!
PROOFS. Encoding (30_encoding.md): decoding inverts encoding (R91, R94 to R98), and what becomes of reserved requests (R92).
-/

namespace Sys2Proof.Machine

/-! ## Decoding inverts encoding -/

@[simp] theorem rdList_rd8 (bytes bs : List Byte) : rdList rd8 (encList byte1 bytes ++ bs) = .ok (bytes, bs) :=
  rdList_encList rd8 byte1 rd8_byte1 bytes bs

@[simp] theorem rdList_rd16 (halves : List Half) (bs : List Byte) :
    rdList rd16 (encList bytesLe16 halves ++ bs) = .ok (halves, bs) :=
  rdList_encList rd16 bytesLe16 rd16_bytesLe16 halves bs

@[simp] theorem rdList_rd32 (words : List Word) (bs : List Byte) :
    rdList rd32 (encList bytesLe32 words ++ bs) = .ok (words, bs) :=
  rdList_encList rd32 bytesLe32 rd32_bytesLe32 words bs

/-- A request record says by itself where it ends: its code, then operands each of which its reader takes back. -/
theorem decodeFirst_encode_request (p : Params) {i : Instr} (hi : i.agent ≠ .device) (bs : List Byte) :
    decodeFirst p (encode p i ++ bs) = .ok (i, bs) := by
  cases i with
  | wRun16 | wRun8 | wRegw | wPad => exact absurd rfl hi
  | vlock | vunlock | acquire | submit | release | attach | detach | regw | setblank => rfl
  | _ => simp [encode, decodeFirst, decodeOp, bind, Except.bind]

/-- Padding takes every byte that is left (30_encoding.md R96, R98). -/
theorem decodeWire_padBytes (p : Params) (n : Nat) : decodeWire p (padBytes n) = .ok (.wPad (n + 1), []) := by
  cases n with
  | zero => rfl
  | succ n =>
    have hall : (padBytes n).all (· == 0xAF) = true := by simp [padBytes]
    have hlen : (padBytes n).length = n := List.length_replicate
    show decodeWire p (0xAF :: padBytes n) = _
    simp only [decodeWire, if_true, hall, hlen]

/-- A wire command is taken back up to its last byte, the opcodes of a legal configuration being distinct (00_scope.md R7). -/
theorem decodeFirst_encode_wire {p : Params} (hp : p.Valid) {i : Instr} (hi : i.agent = .device)
    (hw : i.wellFormed = true) : decodeFirst p (encode p i) = .ok (i, []) := by
  cases i with
  | wRun16 addr rep raw =>
    simp only [Instr.wellFormed, Bool.and_eq_true, decide_eq_true_eq] at hw
    have h := decodeWire_run16 hp addr rep hw.2 []
    rw [List.append_nil] at h
    exact h
  | wRun8 addr rep raw =>
    simp only [Instr.wellFormed, Bool.and_eq_true, decide_eq_true_eq] at hw
    have h := decodeWire_run8 hp addr rep hw.2 []
    rw [List.append_nil] at h
    exact h
  | wRegw reg val => exact decodeWire_regw p reg val []
  | wPad n =>
    obtain ⟨m, rfl⟩ : ∃ m, n = m + 1 := ⟨n - 1, by simp [Instr.wellFormed] at hw; omega⟩
    exact decodeWire_padBytes p m
  | _ => cases hi

/-- Bytes from which an instruction is read to the last byte are that instruction. -/
theorem decode_of_decodeFirst {p : Params} {bs : List Byte} {i : Instr} (h : decodeFirst p bs = .ok (i, [])) :
    decode p bs = .ok i := by
  simp [decode, h, bind, Except.bind]

/-- Settles O1: requests and wire commands are each taken back to the last byte. -/
theorem decodeInvertsEncode : Obligations.DecodeInvertsEncode := by
  intro p i hp hw
  by_cases hi : i.agent = .device
  · exact decode_of_decodeFirst (decodeFirst_encode_wire hp hi hw)
  · exact decode_of_decodeFirst (by simpa using decodeFirst_encode_request p hi [])

/-! ## Words written out -/

/-- Settles O2, by running the decoder on each word. -/
theorem decodeReadsSpecWords : Obligations.DecodeReadsSpecWords := by
  unfold Obligations.DecodeReadsSpecWords
  decide

/-! ## Reserved requests -/

/-- Where a bind answers, its first part does. -/
theorem exists_of_bind_ok {α β : Type} {x : Except DecodeError α} {f : α → Except DecodeError β} {b : β}
    (h : x >>= f = .ok b) : ∃ a, x = .ok a ∧ f a = .ok b := by
  cases x with
  | error e => cases h
  | ok a => exact ⟨a, rfl, h⟩

/-- What follows 0xAF is read as a wire command or not at all (30_encoding.md R94 to R96, R98). -/
theorem decodeWire_agent {p : Params} {bs rest : List Byte} {i : Instr} (h : decodeWire p bs = .ok (i, rest)) :
    i.agent = .device := by
  unfold decodeWire at h
  split at h
  · cases h; rfl
  split at h
  · split at h
    · cases h; rfl
    · cases h
  split at h
  · obtain ⟨_, -, h⟩ := exists_of_bind_ok h
    obtain ⟨_, -, h⟩ := exists_of_bind_ok h
    cases h; rfl
  split at h
  · obtain ⟨_, -, h⟩ := exists_of_bind_ok h
    cases h; rfl
  split at h
  · obtain ⟨_, -, h⟩ := exists_of_bind_ok h
    cases h; rfl
  · cases h

/-- The request codes that no HOST request has: the reserved ones, COMPLETE's, which is TRANSPORT's, and 0xAF, which opens a wire
command (30_encoding.md R91, R92, R98). -/
def ReservedCode (c : Byte) : Prop :=
  c.toNat = 0x00 ∨ (0x08 ≤ c.toNat ∧ c.toNat ≤ 0x0F) ∨ (0x1B ≤ c.toNat ∧ c.toNat ≤ 0x1F) ∨
    (0x23 ≤ c.toNat ∧ c.toNat ≤ 0x2F) ∨ (0x32 ≤ c.toNat ∧ c.toNat ≤ 0x3F) ∨ (0x45 ≤ c.toNat ∧ c.toNat ≤ 0x47) ∨
    0x4A ≤ c.toNat

/-- From such a code on, no HOST request is read: every other row of R91 has another code. -/
theorem decodeOp_reserved {p : Params} {c : Byte} {bs rest : List Byte} {i : Instr} (hc : ReservedCode c)
    (h : decodeOp p c bs = .ok (i, rest)) : i.agent ≠ .host := by
  unfold ReservedCode at hc
  unfold decodeOp at h
  split at h
  any_goals omega
  · -- 0x2F, COMPLETE
    obtain ⟨_, -, h⟩ := exists_of_bind_ok h
    cases h; nofun
  · -- 0xAF, a wire command
    simp [decodeWire_agent h]
  · -- every other code is an error
    cases h

theorem decode_reserved {p : Params} {c : Byte} {bs : List Byte} {i : Instr} (hc : ReservedCode c)
    (h : decode p (c :: bs) = .ok i) : i.agent ≠ .host := by
  obtain ⟨⟨j, rest⟩, hj, h⟩ := exists_of_bind_ok h
  simp only at h
  split at h
  · cases h; exact decodeOp_reserved hc hj
  · cases h

/-- A record that is no instruction of its agent sets REFUSED and has no other effect (60_exceptions.md R256). -/
theorem runRequest_refused {agent : Agent} {record : List Byte} {s : State}
    (h : ∀ i, decode s.cfg record = .ok i → i.agent ≠ agent) : runRequest agent record s = .next s.markRefused := by
  unfold runRequest
  split
  · next i hi => rw [if_neg (h i hi)]
  · rfl

/-- Settles O3: a reserved code opens no HOST request, and a record that is none is marked when PRODUCER takes it. -/
theorem reservedRequestsRefused : Obligations.ReservedRequestsRefused := by
  refine ⟨fun p c bs i hc => decode_reserved hc, fun s record rest hv hm hp hq hno => ?_, fun s hv => if_neg hv⟩
  rw [step_of_valid hv, hm]
  exact congrArg checked ((producerStep_of_queue (s := s.popMove) hp hq).trans (runRequest_refused hno))

end Sys2Proof.Machine
end

section
/-!
PROOFS. Every step keeps the wire rules (30_encoding.md R98, R99, 42_run_encoder.md R147, 45_slot_pool.md R204): what a slot holds
and what a SUBMIT sends is a stretch of whole commands, with padding only at the slot's end.
-/

namespace Sys2Proof.Machine

/-! ## Bytes after a command do not change how it is read -/

/-- A reader that, where it answers, leaves the bytes it has not read. -/
def Extends {α : Type} (rd : List Byte → Except DecodeError (α × List Byte)) : Prop :=
  ∀ bs x rest tail, rd bs = .ok (x, rest) → rd (bs ++ tail) = .ok (x, rest ++ tail)

theorem rd8_extends : Extends rd8 := by
  intro bs x rest tail h
  cases bs with
  | nil => cases h
  | cons b bs => cases h; rfl

theorem rdBe16_extends : Extends rdBe16 := by
  intro bs x rest tail h
  match bs with
  | [] | [_] => cases h
  | b0 :: b1 :: bs => cases h; rfl

/-- Where a bind of two readers answers, it does so on the longer bytes too. -/
theorem bind_extends {α β : Type} {rd : List Byte → Except DecodeError (α × List Byte)}
    {f : α → List Byte → Except DecodeError (β × List Byte)} (hrd : Extends rd) (hf : ∀ x, Extends (f x)) :
    Extends (fun bs => do
      let (x, bs) ← rd bs
      f x bs) := by
  intro bs y rest tail h
  obtain ⟨⟨x, mid⟩, hx, hy⟩ := exists_of_bind_ok h
  simp only [hrd _ _ _ tail hx, bind, Except.bind]
  exact hf x _ _ _ tail hy

theorem pure_extends {α : Type} (x : α) : Extends fun bs => .ok (x, bs) := by
  intro bs y rest tail h
  cases h; rfl

theorem rdMany_extends {α : Type} {rd : List Byte → Except DecodeError (α × List Byte)} (hrd : Extends rd) (n : Nat) :
    Extends (rdMany rd n) := by
  induction n with
  | zero => exact pure_extends []
  | succ n ih => exact bind_extends hrd fun x => bind_extends ih fun xs => pure_extends (x :: xs)

theorem rdRun_extends {α : Type} {rd : List Byte → Except DecodeError (α × List Byte)} (hrd : Extends rd) :
    Extends (rdRun rd) := by
  intro bs y rest tail h
  match bs with
  | [] | [_] | [_, _] | [_, _, _] | [_, _, _, _] => cases h
  | hi :: mid :: lo :: raw :: rep :: bs =>
    exact bind_extends (rdMany_extends hrd raw.toNat) (fun vals => pure_extends (hi ++ mid ++ lo, rep, vals)) bs y rest tail h

/-- A wire command other than padding is read the same, whatever follows it (30_encoding.md R98). -/
theorem decodeWire_append {p : Params} {bs rest : List Byte} {i : Instr} (h : decodeWire p bs = .ok (i, rest))
    (hi : ∀ n, i ≠ .wPad n) (tail : List Byte) : decodeWire p (bs ++ tail) = .ok (i, rest ++ tail) := by
  cases bs with
  | nil => cases h; exact absurd rfl (hi 1)
  | cons op bs =>
    unfold decodeWire at h
    rw [List.cons_append]
    unfold decodeWire
    by_cases hpad : op = 0xAF
    · simp only [if_pos hpad] at h
      split at h
      · cases h; exact absurd rfl (hi _)
      · cases h
    by_cases hregw : op = 0x20
    · simp only [if_neg hpad, if_pos hregw] at h ⊢
      exact bind_extends rd8_extends (fun reg => bind_extends rd8_extends fun val => pure_extends (Instr.wRegw reg val)) _ _ _ _ h
    by_cases h16 : op = p.op16
    · simp only [if_neg hpad, if_neg hregw, if_pos h16] at h ⊢
      exact bind_extends (rdRun_extends rdBe16_extends) (fun x => pure_extends (Instr.wRun16 x.1 x.2.1 x.2.2)) _ _ _ _ h
    by_cases h8 : op = p.op8
    · simp only [if_neg hpad, if_neg hregw, if_neg h16, if_pos h8] at h ⊢
      exact bind_extends (rdRun_extends rd8_extends) (fun x => pure_extends (Instr.wRun8 x.1 x.2.1 x.2.2)) _ _ _ _ h
    · simp only [if_neg hpad, if_neg hregw, if_neg h16, if_neg h8] at h
      cases h

/-- Only padding gives the item of padding. -/
theorem ne_wPad_of_wireItem {i : Instr} {item : WireItem} (h : wireItem i = some item) (hitem : ∀ n, item ≠ .pad n)
    (n : Nat) : i ≠ .wPad n := by
  rintro rfl
  cases h
  exact hitem n rfl

/-! ## Stretches the reference decoder takes -/

/-- Everything the reference decoder can do with bytes it takes, one command at a time. -/
theorem decodeItems_succ_cases {p : Params} {fuel : Nat} {b : Byte} {bs : List Byte} {items : List WireItem}
    (h : decodeItems p (fuel + 1) (b :: bs) = some items) :
    ∃ i rest item more, b = 0xAF ∧ decodeWire p bs = .ok (i, rest) ∧ wireItem i = some item ∧
      decodeItems p fuel rest = some more ∧ items = item :: more := by
  unfold decodeItems at h
  split at h
  case isFalse => cases h
  case isTrue hb =>
  split at h
  case h_2 => cases h
  case h_1 i rest hw =>
  split at h
  case h_2 => cases h
  case h_1 item more hitem hmore =>
  cases h
  exact ⟨i, rest, item, more, hb, hw, hitem, hmore, rfl⟩

/-- More fuel does no harm. -/
theorem decodeItems_add_fuel {p : Params} {n : Nat} {bs : List Byte} {items : List WireItem}
    (h : decodeItems p n bs = some items) (m : Nat) : decodeItems p (n + m) bs = some items := by
  induction n generalizing bs items with
  | zero =>
    cases bs with
    | nil => rw [decodeItems_nil] at h ⊢; exact h
    | cons b bs => cases h
  | succ n ih =>
    cases bs with
    | nil => rw [decodeItems_nil] at h ⊢; exact h
    | cons b bs =>
      obtain ⟨i, rest, item, more, rfl, hw, hitem, hmore, rfl⟩ := decodeItems_succ_cases h
      rw [Nat.succ_add, decodeItems_cons hw hitem, ih hmore, Option.map_some]

/-- Two stretches one after the other, the first without padding, are one. -/
theorem decodeItems_append {p : Params} {n m : Nat} {bs cs : List Byte} {items more : List WireItem}
    (h : decodeItems p n bs = some items) (hpad : ∀ k, .pad k ∉ items) (hc : decodeItems p m cs = some more) :
    decodeItems p (n + m) (bs ++ cs) = some (items ++ more) := by
  induction n generalizing bs items with
  | zero =>
    cases bs with
    | nil => cases h; simpa using hc
    | cons b bs => cases h
  | succ n ih =>
    cases bs with
    | nil =>
      cases h
      rw [Nat.add_comm]
      exact decodeItems_add_fuel hc _
    | cons b bs =>
      obtain ⟨i, rest, item, items, rfl, hw, hitem, hitems, rfl⟩ := decodeItems_succ_cases h
      have hhead : ∀ k, item ≠ .pad k := fun k e => hpad k (by simp [e])
      have htail : ∀ k, .pad k ∉ items := fun k hk => hpad k (List.mem_cons_of_mem _ hk)
      have hw' := decodeWire_append hw (ne_wPad_of_wireItem hitem hhead) cs
      rw [Nat.succ_add, List.cons_append, decodeItems_cons hw' hitem, ih hitems htail, Option.map_some, List.cons_append]

theorem decodeSlot_append {p : Params} {bs cs : List Byte} {items more : List WireItem} (h : decodeSlot p bs = some items)
    (hpad : ∀ k, .pad k ∉ items) (hc : decodeSlot p cs = some more) : decodeSlot p (bs ++ cs) = some (items ++ more) := by
  unfold decodeSlot at *
  rw [List.length_append]
  exact decodeItems_append h hpad hc

/-- Bytes that the reference decoder takes (42_run_encoder.md R147) and that end at `stop` in their slot, with padding only at the
slot's end. -/
def WireChunk (p : Params) (stop : Nat) (bs : List Byte) : Prop :=
  ∃ items, decodeSlot p bs = some items ∧ ((∃ n, .pad n ∈ items) → stop = p.slotBytes)

theorem wireChunk_nil (p : Params) (stop : Nat) : WireChunk p stop [] := ⟨[], rfl, by simp⟩

/-- What is written behind a chunk, inside the slot, makes a longer chunk: behind padding there is no room for anything. -/
theorem WireChunk.append {p : Params} {stop : Nat} {bs cs : List Byte} (h : WireChunk p stop bs)
    (hc : WireChunk p (stop + cs.length) cs) (hfit : stop + cs.length ≤ p.slotBytes) :
    WireChunk p (stop + cs.length) (bs ++ cs) := by
  obtain ⟨items, hitems, hend⟩ := h
  obtain ⟨more, hmore, hstop⟩ := hc
  by_cases hpad : ∃ n, .pad n ∈ items
  · have hfull := hend hpad
    obtain rfl : cs = [] := List.length_eq_zero_iff.mp (by omega)
    exact ⟨items, by simpa using hitems, fun _ => by simpa using hfull⟩
  · refine ⟨items ++ more, decodeSlot_append hitems (not_exists.mp hpad) hmore, fun ⟨n, hn⟩ => hstop ⟨n, ?_⟩⟩
    exact (List.mem_append.mp hn).resolve_left (not_exists.mp hpad n)

/-- Whole commands hold no padding. -/
theorem Framed.not_mem_pad {p : Params} {bs : List Byte} {items : List WireItem} (h : Framed p bs items) (n : Nat) :
    .pad n ∉ items := by
  induction h with
  | nil => simp
  | run16 _ _ _ ih | run8 _ _ _ ih | regw _ ih => simpa using ih

/-- Whole commands may end anywhere in the slot, and be followed by padding up to its end. -/
theorem Framed.wireChunk {p : Params} (hp : p.Valid) {bs : List Byte} {items : List WireItem} (h : Framed p bs items)
    {stop n : Nat} (hstop : n ≠ 0 → stop = p.slotBytes) : WireChunk p stop (bs ++ padBytes n) := by
  refine ⟨_, h.decodeSlot hp n, fun ⟨k, hk⟩ => hstop ?_⟩
  rintro rfl
  simp [h.not_mem_pad] at hk

/-! ## What VPIPE emits -/

/-- Register writes are whole commands (30_encoding.md R95). -/
theorem framed_regwBytes (p : Params) (regs : List (Byte × Byte)) :
    Framed p (regs.flatMap fun q => regwBytes q.1 q.2) (regs.map fun q => .regw q.1 q.2) := by
  induction regs with
  | nil => exact .nil
  | cons q regs ih => exact .regw ih

theorem wireChunk_regwBytes {p : Params} (hp : p.Valid) (stop : Nat) (regs : List (Byte × Byte)) :
    WireChunk p stop (regs.flatMap fun q => regwBytes q.1 q.2) := by
  simpa [padBytes] using (framed_regwBytes p regs).wireChunk hp (stop := stop) (n := 0) (by simp)

theorem wireChunk_modesetStream {p : Params} (hp : p.Valid) (stop : Nat) (m : ModeRegs) (split : Bool) :
    WireChunk p stop (modesetStream p m split) := by
  obtain ⟨regs, hregs⟩ := modesetStream_eq p m split
  rw [hregs]
  exact wireChunk_regwBytes hp stop regs

/-- EncodeRun's bytes depend on the values that are left only. -/
theorem encodeRun_bytes_drop {α : Type} [DecidableEq α] (p : Params) (ch : Channel α) (wptr : Nat) (vals : List α) (i : Nat)
    (addr : DevAddr) : (encodeRun p ch wptr vals i addr).bytes = (encodeRun p ch wptr (vals.drop i) 0 addr).bytes := rfl

/-- EncodeRun emits whole commands, and padding to the slot's end once it is full (42_run_encoder.md R143), where a channel's
commands are whole ones. -/
theorem wireChunk_encodeRun {α : Type} [DecidableEq α] {p : Params} (hp : p.Valid) {ch : Channel α} (hw : ch.Wide)
    (hb : ch.bpp = 1 ∨ ch.bpp = 2)
    (hch : ∀ addr cmds, Commands p ch.bpp addr cmds → ∃ items, Framed p (cmds.flatMap (RunCmd.bytes ch)) items)
    {wptr : Nat} (hwptr : wptr ≤ p.slotBytes) (vals : List α) (i : Nat) (addr : DevAddr) :
    WireChunk p (wptr + (encodeRun p ch wptr vals i addr).bytes.length) (encodeRun p ch wptr vals i addr).bytes := by
  rw [encodeRun_bytes_drop]
  obtain ⟨cmds, hcmds⟩ := encodeRun_spec hp ch hw hb hwptr (vals.drop i) (Nat.zero_le _) addr
  obtain ⟨items, hitems⟩ := hch addr cmds hcmds.commands
  have hbytes := hcmds.bytes
  cases hfull : (encodeRun p ch wptr (vals.drop i) 0 addr).full
  · rw [hfull, if_neg Bool.false_ne_true] at hbytes
    rw [hbytes]
    exact hitems.wireChunk hp (n := 0) (by simp)
  · rw [hcmds.full hfull, hbytes, hfull, if_pos rfl]
    exact hitems.wireChunk hp fun _ => rfl

theorem wireChunk_encodeRun16 {p : Params} (hp : p.Valid) {wptr : Nat} (hwptr : wptr ≤ p.slotBytes) (vals : List Half)
    (i : Nat) (addr : DevAddr) :
    WireChunk p (wptr + (encodeRun p (channel16 p) wptr vals i addr).bytes.length)
      (encodeRun p (channel16 p) wptr vals i addr).bytes :=
  wireChunk_encodeRun hp (channel16_wide p) (.inr rfl) (fun _ _ h => ⟨_, h.framed16⟩) hwptr vals i addr

theorem wireChunk_encodeRun8 {p : Params} (hp : p.Valid) {wptr : Nat} (hwptr : wptr ≤ p.slotBytes) (vals : List Byte)
    (i : Nat) (addr : DevAddr) :
    WireChunk p (wptr + (encodeRun p (channel8 p) wptr vals i addr).bytes.length)
      (encodeRun p (channel8 p) wptr vals i addr).bytes :=
  wireChunk_encodeRun hp (channel8_wide p) (.inl rfl) (fun _ _ h => ⟨_, h.framed8⟩) hwptr vals i addr

/-! ## The bytes of a slot -/

theorem Memory.readList_add (m : Memory) (sp : Config.Space) (a n k : Nat) :
    Memory.readList m sp a (n + k) = Memory.readList m sp a n ++ Memory.readList m sp (a + n) k := by
  simp [Memory.readList, List.range_add, Function.comp_def, Nat.add_assoc]

@[simp] theorem Pool.slotBytes_zero (p : Pool) (k : Nat) : p.slotBytes k 0 = [] := by
  unfold Pool.slotBytes
  split <;> rfl

theorem Pool.slotBytes_congr {p q : Pool} {k : Nat} (h : (p.slots[k]?).map Slot.buf = (q.slots[k]?).map Slot.buf) (n : Nat) :
    p.slotBytes k n = q.slotBytes k n := by
  have hbuf (r : Pool) : r.slotBytes k n = ((r.slots[k]?).map Slot.buf).elim [] fun b => b.readList 0 n := by
    unfold Pool.slotBytes
    cases r.slots[k]? <;> rfl
  rw [hbuf, hbuf, h]

/-- A change that leaves the buffers of the slots alone leaves their bytes alone. -/
theorem Pool.slotBytes_modifySlot {f : Slot → Slot} (hf : ∀ slot, (f slot).buf = slot.buf) (p : Pool) (j k n : Nat) :
    (p.modifySlot j f).slotBytes k n = p.slotBytes k n := by
  refine Pool.slotBytes_congr ?_ n
  rw [Pool.getElem?_modifySlot]
  split
  · simp [Function.comp_def, hf]
  · rfl

theorem Pool.slotBytes_giveBack (p : Pool) (slotBytes j k n : Nat) :
    (p.giveBack slotBytes j).slotBytes k n = p.slotBytes k n :=
  Pool.slotBytes_modifySlot (f := fun slot => { slot with len := BitVec.ofNat 32 slotBytes, state := .free })
    (fun _ => rfl) p j k n

/-- Bytes stored where a slot's written ones end come after them. -/
theorem Pool.slotBytes_storeList {p : Pool} {k : Nat} (hk : k < p.slots.length) (a : Nat) (bs : List Byte) :
    (p.modifySlot k fun slot => { slot with buf := slot.buf.storeList a bs }).slotBytes k (a + bs.length) =
      p.slotBytes k a ++ bs := by
  have hslot : p.slots[k]? = some p.slots[k] := List.getElem?_eq_getElem hk
  unfold Pool.slotBytes
  rw [Pool.getElem?_modifySlot, if_pos rfl, hslot]
  show Memory.readList _ _ 0 (a + bs.length) = Memory.readList _ _ 0 a ++ bs
  rw [Memory.readList_add, Nat.zero_add]
  congr 1
  · exact Memory.readList_storeList_other _ _ _ (.inl (by omega))
  · exact Memory.readList_storeList _ _ _ _

/-! ## The wire rules through each operation -/

/-- The rules speak of the configuration, the events and the bytes of the held slot only. -/
theorem WireInv.of_eq {s t : State} (h : WireInv s) (hc : t.cfg = s.cfg) (hp : t.pool = s.pool) (he : t.events = s.events) :
    WireInv t :=
  ⟨by rw [he, hc]; exact h.events, by rw [hp, hc]; exact h.held⟩

/-- The bytes of the held slot are a chunk that ends at WPTR. -/
theorem WireInv.chunk {s : State} (h : WireInv s) {k : Nat} (hk : s.pool.held = some k) :
    WireChunk s.cfg s.pool.wptr.toNat (s.pool.slotBytes k s.pool.wptr.toNat) := h.held k hk

/-- With nothing written into the held slot, the rules speak of the events only. -/
theorem WireInv.of_empty {s t : State} (h : WireInv s) (hc : t.cfg = s.cfg) (hw : t.pool.wptr = 0)
    (he : t.events = s.events) : WireInv t :=
  ⟨by rw [he, hc]; exact h.events, fun k _ => by
    show WireChunk t.cfg t.pool.wptr.toNat (t.pool.slotBytes k t.pool.wptr.toNat)
    simpa [hw] using wireChunk_nil t.cfg 0⟩

theorem WireInv.replied {s : State} (h : WireInv s) (st : StatusCode) (r : Result) : WireInv (s.replied st r) :=
  h.of_eq rfl rfl rfl

/-- Emit of a chunk that begins at WPTR. -/
theorem WireInv.emit {s : State} (h : WireInv s) (hok : PoolOk s) {bs : List Byte}
    (hbs : WireChunk s.cfg (s.pool.wptr.toNat + bs.length) bs) : WireInv (s.emit bs) := by
  rcases s.emit_cases bs with ⟨k, hk, hfit, e⟩ | e
  · refine ⟨by simpa using h.events, fun j hj => ?_⟩
    have hS := slotBytes_lt_of_valid hok.config
    have hwptr : (s.pool.wptr + BitVec.ofNat 32 bs.length).toNat = s.pool.wptr.toNat + bs.length := by
      simp only [BitVec.toNat_add, BitVec.toNat_ofNat]
      omega
    rw [e] at hj ⊢
    obtain rfl : k = j := Option.some.inj (hk.symm.trans hj)
    show WireChunk s.cfg (s.pool.wptr + BitVec.ofNat 32 bs.length).toNat
      ((s.pool.modifySlot k _).slotBytes k (s.pool.wptr + BitVec.ofNat 32 bs.length).toNat)
    rw [hwptr, Pool.slotBytes_storeList (hok.held_lt hk)]
    exact (h.chunk hk).append hbs hfit
  · exact h.of_eq (by simp) (by simp [e]) (by simp)

theorem WireInv.takeSlot {s : State} (h : WireInv s) : WireInv s.takeSlot := h.of_empty (by simp) (by simp) (by simp)

theorem WireInv.releaseSlot {s : State} (h : WireInv s) (k : Nat) : WireInv (s.releaseSlot k) :=
  h.of_empty rfl rfl rfl

/-- A slot that goes back keeps its bytes, and so does the held one. -/
theorem WireInv.completeSlot {s : State} (h : WireInv s) (k : Nat) : WireInv (s.completeSlot k) := by
  rcases s.completeSlot_cases k with ⟨slot, -, -, e⟩ | ⟨-, e⟩
  · refine ⟨by simpa using h.events, fun j hj => ?_⟩
    rw [e] at hj ⊢
    show WireChunk s.cfg s.pool.wptr.toNat ((s.pool.giveBack s.cfg.slotBytes k).slotBytes j s.pool.wptr.toNat)
    rw [Pool.slotBytes_giveBack]
    exact h.chunk hj
  · exact h.of_eq (by simp) (by simp [e]) (by simp)

/-- SUBMIT sends the held slot's bytes, or nothing. -/
theorem WireInv.submitSlot {s : State} (h : WireInv s) {k : Nat} (hk : s.pool.held = some k) : WireInv (s.submitSlot k) := by
  unfold State.submitSlot
  cases s.nextChoice
  · have hlaunched : WireInv (s.afterDraw.launchSlot k) := h.of_empty (by simp) rfl (by simp)
    rw [State.submitWith_reject]
    exact (hlaunched.completeSlot k).of_eq rfl rfl rfl
  · rw [State.submitWith_accept]
    refine ⟨fun e he => ?_, nofun⟩
    rcases List.mem_append.mp he with he | he
    · simpa using h.events e (by simpa using he)
    · obtain rfl := List.mem_singleton.mp he
      obtain ⟨items, hitems, -⟩ := h.chunk hk
      exact ⟨items, by simpa using hitems⟩

theorem WireInv.submitF {s : State} (h : WireInv s) : WireInv s.submitF := by
  unfold State.submitF
  split
  · next k hk => exact h.submitSlot hk
  · exact h

/-! ## A stretch of work -/

theorem WireInv.endOfFrame {s t : State} (h : WireInv s) (ht : endOfFrame s = .next t) : WireInv t := by
  obtain ⟨closed, hclosed, rfl⟩ := endOfFrame_cases ht
  have hwire : WireInv closed := by
    rcases hclosed with ⟨-, rfl⟩ | ⟨k, hk, ⟨-, rfl⟩ | ⟨-, rfl⟩⟩
    · exact h
    · exact h.submitSlot hk
    · exact h.releaseSlot k
  exact hwire.of_eq (by simp) (by simp) (by simp)

/-- EncodeRun's bytes into the held slot. -/
theorem WithSlot.wireInv_encode16 {c : Params} {m : Marks} {s : State} (h : WithSlot c m s) (hw : WireInv s)
    (vals : List Half) (i : Nat) (addr : DevAddr) :
    WireInv (s.emit (encodeRun c (channel16 c) s.pool.wptr.toNat vals i addr).bytes) := by
  obtain ⟨⟨rfl, hok, -, -⟩, -⟩ := h
  exact hw.emit hok (wireChunk_encodeRun16 hok.config hok.pool.wptrLe vals i addr)

theorem WithSlot.wireInv_encode8 {c : Params} {m : Marks} {s : State} (h : WithSlot c m s) (hw : WireInv s)
    (vals : List Byte) (i : Nat) (addr : DevAddr) :
    WireInv (s.emit (encodeRun c (channel8 c) s.pool.wptr.toNat vals i addr).bytes) := by
  obtain ⟨⟨rfl, hok, -, -⟩, -⟩ := h
  exact hw.emit hok (wireChunk_encodeRun8 hok.config hok.pool.wptrLe vals i addr)

/-- A frame operation keeps the wire rules beside those of the pool. -/
theorem wireInv_rule (c : Params) (m : Marks) (f0 : FrameCtx) :
    FrameRule c f0 (fun s => WithSlot c m s ∧ WireInv s) (fun s => WithoutSlot c m s ∧ WireInv s) WireInv :=
  have pool := poolRun_rule c m f0
  { cfg := fun s h => pool.cfg s h.1
    emit16 := fun s vals i addr h => ⟨pool.emit16 s vals i addr h.1, h.1.wireInv_encode16 h.2 vals i addr⟩
    emit8 := fun s vals i addr h => ⟨pool.emit8 s vals i addr h.1, h.1.wireInv_encode8 h.2 vals i addr⟩
    full16 := fun s vals i addr h hf =>
      ⟨pool.full16 s vals i addr h.1 hf, (h.1.wireInv_encode16 h.2 vals i addr).submitF⟩
    full8 := fun s vals i addr h hf =>
      ⟨pool.full8 s vals i addr h.1 hf, (h.1.wireInv_encode8 h.2 vals i addr).submitF⟩
    take := fun s h ha => ⟨pool.take s h.1 ha, h.2.takeSlot⟩
    count := fun s f hf hy h => ⟨pool.count s f hf hy h.1, h.2.of_eq (by simp) (by simp) (by simp)⟩
    prepare := fun s f hf hy hl h => ⟨pool.prepare s f hf hy hl h.1, h.2.of_eq (by simp) (by simp) (by simp)⟩
    lost := fun s h => ⟨pool.lost s h.1, h.2.of_eq rfl rfl rfl⟩
    slotless := fun s h hh => ⟨pool.slotless s h.1 hh, h.2⟩
    slotted := fun s h hh => ⟨pool.slotted s h.1 hh, h.2⟩
    wait := fun s f _ h _ => h.2.of_eq rfl rfl rfl
    ends := fun s t h ht => (h.elim And.right And.right).endOfFrame ht }

theorem frameLoop_wireInv {source : FrameSource} {x0 x1 y0 y1 : Nat} {s t : State} (hs : PoolInv s) (hw : WireInv s)
    (ha : s.flag .attached = true) (hh : s.pool.held = none) (ht : frameLoop source x0 x1 y0 y1 s = .next t) : WireInv t :=
  have hbusy : PoolRun s.cfg s.marks (s.setFlag .frameBusy true) := (hs.run ha).of_eq rfl rfl rfl (by simp)
  (wireInv_rule s.cfg s.marks ⟨source, x0, x1, y0, y1, 0, .line⟩).runLines (y1 - y0) ⟨rfl, rfl, rfl, rfl⟩ le_rfl
    (.inr ⟨⟨hbusy, hh⟩, hw.of_eq rfl rfl rfl⟩) ht

/-- MODESET from its acquire on: its stream is register writes. -/
theorem modesetTake_wireInv {m : ModeRegs} {split : Bool} {s t : State} (hok : PoolOk s) (hw : WireInv s)
    (hh : s.pool.held = none) (ha : s.pool.avail ≠ 0) (ht : modesetTake m split s = .next t) : WireInv t := by
  have hfilled : WireInv (s.takeSlot.emit (modesetStream s.cfg m split)) :=
    hw.takeSlot.emit (hok.take hh ha) (by simpa using wireChunk_modesetStream hok.config _ m split)
  rcases modesetTake_cases ht with ⟨k, hk, ⟨-, rfl⟩ | ⟨-, rfl⟩⟩ | ⟨-, rfl⟩
  · exact (hfilled.submitSlot hk).of_eq rfl rfl rfl
  · exact (hfilled.submitSlot hk).replied _ _
  · exact hfilled.replied _ _

/-! ## Each agent's part of a step -/

theorem WireInv.detached {s : State} (h : WireInv s) : WireInv (s.destroySession.replied .ok .none) :=
  h.of_empty rfl rfl rfl

/-- Every request keeps the wire rules. -/
theorem Effect.wireInv {i : Instr} {s t : State} (h : Effect i s t) (hs : PoolInv s) (hw : WireInv s) : WireInv t := by
  cases h with
  | wrote _ _ regs ha => exact (hw.emit (hs.ok ha) (wireChunk_regwBytes hs.config _ regs)).replied _ _
  | encoded16 vals k addr _ ha =>
    exact (hw.emit (hs.ok ha) (wireChunk_encodeRun16 hs.config hs.wptrLe vals k.toNat addr)).replied _ _
  | encoded8 vals k addr _ ha =>
    exact (hw.emit (hs.ok ha) (wireChunk_encodeRun8 hs.config hs.wptrLe vals k.toNat addr)).replied _ _
  | acquired => exact hw.takeSlot.replied _ _
  | submitted _ k _ hk => exact (hw.submitSlot hk).replied _ _
  | released _ k => exact (hw.releaseSlot k).replied _ _
  | completed _ k => exact hw.completeSlot k
  | rendered _ _ _ _ _ _ _ _ _ _ ha _ _ hh _ _ _ _ ht => exact frameLoop_wireInv hs hw ha hh ht
  | filled _ _ _ ha _ hh ht => exact frameLoop_wireInv hs hw ha hh ht
  | modesetTakes _ _ _ _ ha hh _ hsome ht => exact modesetTake_wireInv (hs.ok ha) hw hh hsome ht
  | attaches => exact hw.of_empty rfl rfl rfl
  | detachWaits _ u _ hu =>
    rcases hu with ⟨-, rfl⟩ | ⟨k, -, rfl⟩
    · exact hw.of_eq rfl rfl rfl
    · exact (hw.releaseSlot k).of_eq rfl rfl rfl
  | detaches _ u _ hu =>
    rcases hu with ⟨-, rfl⟩ | ⟨k, -, rfl⟩
    · exact hw.detached
    · exact (hw.releaseSlot k).detached
  | answered | acquireWaits | completeIgnored | cleared | linked | modesetWaits | fbPlain | fbBacked | fbFailed | cursorSet
    | device => exact hw.of_eq (by simp) (by simp) (by simp)

theorem wireInv_keptByAgents : KeptByAgents fun s => PoolInv s ∧ WireInv s where
  outside s _ _ _ _ _ hs := ⟨poolInv_keptByAgents.outside s _ _ _ _ _ hs.1, hs.2.of_eq rfl rfl rfl⟩
  request i s t hs hp he := ⟨poolInv_keptByAgents.request i s t hs.1 hp he, he.wireInv hs.1 hs.2⟩
  complete s k hs ha := ⟨poolInv_keptByAgents.complete s k hs.1 ha, hs.2.completeSlot k⟩
  acquireEnds s hs hp hsome :=
    ⟨poolInv_keptByAgents.acquireEnds s hs.1 hp hsome, hs.2.takeSlot.replied _ _⟩
  modesetEnds s m split t hs hp hsome ht :=
    have ⟨ha, hh⟩ := hs.1.waiting (by simp [hp])
    ⟨poolInv_keptByAgents.modesetEnds s m split t hs.1 hp hsome ht, modesetTake_wireInv (hs.1.ok ha) hs.2 hh hsome ht⟩
  detachEnds s hs hp := ⟨poolInv_keptByAgents.detachEnds s hs.1 hp, hs.2.detached⟩
  acquireTimesOut s hs hp := ⟨poolInv_keptByAgents.acquireTimesOut s hs.1 hp, hs.2.of_eq rfl rfl rfl⟩
  frameGoesOn s f t hs hp hsome ht :=
    have ⟨ha, hh⟩ := hs.1.waiting (by simp [hp])
    ⟨poolInv_keptByAgents.frameGoesOn s f t hs.1 hp hsome ht,
      (wireInv_rule s.cfg s.marks f).resumeFrame ⟨rfl, rfl, rfl, rfl⟩ ⟨⟨hs.1.run ha, hh⟩, hs.2⟩ hsome ht⟩
  frameTimesOut s f t hs hp ht :=
    have ⟨ha, hh⟩ := hs.1.waiting (by simp [hp])
    ⟨poolInv_keptByAgents.frameTimesOut s f t hs.1 hp ht,
      (wireInv_rule s.cfg s.marks f).timeoutFrame ⟨rfl, rfl, rfl, rfl⟩ ⟨⟨hs.1.run ha, hh⟩, hs.2⟩ ht⟩

/-- Settles O53: the agents' parts of a step keep the wire rules together with the pool rules. -/
theorem wireInvKept : Obligations.WireInvKept := fun _ _ hp hw ht => (wireInv_keptByAgents.step ⟨hp, hw⟩ ht).2

end Sys2Proof.Machine
end

section
/-!
PROOFS. The wire commands as the reference reader runs them: where a run's values go (30_encoding.md R94, R97, 42_run_encoder.md
R146), the register write and padding (R95, R96).
-/

namespace Sys2Proof.Machine

/-! ## One byte -/

theorem Memory.read_store (m : Memory) (sp : Config.Space) (a b : Nat) (v : Byte) :
    Memory.read (Memory.store m a v) sp b = if b = a then v else Memory.read m sp b := by
  unfold Memory.read
  split
  · next h => simp [h]
  · next h => rw [Memory.find_store_other m v h]

/-! ## Device memory -/

/-- Device addresses count mod 2^24 (20_memory.md R67), so offsets below it name different ones. -/
theorem toNat_add_ofNat_ne {addr : DevAddr} {j k : Nat} (hj : j < 2 ^ 24) (hk : k < 2 ^ 24) (h : j ≠ k) :
    (addr + BitVec.ofNat 24 j).toNat ≠ (addr + BitVec.ofNat 24 k).toNat := by
  simp only [BitVec.toNat_add, BitVec.toNat_ofNat]
  omega

theorem add_one_add_ofNat (addr : DevAddr) (j : Nat) :
    addr + 1 + BitVec.ofNat 24 j = addr + BitVec.ofNat 24 (j + 1) := by
  rw [BitVec.ofNat_add, BitVec.add_assoc, BitVec.add_comm 1]
  rfl

/-- An address that none of the bytes goes to keeps its byte. -/
theorem read_storeDevice_other (m : Memory) (addr : DevAddr) (bs : List Byte) {a : Nat}
    (h : ∀ j < bs.length, a ≠ (addr + BitVec.ofNat 24 j).toNat) :
    Memory.read (storeDevice m addr bs) .deviceMem a = Memory.read m .deviceMem a := by
  induction bs generalizing m addr with
  | nil => rfl
  | cons b bs ih =>
    have hhead : a ≠ addr.toNat := by simpa using h 0 (by simp)
    have htail : ∀ j < bs.length, a ≠ (addr + 1 + BitVec.ofNat 24 j).toNat := fun j hj => by
      rw [add_one_add_ofNat]
      exact h (j + 1) (by simpa using hj)
    rw [storeDevice, ih _ _ htail, Memory.read_store, if_neg hhead]

/-- Each byte goes to its own address, as long as there are no more bytes than addresses. -/
theorem read_storeDevice_inside (m : Memory) (addr : DevAddr) {bs : List Byte} (hlen : bs.length ≤ 2 ^ 24) {j : Nat} {b : Byte}
    (h : bs[j]? = some b) : Memory.read (storeDevice m addr bs) .deviceMem (addr + BitVec.ofNat 24 j).toNat = b := by
  induction bs generalizing m addr j with
  | nil => cases h
  | cons c bs ih =>
    rw [List.length_cons] at hlen
    rw [storeDevice]
    cases j with
    | zero =>
      cases h
      rw [read_storeDevice_other, Memory.read_store]
      · simp
      · intro k hk
        rw [add_one_add_ofNat]
        exact toNat_add_ofNat_ne (by omega) (by omega) (by omega)
    | succ j =>
      rw [← add_one_add_ofNat]
      exact ih _ _ (by omega) h

/-! ## The values of a run -/

/-- With a last raw value the run is not empty, and its values are the raw ones and the copies (42_run_encoder.md R146). -/
theorem runValues_of_getLast? {α : Type} {raw : List α} {last : α} (h : raw.getLast? = some last) (rep : Nat) :
    runValues raw rep = raw ++ List.replicate rep last := by
  rw [runValues, h]

/-- A run command of 1 to 255 raw values, and none other, is taken (30_encoding.md R97). -/
theorem rawCountOk_eq_true {n : Nat} : rawCountOk n = true ↔ 1 ≤ n ∧ n ≤ 255 := by simp [rawCountOk]

theorem rawCountOk_eq_false {n : Nat} (h : n = 0 ∨ 255 < n) : rawCountOk n = false := by
  rw [← Bool.not_eq_true, rawCountOk_eq_true]
  omega

theorem rawCountOk_of_getLast? {α : Type} {raw : List α} {last : α} (h : raw.getLast? = some last)
    (hlen : raw.length ≤ 255) : rawCountOk raw.length = true :=
  rawCountOk_eq_true.mpr ⟨List.length_pos_iff.mpr fun e => by simp [e] at h, hlen⟩

/-- A run has at most 510 values. -/
theorem length_values_le {α : Type} {raw : List α} (hlen : raw.length ≤ 255) (rep : Byte) (last : α) :
    (raw ++ List.replicate rep.toNat last).length ≤ 510 := by
  have hrep := rep.isLt
  simp only [List.length_append, List.length_replicate]
  omega

theorem length_flatMap_deviceBytes16 (vals : List Half) : (vals.flatMap deviceBytes16).length = 2 * vals.length := by
  have hwide (v : Half) : (deviceBytes16 v).length = 2 := by unfold deviceBytes16; split <;> rfl
  simp [List.length_flatMap, hwide, Nat.mul_comm]

/-- The two bytes of the value with number `j` in device memory (log entry 13). -/
theorem getElem?_flatMap_deviceBytes16 {vals : List Half} {j : Nat} {v : Half} (h : vals[j]? = some v) :
    (vals.flatMap deviceBytes16)[2 * j]? =
        some (if Config.deviceHighByteFirst then v.extractLsb' 8 8 else v.extractLsb' 0 8) ∧
      (vals.flatMap deviceBytes16)[2 * j + 1]? =
        some (if Config.deviceHighByteFirst then v.extractLsb' 0 8 else v.extractLsb' 8 8) := by
  have hbytes (v : Half) : deviceBytes16 v =
      [if Config.deviceHighByteFirst then v.extractLsb' 8 8 else v.extractLsb' 0 8,
        if Config.deviceHighByteFirst then v.extractLsb' 0 8 else v.extractLsb' 8 8] := by
    unfold deviceBytes16
    split <;> rfl
  induction vals generalizing j with
  | nil => cases h
  | cons w vals ih =>
    rw [List.flatMap_cons, hbytes]
    cases j with
    | zero => cases h; exact ⟨rfl, rfl⟩
    | succ j => exact ih h

/-! ## The commands -/

theorem exec_wRun16_rejected {addr : DevAddr} {rep : Byte} {raw : List Half} (h : rawCountOk raw.length = false) (s : State) :
    exec (.wRun16 addr rep raw) s = .refused .wireRejected := by
  simp [exec, execWRun16, h]

theorem exec_wRun8_rejected {addr : DevAddr} {rep : Byte} {raw : List Byte} (h : rawCountOk raw.length = false) (s : State) :
    exec (.wRun8 addr rep raw) s = .refused .wireRejected := by
  simp [exec, execWRun8, h]

/-- A 16-bit run that is taken: its bytes go to device memory, and its item to the reader's list. -/
theorem exec_wRun16_taken {addr : DevAddr} {rep : Byte} {raw : List Half} (h : rawCountOk raw.length = true) (s : State) :
    exec (.wRun16 addr rep raw) s = .next { s with device :=
      ⟨storeDevice s.device.mem addr ((runValues raw rep.toNat).flatMap deviceBytes16), s.device.regs,
        s.device.items ++ [.run16 addr (runValues raw rep.toNat)]⟩ } := if_pos h

theorem exec_wRun8_taken {addr : DevAddr} {rep : Byte} {raw : List Byte} (h : rawCountOk raw.length = true) (s : State) :
    exec (.wRun8 addr rep raw) s = .next { s with device :=
      ⟨storeDevice s.device.mem addr (runValues raw rep.toNat), s.device.regs,
        s.device.items ++ [.run8 addr (runValues raw rep.toNat)]⟩ } := if_pos h

/-- Settles O58: a run's values reach consecutive device addresses, being too few to come round to the first one again. -/
theorem runsReachDevice : Obligations.RunsReachDevice := by
  refine ⟨fun s addr rep raw => ⟨fun h => exec_wRun16_rejected (rawCountOk_eq_false h) s, fun last hlast hlen => ?run16⟩,
    fun s addr rep raw => ⟨fun h => exec_wRun8_rejected (rawCountOk_eq_false h) s, fun last hlast hlen => ?run8⟩⟩
  case run16 =>
    intro vals
    have hfew : vals.length ≤ 510 := length_values_le hlen rep last
    have hbytes : (vals.flatMap deviceBytes16).length = 2 * vals.length := length_flatMap_deviceBytes16 vals
    refine ⟨storeDevice s.device.mem addr (vals.flatMap deviceBytes16), ?_, fun j v hv => ?_, fun a ha => ?_⟩
    · rw [exec_wRun16_taken (rawCountOk_of_getLast? hlast hlen), runValues_of_getLast? hlast]
    · obtain ⟨hlow, hhigh⟩ := getElem?_flatMap_deviceBytes16 hv
      exact ⟨read_storeDevice_inside _ _ (by omega) hlow, read_storeDevice_inside _ _ (by omega) hhigh⟩
    · exact read_storeDevice_other _ _ _ (by rwa [hbytes])
  case run8 =>
    intro vals
    have hfew : vals.length ≤ 510 := length_values_le hlen rep last
    refine ⟨storeDevice s.device.mem addr vals, ?_, fun j v hv => read_storeDevice_inside _ _ (by omega) hv,
      fun a ha => read_storeDevice_other _ _ _ ha⟩
    rw [exec_wRun8_taken (rawCountOk_of_getLast? hlast hlen), runValues_of_getLast? hlast]

/-- Settles O59: both commands answer the state the statement writes, and the register file changes by one store. -/
theorem regwAndPadReachDevice : Obligations.RegwAndPadReachDevice :=
  ⟨fun s reg val => ⟨Memory.store s.device.regs reg.toNat val, rfl, fun a => Memory.read_store _ .deviceReg _ a val⟩,
    fun _ _ => rfl⟩

end Sys2Proof.Machine
end

section
/-!
PROOFS. The channel splitter under the default split functions (40_channel_split.md R120 to R123, log entry 4).
-/

namespace Sys2Proof.Machine

/-! ## Fields of a value -/

/-- A field of a field. -/
theorem extractLsb'_field {w : Nat} (v : BitVec w) (base len : Nat) {lo n : Nat} (h : lo + n ≤ len) :
    (v.extractLsb' base len).extractLsb' lo n = v.extractLsb' (base + lo) n := by
  ext i hi
  simp only [BitVec.getElem_extractLsb', BitVec.getLsbD_extractLsb', Nat.add_assoc, decide_eq_true (show lo + i < len by omega),
    Bool.true_and]

/-! ## The two channel values -/

/-- The default 16-bit channel value in bits of the pixel (40_channel_split.md R121). -/
theorem split16_eq (v : Word) : split16 v = v.extractLsb' 19 5 ++ v.extractLsb' 10 6 ++ v.extractLsb' 3 5 := by
  simp only [split16, redOf, greenOf, blueOf]
  rw [extractLsb'_field v 16 8 (by decide), extractLsb'_field v 8 8 (by decide), extractLsb'_field v 0 8 (by decide)]

/-- The default 8-bit channel value in bits of the pixel (40_channel_split.md R122). -/
theorem split8_eq (v : Word) : split8 v = v.extractLsb' 16 3 ++ v.extractLsb' 8 2 ++ v.extractLsb' 0 3 := by
  simp only [split8, redOf, greenOf, blueOf]
  rw [extractLsb'_field v 16 8 (by decide), extractLsb'_field v 8 8 (by decide), extractLsb'_field v 0 8 (by decide)]

/-- The three fields of a joined value. -/
theorem fields_append {a b c : Nat} (x : BitVec a) (y : BitVec b) (z : BitVec c) :
    (x ++ y ++ z).extractLsb' (c + b) a = x ∧ (x ++ y ++ z).extractLsb' c b = y ∧ (x ++ y ++ z).extractLsb' 0 c = z := by
  refine ⟨?_, ?_, ?_⟩
  · rw [BitVec.extractLsb'_append_eq_of_le (by omega), Nat.add_sub_cancel_left, BitVec.extractLsb'_append_eq_of_le le_rfl,
      Nat.sub_self, BitVec.extractLsb'_eq_self]
  · rw [BitVec.extractLsb'_append_eq_of_le le_rfl, Nat.sub_self, BitVec.extractLsb'_append_eq_of_add_le (by omega),
      BitVec.extractLsb'_eq_self]
  · rw [BitVec.extractLsb'_append_eq_of_add_le (by omega), BitVec.extractLsb'_eq_self]

theorem exec_split_attached {s : State} (h : s.flag .attached = true) (v : Word) :
    exec (.split v) s = .next (s.replied .ok (.split (split16 v) (split8 v))) :=
  inSession_of_attached h

/-- Settles O9: each colour is its high bits, from the 16-bit value, joined with its low bits, from the 8-bit value. -/
theorem splitGivesDefaultChannels : Obligations.SplitGivesDefaultChannels := by
  intro s v ha c16 c8
  obtain ⟨red16, green16, blue16⟩ : c16.extractLsb' 11 5 = v.extractLsb' 19 5 ∧ c16.extractLsb' 5 6 = v.extractLsb' 10 6 ∧
      c16.extractLsb' 0 5 = v.extractLsb' 3 5 := fields_append _ _ _
  obtain ⟨red8, green8, blue8⟩ : c8.extractLsb' 5 3 = v.extractLsb' 16 3 ∧ c8.extractLsb' 3 2 = v.extractLsb' 8 2 ∧
      c8.extractLsb' 0 3 = v.extractLsb' 0 3 := fields_append _ _ _
  refine ⟨?_, ?_, ?_, ?_⟩
  · rw [exec_split_attached ha, split16_eq, split8_eq]
  · rw [red16, red8]
    exact (joinBits v 16 3 5).symm
  · rw [green16, green8]
    exact (joinBits v 8 2 6).symm
  · rw [blue16, blue8]
    exact (joinBits v 0 3 5).symm

end Sys2Proof.Machine
end

section
/-!
PROOFS. A frame operation of one line whose bytes fit in one slot (46_frame_loop.md R220 to R226, R229): the line is split and
encoded into a fresh slot, which EndOfFrame submits (45_slot_pool.md R200, R204, R207).
-/

namespace Sys2Proof.Machine

/-! ## Shared operations -/

/-- Two emits, one after the other, are one. -/
theorem State.emit_append {s : State} {k : Nat} {as bs : List Byte} (hk : s.pool.held = some k)
    (hS : s.cfg.slotBytes < 2 ^ 32) (hfit : s.pool.wptr.toNat + (as ++ bs).length ≤ s.cfg.slotBytes) :
    (s.emit as).emit bs = s.emit (as ++ bs) := by
  rw [List.length_append] at hfit
  have hwptr : (s.pool.wptr + BitVec.ofNat 32 as.length).toNat = s.pool.wptr.toNat + as.length := by
    simp only [BitVec.toNat_add, BitVec.toNat_ofNat]
    omega
  have has : s.emit as = _ := State.emit_eq hk (by omega)
  have hbs : (s.emit as).emit bs = _ := State.emit_eq (k := k) (by rw [has]; exact hk) (by
    rw [has]
    show (s.pool.wptr + BitVec.ofNat 32 as.length).toNat + _ ≤ s.cfg.slotBytes
    omega)
  rw [hbs, has, State.emit_eq hk (by rw [List.length_append]; omega)]
  simp [Pool.modifySlot, Buf.storeList, hwptr, Memory.storeList_append, List.modify_modify_eq, Function.comp_def, BitVec.ofNat_add,
    BitVec.add_assoc]

theorem State.nextDraw_congr {s t : State} (hd : t.draws = s.draws) (hc : t.drawCount = s.drawCount) :
    t.nextDraw = s.nextDraw := by
  simp only [State.nextDraw, hd, hc]

theorem State.afterDraw_congr {s t : State} (hd : t.draws = s.draws) (hc : t.drawCount = s.drawCount) :
    t.afterDraw.draws = s.afterDraw.draws ∧ t.afterDraw.drawCount = s.afterDraw.drawCount := by
  unfold State.afterDraw
  rw [hd]
  split <;> simp [hc]

theorem State.submitSlot_accepted {s : State} (k : Nat) (h : s.nextChoice = true) :
    s.submitSlot k = { s.afterDraw with
      pool := { s.pool.modifySlot k (fun slot => { slot with len := s.pool.wptr, state := .inflight }) with
        held := none, wptr := 0 }
      events := s.events ++ [⟨k, s.pool.wptr, s.pool.slotBytes k s.pool.wptr.toNat⟩]
      counters := { s.counters with sent := s.counters.sent + s.pool.wptr } } := by
  rw [State.submitSlot, h, State.submitWith_accept]
  simp [State.launchSlot, State.countSent]

theorem State.submitSlot_rejected {s : State} {k : Nat} (hk : k < s.pool.slots.length) (h : s.nextChoice = false) :
    s.submitSlot k = { s.afterDraw with
      pool := { s.pool.giveBack s.cfg.slotBytes k with held := none, wptr := 0 }
      status := setBit s.status 0 true } := by
  rw [State.submitSlot, h, State.submitWith_reject, State.launch_complete (by simpa using hk)]
  simp [State.setFlag, StatusFlag.bit]

theorem State.submitSlot_marks {s : State} {k : Nat} (hk : k < s.pool.slots.length) :
    (s.submitSlot k).marks = s.marks := by
  cases h : s.nextChoice
  · rw [State.submitSlot_rejected hk h]; simp
  · rw [State.submitSlot_accepted k h]; simp

/-- SUBMIT makes one choice. -/
theorem State.submitSlot_draws (s : State) (k : Nat) :
    (s.submitSlot k).draws = s.afterDraw.draws ∧ (s.submitSlot k).drawCount = s.afterDraw.drawCount := by
  simp [State.submitSlot]

/-! ## The pool while the slot is filled -/

/-- The pool after the free slot `k` at the head of FREEQ was taken and filled with `bytes` (45_slot_pool.md R200, R207). -/
structure Pool.Filled (old new : Pool) (k : Nat) (bytes : List Byte) : Prop where
  freeq : old.freeq = k :: new.freeq
  avail : new.avail = old.avail - 1
  held : new.held = some k
  wptr : new.wptr = BitVec.ofNat 32 bytes.length
  slotCount : new.slots.length = old.slots.length
  others : ∀ j, j ≠ k → new.slots[j]? = old.slots[j]?
  slot : ∃ before after, old.slots[k]? = some before ∧ new.slots[k]? = some after ∧
    (∀ j, (h : j < bytes.length) → after.byte j = bytes[j]) ∧ ∀ j, bytes.length ≤ j → after.byte j = before.byte j

/-- TAKE and an Emit fill the slot. -/
theorem Pool.Emitted.filled {s : State} {k : Nat} {rest : List Nat} {slot : Slot} {p : Pool} {bytes : List Byte}
    (hq : s.pool.freeq = k :: rest) (hslot : s.pool.slots[k]? = some slot) (h : Pool.Emitted s.takeSlot.pool p k bytes) :
    Pool.Filled s.pool p k bytes := by
  obtain ⟨wptr, held, freeq, avail, slotCount, others, before, after, hbefore, hafter, hwritten⟩ := h
  rw [State.takeSlot_eq hq] at wptr held freeq avail slotCount others hbefore hwritten
  obtain rfl : { slot with state := .held } = before := by
    simpa [Pool.getElem?_modifySlot, Pool.modifySlot, hslot] using hbefore
  refine ⟨by rw [hq, freeq], avail, held, by simpa using wptr, by simpa using slotCount, fun j hj => ?_,
    slot, after, hslot, hafter, fun j hj => ?_, fun j hj => ?_⟩
  · rw [others j hj]
    simpa [Ne.symm hj] using Pool.getElem?_modifySlot s.pool k j fun slot => { slot with state := .held }
  · simpa using hwritten.written j hj
  · exact hwritten.kept j (.inr (by simpa using hj))

section filled

variable {old p : Pool} {k : Nat} {bytes : List Byte}

theorem Pool.Filled.lt (h : Pool.Filled old p k bytes) : k < p.slots.length := by
  obtain ⟨_, _, -, hafter, -⟩ := h.slot
  exact (List.getElem?_eq_some_iff.mp hafter).1

/-- The slot's declared bytes are the ones it was filled with. -/
theorem Pool.Filled.slotBytes (h : Pool.Filled old p k bytes) : p.slotBytes k bytes.length = bytes := by
  obtain ⟨_, after, -, hafter, hbytes, -⟩ := h.slot
  rw [Pool.slotBytes_eq hafter]
  exact List.ext_getElem (by simp) fun j _ hj => by simpa using hbytes j hj

/-- The slots after a change to the filled one that leaves its bytes alone. -/
theorem Pool.Filled.modifySlot (h : Pool.Filled old p k bytes) {f : Slot → Slot} (hf : ∀ slot, (f slot).buf = slot.buf) :
    (∀ j, j ≠ k → (p.modifySlot k f).slots[j]? = old.slots[j]?) ∧
    ∃ before after, old.slots[k]? = some before ∧ (p.modifySlot k f).slots[k]? = some (f after) ∧
      (∀ j, (h : j < bytes.length) → (f after).byte j = bytes[j]) ∧
      ∀ j, bytes.length ≤ j → (f after).byte j = before.byte j := by
  obtain ⟨before, after, hbefore, hafter, hbytes, hkept⟩ := h.slot
  have hbyte (j : Nat) : (f after).byte j = after.byte j := by rw [Slot.byte, Slot.byte, hf]
  refine ⟨fun j hj => ?_, before, after, hbefore, ?_, fun j hj => ?_, fun j hj => ?_⟩
  · rw [Pool.getElem?_modifySlot, if_neg (Ne.symm hj), h.others j hj]
  · rw [Pool.getElem?_modifySlot, if_pos rfl, hafter, Option.map_some]
  · rw [hbyte, hbytes j hj]
  · rw [hbyte, hkept j hj]

/-- Launching the filled slot sends it (45_slot_pool.md R204). -/
theorem Pool.Filled.sent (h : Pool.Filled old p k bytes) :
    Pool.Sent old { p.modifySlot k (fun slot => { slot with len := p.wptr, state := .inflight }) with
      held := none, wptr := 0 } k bytes := by
  obtain ⟨hothers, before, after, hbefore, hafter, hbytes, hkept⟩ :=
    h.modifySlot (f := fun slot => { slot with len := p.wptr, state := .inflight }) fun _ => rfl
  exact ⟨h.freeq, h.avail, rfl, rfl, by simpa using h.slotCount, hothers, before, _, hbefore, hafter, rfl, h.wptr, hbytes,
    hkept⟩

/-- Giving the filled slot back returns it (45_slot_pool.md R205). -/
theorem Pool.Filled.returned (h : Pool.Filled old p k bytes) (slotBytes : Nat) :
    Pool.Returned slotBytes old { p.giveBack slotBytes k with held := none, wptr := 0 } k bytes := by
  obtain ⟨hothers, before, after, hbefore, hafter, hbytes, hkept⟩ :=
    h.modifySlot (f := fun slot => { slot with len := BitVec.ofNat 32 slotBytes, state := .free }) fun _ => rfl
  exact ⟨⟨p.freeq, h.freeq, rfl⟩, congrArg (· + 1) h.avail, rfl, rfl, by simpa [Pool.giveBack] using h.slotCount, hothers,
    before, _, hbefore, hafter, rfl, rfl, hbytes, hkept⟩

end filled

/-! ## The narrowed range -/

/-- The narrowed range lies in the line and is made of whole pixels, as words are (41_frame_diff.md R131, R135). -/
theorem narrow_pixels {w : Nat} {front : List Byte} (hw : 4 ∣ w) (hfront : 4 ∣ front.length) (back : List Byte) :
    (narrow w front back).start + (narrow w front back).len ≤ front.length ∧ 4 ∣ (narrow w front back).start ∧
      4 ∣ (narrow w front back).len := by
  unfold narrow
  split
  · exact ⟨le_rfl, hfront, Nat.dvd_zero 4⟩
  · next first more hwords =>
    have hfirst : first < wordCount w front.length := by
      have : first ∈ differingWords w front back := by rw [hwords]; exact List.mem_cons_self
      exact List.mem_range.mp (List.mem_filter.mp this).1
    have hstart : first * w ≤ front.length := by
      have := (Nat.le_div_iff_mul_le (Nat.pos_of_ne_zero fun h => by simp [wordCount, h] at hfirst)).mp hfirst
      have := Nat.succ_mul first w
      omega
    have hdvd (j : Nat) : 4 ∣ j * w := Dvd.dvd.mul_left hw j
    have hfirst4 := hdvd first
    have hlast4 := hdvd ((first :: more).getLast (List.cons_ne_nil first more) + 1)
    dsimp only
    omega

theorem length_linePixels (s : State) (f : FrameCtx) : (linePixels s f).length = f.x1 - f.x0 := by
  have h := length_lineBytes s f
  rw [lineBytes, length_flatMap_bytesLe32] at h
  omega

theorem wordBytes_dvd {p : Params} (hp : p.Valid) : 4 ∣ p.wordBytes := by
  obtain ⟨-, -, -, -, -, -, hW, -⟩ := hp
  omega

/-- The range of a line lies in it and is made of whole pixels. -/
theorem lineRange_pixels {s : State} (hp : s.cfg.Valid) (f : FrameCtx) :
    (lineRange s f).start + (lineRange s f).len ≤ 4 * (f.x1 - f.x0) ∧ 4 ∣ (lineRange s f).start ∧
      4 ∣ (lineRange s f).len := by
  have hwhole : (wholeSegment f).start + (wholeSegment f).len ≤ 4 * (f.x1 - f.x0) ∧ 4 ∣ (wholeSegment f).start ∧
      4 ∣ (wholeSegment f).len := ⟨by simp [wholeSegment], Nat.dvd_zero 4, Nat.dvd_mul_right 4 _⟩
  have hlen := length_lineBytes s f
  unfold lineRange
  split
  · split
    · rw [← hlen]
      exact narrow_pixels (wordBytes_dvd hp) (by rw [hlen]; exact Nat.dvd_mul_right 4 _) _
    · exact hwhole
  · exact hwhole

/-- A line that is not elided has a pixel to send. -/
theorem narrowedPixels_ne_nil {s : State} (hp : s.cfg.Valid) {f : FrameCtx} (hlen : (lineRange s f).len ≠ 0) :
    narrowedPixels s f ≠ [] := by
  obtain ⟨hin, hstart, hlen4⟩ := lineRange_pixels hp f
  rw [← List.length_pos_iff, narrowedPixels, List.length_take, List.length_drop, length_linePixels]
  omega

/-! ## The bytes of a line in one slot -/

/-- EncodeRun of the 16-bit channel of a line at the start of a slot (46_frame_loop.md R222, R223). -/
def lineRun16 (s : State) (f : FrameCtx) : RunResult :=
  encodeRun s.cfg (channel16 s.cfg) 0 ((narrowedPixels s f).map split16) 0 (s.a16 (firstColumn f (lineRange s f)) f.y)

/-- EncodeRun of the 8-bit channel behind it. -/
def lineRun8 (s : State) (f : FrameCtx) : RunResult :=
  encodeRun s.cfg (channel8 s.cfg) (lineRun16 s f).bytes.length ((narrowedPixels s f).map split8) 0
    (s.a8 (firstColumn f (lineRange s f)) f.y)

/-- The bytes of a line: the 16-bit channel, and in split mode the 8-bit channel (40_channel_split.md R124). -/
def lineStream (s : State) (f : FrameCtx) : List Byte :=
  (lineRun16 s f).bytes ++ if s.flag .split = true then (lineRun8 s f).bytes else []

/-- Neither channel fills the slot. -/
structure State.LineFits (s : State) (f : FrameCtx) : Prop where
  run16 : (lineRun16 s f).full = false
  run8 : s.flag .split = true → (lineRun8 s f).full = false

/-- EncodeRun at the end of its values has written a command, if there were any. -/
theorem encodeRun_bytes_ne_nil {α : Type} [DecidableEq α] {p : Params} (hp : p.Valid) {ch : Channel α} (hw : ch.Wide)
    (hb : ch.bpp = 1 ∨ ch.bpp = 2) {wptr : Nat} (hwptr : wptr ≤ p.slotBytes) {vals : List α} (hvals : vals ≠ [])
    {addr : DevAddr} (hfull : (encodeRun p ch wptr vals 0 addr).full = false) :
    (encodeRun p ch wptr vals 0 addr).bytes ≠ [] := by
  obtain ⟨cmds, hrun⟩ := encodeRun_spec hp ch hw hb hwptr vals (Nat.zero_le _) addr
  have hvalues : cmds.flatMap RunCmd.values = vals := by
    rw [hrun.values, (hrun.notFull hfull).1]
    simp
  obtain ⟨c, cs, rfl⟩ : ∃ c cs, cmds = c :: cs :=
    List.exists_cons_of_ne_nil fun h => hvals (by rw [← hvalues, h]; rfl)
  rw [hrun.bytes]
  simp [RunCmd.bytes, runBytes, runHeader]

theorem length_lineRun16_le {s : State} (hp : s.cfg.Valid) (f : FrameCtx) :
    (lineRun16 s f).bytes.length ≤ s.cfg.slotBytes := by
  have h := (encodeRun_fits hp (channel16 s.cfg) (channel16_wide _) (.inr rfl) (Nat.zero_le _)
    ((narrowedPixels s f).map split16) 0 (s.a16 (firstColumn f (lineRange s f)) f.y)).1
  rwa [Nat.zero_add] at h

theorem length_lineStream_le {s : State} (hp : s.cfg.Valid) (f : FrameCtx) :
    (lineStream s f).length ≤ s.cfg.slotBytes := by
  have h16 := length_lineRun16_le hp f
  have h8 : (lineRun16 s f).bytes.length + (lineRun8 s f).bytes.length ≤ s.cfg.slotBytes :=
    (encodeRun_fits hp (channel8 s.cfg) (channel8_wide _) (.inl rfl) h16 _ _ _).1
  rw [lineStream, List.length_append]
  split
  · exact h8
  · exact h16

theorem lineStream_ne_nil {s : State} (hp : s.cfg.Valid) {f : FrameCtx} (hlen : (lineRange s f).len ≠ 0)
    (hfits : s.LineFits f) : lineStream s f ≠ [] :=
  List.append_ne_nil_of_left_ne_nil
    (encodeRun_bytes_ne_nil hp (channel16_wide _) (.inr rfl) (Nat.zero_le _)
      (by simpa using narrowedPixels_ne_nil hp hlen) hfits.run16) _

/-! ## The channels of a line -/

/-- A channel whose run does not fill the slot is done with one EncodeRun. -/
theorem encodeChannel_of_not_full {α : Type} [DecidableEq α] {ch : Channel α} {vals : List α} {fuel i : Nat} {addr : DevAddr}
    {s : State} (h : (encodeRun s.cfg ch s.pool.wptr.toNat vals i addr).full = false) :
    encodeChannel ch vals (fuel + 1) i addr s = .done (s.emit (encodeRun s.cfg ch s.pool.wptr.toNat vals i addr).bytes) := by
  simp [encodeChannel, h]

theorem State.prepareLine_a16 (s : State) (f : FrameCtx) (x y : Nat) : (s.prepareLine f).a16 x y = s.a16 x y := by
  simp [State.a16]

/-- The 16-bit channel in a fresh slot. -/
theorem runChannel16_of_fits {s : State} {f : FrameCtx} (hw : s.pool.wptr = 0) (hfits : s.LineFits f) :
    runChannel16 (firstColumn f (lineRange s f)) f.y 0 (s.a16 (firstColumn f (lineRange s f)) f.y) (s.prepareLine f) =
      afterChannel16 (firstColumn f (lineRange s f)) f.y ((s.prepareLine f).emit (lineRun16 s f).bytes) := by
  have hrun : encodeRun (s.prepareLine f).cfg (channel16 (s.prepareLine f).cfg) (s.prepareLine f).pool.wptr.toNat
      (s.prepareLine f).line.scr16 0 (s.a16 (firstColumn f (lineRange s f)) f.y) = lineRun16 s f := by
    simp [lineRun16, hw, splitLine]
  rw [runChannel16, encodeChannel_of_not_full (by rw [hrun]; exact hfits.run16), hrun]

/-- The 8-bit channel behind the 16-bit one. -/
theorem runChannel8_of_fits {s : State} {f : FrameCtx} {k : Nat} (hp : s.cfg.Valid) (hk : s.pool.held = some k)
    (hw : s.pool.wptr = 0) (hs : s.flag .split = true) (hfits : s.LineFits f) :
    runChannel8 (firstColumn f (lineRange s f)) 0 (s.a8 (firstColumn f (lineRange s f)) f.y)
        ((s.prepareLine f).emit (lineRun16 s f).bytes) =
      .done (((s.prepareLine f).emit (lineRun16 s f).bytes).emit (lineRun8 s f).bytes) := by
  have hS := slotBytes_lt_of_valid hp
  have h16 := length_lineRun16_le hp f
  have hwptr : ((s.prepareLine f).emit (lineRun16 s f).bytes).pool.wptr.toNat = (lineRun16 s f).bytes.length := by
    rw [State.emit_eq (by simpa using hk) (by simpa [hw] using h16)]
    simp [hw]
    omega
  set u := (s.prepareLine f).emit (lineRun16 s f).bytes with hu
  have hrun : encodeRun u.cfg (channel8 u.cfg) u.pool.wptr.toNat u.line.scr8 0
      (s.a8 (firstColumn f (lineRange s f)) f.y) = lineRun8 s f := by
    rw [hwptr, lineRun8]
    simp [hu, splitLine, hs]
  rw [runChannel8, encodeChannel_of_not_full (by rw [hrun]; exact hfits.run8 hs), hrun]

/-- A line that fits in the fresh slot is prepared and its bytes emitted (46_frame_loop.md R222). -/
theorem processLine_of_fits {s : State} {f : FrameCtx} {k : Nat} (hp : s.cfg.Valid) (hk : s.pool.held = some k)
    (hw : s.pool.wptr = 0) (hlen : (lineRange s f).len ≠ 0) (hfits : s.LineFits f) :
    processLine f s = .done ((s.prepareLine f).emit (lineStream s f)) := by
  rw [processLine, if_neg hlen]
  dsimp only
  rw [State.prepareLine_a16, runChannel16_of_fits hw hfits, afterChannel16, lineStream]
  cases hs : s.flag .split
  · simp [hs]
  · have ha8 (x y : Nat) : ((s.prepareLine f).emit (lineRun16 s f).bytes).a8 x y = s.a8 x y := by simp [State.a8]
    have hle := length_lineStream_le hp f
    rw [lineStream, if_pos hs] at hle
    rw [if_pos (by simpa using hs), ha8, runChannel8_of_fits hp hk hw hs hfits, if_pos rfl,
      State.emit_append (by simpa using hk) (by simpa using slotBytes_lt_of_valid hp) (by simpa [hw] using hle)]

/-! ## What a line is made from -/

/-- What the data of a line depends on is the same. -/
structure State.SameLineInputs (s t : State) : Prop where
  cfg : t.cfg = s.cfg
  fbReg : t.fbReg = s.fbReg
  mode : t.mode = s.mode
  base16 : t.base16 = s.base16
  base8 : t.base8 = s.base8
  cursor : t.cursor = s.cursor
  backing : t.backing = s.backing
  line : t.line = s.line
  backingEn : t.flag .backingEn = s.flag .backingEn
  split : t.flag .split = s.flag .split

/-- Raising FRAME_BUSY and taking a slot change none of it. -/
theorem sameLineInputs_begin (s : State) : s.SameLineInputs (s.setFlag .frameBusy true).takeSlot := by
  constructor <;> simp

section inputs

variable {s t : State}

theorem State.SameLineInputs.linePixels (h : s.SameLineInputs t) (f : FrameCtx) : linePixels t f = linePixels s f := by
  simp only [Machine.linePixels, sourcePixels, State.pixelOffset, h.fbReg, h.cursor]

theorem State.SameLineInputs.lineRange (h : s.SameLineInputs t) (f : FrameCtx) : lineRange t f = lineRange s f := by
  simp only [Machine.lineRange, lineBytes, backingLine, State.pixelOffset, h.linePixels, h.fbReg, h.backing, h.backingEn, h.cfg]

theorem State.SameLineInputs.narrowedPixels (h : s.SameLineInputs t) (f : FrameCtx) :
    narrowedPixels t f = narrowedPixels s f := by
  simp only [Machine.narrowedPixels, h.linePixels, h.lineRange]

theorem State.SameLineInputs.splitLine (h : s.SameLineInputs t) (f : FrameCtx) : splitLine t f = splitLine s f := by
  simp only [Machine.splitLine, h.linePixels, h.narrowedPixels, h.split, h.line]

theorem State.SameLineInputs.nextBacking (h : s.SameLineInputs t) (f : FrameCtx) : nextBacking t f = nextBacking s f := by
  simp only [Machine.nextBacking, fillBacking, lineBytes, State.pixelOffset, h.linePixels, h.lineRange, h.fbReg, h.mode,
    h.backing, h.backingEn]

theorem State.SameLineInputs.lineRun16 (h : s.SameLineInputs t) (f : FrameCtx) : lineRun16 t f = lineRun16 s f := by
  simp only [Machine.lineRun16, State.a16, h.narrowedPixels, h.lineRange, h.cfg, h.base16, h.mode]

theorem State.SameLineInputs.lineRun8 (h : s.SameLineInputs t) (f : FrameCtx) : lineRun8 t f = lineRun8 s f := by
  simp only [Machine.lineRun8, State.a8, h.lineRun16, h.narrowedPixels, h.lineRange, h.cfg, h.base8, h.mode]

theorem State.SameLineInputs.lineStream (h : s.SameLineInputs t) (f : FrameCtx) : lineStream t f = lineStream s f := by
  simp only [Machine.lineStream, h.lineRun16, h.lineRun8, h.split]

theorem State.SameLineInputs.lineFits (h : s.SameLineInputs t) {f : FrameCtx} (hfits : s.LineFits f) : t.LineFits f :=
  ⟨by rw [h.lineRun16]; exact hfits.run16, by rw [h.split, h.lineRun8]; exact hfits.run8⟩

end inputs

/-! ## The counters and BACKING of a line -/

/-- The counters after a line (46_frame_loop.md R222); the whole segment counts nothing as identical. -/
theorem State.prepareLine_counters (s : State) (f : FrameCtx) :
    (s.prepareLine f).counters = ⟨s.counters.rendered + BitVec.ofNat 32 (4 * (f.x1 - f.x0)),
      s.counters.identical + BitVec.ofNat 32 (lineRange s f).ident, s.counters.sent, s.counters.cpu⟩ := by
  show (s.countLine f).counters = _
  unfold State.countLine lineRange
  split
  · split <;> simp [State.countRendered, State.countIdentical, countUp, wholeSegment]
  · simp [State.countRendered, countUp, wholeSegment]

/-- A byte after bytes are written. -/
theorem Memory.read_storeList (m : Memory) (sp : Config.Space) (a : Nat) (vs : List Byte) (b : Nat) :
    Memory.read (Memory.storeList m a vs) sp b =
      if a ≤ b ∧ b < a + vs.length then vs[b - a]?.getD 0 else Memory.read m sp b := by
  split
  · next h =>
    obtain ⟨j, rfl⟩ := Nat.exists_eq_add_of_le h.1
    have hj : j < vs.length := by omega
    rw [Memory.read_storeList_inside m sp a vs hj, Nat.add_sub_cancel_left, List.getElem?_eq_getElem hj, Option.getD_some]
  · next h => exact Memory.read_storeList_other m sp vs (by omega)

/-- A byte of BACKING after RENDER_FRAME's line: the narrowed bytes of the line are there (41_frame_diff.md R134). -/
theorem read_nextBacking {s : State} (hp : s.cfg.Valid) {f : FrameCtx} {snapshot : Memory}
    (hsource : f.source = .framebuffer snapshot) (a : Nat) :
    Memory.read (nextBacking s f).cells (.buffer (nextBacking s f).tag) a =
      if s.flag .backingEn = true ∧ s.pixelOffset f.x0 f.y + (lineRange s f).start ≤ a ∧
          a < s.pixelOffset f.x0 f.y + (lineRange s f).start + (lineRange s f).len then
        (lineBytes s f)[a - s.pixelOffset f.x0 f.y]?.getD 0
      else s.backingByte a := by
  cases hen : s.flag .backingEn
  · simp [nextBacking, hen, State.backingByte]
  · have hbacking : nextBacking s f = s.backing.storeList (s.pixelOffset f.x0 f.y + (lineRange s f).start)
        (((lineBytes s f).drop (lineRange s f).start).take (lineRange s f).len) := by
      rw [nextBacking, if_pos hen, hsource]
    have hlen : (((lineBytes s f).drop (lineRange s f).start).take (lineRange s f).len).length = (lineRange s f).len := by
      have hin := (lineRange_pixels hp f).1
      rw [List.length_take, List.length_drop, length_lineBytes]
      omega
    rw [hbacking, Buf.storeList, Memory.read_storeList, hlen]
    by_cases h : s.pixelOffset f.x0 f.y + (lineRange s f).start ≤ a ∧
        a < s.pixelOffset f.x0 f.y + (lineRange s f).start + (lineRange s f).len
    · rw [if_pos h, if_pos ⟨rfl, h⟩, List.getElem?_take_of_lt (by omega), List.getElem?_drop]
      congr 3
      omega
    · rw [if_neg h, if_neg (fun h' => h h'.2)]
      rfl

/-! ## The whole operation -/

/-- The state with the line prepared and its bytes in the fresh slot. -/
def State.lineFilled (s : State) (f : FrameCtx) : State :=
  ((s.setFlag .frameBusy true).takeSlot.prepareLine f).emit (lineStream s f)

/-- EndOfFrame with bytes in the held slot `k` (46_frame_loop.md R225, R226). -/
def State.closeFrame (s : State) (k : Nat) : State :=
  (((s.submitSlot k).afterDraw.countCpu (s.submitSlot k).nextDraw).setFlag .frameBusy false).replied .ok .none

@[simp] theorem State.closeFrame_pool (s : State) (k : Nat) : (s.closeFrame k).pool = (s.submitSlot k).pool := by
  simp [State.closeFrame]
@[simp] theorem State.closeFrame_events (s : State) (k : Nat) : (s.closeFrame k).events = (s.submitSlot k).events := by
  simp [State.closeFrame]
@[simp] theorem State.closeFrame_marks (s : State) (k : Nat) : (s.closeFrame k).marks = (s.submitSlot k).marks := by
  simp [State.closeFrame]
@[simp] theorem State.closeFrame_status (s : State) (k : Nat) :
    (s.closeFrame k).status = setBit (s.submitSlot k).status 1 false := by
  simp [State.closeFrame, State.setFlag, StatusFlag.bit]

/-- The first choice is SUBMIT's, the second the CNT_CPU increment. -/
theorem State.closeFrame_draws (s : State) (k : Nat) : (s.closeFrame k).draws = s.afterDraw.afterDraw.draws ∧
    (s.closeFrame k).drawCount = s.afterDraw.afterDraw.drawCount := by
  obtain ⟨hd, hc⟩ := s.submitSlot_draws k
  simpa [State.closeFrame] using State.afterDraw_congr hd hc

theorem State.closeFrame_counters (s : State) (k : Nat) : (s.closeFrame k).counters =
    ⟨s.counters.rendered, s.counters.identical, (s.submitSlot k).counters.sent, s.counters.cpu + s.afterDraw.nextDraw⟩ := by
  obtain ⟨hd, hc⟩ := s.submitSlot_draws k
  have hcounters := s.submitSlot_counters k
  simp only [State.closeFrame, State.replied_counters, State.setFlag_counters, State.countCpu, State.afterDraw_counters,
    State.nextDraw_congr hd hc]
  rw [hcounters]

theorem endOfFrame_of_bytes {s : State} {k : Nat} (hk : s.pool.held = some k) (hw : s.pool.wptr ≠ 0) :
    endOfFrame s = .next (s.closeFrame k) := by
  simp only [endOfFrame, hk, ne_eq, hw, not_false_eq_true, if_true, succeed_eq_next]
  rfl

section oneLine

variable {s : State} {f : FrameCtx} {k : Nat} {rest : List Nat} {slot : Slot}

/-- A frame operation of one line that fits in one slot. -/
theorem frameLoop_of_fits {source : FrameSource} {x0 x1 y : Nat} (hp : s.cfg.Valid) (hh : s.pool.held = none)
    (ha : s.pool.avail ≠ 0) (hq : s.pool.freeq = k :: rest)
    (hlen : (lineRange s ⟨source, x0, x1, y, y + 1, 0, .line⟩).len ≠ 0)
    (hfits : s.LineFits ⟨source, x0, x1, y, y + 1, 0, .line⟩) :
    frameLoop source x0 x1 y (y + 1) s = endOfFrame (s.lineFilled ⟨source, x0, x1, y, y + 1, 0, .line⟩) := by
  have hin := sameLineInputs_begin s
  have htake : (s.setFlag .frameBusy true).takeSlot = _ := State.takeSlot_eq (s := s.setFlag .frameBusy true) hq
  have hline := processLine_of_fits (s := (s.setFlag .frameBusy true).takeSlot) (f := ⟨source, x0, x1, y, y + 1, 0, .line⟩)
    (k := k) (by rw [hin.cfg]; exact hp) (by rw [htake]) (by simp) (by rw [hin.lineRange]; exact hlen) (hin.lineFits hfits)
  rw [hin.lineStream] at hline
  rw [frameLoop, Nat.add_sub_cancel_left, runLines]
  simp only [State.setFlag_pool, hh, ha, and_false, if_false, if_true, hline, runLines]
  rfl

/-- The pool with the line's bytes in the slot, and no mark. -/
theorem State.lineFilled_filled (hp : s.cfg.Valid) (hq : s.pool.freeq = k :: rest) (hslot : s.pool.slots[k]? = some slot) :
    Pool.Filled s.pool (s.lineFilled f).pool k (lineStream s f) ∧ (s.lineFilled f).marks = s.marks := by
  have hlt : k < s.pool.slots.length := (List.getElem?_eq_some_iff.mp hslot).1
  have htake : (s.setFlag .frameBusy true).takeSlot = _ := State.takeSlot_eq (s := s.setFlag .frameBusy true) hq
  have hle := length_lineStream_le hp f
  obtain ⟨hstate, hemitted⟩ := State.emit_emitted (s := (s.setFlag .frameBusy true).takeSlot.prepareLine f) (k := k)
    (bs := lineStream s f) (by rw [State.prepareLine_pool, htake]) (by rw [State.prepareLine_pool, htake]; simpa using hlt)
    (by simpa using hle)
  rw [State.prepareLine_pool] at hemitted
  refine ⟨Pool.Emitted.filled (s := s.setFlag .frameBusy true) hq hslot hemitted, ?_⟩
  rw [State.lineFilled, hstate]
  show ((s.setFlag .frameBusy true).takeSlot.prepareLine f).marks = s.marks
  rw [State.prepareLine_marks, htake]
  rfl

/-- FRAME_BUSY rises and falls (10_state.md R27). -/
theorem setBit_busy (w : Word) : setBit (setBit w 1 true) 1 false = w &&& ~~~0x00000002#32 := by
  show (w ||| 0x00000002#32) &&& ~~~0x00000002#32 = _
  rw [BitVec.and_or_distrib_right, BitVec.and_not_self]
  exact BitVec.or_zero

/-- LOST_PIXELS is set in between. -/
theorem setBit_busy_lost (w : Word) :
    setBit (setBit (setBit w 1 true) 0 true) 1 false = (w ||| 0x00000001) &&& ~~~0x00000002#32 := by
  have hswap : setBit (setBit w 1 true) 0 true = setBit (w ||| 0x00000001) 1 true :=
    show w ||| 0x00000002#32 ||| 0x00000001#32 = w ||| 0x00000001#32 ||| 0x00000002#32 by
      rw [BitVec.or_assoc, BitVec.or_comm 0x00000002#32, ← BitVec.or_assoc]
  rw [hswap, setBit_busy]

/-- What a frame operation of one line in one slot has done at its end: the slot `k` with `bytes` is in flight or back, the
counters and BACKING are those of the line, two choices are made, and HOST has its OK. -/
structure State.LineSent (s t : State) (f : FrameCtx) (k : Nat) (bytes : List Byte) : Prop where
  kept : s.FrameKept t
  accepted : s.nextChoice = true → Pool.Sent s.pool t.pool k bytes ∧
    t.events = s.events ++ [⟨k, BitVec.ofNat 32 bytes.length, bytes⟩] ∧
    t.counters.sent = s.counters.sent + BitVec.ofNat 32 bytes.length ∧ t.status = s.status &&& ~~~0x00000002#32
  rejected : s.nextChoice = false → Pool.Returned s.cfg.slotBytes s.pool t.pool k bytes ∧ t.events = s.events ∧
    t.counters.sent = s.counters.sent ∧ t.status = (s.status ||| 0x00000001) &&& ~~~0x00000002#32
  rendered : t.counters.rendered = s.counters.rendered + BitVec.ofNat 32 (4 * (f.x1 - f.x0))
  identical : t.counters.identical = s.counters.identical + BitVec.ofNat 32 (lineRange s f).ident
  cpu : t.counters.cpu = s.counters.cpu + s.afterDraw.nextDraw
  pending : t.pending = none
  replies : t.replies = s.replies ++ [⟨.ok, .none⟩]
  draws : t.draws = s.afterDraw.afterDraw.draws
  drawCount : t.drawCount = s.afterDraw.afterDraw.drawCount
  line : t.line = splitLine s f
  backing : t.backing = nextBacking s f

@[simp] theorem State.lineFilled_cfg : (s.lineFilled f).cfg = s.cfg := by simp [State.lineFilled]
@[simp] theorem State.lineFilled_events : (s.lineFilled f).events = s.events := by simp [State.lineFilled]
@[simp] theorem State.lineFilled_draws : (s.lineFilled f).draws = s.draws := by simp [State.lineFilled]
@[simp] theorem State.lineFilled_drawCount : (s.lineFilled f).drawCount = s.drawCount := by simp [State.lineFilled]
@[simp] theorem State.lineFilled_status : (s.lineFilled f).status = setBit s.status 1 true := by
  simp [State.lineFilled, State.setFlag, StatusFlag.bit]
@[simp] theorem State.lineFilled_line : (s.lineFilled f).line = splitLine s f := by
  simp [State.lineFilled, (sameLineInputs_begin s).splitLine]
@[simp] theorem State.lineFilled_backing : (s.lineFilled f).backing = nextBacking s f := by
  simp [State.lineFilled, (sameLineInputs_begin s).nextBacking]
@[simp] theorem State.lineFilled_counters : (s.lineFilled f).counters =
    ⟨s.counters.rendered + BitVec.ofNat 32 (4 * (f.x1 - f.x0)),
      s.counters.identical + BitVec.ofNat 32 (lineRange s f).ident, s.counters.sent, s.counters.cpu⟩ := by
  rw [State.lineFilled, State.emit_counters, State.prepareLine_counters, (sameLineInputs_begin s).lineRange]
  simp

@[simp] theorem State.lineFilled_nextChoice : (s.lineFilled f).nextChoice = s.nextChoice := by
  rw [State.nextChoice, State.nextChoice, State.nextDraw_congr State.lineFilled_draws State.lineFilled_drawCount]

/-- The declared length of the slot is the number of its bytes: it does not wrap. -/
theorem toNat_length_lineStream (hp : s.cfg.Valid) :
    (BitVec.ofNat 32 (lineStream s f).length).toNat = (lineStream s f).length := by
  have hle := length_lineStream_le hp f
  have hS := slotBytes_lt_of_valid hp
  simp only [BitVec.toNat_ofNat]
  omega

/-- TRANSPORT accepts the slot of the line (45_slot_pool.md R204). -/
theorem State.closeFrame_accepted (hp : s.cfg.Valid) (hfilled : Pool.Filled s.pool (s.lineFilled f).pool k (lineStream s f))
    (h : s.nextChoice = true) :
    let t := (s.lineFilled f).closeFrame k
    Pool.Sent s.pool t.pool k (lineStream s f) ∧
      t.events = s.events ++ [⟨k, BitVec.ofNat 32 (lineStream s f).length, lineStream s f⟩] ∧
      t.counters.sent = s.counters.sent + BitVec.ofNat 32 (lineStream s f).length ∧
      t.status = s.status &&& ~~~0x00000002#32 := by
  have hsubmit := State.submitSlot_accepted (s := s.lineFilled f) k (State.lineFilled_nextChoice.trans h)
  refine ⟨?_, ?_, ?_, ?_⟩
  · rw [State.closeFrame_pool, hsubmit]
    exact hfilled.sent
  · rw [State.closeFrame_events, hsubmit, State.lineFilled_events, hfilled.wptr, toNat_length_lineStream hp, hfilled.slotBytes]
  · rw [State.closeFrame_counters, hsubmit, hfilled.wptr, State.lineFilled_counters]
  · rw [State.closeFrame_status, hsubmit, State.afterDraw_status, State.lineFilled_status, setBit_busy]

/-- TRANSPORT rejects it (46_frame_loop.md R229). -/
theorem State.closeFrame_rejected (hfilled : Pool.Filled s.pool (s.lineFilled f).pool k (lineStream s f))
    (h : s.nextChoice = false) :
    let t := (s.lineFilled f).closeFrame k
    Pool.Returned s.cfg.slotBytes s.pool t.pool k (lineStream s f) ∧ t.events = s.events ∧
      t.counters.sent = s.counters.sent ∧ t.status = (s.status ||| 0x00000001) &&& ~~~0x00000002#32 := by
  have hsubmit := State.submitSlot_rejected hfilled.lt (State.lineFilled_nextChoice.trans h)
  refine ⟨?_, ?_, ?_, ?_⟩
  · rw [State.closeFrame_pool, hsubmit, State.lineFilled_cfg]
    exact hfilled.returned _
  · rw [State.closeFrame_events, hsubmit, State.afterDraw_events, State.lineFilled_events]
  · rw [State.closeFrame_counters, hsubmit, State.afterDraw_counters, State.lineFilled_counters]
  · rw [State.closeFrame_status, hsubmit, State.lineFilled_status, setBit_busy_lost]

/-- The parts of the state that no frame operation changes. -/
theorem State.closeFrame_kept (hfilled : Pool.Filled s.pool (s.lineFilled f).pool k (lineStream s f))
    (hmarks : (s.lineFilled f).marks = s.marks) : s.FrameKept ((s.lineFilled f).closeFrame k) := by
  constructor
  case marks => rw [State.closeFrame_marks, State.submitSlot_marks hfilled.lt, hmarks]
  all_goals simp [State.closeFrame, State.lineFilled]

/-- SUBMIT and EndOfFrame after the line (46_frame_loop.md R225, R226, R229). -/
theorem lineSent_closeFrame (hp : s.cfg.Valid) (hq : s.pool.freeq = k :: rest) (hslot : s.pool.slots[k]? = some slot) :
    s.LineSent ((s.lineFilled f).closeFrame k) f k (lineStream s f) := by
  obtain ⟨hfilled, hmarks⟩ := State.lineFilled_filled (f := f) hp hq hslot
  have hcounters := State.closeFrame_counters (s.lineFilled f) k
  obtain ⟨hdraws, hdrawCount⟩ := State.closeFrame_draws (s.lineFilled f) k
  obtain ⟨hd, hc⟩ := State.afterDraw_congr (t := s.lineFilled f) State.lineFilled_draws State.lineFilled_drawCount
  obtain ⟨hd2, hc2⟩ := State.afterDraw_congr hd hc
  exact {
    kept := State.closeFrame_kept hfilled hmarks
    accepted := State.closeFrame_accepted hp hfilled
    rejected := State.closeFrame_rejected hfilled
    rendered := by rw [hcounters, State.lineFilled_counters]
    identical := by rw [hcounters, State.lineFilled_counters]
    cpu := by rw [hcounters, State.lineFilled_counters, State.nextDraw_congr hd hc]
    pending := rfl
    replies := by simp [State.closeFrame, State.lineFilled]
    draws := hdraws.trans hd2
    drawCount := hdrawCount.trans hc2
    line := by simp [State.closeFrame]
    backing := by simp [State.closeFrame] }

end oneLine

/-- A frame operation of one line that is sent in one slot: it ends at once, and `State.LineSent` says with what. -/
theorem frameLoop_sends_line {s : State} {source : FrameSource} {x0 x1 y k : Nat} {rest : List Nat} {slot : Slot}
    (hp : s.cfg.Valid) (hh : s.pool.held = none) (ha : s.pool.avail ≠ 0) (hq : s.pool.freeq = k :: rest)
    (hslot : s.pool.slots[k]? = some slot)
    (hlen : (lineRange s ⟨source, x0, x1, y, y + 1, 0, .line⟩).len ≠ 0)
    (hfits : s.LineFits ⟨source, x0, x1, y, y + 1, 0, .line⟩) :
    ∃ t, frameLoop source x0 x1 y (y + 1) s = .next t ∧ s.LineSent t ⟨source, x0, x1, y, y + 1, 0, .line⟩ k
      (lineStream s ⟨source, x0, x1, y, y + 1, 0, .line⟩) := by
  obtain ⟨hfilled, -⟩ := State.lineFilled_filled (f := ⟨source, x0, x1, y, y + 1, 0, .line⟩) hp hq hslot
  have hwptr : (s.lineFilled ⟨source, x0, x1, y, y + 1, 0, .line⟩).pool.wptr ≠ 0 := by
    have hpos := List.length_pos_iff.mpr (lineStream_ne_nil hp hlen hfits)
    have hle := length_lineStream_le hp ⟨source, x0, x1, y, y + 1, 0, .line⟩
    have hS := slotBytes_lt_of_valid hp
    rw [hfilled.wptr]
    bv_omega
  exact ⟨_, (frameLoop_of_fits hp hh ha hq hlen hfits).trans (endOfFrame_of_bytes hfilled.held hwptr),
    lineSent_closeFrame hp hq hslot⟩

/-- RENDER_FRAME of a rectangle that passes the checks and is not empty runs the frame loop (46_frame_loop.md R220). -/
theorem exec_renderFrame_of_visible {s : State} {x y w h : Word} (hattached : s.flag .attached = true)
    (hlink : s.link.getLsbD 0 = true) (hmode : s.flag .modeValid = true) (hfb : s.flag .fbValid = true)
    (hheld : s.pool.held = none) (hx : min x.toNat s.visibleWidth ≠ min (x.toNat + w.toNat) s.visibleWidth)
    (hy : min y.toNat s.visibleHeight ≠ min (y.toNat + h.toNat) s.visibleHeight) :
    exec (.renderFrame x y w h) s =
      frameLoop (.framebuffer s.hostFb) (min x.toNat s.visibleWidth) (min (x.toNat + w.toNat) s.visibleWidth)
        (min y.toNat s.visibleHeight) (min (y.toNat + h.toNat) s.visibleHeight) s := by
  show execRenderFrame x y w h s = _
  rw [execRenderFrame, inSession_of_attached hattached]
  simp [State.deviceActive, hlink, hmode, hfb, hheld, hx, hy]

/-- Settles O37: RENDER_FRAME runs the frame loop over its one line, whose data are those the statement writes out. -/
theorem renderSendsChangedLine : Obligations.RenderSendsChangedLine := by
  intro s x y w h k rest slot hp hattached hlink hmode hfb hheld havail hq hslot x0 x1 y0 o0 line front range shown p0 r16 r8
    bytes hx hy hlen h16 h8
  have hexec := exec_renderFrame_of_visible (x := x) (y := y) (w := w) (h := h) hattached hlink hmode hfb hheld
    (Nat.ne_of_lt hx) (by rw [hy]; exact Nat.ne_of_lt (Nat.lt_succ_self y0))
  obtain ⟨t, ht, hsent⟩ := frameLoop_sends_line (source := .framebuffer s.hostFb) (x0 := x0) (x1 := x1) (y := y0) hp hheld
    havail hq hslot hlen ⟨h16, h8⟩
  refine ⟨t, by rw [hexec, hy]; exact ht, hsent.kept, hsent.accepted, hsent.rejected, hsent.rendered, hsent.identical,
    hsent.cpu, hsent.pending, hsent.replies, hsent.draws, hsent.drawCount, congrArg LineBufs.base hsent.line,
    congrArg LineBufs.work hsent.line, congrArg LineBufs.scr16 hsent.line, congrArg LineBufs.scr8 hsent.line, fun a => ?_⟩
  rw [State.backingByte, hsent.backing]
  exact read_nextBacking hp rfl a

end Sys2Proof.Machine
end

section
/-!
PROOFS. The frame differencer (41_frame_diff.md R130 to R133): the narrowed range is said once in terms of the first and the last
word that differ, and from that byte by byte.
-/

namespace Sys2Proof.Machine

/-! ## Words of a line -/

/-- Words begin inside the line (41_frame_diff.md R131). -/
theorem lt_wordCount_iff {w : Nat} (hw : 0 < w) (j len : Nat) : j < wordCount w len ↔ j * w < len := by
  have hceil : j + 1 ≤ wordCount w len ↔ (j + 1) * w ≤ len + w - 1 := Nat.le_div_iff_mul_le hw
  have hsucc : (j + 1) * w = j * w + w := Nat.succ_mul j w
  omega

/-- Byte `o` of a line is byte `o % w` of its word `o / w`. -/
theorem getElem?_lineWord {w : Nat} (hw : 0 < w) (buf : List Byte) (o : Nat) : (lineWord w buf (o / w))[o % w]? = buf[o]? := by
  rw [lineWord, List.getElem?_take_of_lt (Nat.mod_lt o hw), List.getElem?_drop, Nat.mul_comm, Nat.div_add_mod]

theorem mem_differingWords {w : Nat} {front back : List Byte} {j : Nat} :
    j ∈ differingWords w front back ↔ j < wordCount w front.length ∧ lineWord w front j ≠ lineWord w back j := by
  simp [differingWords]

theorem pairwise_differingWords (w : Nat) (front back : List Byte) : (differingWords w front back).Pairwise (· < ·) :=
  List.pairwise_lt_range.filter _

theorem lt_length_of_byte_ne {front back : List Byte} (hlen : front.length = back.length) {o : Nat}
    (h : front[o]? ≠ back[o]?) : o < front.length := by
  by_contra hge
  exact h (by rw [List.getElem?_eq_none (by omega), List.getElem?_eq_none (by omega)])

/-- A byte that differs lies in a word that differs. -/
theorem mem_differingWords_of_byte {w : Nat} (hw : 0 < w) {front back : List Byte} (hlen : front.length = back.length) {o : Nat}
    (h : front[o]? ≠ back[o]?) : o / w ∈ differingWords w front back := by
  have ho := lt_length_of_byte_ne hlen h
  refine mem_differingWords.mpr ⟨(lt_wordCount_iff hw _ _).mpr ((Nat.div_mul_le_self o w).trans_lt ho), fun hword => h ?_⟩
  rw [← getElem?_lineWord hw front, ← getElem?_lineWord hw back, hword]

/-! ## The first and the last word that differ -/

/-- `first` and `last` are the first and the last word that differ. -/
structure DifferBetween (w : Nat) (front back : List Byte) (first last : Nat) : Prop where
  first_le_last : first ≤ last
  last_lt : last < wordCount w front.length
  first_differs : lineWord w front first ≠ lineWord w back first
  last_differs : lineWord w front last ≠ lineWord w back last
  bounds : ∀ j < wordCount w front.length, lineWord w front j ≠ lineWord w back j → first ≤ j ∧ j ≤ last

theorem DifferBetween.unique {w first last first' last' : Nat} {front back : List Byte}
    (h : DifferBetween w front back first last) (h' : DifferBetween w front back first' last') :
    first = first' ∧ last = last' := by
  have hlt := h.last_lt
  have hlt' := h'.last_lt
  have hle := h.first_le_last
  have hle' := h'.first_le_last
  have hfirst := h.bounds first' (by omega) h'.first_differs
  have hlast := h.bounds last' hlt' h'.last_differs
  have hfirst' := h'.bounds first (by omega) h.first_differs
  have hlast' := h'.bounds last hlt h.last_differs
  omega

/-- The ends of the increasing list of differing words. -/
theorem differBetween_of_cons {w first : Nat} {front back : List Byte} {more : List Nat}
    (h : differingWords w front back = first :: more) :
    DifferBetween w front back first ((first :: more).getLast (List.cons_ne_nil first more)) := by
  have hsorted := pairwise_differingWords w front back
  rw [h] at hsorted
  have hmem {j : Nat} : j ∈ first :: more ↔ j < wordCount w front.length ∧ lineWord w front j ≠ lineWord w back j := by
    rw [← h]
    exact mem_differingWords
  have hle {j : Nat} (hj : j ∈ first :: more) : first ≤ j := by
    rcases List.mem_cons.mp hj with rfl | hj
    · exact le_rfl
    · exact Nat.le_of_lt (List.rel_of_pairwise_cons hsorted hj)
  have hlast := List.getLast_mem (List.cons_ne_nil first more)
  obtain ⟨hlt, hdiffers⟩ := hmem.mp hlast
  exact {
    first_le_last := hle hlast
    last_lt := hlt
    first_differs := (hmem.mp List.mem_cons_self).2
    last_differs := hdiffers
    bounds := fun j hj hne =>
      ⟨hle (hmem.mpr ⟨hj, hne⟩), (hsorted.imp Nat.le_of_lt).rel_getLast (hmem.mpr ⟨hj, hne⟩)⟩ }

/-! ## The narrowed range -/

/-- Lines whose words are equal have the empty range of 41_frame_diff.md R132. -/
theorem narrow_of_equal {w : Nat} {front back : List Byte}
    (h : ∀ j < wordCount w front.length, lineWord w front j = lineWord w back j) :
    narrow w front back = ⟨front.length, 0, front.length⟩ := by
  have hnil : differingWords w front back = [] :=
    List.eq_nil_iff_forall_not_mem.mpr fun j hj => (mem_differingWords.mp hj).2 (h j (mem_differingWords.mp hj).1)
  rw [narrow, hnil]

/-- The range from word `first` to word `last` of a line of `len` bytes. -/
def wordRange (w len first last : Nat) : Narrowed where
  start := first * w
  len := min len ((last + 1) * w) - first * w
  ident := len - (min len ((last + 1) * w) - first * w)

/-- Lines with differing words have the range from the first to the last of them. -/
theorem narrow_of_differBetween {w first last : Nat} {front back : List Byte} (h : DifferBetween w front back first last) :
    narrow w front back = wordRange w front.length first last := by
  cases hwords : differingWords w front back with
  | nil => exact absurd (mem_differingWords.mpr ⟨h.last_lt, h.last_differs⟩) (by simp [hwords])
  | cons first' more =>
    obtain ⟨rfl, rfl⟩ := h.unique (differBetween_of_cons hwords)
    rw [narrow, hwords]
    rfl

/-- Every pair of lines is of one of the two kinds. -/
theorem equal_or_differBetween (w : Nat) (front back : List Byte) :
    (∀ j < wordCount w front.length, lineWord w front j = lineWord w back j) ∨
      ∃ first last, DifferBetween w front back first last := by
  cases hwords : differingWords w front back with
  | nil =>
    refine .inl fun j hj => ?_
    by_contra hne
    simpa [hwords] using mem_differingWords.mpr ⟨hj, hne⟩
  | cons first more => exact .inr ⟨_, _, differBetween_of_cons hwords⟩

/-! ## Bytes of the range -/

/-- A byte that differs lies between the first and the last word that differ. -/
theorem DifferBetween.byte_inside {w first last : Nat} {front back : List Byte} (h : DifferBetween w front back first last)
    (hw : 0 < w) (hlen : front.length = back.length) {o : Nat} (hne : front[o]? ≠ back[o]?) :
    first * w ≤ o ∧ o < (last + 1) * w := by
  obtain ⟨hcount, hword⟩ := mem_differingWords.mp (mem_differingWords_of_byte hw hlen hne)
  obtain ⟨hfirst, hlast⟩ := h.bounds _ hcount hword
  exact ⟨(Nat.le_div_iff_mul_le hw).mp hfirst, (Nat.div_lt_iff_lt_mul hw).mp (Nat.lt_succ_of_le hlast)⟩

/-- What 41_frame_diff.md R133 says of a range of two lines. -/
structure Narrowed.Bounds (n : Narrowed) (w : Nat) (front back : List Byte) : Prop where
  inside : n.start + n.len ≤ front.length
  covers : ∀ o : Nat, front[o]? ≠ back[o]? → n.start ≤ o ∧ o < n.start + n.len
  ident : n.ident = n.start + (front.length - n.start - n.len)
  ends : 0 < n.len → w ∣ n.start ∧ (w ∣ n.start + n.len ∨ n.start + n.len = front.length) ∧
    (front.drop n.start).take w ≠ (back.drop n.start).take w ∧
    ∃ j, n.start ≤ j * w ∧ j * w < n.start + n.len ∧ n.start + n.len ≤ (j + 1) * w ∧ lineWord w front j ≠ lineWord w back j

/-- The empty range of equal lines. -/
theorem bounds_of_equal {w : Nat} (hw : 0 < w) {front back : List Byte} (hlen : front.length = back.length)
    (heq : ∀ j < wordCount w front.length, lineWord w front j = lineWord w back j) :
    Narrowed.Bounds ⟨front.length, 0, front.length⟩ w front back where
  inside := le_rfl
  covers o ho := by
    obtain ⟨hcount, hword⟩ := mem_differingWords.mp (mem_differingWords_of_byte hw hlen ho)
    exact absurd (heq _ hcount) hword
  ident := by simp
  ends hpos := absurd hpos (Nat.lt_irrefl 0)

/-- The range from the first differing word to the last. -/
theorem DifferBetween.narrowed_bounds {w first last : Nat} {front back : List Byte} (h : DifferBetween w front back first last)
    (hw : 0 < w) (hlen : front.length = back.length) : (wordRange w front.length first last).Bounds w front back := by
  have hlast : last * w < front.length := (lt_wordCount_iff hw _ _).mp h.last_lt
  have hle : first * w ≤ last * w := Nat.mul_le_mul_right w h.first_le_last
  have hsucc : (last + 1) * w = last * w + w := Nat.succ_mul last w
  have hstop : first * w + (min front.length ((last + 1) * w) - first * w) = min front.length ((last + 1) * w) := by omega
  refine { inside := ?inside, covers := fun o ho => ?covers, ident := ?ident, ends := fun _ => ?ends } <;>
    dsimp only [wordRange]
  case inside =>
    rw [hstop]
    exact min_le_left _ _
  case covers =>
    obtain ⟨hstart, hend⟩ := h.byte_inside hw hlen ho
    rw [hstop]
    exact ⟨hstart, lt_min (lt_length_of_byte_ne hlen ho) hend⟩
  case ident => omega
  case ends =>
    rw [hstop]
    refine ⟨Nat.dvd_mul_left w first, ?_, h.first_differs, last, hle, lt_min hlast (by omega), min_le_right _ _, h.last_differs⟩
    rcases min_choice front.length ((last + 1) * w) with hmin | hmin
    · exact .inr hmin
    · exact .inl (by rw [hmin]; exact Nat.dvd_mul_left w (last + 1))

theorem narrow_bounds {w : Nat} (hw : 0 < w) {front back : List Byte} (hlen : front.length = back.length) :
    (narrow w front back).Bounds w front back := by
  rcases equal_or_differBetween w front back with heq | ⟨first, last, h⟩
  · rw [narrow_of_equal heq]
    exact bounds_of_equal hw hlen heq
  · rw [narrow_of_differBetween h]
    exact h.narrowed_bounds hw hlen

/-! ## The request -/

theorem exec_diff_of_length_ne {s : State} (h : s.flag .attached = true) {front back : List Byte}
    (hlen : front.length ≠ back.length) : exec (.diff front back) s = .next (s.replied .badArg .none) := by
  show execDiff front back s = _
  rw [execDiff, inSession_of_attached h, if_pos hlen, raise_eq_next]

theorem exec_diff_of_length_eq {s : State} (h : s.flag .attached = true) {front back : List Byte}
    (hlen : front.length = back.length) :
    exec (.diff front back) s = .next (s.replied .ok (narrow s.cfg.wordBytes front back).result) := by
  show execDiff front back s = _
  rw [execDiff, inSession_of_attached h, if_neg (not_not_intro hlen), finish_eq]

/-- Settles O10: the range of `narrow` for lines whose words are equal, and for lines between whose words the first and the last
differ. -/
theorem diffNarrows : Obligations.DiffNarrows := by
  intro s front back _ hattached w total words word
  refine ⟨exec_diff_of_length_ne hattached, fun hlen heq => ?_,
    fun first last hlen hle hlast hfirstne hbefore hlastne hafter => ?_⟩
  · rw [exec_diff_of_length_eq hattached hlen, narrow_of_equal heq]
    rfl
  · have hbetween : DifferBetween w front back first last := {
      first_le_last := hle
      last_lt := hlast
      first_differs := hfirstne
      last_differs := hlastne
      bounds := fun j hj hne => ⟨not_lt.mp fun hlt => hne (hbefore j hlt), not_lt.mp fun hlt => hne (hafter j hj hlt)⟩ }
    rw [exec_diff_of_length_eq hattached hlen, narrow_of_differBetween hbetween]
    rfl

/-- Settles O11: the bounds of `narrow`; whole pixels lie in whole words (41_frame_diff.md R135). -/
theorem diffBoundsDifferences : Obligations.DiffBoundsDifferences := by
  intro s front back hp hattached hlen
  have hw4 := wordBytes_dvd hp
  have hw : 0 < s.cfg.wordBytes := by
    obtain ⟨-, -, -, -, -, -, hW, -⟩ := hp
    omega
  obtain ⟨hinside, hcovers, hident, hends⟩ := narrow_bounds hw hlen
  refine ⟨_, _, _, exec_diff_of_length_eq hattached hlen, hinside, hcovers, hident, hends, fun hpixels => ?_⟩
  obtain ⟨-, hstart, hlen4⟩ := narrow_pixels hw4 hpixels back
  exact ⟨hstart, Nat.dvd_add hstart hlen4⟩

end Sys2Proof.Machine
end

section
/-!
PROOFS. A frame operation of one line that is elided (41_frame_diff.md R137, 46_frame_loop.md R222): the slot it took goes back
unsent at EndOfFrame (46_frame_loop.md R225, 45_slot_pool.md R206).
-/

namespace Sys2Proof.Machine

/-! ## The line -/

/-- A line equal to its backing bytes has an empty range and counts as identical as a whole. -/
theorem lineRange_of_backed {s : State} {f : FrameCtx} {snapshot : Memory} (hsource : f.source = .framebuffer snapshot)
    (hen : s.flag .backingEn = true) (hline : lineBytes s f = backingLine s f) :
    lineRange s f = ⟨4 * (f.x1 - f.x0), 0, 4 * (f.x1 - f.x0)⟩ := by
  simp only [lineRange, hsource, hen, if_true, ← hline, narrow_of_equal fun _ _ => rfl, length_lineBytes]

/-- What a line of RENDER_FRAME with a backing buffer leaves in WORK and in the counters (46_frame_loop.md R222). -/
theorem State.countLine_eq {s : State} {f : FrameCtx} {snapshot : Memory} (hsource : f.source = .framebuffer snapshot)
    (hen : s.flag .backingEn = true) : s.countLine f = { s with
      line := { s.line with base := f.x0, work := linePixels s f }
      counters := ⟨s.counters.rendered + BitVec.ofNat 32 (4 * (f.x1 - f.x0)),
        s.counters.identical + BitVec.ofNat 32 (lineRange s f).ident, s.counters.sent, s.counters.cpu⟩ } := by
  simp only [State.countLine, hsource, hen, if_true]
  rfl

/-- A frame operation of one line that is elided. -/
theorem frameLoop_of_elided {s : State} {source : FrameSource} {x0 x1 y : Nat} (hh : s.pool.held = none)
    (ha : s.pool.avail ≠ 0) (hlen : (lineRange s ⟨source, x0, x1, y, y + 1, 0, .line⟩).len = 0) :
    frameLoop source x0 x1 y (y + 1) s =
      endOfFrame ((s.setFlag .frameBusy true).takeSlot.countLine ⟨source, x0, x1, y, y + 1, 0, .line⟩) := by
  rw [← (sameLineInputs_begin s).lineRange] at hlen
  rw [frameLoop, Nat.add_sub_cancel_left, runLines]
  simp only [State.setFlag_pool, hh, ha, and_false, if_false, if_true, processLine, hlen, runLines]

/-! ## The end of the frame -/

/-- EndOfFrame with an empty slot `k` held: it is released (46_frame_loop.md R225). -/
theorem endOfFrame_of_empty {s : State} {k : Nat} (hk : s.pool.held = some k) (hw : s.pool.wptr = 0) :
    endOfFrame s = .next (((((s.releaseSlot k).afterDraw).countCpu s.nextDraw).setFlag .frameBusy false).replied .ok .none) := by
  simp only [endOfFrame, hk, hw, ne_eq, not_true_eq_false, if_false, succeed_eq_next]
  rfl

/-- A slot that is taken and released goes to the tail of FREEQ with its full length (45_slot_pool.md R200, R206). -/
theorem Pool.giveBack_takeSlot {s : State} {k : Nat} {rest : List Nat} {slot : Slot} (hq : s.pool.freeq = k :: rest)
    (hslot : s.pool.slots[k]? = some slot) (slotBytes : Nat) :
    { s.takeSlot.pool.giveBack slotBytes k with held := none, wptr := 0 } =
      (⟨s.pool.slots.set k { slot with len := BitVec.ofNat 32 slotBytes, state := .free }, rest ++ [k],
        s.pool.avail - 1 + 1, none, 0⟩ : Pool) := by
  obtain ⟨hlt, rfl⟩ := List.getElem?_eq_some_iff.mp hslot
  rw [State.takeSlot_eq hq]
  simp [Pool.giveBack, Pool.modifySlot, List.modify_eq_set_getElem?, hlt]

/-- The choice of an increment goes past what the frame has changed. -/
theorem State.afterDraw_with (s : State) (status : Word) (counters : Counters) (line : LineBufs) (pool : Pool) :
    ({ s with status := status, counters := counters, line := line, pool := pool } : State).afterDraw =
      { s.afterDraw with status := status, counters := counters, line := line, pool := pool } := by
  unfold State.afterDraw
  cases s.draws <;> rfl

/-! ## The whole operation -/

/-- The state after the elided line, its slot released. -/
theorem State.releaseSlot_countLine {s : State} {f : FrameCtx} {snapshot : Memory} {k : Nat} {rest : List Nat} {slot : Slot}
    (hsource : f.source = .framebuffer snapshot) (hen : s.flag .backingEn = true) (hq : s.pool.freeq = k :: rest)
    (hslot : s.pool.slots[k]? = some slot) :
    ((s.setFlag .frameBusy true).takeSlot.countLine f).releaseSlot k = { s with
      status := setBit s.status 1 true
      counters := ⟨s.counters.rendered + BitVec.ofNat 32 (4 * (f.x1 - f.x0)),
        s.counters.identical + BitVec.ofNat 32 (lineRange s f).ident, s.counters.sent, s.counters.cpu⟩
      line := { s.line with base := f.x0, work := linePixels s f }
      pool := ⟨s.pool.slots.set k { slot with len := BitVec.ofNat 32 s.cfg.slotBytes, state := .free }, rest ++ [k],
        s.pool.avail - 1 + 1, none, 0⟩ } := by
  have hin := sameLineInputs_begin s
  have hpool := Pool.giveBack_takeSlot (s := s.setFlag .frameBusy true) hq hslot s.cfg.slotBytes
  rw [State.countLine_eq hsource (hin.backingEn.trans hen), hin.linePixels, hin.lineRange, State.releaseSlot_eq]
  dsimp only
  rw [hin.cfg, hpool, State.takeSlot_eq (s := s.setFlag .frameBusy true) hq]
  rfl

/-- RENDER_FRAME's loop over one line that equals its backing bytes. -/
theorem frameLoop_elides_line {s : State} {snapshot : Memory} {x0 x1 y k : Nat} {rest : List Nat} {slot : Slot}
    (hen : s.flag .backingEn = true) (hh : s.pool.held = none) (ha : s.pool.avail ≠ 0) (hq : s.pool.freeq = k :: rest)
    (hslot : s.pool.slots[k]? = some slot)
    (hline : lineBytes s ⟨.framebuffer snapshot, x0, x1, y, y + 1, 0, .line⟩ =
      backingLine s ⟨.framebuffer snapshot, x0, x1, y, y + 1, 0, .line⟩) :
    frameLoop (.framebuffer snapshot) x0 x1 y (y + 1) s = .next ({ s.afterDraw with
      status := s.status &&& ~~~0x00000002#32
      counters := ⟨s.counters.rendered + BitVec.ofNat 32 (4 * (x1 - x0)),
        s.counters.identical + BitVec.ofNat 32 (4 * (x1 - x0)), s.counters.sent, s.counters.cpu + s.nextDraw⟩
      line := { s.line with base := x0, work := linePixels s ⟨.framebuffer snapshot, x0, x1, y, y + 1, 0, .line⟩ }
      pool := ⟨s.pool.slots.set k { slot with len := BitVec.ofNat 32 s.cfg.slotBytes, state := .free },
        rest ++ [k], s.pool.avail - 1 + 1, none, 0⟩ }.replied .ok .none) := by
  have hrange := lineRange_of_backed rfl hen hline
  have htake : (s.setFlag .frameBusy true).takeSlot = _ := State.takeSlot_eq (s := s.setFlag .frameBusy true) hq
  have hdraw : ((s.setFlag .frameBusy true).takeSlot.countLine
      ⟨.framebuffer snapshot, x0, x1, y, y + 1, 0, .line⟩).nextDraw = s.nextDraw :=
    State.nextDraw_congr (by simp) (by simp)
  rw [frameLoop_of_elided hh ha (by rw [hrange]),
    endOfFrame_of_empty (k := k) (by rw [State.countLine_pool, htake]) (by simp), hdraw,
    State.releaseSlot_countLine rfl hen hq hslot, hrange, State.afterDraw_with, ← setBit_busy]
  rfl

/-- Settles O36: RENDER_FRAME runs the frame loop over its one line, whose bytes are those of BACKING. -/
theorem renderElidesIdenticalLine : Obligations.RenderElidesIdenticalLine := by
  intro s x y w h k rest slot hattached hlink hmode hfb hen hheld havail hq hslot x0 x1 y0 line hx hy hline
  rw [exec_renderFrame_of_visible hattached hlink hmode hfb hheld (Nat.ne_of_lt hx)
    (by rw [hy]; exact Nat.ne_of_lt (Nat.lt_succ_self y0)), hy]
  exact frameLoop_elides_line hen hheld havail hq hslot hline

end Sys2Proof.Machine
end

section
/-!
PROOFS. The model's EncodeRun, over the values that are left, is the loops of 42_run_encoder.md R141 over the run cursor: one lemma
per loop, from the inside out.
-/

namespace Sys2Proof.Machine

section

variable {α : Type} [DecidableEq α]

omit [DecidableEq α] in
/-- The first of the values that are left is the one at the cursor. -/
theorem getElem?_of_drop_eq_cons {vals : List α} {i : Nat} {v : α} {vs : List α} (h : vals.drop i = v :: vs) :
    vals[i]? = some v ∧ vals.drop (i + 1) = vs ∧ vals.length = i + vs.length + 1 := by
  have hlen := congrArg List.length h
  rw [List.length_drop, List.length_cons] at hlen
  exact ⟨by rw [← List.head?_drop, h]; rfl, by rw [← List.tail_drop, h]; rfl, by omega⟩

/-- The innermost loop counts the values equal to the one before the cursor, up to the limits. -/
theorem refRepeat_eq {vals : List α} {m r : Nat} {v : α} (fuel k i : Nat) (hv : vals[i - 1]? = some v)
    (hfuel : vals.length ≤ fuel + i) :
    refRepeat vals m r fuel k i = (k + min (leadingEq v (vals.drop i)) (min (255 - k) (m - (r + k))),
      i + min (leadingEq v (vals.drop i)) (min (255 - k) (m - (r + k)))) := by
  induction fuel generalizing k i with
  | zero => simp [refRepeat, leadingEq, List.drop_eq_nil_of_le (show vals.length ≤ i by omega)]
  | succ fuel ih =>
    cases hdrop : vals.drop i with
    | nil => simp [refRepeat, leadingEq, List.drop_eq_nil_iff.mp hdrop]
    | cons w ws =>
      obtain ⟨hw, hrest, hlen⟩ := getElem?_of_drop_eq_cons hdrop
      have hlt : i < vals.length := by omega
      simp only [refRepeat, leadingEq, hw, hv, Option.some_inj, hlt, true_and]
      by_cases heq : w = v
      · by_cases hmore : r + k < m ∧ k < 255
        · rw [if_pos ⟨heq, hmore⟩, if_pos heq, ih (k + 1) (i + 1) (hw.trans (congrArg some heq)) (by omega), hrest]
          ext <;> simp only <;> omega
        · rw [if_neg fun h => hmore h.2, if_pos heq]
          ext <;> simp only <;> omega
      · rw [if_neg fun h => heq h.1, if_neg heq, Nat.zero_min, Nat.add_zero, Nat.add_zero]

/-- The loop that appends raw values is `rawSpan` over the values that are left. -/
theorem refRaw_eq (put : α → List Byte) {vals : List α} {m cap : Nat} (fuel r i : Nat) (pixels : List Byte) {v : α}
    {vs : List α} (hdrop : vals.drop i = v :: vs) (hfuel : vals.length ≤ fuel + i) :
    refRaw put vals m cap fuel r i pixels =
      (pixels ++ (rawSpan m cap r v vs).1.flatMap put, r + (rawSpan m cap r v vs).1.length, (rawSpan m cap r v vs).2.1,
        i + (rawSpan m cap r v vs).1.length + (rawSpan m cap r v vs).2.1) := by
  induction fuel generalizing r i pixels v vs with
  | zero =>
    obtain ⟨-, -, hlen⟩ := getElem?_of_drop_eq_cons hdrop
    omega
  | succ fuel ih =>
    obtain ⟨hv, hrest, hlen⟩ := getElem?_of_drop_eq_cons hdrop
    rw [refRaw]
    cases vs with
    | nil =>
      rw [List.length_nil, Nat.add_zero] at hlen
      simp only [hv, hlen, rawSpan, Nat.lt_irrefl, false_and, if_false, true_or, if_true]
      simp
    | cons w ws =>
      obtain ⟨hw, -, -⟩ := getElem?_of_drop_eq_cons hrest
      have hlt : i + 1 < vals.length := by rw [hlen, List.length_cons]; omega
      rw [rawSpan]
      simp only [hv, hw, Nat.add_sub_cancel, Option.some_inj, hlt, true_and, Nat.ne_of_lt hlt, false_or]
      split
      case isTrue hrepeat =>
        rw [refRepeat_eq _ _ (i + 1) hv (by omega), hrest]
        simp
      case isFalse =>
        split
        case isTrue => simp
        case isFalse =>
          rw [ih (r + 1) (i + 1) _ hrest (by omega)]
          simp [Nat.add_assoc, Nat.add_comm 1]

/-- A command started with room for F bytes (30_encoding.md R97, 42_run_encoder.md R141): it uses up the first values that are
left. -/
theorem rawSpan_of_room {p : Params} (hp : p.Valid) {bpp wptr : Nat} (hb : bpp = 1 ∨ bpp = 2)
    (hroom : ¬ p.slotBytes - wptr < p.minCmdBytes) {v : α} {vs raw rest : List α} {k : Nat}
    (hspan : rawSpan p.maxCmdPixels (capRaw p bpp wptr) 0 v vs = (raw, k, rest)) :
    1 ≤ raw.length ∧ raw.length + k ≤ (v :: vs).length ∧ rest = (v :: vs).drop (raw.length + k) := by
  obtain ⟨-, -, ⟨hM, -⟩, ⟨hF, -⟩, -⟩ := hp
  have hcap : 0 < capRaw p bpp wptr ∧ capRaw p bpp wptr ≤ p.maxCmdPixels := by
    unfold capRaw
    rcases hb with rfl | rfl <;> omega
  have h := rawSpan_spec (m := p.maxCmdPixels) 0 v vs hcap.1 (by omega) hcap.2
  rw [hspan] at h
  have hlen : (v :: vs).length = raw.length + k + rest.length := h.length
  have hvalues : (runValues raw k).length = raw.length + k := by simp [runValues_of_ne_nil h.nonempty]
  refine ⟨List.length_pos_iff.mpr h.nonempty, by omega, ?_⟩
  rw [← h.values, ← hvalues, List.drop_left]

/-- One round of the model's outer loop. -/
theorem encodeCmds_of_room {p : Params} {bpp wptr : Nat} (hroom : ¬ p.slotBytes - wptr < p.minCmdBytes) {v : α}
    {vs raw rest : List α} {k : Nat} (hspan : rawSpan p.maxCmdPixels (capRaw p bpp wptr) 0 v vs = (raw, k, rest)) (fuel : Nat)
    (addr : DevAddr) {e : Encoded α}
    (he : encodeCmds p bpp fuel (wptr + 7 + raw.length * bpp) (addr + BitVec.ofNat 24 ((raw.length + k) * bpp)) rest = e) :
    encodeCmds p bpp (fuel + 1) wptr addr (v :: vs) = ⟨⟨addr, raw, k⟩ :: e.cmds, e.wptr, e.addr, e.rest⟩ := by
  rw [encodeCmds, if_neg hroom, hspan, ← he]

/-- One round of the outer loop of R141: it appends the bytes of the model's command. -/
theorem refCommands_of_room {p : Params} {ch : Channel α} {wptr : Nat} (hroom : ¬ p.slotBytes - wptr < p.minCmdBytes)
    {vals : List α} {i : Nat} {v : α} {vs raw rest : List α} {k : Nat} (hdrop : vals.drop i = v :: vs)
    (hspan : rawSpan p.maxCmdPixels (capRaw p ch.bpp wptr) 0 v vs = (raw, k, rest)) (fuel : Nat) (bytes : List Byte)
    (addr : DevAddr) :
    refCommands p ch vals (fuel + 1) bytes wptr i addr =
      refCommands p ch vals fuel (bytes ++ RunCmd.bytes ch ⟨addr, raw, k⟩) (wptr + 7 + raw.length * ch.bpp)
        (i + (raw.length + k)) (addr + BitVec.ofNat 24 ((raw.length + k) * ch.bpp)) := by
  obtain ⟨-, -, hlen⟩ := getElem?_of_drop_eq_cons hdrop
  have hraw := refRaw_eq (m := p.maxCmdPixels) (cap := capRaw p ch.bpp wptr) ch.put vals.length 0 i [] hdrop (by omega)
  rw [hspan] at hraw
  unfold capRaw at hraw
  rw [refCommands, if_pos (by omega)]
  simp only [hraw, List.nil_append, Nat.zero_add, Nat.add_assoc, List.append_assoc]
  rfl

/-- What the outer loop of R141 has at its end where the model's has `e`: the bytes behind those it began with, WPTR, the cursor
into the `n` values, and the address. -/
def Encoded.loopEnd (ch : Channel α) (n : Nat) (bytes : List Byte) (e : Encoded α) : List Byte × Nat × Nat × DevAddr :=
  (bytes ++ e.cmds.flatMap (RunCmd.bytes ch), e.wptr, n - e.rest.length, e.addr)

/-- The outer loop is `encodeCmds` over the values that are left. -/
theorem refCommands_eq {p : Params} (hp : p.Valid) {ch : Channel α} (hb : ch.bpp = 1 ∨ ch.bpp = 2) {vals : List α}
    (fuel fuel' : Nat) (bytes : List Byte) (wptr : Nat) {i : Nat} (addr : DevAddr) (hi : i ≤ vals.length)
    (hfuel : vals.length ≤ fuel + i) (hfuel' : vals.length ≤ fuel' + i) :
    refCommands p ch vals fuel bytes wptr i addr =
      (encodeCmds p ch.bpp fuel' wptr addr (vals.drop i)).loopEnd ch vals.length bytes := by
  induction fuel generalizing fuel' bytes wptr i addr with
  | zero =>
    obtain rfl : i = vals.length := by omega
    cases fuel' <;> simp [refCommands, encodeCmds, Encoded.loopEnd]
  | succ fuel ih =>
    cases hdrop : vals.drop i with
    | nil =>
      have hend := List.drop_eq_nil_iff.mp hdrop
      obtain rfl : i = vals.length := Nat.le_antisymm hi hend
      cases fuel' <;> simp [refCommands, encodeCmds, Encoded.loopEnd]
    | cons v vs =>
      obtain ⟨-, -, hlen⟩ := getElem?_of_drop_eq_cons hdrop
      obtain ⟨fuel', rfl⟩ : ∃ f, fuel' = f + 1 := ⟨fuel' - 1, by omega⟩
      by_cases hroom : p.slotBytes - wptr < p.minCmdBytes
      · have hcursor : vals.length - (v :: vs).length = i := by rw [List.length_cons]; omega
        rw [refCommands, if_neg fun h => Nat.not_lt.mpr h.2 hroom, encodeCmds, if_pos hroom, Encoded.loopEnd, hcursor,
          List.flatMap_nil, List.append_nil]
      · rcases hspan : rawSpan p.maxCmdPixels (capRaw p ch.bpp wptr) 0 v vs with ⟨raw, k, rest⟩
        obtain ⟨hone, hle, hrest⟩ := rawSpan_of_room hp hb hroom hspan
        rw [← hdrop, List.drop_drop] at hrest
        rw [List.length_cons] at hle
        rw [refCommands_of_room hroom hdrop hspan, encodeCmds_of_room hroom hspan fuel' addr rfl, hrest,
          ih fuel' _ _ _ (by omega) (by omega) (by omega)]
        simp [Encoded.loopEnd]

/-- EncodeRun is its loops as the spec writes them, and the padding. -/
theorem encodeRun_eq_refEncodeRun {p : Params} (hp : p.Valid) {ch : Channel α} (hb : ch.bpp = 1 ∨ ch.bpp = 2) (wptr : Nat)
    {vals : List α} {i : Nat} (hi : i ≤ vals.length) (addr : DevAddr) :
    encodeRun p ch wptr vals i addr = refEncodeRun p ch wptr vals i addr := by
  rw [refEncodeRun, refCommands_eq hp hb vals.length (vals.drop i).length [] wptr addr hi (by omega)
    (by rw [List.length_drop]; omega), encodeRun]
  dsimp only [Encoded.loopEnd]
  generalize encodeCmds p ch.bpp (vals.drop i).length wptr addr (vals.drop i) = e
  by_cases hfull : p.slotBytes - e.wptr < p.minCmdBytes
  · simp [hfull, padBytes]
  · simp [hfull]

end

/-- Settles O18: the loops agree on every channel of 1 or 2 bytes a value. -/
theorem encodeRunIsSpecLoop : Obligations.EncodeRunIsSpecLoop := fun _ wptr _ addr hp =>
  ⟨fun _ hi => encodeRun_eq_refEncodeRun hp (.inr rfl) wptr hi addr,
    fun _ hi => encodeRun_eq_refEncodeRun hp (.inl rfl) wptr hi addr⟩

end Sys2Proof.Machine
end

section
/-!
PROOFS. The results of EncodeRun (30_encoding.md R97, 42_run_encoder.md R143, R144), and a run over several slots: the items that
the reference decoder (42_run_encoder.md R147) finds in the slots of a run stand for its values (R148).
-/

namespace Sys2Proof.Machine

/-! ## Results -/

/-- Each command takes at least one value (42_run_encoder.md R144). -/
theorem Commands.length_le_values {α : Type} {p : Params} {bpp : Nat} {addr : DevAddr} {cmds : List (RunCmd α)}
    (h : Commands p bpp addr cmds) : cmds.length ≤ (cmds.flatMap RunCmd.values).length := by
  induction h with
  | nil => exact le_rfl
  | @cons _ c _ _ one _ _ _ _ ih =>
    have hvalues := RunCmd.length_values (c := c) (List.length_pos_iff.mp one)
    simp only [List.length_cons, List.flatMap_cons, List.length_append]
    omega

/-- Each command keeps the limits of 30_encoding.md R97. -/
theorem Commands.limits {α : Type} {p : Params} {bpp : Nat} {addr : DevAddr} {cmds : List (RunCmd α)}
    (h : Commands p bpp addr cmds) :
    ∀ c ∈ cmds, 1 ≤ c.raw.length ∧ c.raw.length ≤ 255 ∧ c.rep ≤ 255 ∧ c.raw.length + c.rep ≤ p.maxCmdPixels := by
  induction h with
  | nil => simp
  | cons _ one most rep limit _ ih => exact List.forall_mem_cons.mpr ⟨⟨one, most, rep, limit⟩, ih⟩

/-- The commands end inside the slot, being no more than the bytes EncodeRun writes (42_run_encoder.md R143). -/
theorem RunOk.body_le {α : Type} {p : Params} {ch : Channel α} {wptr i : Nat} {vals : List α} {addr : DevAddr}
    {cmds : List (RunCmd α)} {r : RunResult} (h : RunOk p ch wptr vals i addr cmds r) :
    wptr + (cmds.flatMap (RunCmd.bytes ch)).length ≤ p.slotBytes := by
  have hle : (cmds.flatMap (RunCmd.bytes ch)).length ≤ r.bytes.length := by rw [h.bytes]; simp
  cases hfull : r.full
  · have := (h.notFull hfull).2
    omega
  · have := h.full hfull
    omega

/-- Settles O19, from what the loops of EncodeRun yield. -/
theorem encodeRunResults : Obligations.EncodeRunResults := by
  intro α _ p ch wptr i addr vals hp hb hw hwptr hi r
  obtain ⟨cmds, hrun⟩ : ∃ cmds, RunOk p ch wptr vals i addr cmds r := encodeRun_spec hp ch hw hb hwptr vals hi addr
  obtain ⟨hle, hend⟩ := hrun.cursor
  have hcount : cmds.length ≤ r.i - i := by
    have htaken := congrArg List.length hrun.values
    rw [List.length_take] at htaken
    have := hrun.commands.length_le_values
    omega
  refine ⟨cmds, hrun.bytes, hrun.values, hcount, hle, hend, hrun.commands.limits, hrun.body_le, ?_, ?_, hrun.full, hrun.addr⟩
  · intro hlt
    by_contra hfull
    exact absurd (hrun.notFull (Bool.eq_false_iff.mpr hfull)).1 (Nat.ne_of_lt hlt)
  · intro hfull
    obtain ⟨hall, hroom⟩ := hrun.notFull hfull
    exact ⟨hall, by omega⟩

/-! ## The items of a run -/

/-- Decoded items that are runs of one channel, with padding anywhere between them: the first starts at the address, each
next one where the one before it ended, and together they stand for the values. `run` is the channel's item. -/
inductive RunItems {α : Type} (run : DevAddr → List α → WireItem) (bpp : Nat) : DevAddr → List WireItem → List α → Prop
  | nil (addr) : RunItems run bpp addr [] []
  | run {addr vs items vals} (more : RunItems run bpp (addr + BitVec.ofNat 24 (vs.length * bpp)) items vals) :
      RunItems run bpp addr (run addr vs :: items) (vs ++ vals)
  | pad {addr n items vals} (more : RunItems run bpp addr items vals) : RunItems run bpp addr (.pad n :: items) vals

theorem RunItems.values16 {addr : DevAddr} {items : List WireItem} {vals : List Half} (h : RunItems .run16 2 addr items vals) :
    itemValues16 items = vals := by
  induction h with
  | nil => rfl
  | run _ ih => rw [itemValues16, ih]
  | pad _ ih => rw [itemValues16, ih]; simp

theorem RunItems.follow16 {addr : DevAddr} {items : List WireItem} {vals : List Half} (h : RunItems .run16 2 addr items vals) :
    runsFollow16 addr items := by
  induction h with
  | nil => trivial
  | run _ ih => exact ⟨rfl, ih⟩
  | pad _ ih => exact ih

theorem RunItems.values8 {addr : DevAddr} {items : List WireItem} {vals : List Byte} (h : RunItems .run8 1 addr items vals) :
    itemValues8 items = vals := by
  induction h with
  | nil => rfl
  | run _ ih => rw [itemValues8, ih]
  | pad _ ih => rw [itemValues8, ih]; simp

theorem RunItems.follow8 {addr : DevAddr} {items : List WireItem} {vals : List Byte} (h : RunItems .run8 1 addr items vals) :
    runsFollow8 addr items := by
  induction h with
  | nil => trivial
  | run _ ih => rw [Nat.mul_one] at ih; exact ⟨rfl, ih⟩
  | pad _ ih => exact ih

section

variable {α : Type} {run : DevAddr → List α → WireItem} {bpp : Nat}

/-- A run goes on where the items before it ended. -/
theorem RunItems.append {addr : DevAddr} {xs ys : List WireItem} {vs ws : List α} (hx : RunItems run bpp addr xs vs)
    (hy : RunItems run bpp (addr + BitVec.ofNat 24 (vs.length * bpp)) ys ws) : RunItems run bpp addr (xs ++ ys) (vs ++ ws) := by
  induction hx with
  | nil => simpa using hy
  | @run addr vs items vals _ ih =>
    rw [List.append_assoc]
    refine .run (ih ?_)
    rwa [BitVec.add_assoc, ← BitVec.ofNat_add, ← Nat.add_mul, ← List.length_append]
  | pad _ ih => exact .pad (ih hy)

/-- A run over the values from `i` to `j` and one over the values from `j` on. -/
theorem RunItems.append_drop {addr : DevAddr} {xs ys : List WireItem} {vals : List α} {i j : Nat} (hij : i ≤ j)
    (hj : j ≤ vals.length) (hx : RunItems run bpp addr xs ((vals.drop i).take (j - i)))
    (hy : RunItems run bpp (addr + BitVec.ofNat 24 ((j - i) * bpp)) ys (vals.drop j)) :
    RunItems run bpp addr (xs ++ ys) (vals.drop i) := by
  have hlength : ((vals.drop i).take (j - i)).length = j - i := by rw [List.length_take, List.length_drop]; omega
  have hdrop : vals.drop i = (vals.drop i).take (j - i) ++ vals.drop j := by
    conv_lhs => rw [← List.take_append_drop (j - i) (vals.drop i), List.drop_drop, Nat.add_sub_cancel' hij]
  rw [hdrop]
  exact hx.append (by rwa [hlength])

/-- The items of commands that follow one another. -/
theorem Commands.runItems {p : Params} {addr : DevAddr} {cmds : List (RunCmd α)} (h : Commands p bpp addr cmds) :
    RunItems run bpp addr (cmds.map fun c => run c.addr c.values) (cmds.flatMap RunCmd.values) := by
  induction h with
  | nil => exact .nil _
  | cons haddr _ _ _ _ _ ih => rw [List.map_cons, haddr]; exact .run ih

end

/-! ## A run over several slots -/

section

variable {α : Type} [DecidableEq α] {p : Params} {ch : Channel α} {run : DevAddr → List α → WireItem}

/-- The bytes of EncodeRun decode to a run over exactly the values it has used up (42_run_encoder.md R148). -/
theorem encodeRun_decodes (hp : p.Valid) (hw : ch.Wide) (hb : ch.bpp = 1 ∨ ch.bpp = 2)
    (hframed : ∀ addr cmds, Commands p ch.bpp addr cmds →
      Framed p (cmds.flatMap (RunCmd.bytes ch)) (cmds.map fun c => run c.addr c.values))
    {wptr : Nat} (hwptr : wptr ≤ p.slotBytes) (vals : List α) {i : Nat} (hi : i ≤ vals.length) (addr : DevAddr) :
    ∃ items, decodeSlot p (encodeRun p ch wptr vals i addr).bytes = some items ∧
      RunItems run ch.bpp addr items ((vals.drop i).take ((encodeRun p ch wptr vals i addr).i - i)) := by
  obtain ⟨cmds, hrun⟩ := encodeRun_spec hp ch hw hb hwptr vals hi addr
  generalize encodeRun p ch wptr vals i addr = r at hrun ⊢
  obtain ⟨n, hbytes⟩ : ∃ n, r.bytes = cmds.flatMap (RunCmd.bytes ch) ++ padBytes n := by
    rw [hrun.bytes]
    cases r.full
    · exact ⟨0, rfl⟩
    · exact ⟨_, rfl⟩
  refine ⟨_, hbytes ▸ (hframed addr cmds hrun.commands).decodeSlot hp n, ?_⟩
  rw [← hrun.values, ← List.append_nil (cmds.flatMap RunCmd.values)]
  refine hrun.commands.runItems.append ?_
  split
  · exact .nil _
  · exact .pad (.nil _)

/-- A run from cursor `i` on ends at its last value, and its slots decode to a run over the values from `i` on. A fresh slot
takes at least one value, the first slot perhaps none: one round more than there are values left is enough, or two. -/
theorem encodeSlots_decodes (hp : p.Valid) (hw : ch.Wide) (hb : ch.bpp = 1 ∨ ch.bpp = 2)
    (hframed : ∀ addr cmds, Commands p ch.bpp addr cmds →
      Framed p (cmds.flatMap (RunCmd.bytes ch)) (cmds.map fun c => run c.addr c.values))
    (vals : List α) (fuel : Nat) {wptr : Nat} (hwptr : wptr ≤ p.slotBytes) {i : Nat} (hi : i ≤ vals.length) (addr : DevAddr)
    (hfuel : vals.length < fuel + i) (hfirst : wptr = 0 ∨ vals.length + 1 < fuel + i) :
    (encodeSlots p ch vals fuel wptr i addr).2 = vals.length ∧
      ∃ items : List (List WireItem), (encodeSlots p ch vals fuel wptr i addr).1.map (decodeSlot p) = items.map some ∧
        RunItems run ch.bpp addr items.flatten (vals.drop i) := by
  induction fuel generalizing wptr i addr with
  | zero => omega
  | succ fuel ih =>
    obtain ⟨cmds, hrun⟩ := encodeRun_spec hp ch hw hb hwptr vals hi addr
    obtain ⟨items, hitems, hvalues⟩ := encodeRun_decodes hp hw hb hframed hwptr vals hi addr
    obtain ⟨hle, hend⟩ := hrun.cursor
    have hprogress : wptr = 0 → i < vals.length → i < (encodeRun p ch wptr vals i addr).i := by
      rintro rfl hlt
      exact encodeRun_progress hp ch hb vals hlt addr
    rw [encodeSlots]
    generalize encodeRun p ch wptr vals i addr = r at *
    split
    case isTrue hmore =>
      obtain ⟨hlast, more, hmap, hrest⟩ := ih (Nat.zero_le _) hend r.addr (by omega) (.inl rfl)
      refine ⟨hlast, items :: more, by rw [List.map_cons, List.map_cons, hitems, hmap], ?_⟩
      rw [hrun.addr] at hrest
      exact hvalues.append_drop hle hend hrest
    case isFalse hdone =>
      have hlast : r.i = vals.length := by
        cases hfull : r.full
        · exact (hrun.notFull hfull).1
        · exact by_contra fun h => hdone ⟨hfull, h⟩
      refine ⟨hlast, [items], by rw [List.map_singleton, List.map_singleton, hitems], ?_⟩
      rw [hlast, ← List.length_drop, List.take_length] at hvalues
      rwa [List.flatten_singleton]

end

/-- Settles O20: slot by slot, the items of EncodeRun's commands go on where the slot before ended. -/
theorem encodedRunDecodes : Obligations.EncodedRunDecodes := by
  intro p wptr addr hp hwptr
  constructor
  · intro vals
    obtain ⟨hlast, items, hmap, hrun⟩ := encodeSlots_decodes (run := .run16) hp (channel16_wide p) (.inr rfl)
      (fun _ _ h => h.framed16) vals (vals.length + 2) hwptr (Nat.zero_le _) addr (by omega) (.inr (by omega))
    exact ⟨hlast, items, hmap, hrun.values16, hrun.follow16⟩
  · intro vals
    obtain ⟨hlast, items, hmap, hrun⟩ := encodeSlots_decodes (run := .run8) hp (channel8_wide p) (.inl rfl)
      (fun _ _ h => h.framed8) vals (vals.length + 2) hwptr (Nat.zero_le _) addr (by omega) (.inr (by omega))
    exact ⟨hlast, items, hmap, hrun.values8, hrun.follow8⟩

end Sys2Proof.Machine
end

section
/-!
PROOFS. ENC16 and ENC8 (42_run_encoder.md R140, R145): one proof for the body they share, for any channel of 1 or 2 bytes a value.
-/

namespace Sys2Proof.Machine

section

variable {α : Type} [DecidableEq α] (ch : Channel α) {s : State} {vals : List α} {i : Word} (addr : DevAddr)

theorem encodeRequest_of_unheld (hs : s.flag .attached = true) (hh : s.pool.held = none) :
    encodeRequest ch vals i addr s = .next (s.replied .noSlot .none) := by
  rw [encodeRequest, inSession_of_attached hs, if_pos hh, raise, finish_eq]

theorem encodeRequest_of_past (hs : s.flag .attached = true) (hh : s.pool.held ≠ none) (hi : vals.length < i.toNat) :
    encodeRequest ch vals i addr s = .next (s.replied .badArg .none) := by
  rw [encodeRequest, inSession_of_attached hs, if_neg hh, if_pos hi, raise, finish_eq]

theorem encodeRequest_of_held (hs : s.flag .attached = true) (hh : s.pool.held ≠ none) (hi : i.toNat ≤ vals.length) :
    encodeRequest ch vals i addr s = .next
      ((s.emit (encodeRun s.cfg ch s.pool.wptr.toNat vals i.toNat addr).bytes).replied .ok
        (encodeRun s.cfg ch s.pool.wptr.toNat vals i.toNat addr).result) := by
  rw [encodeRequest, inSession_of_attached hs, if_neg hh, if_neg (Nat.not_lt.mpr hi)]
  exact finish_eq _ _ _

variable {ch}

/-- The bytes of EncodeRun fit in the held slot, and so Emit puts them there and changes nothing else. -/
theorem encodeRequest_writes (hw : ch.Wide) (hb : ch.bpp = 1 ∨ ch.bpp = 2) {k : Nat} {slot : Slot}
    (hs : s.flag .attached = true) (hp : s.cfg.Valid) (hk : s.pool.held = some k) (hslot : s.pool.slots[k]? = some slot)
    (hwptr : s.pool.wptr.toNat ≤ s.cfg.slotBytes) (hi : i.toNat ≤ vals.length) :
    ∃ t p, encodeRequest ch vals i addr s = .next t ∧
      s.RepliedWithPool t p .ok (encodeRun s.cfg ch s.pool.wptr.toNat vals i.toNat addr).result ∧
      Pool.Emitted s.pool p k (encodeRun s.cfg ch s.pool.wptr.toNat vals i.toNat addr).bytes := by
  obtain ⟨hstate, hpool⟩ := State.emit_emitted hk (List.getElem?_eq_some_iff.mp hslot).1
    (encodeRun_fits hp ch hw hb hwptr vals i.toNat addr).1
  refine ⟨_, _, encodeRequest_of_held ch addr hs (by rw [hk]; exact Option.some_ne_none k) hi, ?_, hpool⟩
  rw [hstate]
  rfl

end

/-- Settles O16: ENC16 is the shared body on the 16-bit channel. -/
theorem enc16WritesHeldSlot : Obligations.Enc16WritesHeldSlot := by
  intro s vals i addr hs
  exact ⟨Laws.LeadByte.enc16 vals i addr rfl, encodeRequest_of_unheld _ addr hs, encodeRequest_of_past _ addr hs,
    fun _ _ hp hk hslot hwptr hi => encodeRequest_writes addr (channel16_wide s.cfg) (.inr rfl) hs hp hk hslot hwptr hi⟩

/-- Settles O17: ENC8 is the shared body on the 8-bit channel. -/
theorem enc8WritesHeldSlot : Obligations.Enc8WritesHeldSlot := by
  intro s vals i addr hs
  exact ⟨Laws.LeadByte.enc8 vals i addr rfl, encodeRequest_of_unheld _ addr hs, encodeRequest_of_past _ addr hs,
    fun _ _ hp hk hslot hwptr hi => encodeRequest_writes addr (channel8_wide s.cfg) (.inl rfl) hs hp hk hslot hwptr hi⟩

end Sys2Proof.Machine
end

section
/-!
PROOFS. The cursor blender (43_cursor_blend.md): one pixel over another (R160), a segment of a line under the sprite (R161 to R164),
and the request that sets the sprite (R166).
-/

namespace Sys2Proof.Machine

/-! ## One colour channel (R160) -/

/-- A weighted mean, rounded down, lies between the two numbers. -/
theorem weightedMean_between {a b : Nat} (h : 0 < a + b) (c p : Nat) :
    min c p ≤ (c * a + p * b) / (a + b) ∧ (c * a + p * b) / (a + b) ≤ max c p := by
  constructor
  · rw [Nat.le_div_iff_mul_le h, Nat.mul_add]
    exact Nat.add_le_add (Nat.mul_le_mul_right a (min_le_left c p)) (Nat.mul_le_mul_right b (min_le_right c p))
  · refine Nat.div_le_of_le_mul ?_
    rw [Nat.mul_comm (a + b), Nat.mul_add]
    exact Nat.add_le_add (Nat.mul_le_mul_right a (le_max_left c p)) (Nat.mul_le_mul_right b (le_max_right c p))

/-- The mean of R160 lies between the two inputs, its weights adding up to 255. -/
theorem mixedChannel_between (alpha : Byte) (c p : Nat) :
    min c p ≤ (c * alpha.toNat + p * (255 - alpha.toNat)) / 255 ∧
      (c * alpha.toNat + p * (255 - alpha.toNat)) / 255 ≤ max c p := by
  have hsum : alpha.toNat + (255 - alpha.toNat) = 255 := by omega
  have h := weightedMean_between (a := alpha.toNat) (b := 255 - alpha.toNat) (by omega) c p
  rwa [hsum] at h

/-- The quotient fits in a byte, so that the channel holds it exactly. -/
theorem blendChannel_toNat (alpha src cur : Byte) :
    (blendChannel alpha src cur).toNat = (cur.toNat * alpha.toNat + src.toNat * (255 - alpha.toNat)) / 255 := by
  have hle := (mixedChannel_between alpha cur.toNat src.toNat).2
  have hmax : max cur.toNat src.toNat < 256 := max_lt cur.isLt src.isLt
  exact Nat.mod_eq_of_lt (hle.trans_lt hmax)

theorem blendChannel_between (alpha src cur : Byte) :
    min cur.toNat src.toNat ≤ (blendChannel alpha src cur).toNat ∧
      (blendChannel alpha src cur).toNat ≤ max cur.toNat src.toNat := by
  rw [blendChannel_toNat]
  exact mixedChannel_between alpha cur.toNat src.toNat

@[simp] theorem blendChannel_transparent (src cur : Byte) : blendChannel 0 src cur = src := by
  apply BitVec.eq_of_toNat_eq
  simp [blendChannel_toNat]

@[simp] theorem blendChannel_opaque (src cur : Byte) : blendChannel 255 src cur = cur := by
  apply BitVec.eq_of_toNat_eq
  simp [blendChannel_toNat]

/-! ## One pixel (R160) -/

/-- The source's A stands over the three mixed channels. -/
theorem blendPixel_upper (src cur : Word) :
    (blendPixel src cur).extractLsb' 16 16 = alphaOf src ++ blendChannel (alphaOf cur) (redOf src) (redOf cur) :=
  (fields_append _ _ _).1

theorem alphaOf_blendPixel (src cur : Word) : (blendPixel src cur).extractLsb' 24 8 = src.extractLsb' 24 8 := by
  rw [← extractLsb'_field (blendPixel src cur) 16 16 (lo := 8) (by decide), blendPixel_upper,
    BitVec.extractLsb'_append_eq_of_le le_rfl]
  exact BitVec.extractLsb'_eq_self

theorem redOf_blendPixel (src cur : Word) :
    redOf (blendPixel src cur) = blendChannel (alphaOf cur) (redOf src) (redOf cur) := by
  rw [redOf, ← extractLsb'_field (blendPixel src cur) 16 16 (lo := 0) (by decide), blendPixel_upper,
    BitVec.extractLsb'_append_eq_of_add_le le_rfl, BitVec.extractLsb'_eq_self]

theorem greenOf_blendPixel (src cur : Word) :
    greenOf (blendPixel src cur) = blendChannel (alphaOf cur) (greenOf src) (greenOf cur) :=
  (fields_append _ _ _).2.1

theorem blueOf_blendPixel (src cur : Word) :
    blueOf (blendPixel src cur) = blendChannel (alphaOf cur) (blueOf src) (blueOf cur) :=
  (fields_append _ _ _).2.2

/-- The three colours by the place of their lowest bit. -/
theorem channel_blendPixel (src cur : Word) {lo : Nat} (hlo : lo = 16 ∨ lo = 8 ∨ lo = 0) :
    (blendPixel src cur).extractLsb' lo 8 =
      blendChannel (cur.extractLsb' 24 8) (src.extractLsb' lo 8) (cur.extractLsb' lo 8) := by
  obtain rfl | rfl | rfl := hlo
  · exact redOf_blendPixel src cur
  · exact greenOf_blendPixel src cur
  · exact blueOf_blendPixel src cur

theorem blendPixel_of_transparent (src : Word) {cur : Word} (h : alphaOf cur = 0) : blendPixel src cur = src := by
  simp only [blendPixel, h, blendChannel_transparent]
  exact append32 src

/-- A pixel is its A over its colour. -/
theorem alpha_append_colour (a : Byte) (v : Word) :
    a ++ redOf v ++ greenOf v ++ blueOf v = a ++ v.extractLsb' 0 24 := by
  have hlow : greenOf v ++ blueOf v = v.extractLsb' 0 16 := joinBits v 0 8 8
  have hcolour : redOf v ++ v.extractLsb' 0 16 = v.extractLsb' 0 24 := joinBits v 0 16 8
  rw [BitVec.append_assoc, BitVec.append_assoc, hlow, hcolour]
  rfl

theorem blendPixel_of_opaque (src : Word) {cur : Word} (h : alphaOf cur = 255) :
    blendPixel src cur = alphaOf src ++ cur.extractLsb' 0 24 := by
  simp only [blendPixel, h, blendChannel_opaque]
  exact alpha_append_colour _ cur

theorem exec_blendpix_attached {s : State} (h : s.flag .attached = true) (src cur : Word) :
    exec (.blendpix src cur) s = .next (s.replied .ok (.pixel (blendPixel src cur))) :=
  inSession_of_attached h

/-- Settles O12: each channel is the mean of R160, whose weights add up to 255. -/
theorem blendpixMixesChannels : Obligations.BlendpixMixesChannels := by
  intro s src cur ha
  refine ⟨Laws.LeadByte.blendpix src cur rfl, blendPixel src cur, exec_blendpix_attached ha src cur,
    alphaOf_blendPixel src cur, fun lo hlo => ?_, blendPixel_of_transparent src, blendPixel_of_opaque src⟩
  rw [channel_blendPixel src cur hlo]
  exact ⟨blendChannel_toNat _ _ _, blendChannel_between _ _ _⟩

/-! ## A segment of a line (R161 to R164) -/

section

/-- The visible sprite holds the pixel of this row and column (43_cursor_blend.md R161, R162); both are counted from the sprite's
upper left corner and may be negative. -/
def Cursor.Holds (c : Cursor) (row column : Int) : Prop :=
  c.visible.getLsbD 0 = true ∧ 0 ≤ row ∧ row < c.h.toNat ∧ 0 ≤ column ∧ column < c.w.toNat

variable {c : Cursor} {y x x0 j : Nat} {pix : List Word} {v : Word}

theorem Cursor.coversLine_iff : c.coversLine y = true ↔ 0 ≤ (y : Int) - c.y.toInt ∧ (y : Int) - c.y.toInt < c.h.toNat := by
  rw [Cursor.coversLine, Bool.and_eq_true, decide_eq_true_iff, decide_eq_true_iff]
  omega

theorem Cursor.coversColumn_iff :
    c.coversColumn x = true ↔ 0 ≤ (x : Int) - c.x.toInt ∧ (x : Int) - c.x.toInt < c.w.toNat := by
  rw [Cursor.coversColumn, Bool.and_eq_true, decide_eq_true_iff, decide_eq_true_iff]
  omega

/-- The model's tests of line and column are the sprite's rectangle. -/
theorem Cursor.holds_iff :
    c.Holds (y - c.y.toInt) (x - c.x.toInt) ↔ (c.shown && c.coversLine y) = true ∧ c.coversColumn x = true := by
  simp only [Bool.and_eq_true, coversLine_iff, coversColumn_iff, Cursor.Holds, Cursor.shown, and_assoc]

/-- CURPIX has a pixel at every place of the rectangle (10_state.md R42). -/
theorem Cursor.Holds.lt_length {row column : Int} (h : c.Holds row column) (hsize : c.pix.length = c.w.toNat * c.h.toNat) :
    row.toNat * c.w.toNat + column.toNat < c.pix.length := by
  obtain ⟨-, hrow, hrowlt, hcolumn, hcolumnlt⟩ := h
  calc row.toNat * c.w.toNat + column.toNat
      < (row.toNat + 1) * c.w.toNat := by rw [Nat.add_one_mul]; omega
    _ ≤ c.h.toNat * c.w.toNat := Nat.mul_le_mul_right _ (by omega)
    _ = c.pix.length := by rw [hsize, Nat.mul_comm]

@[simp] theorem Cursor.length_blendLine : (c.blendLine y x0 pix).length = pix.length := by
  unfold Cursor.blendLine
  split
  · exact List.length_mapIdx
  · rfl

theorem Cursor.getElem?_blendLine (hj : pix[j]? = some v) :
    (c.blendLine y x0 pix)[j]? = some (if (c.shown && c.coversLine y) = true then c.blendAt y (x0 + j) v else v) := by
  unfold Cursor.blendLine
  split
  · rw [List.getElem?_mapIdx, hj, Option.map_some]
  · exact hj

/-- Inside the rectangle a pixel is blended with the sprite's pixel of its row and column. -/
theorem Cursor.blendLine_inside (hsize : c.pix.length = c.w.toNat * c.h.toNat) (hj : pix[j]? = some v)
    (h : c.Holds (y - c.y.toInt) ((x0 + j : Nat) - c.x.toInt)) :
    ∃ cur, c.pix[((y : Int) - c.y.toInt).toNat * c.w.toNat + (((x0 + j : Nat) : Int) - c.x.toInt).toNat]? = some cur ∧
      (c.blendLine y x0 pix)[j]? = some (blendPixel v cur) := by
  obtain ⟨hline, hcolumn⟩ := Cursor.holds_iff.mp h
  have hcur := List.getElem?_eq_getElem (h.lt_length hsize)
  refine ⟨_, hcur, ?_⟩
  rw [getElem?_blendLine hj, if_pos hline, Cursor.blendAt, if_pos hcolumn, hcur]

/-- Outside the rectangle, and under a sprite that is not shown, a pixel is kept. -/
theorem Cursor.blendLine_outside (hj : pix[j]? = some v) (h : ¬ c.Holds (y - c.y.toInt) ((x0 + j : Nat) - c.x.toInt)) :
    (c.blendLine y x0 pix)[j]? = some v := by
  rw [getElem?_blendLine hj]
  split
  · next hline =>
    have hcolumn : ¬ c.coversColumn (x0 + j) = true := fun hcolumn => h (Cursor.holds_iff.mpr ⟨hline, hcolumn⟩)
    rw [Cursor.blendAt, if_neg hcolumn]
  · rfl

end

theorem exec_blendline_attached {s : State} (h : s.flag .attached = true) (y x0 : Word) (pix : List Word) :
    exec (.blendline y x0 pix) s = .next (s.replied .ok (.pixels (s.cursor.blendLine y.toNat x0.toNat pix))) :=
  inSession_of_attached h

/-- Settles O13: the model's line and column tests are the rectangle, and CURPIX fills it. -/
theorem blendlineComposites : Obligations.BlendlineComposites := by
  intro s y x0 pix ha hsize
  refine ⟨Laws.LeadByte.blendline y x0 pix rfl, _, exec_blendline_attached ha y x0 pix, Cursor.length_blendLine,
    fun j v hj => ?_⟩
  intro x row column
  split
  · next hin => exact Cursor.blendLine_inside hsize hj hin
  · next hout => exact Cursor.blendLine_outside hj hout

/-! ## SETCURSOR (R166) -/

section

variable {s : State} {x y w h bpp : Word} {visible : Bool} {pix : List Word}

theorem exec_setcursor_detached (ha : s.flag .attached = false) :
    exec (.setcursor x y w h bpp visible pix) s = .next (s.replied .inactive .none) :=
  inSession_of_detached ha

theorem exec_setcursor_refused (ha : s.flag .attached = true)
    (hbad : bpp ≠ 32 ∨ s.cfg.cursorMaxPixels < w.toNat * h.toNat ∨ pix.length ≠ w.toNat * h.toNat) :
    exec (.setcursor x y w h bpp visible pix) s = .next (s.replied .badArg .none) := by
  show execSetcursor x y w h bpp visible pix s = _
  rw [execSetcursor, inSession_of_attached ha]
  split
  · rw [raise_eq_next]
  · next hbpp => rw [if_pos (hbad.resolve_left hbpp), raise_eq_next]

theorem exec_setcursor_taken (ha : s.flag .attached = true) (hmax : w.toNat * h.toNat ≤ s.cfg.cursorMaxPixels)
    (hlen : pix.length = w.toNat * h.toNat) :
    exec (.setcursor x y w h 32 visible pix) s =
      .next ({ s with cursor := ⟨x, y, w, h, 32, wordOfBool visible, pix⟩ }.replied .ok .none) := by
  show execSetcursor x y w h 32 visible pix s = _
  have hgood : ¬ (s.cfg.cursorMaxPixels < w.toNat * h.toNat ∨ pix.length ≠ w.toNat * h.toNat) :=
    not_or.mpr ⟨Nat.not_lt.mpr hmax, not_not_intro hlen⟩
  rw [execSetcursor, inSession_of_attached ha, if_neg (not_not_intro rfl), if_neg hgood, succeed_eq_next]

end

/-- Settles O46: the checks of R166 come before the one change of the cursor. -/
theorem setcursorSetsSprite : Obligations.SetcursorSetsSprite := by
  intro s x y w h bpp visible pix
  refine ⟨Laws.LeadByte.setcursor x y w h bpp visible pix rfl, exec_setcursor_detached, exec_setcursor_refused, ?_⟩
  rintro ha rfl hmax hlen
  exact exec_setcursor_taken ha hmax hlen

end Sys2Proof.Machine
end

section
/-!
PROOFS. LFSR16 (44_register_commands.md R174, R175, R188).
-/

namespace Sys2Proof.Machine

/-! ## One step -/

/-- The feedback enters at bit 0 (44_register_commands.md R175). -/
theorem getLsbD_lfsrStep_zero (taps s : Half) : (lfsrStep taps s).getLsbD 0 = lfsrFeedback taps s := by
  refine (BitVec.getLsbD_append (n := 15) (m := 1)).trans ?_
  rw [if_pos Nat.one_pos, BitVec.getLsbD_ofBool]
  rfl

/-- Every other bit is the one below it. -/
theorem getLsbD_lfsrStep_succ (taps s : Half) {i : Nat} (hi : i < 15) :
    (lfsrStep taps s).getLsbD (i + 1) = s.getLsbD i := by
  refine (BitVec.getLsbD_append (n := 15) (m := 1)).trans ?_
  rw [if_neg (by omega), Nat.add_sub_cancel, BitVec.getLsbD_extractLsb', decide_eq_true hi, Bool.true_and, Nat.zero_add]

/-- The fold by exclusive-or is the parity of a count. -/
theorem toNat_foldl_xor (p : Nat → Bool) (l : List Nat) (a : Bool) :
    (l.foldl (fun acc j => acc ^^ p j) a).toNat = (a.toNat + l.countP p) % 2 := by
  induction l generalizing a with
  | nil => cases a <;> rfl
  | cons j l ih =>
    rw [List.foldl_cons, ih, List.countP_cons]
    cases a <;> cases p j <;> simp <;> omega

theorem toNat_lfsrFeedback (taps s : Half) :
    (lfsrFeedback taps s).toNat = (List.range 16).countP (fun b => taps.getLsbD b && s.getLsbD b) % 2 := by
  rw [lfsrFeedback, toNat_foldl_xor, Bool.toNat_false, Nat.zero_add]

/-- The step as the state shifted left with the feedback at bit 0. -/
theorem lfsrStep_eq_shiftLeft_or (taps s : Half) :
    lfsrStep taps s = s <<< 1 ||| BitVec.ofNat 16 (lfsrFeedback taps s).toNat := by
  refine BitVec.eq_of_getLsbD_eq fun i hi => ?_
  cases i with
  | zero =>
    rw [getLsbD_lfsrStep_zero]
    cases lfsrFeedback taps s <;> simp
  | succ i =>
    rw [getLsbD_lfsrStep_succ taps s (by omega)]
    cases lfsrFeedback taps s <;> simp [hi, BitVec.getLsbD_eq_getElem (show i < 16 by omega)]

/-- Where every bit below bit 15 is clear, the feedback is bit 15 at its tap. -/
theorem lfsrFeedback_of_low_clear {s : Half} (taps : Half) (h : ∀ j < 15, s.getLsbD j = false) :
    lfsrFeedback taps s = (taps.getLsbD 15 && s.getLsbD 15) := by
  have hlow : (List.range 15).countP (fun b => taps.getLsbD b && s.getLsbD b) = 0 :=
    List.countP_eq_zero.mpr fun j hj => by rw [h j (List.mem_range.mp hj), Bool.and_false]; exact Bool.false_ne_true
  rw [Bool.eq_iff_iff, ← Bool.toNat_eq_one, toNat_lfsrFeedback, List.range_succ, List.countP_append, hlow, List.countP_singleton]
  cases taps.getLsbD 15 && s.getLsbD 15 <;> decide

/-- With bit 15 among the taps only the all-zero state steps to the all-zero state (44_register_commands.md R188). -/
theorem lfsrStep_ne_zero {taps s : Half} (htap : taps.getLsbD 15 = true) (hs : s ≠ 0) : lfsrStep taps s ≠ 0 := by
  intro hzero
  have hbit (i : Nat) : (lfsrStep taps s).getLsbD i = false := by rw [hzero]; exact BitVec.getLsbD_zero
  have hlow : ∀ j < 15, s.getLsbD j = false := fun j hj => by
    rw [← getLsbD_lfsrStep_succ taps s hj]
    exact hbit (j + 1)
  have htop : s.getLsbD 15 = false := by
    rw [← Bool.true_and (s.getLsbD 15), ← htap, ← lfsrFeedback_of_low_clear taps hlow, ← getLsbD_lfsrStep_zero]
    exact hbit 0
  refine hs (BitVec.eq_of_getLsbD_eq fun j hj => Eq.trans ?_ BitVec.getLsbD_zero.symm)
  obtain hj | rfl := Nat.lt_succ_iff_lt_or_eq.mp hj
  · exact hlow j hj
  · exact htop

/-! ## The count of steps -/

theorem lfsrIter_ne_zero {taps s : Half} (htap : taps.getLsbD 15 = true) (hs : s ≠ 0) (n : Nat) :
    lfsrIter taps n s ≠ 0 := by
  induction n generalizing s with
  | zero => exact hs
  | succ n ih => exact ih (lfsrStep_ne_zero htap hs)

/-- A sequence of states in which each is the step of the one before it is what the steps reach. -/
theorem lfsrIter_eq_of_step {taps : Half} {seq : Nat → Half} (h : ∀ j, seq (j + 1) = lfsrStep taps (seq j)) (n j : Nat) :
    lfsrIter taps n (seq j) = seq (j + n) := by
  induction n generalizing j with
  | zero => rfl
  | succ n ih => rw [lfsrIter, ← h, ih, Nat.add_right_comm, Nat.add_assoc]

/-! ## The request -/

theorem exec_lfsr16_attached {s : State} (h : s.flag .attached = true) (n : Half) :
    exec (.lfsr16 n) s = .next (s.replied .ok (.lfsr (lfsr16 s.cfg.lfsrTaps n))) :=
  inSession_of_attached h

/-- Settles O14: each state of the sequence is the step of the one before it. -/
theorem lfsrIteratesStep : Obligations.LfsrIteratesStep := by
  intro s n seq ha hstart hnext
  have hstep (j : Nat) : seq (j + 1) = lfsrStep s.cfg.lfsrTaps (seq j) := by
    rw [lfsrStep_eq_shiftLeft_or, toNat_lfsrFeedback]
    exact hnext j
  have hreach : lfsr16 s.cfg.lfsrTaps n = seq n.toNat := by
    rw [lfsr16, ← hstart, lfsrIter_eq_of_step hstep, Nat.zero_add]
  exact ⟨Laws.LeadByte.lfsr16 n rfl, by rw [exec_lfsr16_attached ha, hreach]⟩

/-- Settles O15: no step leaves the non-zero states, and all ones is one of them. -/
theorem lfsrNeverZero : Obligations.LfsrNeverZero := by
  intro s n ha
  refine ⟨_, exec_lfsr16_attached ha n, fun htap => lfsrIter_ne_zero htap (by decide) _, ?_⟩
  rintro rfl
  rfl

end Sys2Proof.Machine
end

section
/-!
PROOFS. The register-write requests (44_register_commands.md R171 to R185) and the layout of the mode-set stream (R186, R187): what
they share is said once, for any bytes, and each request then names its own bytes.
-/

namespace Sys2Proof.Machine

/-! ## The common body -/

section

variable {s : State} {bytes : List Byte}

theorem emitCommand_of_unheld (hh : s.pool.held = none) (bytes : List Byte) :
    emitCommand bytes s = .next (s.replied .noSlot .none) := by
  rw [emitCommand, if_pos hh, raise, finish_eq]

/-- Some byte has to be written: the room is 0 also where WPTR stands past the end of the slot. -/
theorem emitCommand_of_full (hh : s.pool.held ≠ none) (hne : bytes ≠ [])
    (hfull : s.cfg.slotBytes < s.pool.wptr.toNat + bytes.length) :
    emitCommand bytes s = .next (s.replied .full .none) := by
  have hpos := List.length_pos_iff.mpr hne
  have hroom : s.room < bytes.length := by
    unfold State.room
    omega
  rw [emitCommand, if_neg hh, if_pos hroom, raise, finish_eq]

theorem emitCommand_of_fits (hh : s.pool.held ≠ none) (hfit : s.pool.wptr.toNat + bytes.length ≤ s.cfg.slotBytes) :
    emitCommand bytes s = .next ((s.emit bytes).replied .ok .none) := by
  have hroom : ¬ s.room < bytes.length := by
    unfold State.room
    omega
  rw [emitCommand, if_neg hh, if_neg hroom, succeed, finish_eq]

end

/-- A request whose meaning is the common body writes its bytes as 44_register_commands.md R171 and R172 say. -/
theorem writesRegisters_of_exec {i : Instr} {bytes : State → List Byte}
    (hexec : ∀ s, exec i s = inSession s (emitCommand (bytes s) s)) (hne : ∀ s, bytes s ≠ []) : WritesRegisters i bytes := by
  intro s ha
  rw [hexec, inSession_of_attached ha]
  refine ⟨fun hh => emitCommand_of_unheld hh _, fun hh => emitCommand_of_full hh (hne s), fun k slot hk hslot hfit => ?_⟩
  obtain ⟨hstate, hpool⟩ := State.emit_emitted hk (List.getElem?_eq_some_iff.mp hslot).1 hfit
  refine ⟨_, _, emitCommand_of_fits (by rw [hk]; exact Option.some_ne_none k) hfit, ?_, hpool⟩
  rw [hstate]
  rfl

theorem writesRegisters_of_cons {i : Instr} {b : Byte} {bytes : State → List Byte}
    (hexec : ∀ s, exec i s = inSession s (emitCommand (b :: bytes s) s)) : WritesRegisters i fun s => b :: bytes s :=
  writesRegisters_of_exec hexec fun _ => List.cons_ne_nil _ _

/-! ## One command and pairs -/

/-- Settles O21: the three requests are the common body on one command. -/
theorem regwWritesOneCommand : Obligations.RegwWritesOneCommand :=
  ⟨fun reg val => ⟨Laws.LeadByte.regw reg val rfl, writesRegisters_of_cons fun _ => rfl⟩,
    ⟨Laws.LeadByte.vlock rfl, writesRegisters_of_cons fun _ => rfl⟩,
    ⟨Laws.LeadByte.vunlock rfl, writesRegisters_of_cons fun _ => rfl⟩⟩

/-- Settles O22: the three requests are the common body on two commands. -/
theorem registerPairWrites : Obligations.RegisterPairWrites :=
  ⟨fun reg v => ⟨Laws.LeadByte.regw16 reg v rfl, writesRegisters_of_cons fun _ => rfl⟩,
    fun reg v => ⟨Laws.LeadByte.regw16be reg v rfl, writesRegisters_of_cons fun _ => rfl⟩,
    fun reg n => ⟨Laws.LeadByte.regwl reg n rfl, writesRegisters_of_cons fun _ => rfl⟩⟩

/-! ## Depth, bases and blanking -/

/-- The rows of the blanking table (44_register_commands.md R185). -/
theorem blankValue_of_mem {level b : Byte}
    (h : (level, b) ∈ [((0 : Byte), (0x00 : Byte)), (1, 0x01), (2, 0x03), (3, 0x05), (4, 0x07)]) :
    blankValue level = some b := by
  have hrows : ∀ q ∈ [((0 : Byte), (0x00 : Byte)), (1, 0x01), (2, 0x03), (3, 0x05), (4, 0x07)],
      blankValue q.1 = some q.2 := by
    simp only [List.forall_mem_cons]
    exact ⟨rfl, rfl, rfl, rfl, rfl, nofun⟩
  exact hrows _ h

theorem blankValue_of_lt {level : Byte} (h : 4 < level.toNat) : blankValue level = none := by
  obtain ⟨n, hn⟩ := Nat.exists_eq_add_of_le' h
  rw [blankValue, hn]
  rfl

theorem exec_setblank_of_value {level b : Byte} (h : blankValue level = some b) (s : State) :
    exec (.setblank level) s = inSession s (emitCommand (blankBytes b) s) := by
  show execSetblank level s = _
  rw [execSetblank, h]

theorem exec_setblank_of_lt {level : Byte} {s : State} (ha : s.flag .attached = true) (h : 4 < level.toNat) :
    exec (.setblank level) s = .next (s.replied .badArg .none) := by
  show execSetblank level s = _
  rw [execSetblank, inSession_of_attached ha, blankValue_of_lt h]
  rfl

/-- Settles O23: each request is the common body on the commands of the register map; SETBLANK looks its level up first. -/
theorem deviceSetupWrites : Obligations.DeviceSetupWrites := by
  refine ⟨fun split => ?_, fun a => ?_, fun a => ?_, fun level b hmem => ?_, fun level s => exec_setblank_of_lt⟩
  · exact writesRegisters_of_cons fun _ => rfl
  · exact writesRegisters_of_cons fun _ => rfl
  · exact writesRegisters_of_cons fun _ => rfl
  · exact writesRegisters_of_cons (exec_setblank_of_value (blankValue_of_mem hmem))

/-! ## The timing block -/

section

variable {xres yres pixclock left right upper lower hsync vsync : Word}

theorem exec_settiming_of_zero {s : State} (ha : s.flag .attached = true) :
    exec (.settiming xres yres 0 left right upper lower hsync vsync) s = .next (s.replied .badArg .none) := by
  show execSettiming xres yres 0 left right upper lower hsync vsync s = _
  rw [execSettiming, inSession_of_attached ha, if_pos rfl, raise, finish_eq]

theorem exec_settiming_of_ne (h : pixclock ≠ 0) (s : State) :
    exec (.settiming xres yres pixclock left right upper lower hsync vsync) s =
      inSession s (emitCommand (settimingBytes s.cfg ⟨xres, yres, pixclock, left, right, upper, lower, hsync, vsync, 0⟩) s) := by
  show execSettiming xres yres pixclock left right upper lower hsync vsync s = _
  rw [execSettiming, if_neg h]

end

/-- Settles O24: the 13 rows of the timing block, each as its kind says, in order. -/
theorem settimingWritesBlock : Obligations.SettimingWritesBlock := by
  intro xres yres pixclock left right upper lower hsync vsync
  refine ⟨?_, fun hperiod => writesRegisters_of_exec (fun s => ?_) fun _ => List.cons_ne_nil _ _⟩
  · rintro rfl s ha
    exact exec_settiming_of_zero ha
  · rw [exec_settiming_of_ne hperiod]
    simp only [settimingBytes, timingRows, List.flatMap_cons, List.flatMap_nil, TimingRow.bytes, regwlBytes, regw16Bytes,
      regw16beBytes, regwBytes, List.cons_append, List.nil_append, List.append_nil, BitVec.ofInt_natCast, Nat.cast_add,
      show (0x1B : Byte) + 1 = 0x1C from rfl]

/-! ## The mode-set stream -/

/-- What MODESET emits before the timing block (44_register_commands.md R186). -/
def modesetHead (m : ModeRegs) (split : Bool) : List Byte :=
  vlockBytes ++ setdepthBytes split ++ setbase16Bytes 0 ++ setbase8Bytes (modeBase8 m)

theorem length_modesetHead (m : ModeRegs) (split : Bool) : (modesetHead m split).length = 32 := rfl

/-- The stream is the head, the timing block, and the two commands that end it. -/
theorem modesetStream_eq_parts (p : Params) (m : ModeRegs) (split : Bool) :
    modesetStream p m split = modesetHead m split ++ (settimingBytes p m ++ (blankBytes 0x00 ++ vunlockBytes)) := by
  simp only [modesetStream, modesetHead, List.append_assoc]

/-- Settles O25: the parts of the stream have fixed lengths. -/
theorem modesetStreamLayout : Obligations.ModesetStreamLayout := by
  intro p m split base8 stream
  have hparts : stream = _ := modesetStream_eq_parts p m split
  refine ⟨length_modesetStream p m split, ?_, ?_, ?_⟩
  · rw [hparts, List.take_left' (length_modesetHead m split)]
    rfl
  · rw [hparts, List.drop_left' (length_modesetHead m split), List.take_left' (length_settimingBytes p m)]
  · rw [hparts, ← List.append_assoc, List.drop_left' (by rw [List.length_append, length_modesetHead, length_settimingBytes])]
    rfl

end Sys2Proof.Machine
end

section
/-!
PROOFS. The slot-pool requests one by one (45_slot_pool.md R200 to R206): what each branch answers, with the next state written out.
-/

namespace Sys2Proof.Machine

/-! ## What the pool operations leave -/

/-- A change of one slot that exists, as an entry put into the list of slots. -/
theorem Pool.modifySlot_eq_set {p : Pool} {k : Nat} {slot : Slot} (hslot : p.slots[k]? = some slot) (f : Slot → Slot) :
    p.modifySlot k f = { p with slots := p.slots.set k (f slot) } := by
  obtain ⟨hlt, rfl⟩ := List.getElem?_eq_some_iff.mp hslot
  simp [Pool.modifySlot, List.modify_eq_set_getElem?, hlt]

/-- A slot that goes back, with no slot held afterwards (45_slot_pool.md R205, R206). -/
theorem Pool.giveBack_unheld {p : Pool} {k : Nat} {slot : Slot} (hslot : p.slots[k]? = some slot) (slotBytes : Nat) :
    { p.giveBack slotBytes k with held := none, wptr := 0 } =
      (⟨p.slots.set k { slot with len := BitVec.ofNat 32 slotBytes, state := .free }, p.freeq ++ [k], p.avail + 1, none, 0⟩ :
        Pool) := by
  rw [Pool.giveBack, Pool.modifySlot_eq_set hslot]

/-- TAKE of a slot that exists (45_slot_pool.md R200). -/
theorem State.takeSlot_slots {s : State} {k : Nat} {rest : List Nat} {slot : Slot} (hq : s.pool.freeq = k :: rest)
    (hslot : s.pool.slots[k]? = some slot) :
    s.takeSlot = { s with pool := ⟨s.pool.slots.set k { slot with state := .held }, rest, s.pool.avail - 1, some k, 0⟩ } := by
  rw [State.takeSlot_eq hq, Pool.modifySlot_eq_set hslot]

/-! ## ACQUIRE -/

section acquire

variable {s : State}

theorem exec_acquire_attached (ha : s.flag .attached = true) :
    exec .acquire s = if s.pool.held ≠ none then raise s .slotHeld
      else if s.pool.avail = 0 then .next (s.waitAt .acquire) else acquireTake s :=
  inSession_of_attached ha

/-- An ACQUIRE that waits goes on as soon as a slot is free (45_slot_pool.md R200). -/
theorem moveStep_producer_acquire (hp : s.pending = some .acquire) :
    moveStep .producer s = if s.pool.avail = 0 then .next s else acquireTake s := by
  simp only [moveStep, producerStep, hp, resume]

/-- The timeout of an ACQUIRE is chosen only while no slot is free (45_slot_pool.md R201). -/
theorem moveStep_timeout_acquire (hp : s.pending = some .acquire) :
    moveStep .timeout s = if s.pool.avail = 0 then acquireTimeout s else .next s := by
  simp only [moveStep, timeoutStep, hp]

end acquire

/-- Settles O26: at the request and at its wait the branch is chosen by HELD and AVAIL. -/
theorem acquireTakesOrWaits : Obligations.AcquireTakesOrWaits := by
  unfold Obligations.AcquireTakesOrWaits
  intro taken
  have htake (s : State) (k : Nat) (rest : List Nat) (slot : Slot) (hq : s.pool.freeq = k :: rest)
      (hslot : s.pool.slots[k]? = some slot) : acquireTake s = .next (taken s k rest slot) := by
    rw [acquireTake, State.takeSlot_slots hq hslot, succeed, finish_eq]
  refine ⟨Laws.LeadByte.acquire rfl, fun s ha => ?request, fun s hp => ?wait⟩
  case request =>
    rw [exec_acquire_attached ha]
    refine ⟨fun hh => ?_, fun hh h0 => ?_, fun k rest slot hh h0 hq hslot => ?_⟩
    · rw [if_pos hh, raise, finish_eq]
    · rw [if_neg (not_not.mpr hh), if_pos h0, State.waitAt]
    · rw [if_neg (not_not.mpr hh), if_neg h0, htake s k rest slot hq hslot]
  case wait =>
    rw [moveStep_producer_acquire hp, moveStep_timeout_acquire hp]
    refine ⟨fun h0 => ⟨if_pos h0, ?_⟩, fun h0 => ⟨if_neg h0, fun k rest slot hq hslot => ?_⟩⟩
    · rw [if_pos h0, acquireTimeout, raise, finish_eq]
      rfl
    · rw [if_neg h0, htake s k rest slot hq hslot]

/-! ## SUBMIT -/

section submit

variable {s : State} {k : Nat}

theorem exec_submit_unheld (ha : s.flag .attached = true) (hh : s.pool.held = none) :
    exec .submit s = .next (s.replied .noSlot .none) := by
  show execSubmit s = _
  rw [execSubmit, inSession_of_attached ha, hh]
  rfl

theorem exec_submit_held (ha : s.flag .attached = true) (hk : s.pool.held = some k) :
    exec .submit s = if s.pool.wptr = 0 then raise s .badArg
      else finish (s.submitSlot k) (submitStatus s.nextChoice) .none := by
  show execSubmit s = _
  rw [execSubmit, inSession_of_attached ha, hk]

end submit

/-- Settles O27: TRANSPORT's draw decides between the slot in flight and the slot given back. -/
theorem submitHandsOverSlot : Obligations.SubmitHandsOverSlot := by
  refine ⟨Laws.LeadByte.submit rfl, fun s ha => ⟨exec_submit_unheld ha, fun hh h0 => ?empty, fun k slot hk hslot h0 => ?filled⟩⟩
  case empty =>
    obtain ⟨k, hk⟩ := Option.ne_none_iff_exists'.mp hh
    rw [exec_submit_held ha hk, if_pos h0, raise, finish_eq]
  case filled =>
    rw [exec_submit_held ha hk, if_neg h0]
    refine ⟨fun hc => ?accepted, fun hc => ?rejected⟩
    case accepted =>
      rw [State.submitSlot_accepted k hc, Pool.modifySlot_eq_set hslot, Pool.slotBytes_eq hslot, hc, finish_eq]
      rfl
    case rejected =>
      rw [State.submitSlot_rejected (List.getElem?_eq_some_iff.mp hslot).1 hc, Pool.giveBack_unheld hslot, hc, finish_eq]
      rfl

/-! ## RELEASE -/

/-- Settles O28: RELEASE's body is the slot given back with none held. -/
theorem releaseReturnsSlot : Obligations.ReleaseReturnsSlot := by
  refine ⟨Laws.LeadByte.release rfl, fun s ha => ?_⟩
  show (_ → execRelease s = _) ∧ ∀ k slot, _ → _ → execRelease s = _
  rw [execRelease, inSession_of_attached ha]
  refine ⟨fun hh => ?_, fun k slot hk hslot => ?_⟩
  · rw [hh]
    rfl
  · rw [hk]
    dsimp only
    rw [State.releaseSlot_eq, Pool.giveBack_unheld hslot, succeed, finish_eq]

/-! ## COMPLETE -/

theorem exec_complete_attached {s : State} (ha : s.flag .attached = true) (k : Nat) :
    exec (.complete k) s = .next (s.completeSlot k) := if_pos ha

theorem exec_complete_detached {s : State} (ha : s.flag .attached = false) (k : Nat) : exec (.complete k) s = .next s :=
  if_neg (by simp [ha])

/-- A slot that is not in flight, or does not exist, records F_BAD_COMPLETE (45_slot_pool.md R205, log entry 14). -/
theorem State.completeSlot_of_not_inFlight {s : State} {k : Nat} (h : ¬ s.inFlight k) :
    s.completeSlot k = { s with marks := { s.marks with badComplete := true } } := by
  rcases s.completeSlot_cases k with ⟨slot, hslot, hstate, -⟩ | ⟨-, e⟩
  · exact absurd ⟨slot, hslot, hstate⟩ h
  · exact e

/-- Settles O29: CompleteSlot gives a slot in flight back and marks any other. -/
theorem completeReturnsSlot : Obligations.CompleteReturnsSlot := by
  intro s k slot ha hslot
  rw [exec_complete_attached ha]
  refine ⟨Laws.LeadByte.complete k rfl, fun hfly => ?_, fun hstay => ?_⟩
  · rw [State.completeSlot_eq hslot hfly, Pool.giveBack, Pool.modifySlot_eq_set hslot]
  · rw [State.completeSlot_of_not_inFlight]
    rintro ⟨other, hother, hfly⟩
    obtain rfl := Option.some.inj (hslot.symm.trans hother)
    exact hstay hfly

/-- Settles O30: no slot has such a number, and without a session COMPLETE is no step. -/
theorem completeWithoutSlot : Obligations.CompleteWithoutSlot := by
  refine fun s k => ⟨fun ha hk => ?_, fun ha => exec_complete_detached ha k⟩
  rw [exec_complete_attached ha, State.completeSlot_of_not_inFlight]
  rintro ⟨slot, hslot, -⟩
  exact absurd (List.getElem?_eq_some_iff.mp hslot).1 (Nat.not_lt.mpr hk)

end Sys2Proof.Machine
end

section
/-!
PROOFS. No step of HOST, PRODUCER or TRANSPORT stops the machine (60_exceptions.md R251): with a legal configuration a fresh slot
always takes a value, so EncodeChannel ends, and every other part of a step answers a next state by its shape.
-/

namespace Sys2Proof.Machine

/-! ## Outcomes that go on -/

/-- The step has a next state. -/
def Answers (o : Out) : Prop := ∃ t, o = .next t

theorem answers_next (s : State) : Answers (.next s) := ⟨s, rfl⟩

theorem answers_finish (s : State) (st : StatusCode) (r : Result) : Answers (finish s st r) := ⟨_, finish_eq s st r⟩

theorem answers_raise (s : State) (st : StatusCode) : Answers (raise s st) := answers_finish s st .none

theorem answers_succeed (s : State) : Answers (succeed s) := answers_finish s .ok .none

theorem answers_ite {c : Prop} [Decidable c] {a b : Out} (ha : c → Answers a) (hb : ¬ c → Answers b) :
    Answers (if c then a else b) := by
  split
  · next h => exact ha h
  · next h => exact hb h

/-- A check in front of a request (60_exceptions.md R253): it ends with its status, or the request goes on. -/
theorem answers_guard {c : Prop} [Decidable c] {s : State} {st : StatusCode} {body : Out} (h : Answers body) :
    Answers (if c then raise s st else body) :=
  answers_ite (fun _ => answers_raise s st) fun _ => h

theorem answers_inSession {s : State} {body : Out} (h : Answers body) : Answers (inSession s body) :=
  answers_ite (fun _ => h) fun _ => answers_raise s .inactive

theorem answers_checked {o : Out} (h : Answers o) : Answers (checked o) := by
  obtain ⟨t, rfl⟩ := h
  exact ⟨_, rfl⟩

/-! ## EncodeChannel ends -/

section channel

variable {α : Type} [DecidableEq α] {p : Params} {ch : Channel α} {vals : List α}

/-- EncodeRun returns a run cursor between the one it was given and the end of the values (42_run_encoder.md R144). -/
theorem encodeRun_cursor (hp : p.Valid) (hb : ch.bpp = 1 ∨ ch.bpp = 2) (wptr i : Nat) (addr : DevAddr) :
    (i ≤ vals.length → i ≤ (encodeRun p ch wptr vals i addr).i) ∧ (encodeRun p ch wptr vals i addr).i ≤ vals.length ∧
      (vals.length ≤ i → (encodeRun p ch wptr vals i addr).i = vals.length) := by
  have henc := encodeCmds_spec hp hb (vals.drop i).length wptr addr (vals.drop i) le_rfl
  have hlen := congrArg List.length henc.values
  simp only [List.length_append, List.length_drop] at hlen
  simp only [encodeRun, List.length_drop] at hlen ⊢
  omega

/-- From a fresh slot each round takes a value, so as many rounds as values are left, and one to see the end, are enough. -/
theorem encodeChannel_fresh_ne_stuck (hb : ch.bpp = 1 ∨ ch.bpp = 2) {fuel i : Nat} {addr : DevAddr} {s : State}
    (hp : s.cfg.Valid) (hw : s.pool.wptr = 0) (hfuel : vals.length < fuel + i) (hi : i ≤ vals.length) :
    encodeChannel ch vals fuel i addr s ≠ .stuck := by
  induction fuel generalizing i addr s with
  | zero => omega
  | succ fuel ih =>
    obtain ⟨-, hle, hend⟩ := encodeRun_cursor (vals := vals) hp hb s.pool.wptr.toNat i addr
    have hmore : i < vals.length → i < (encodeRun s.cfg ch s.pool.wptr.toNat vals i addr).i := fun h => by
      rw [hw]
      exact encodeRun_progress hp ch hb vals h addr
    unfold encodeChannel
    dsimp only
    split
    case isFalse => exact nofun
    split
    case isTrue => exact nofun
    split
    case isTrue => exact nofun
    case isFalse hne => exact ih (by simpa using hp) (by simp) (by omega) hle

/-- EncodeChannel ends from any slot (46_frame_loop.md R224): after its first round every slot is a fresh one. -/
theorem encodeChannel_ne_stuck (hb : ch.bpp = 1 ∨ ch.bpp = 2) {i : Nat} {addr : DevAddr} {s : State} (hp : s.cfg.Valid) :
    encodeChannel ch vals (vals.length - i + 2) i addr s ≠ .stuck := by
  obtain ⟨hge, hle, hend⟩ := encodeRun_cursor (vals := vals) hp hb s.pool.wptr.toNat i addr
  unfold encodeChannel
  dsimp only
  split
  case isFalse => exact nofun
  split
  case isTrue => exact nofun
  split
  case isTrue => exact nofun
  case isFalse hne => exact encodeChannel_fresh_ne_stuck hb (by simpa using hp) (by simp) (by omega) hle

end channel

/-! ## A frame operation goes on -/

/-- No part of a frame operation changes the configuration. -/
theorem cfg_rule (c : Params) (f0 : FrameCtx) :
    FrameRule c f0 (fun s => s.cfg = c) (fun s => s.cfg = c) (fun s => s.cfg = c) :=
  .uniform c f0 (fun _ h => h) (fun _ _ h => by simpa using h) (fun _ h => by simpa using h) (fun _ h => by simpa using h)
    (fun _ _ h => by simpa using h) (fun _ _ h => by simpa using h) (fun _ h => h) (fun _ _ _ h => h)
    (fun _ _ h ht => (frameStable_endOfFrame f0 ht).1.cfg.trans h)

theorem encodeChannel_cfg {α : Type} [DecidableEq α] (ch : Channel α) (vals : List α) (fuel i : Nat) (addr : DevAddr)
    (s : State) : (encodeChannel ch vals fuel i addr s).Leaves (fun t => t.cfg = s.cfg) (fun t => t.cfg = s.cfg) :=
  encodeChannel_leaves (c := s.cfg) (fun _ h => h) (fun _ _ _ h => by simpa using h) (fun _ _ _ h _ => by simpa using h)
    (fun _ h _ => by simpa using h) fuel i addr s rfl

theorem runChannel8_ne_stuck (p0 i : Nat) (addr : DevAddr) {s : State} (hp : s.cfg.Valid) :
    runChannel8 p0 i addr s ≠ .stuck := by
  have hend := encodeChannel_ne_stuck (ch := channel8 s.cfg) (vals := s.line.scr8) (.inl rfl) (i := i) (addr := addr) hp
  unfold runChannel8
  split
  · exact nofun
  · exact nofun
  · next h => exact absurd h hend

theorem afterChannel16_ne_stuck (p0 y : Nat) {s : State} (hp : s.cfg.Valid) : afterChannel16 p0 y s ≠ .stuck := by
  unfold afterChannel16
  split
  · exact runChannel8_ne_stuck p0 0 _ hp
  · exact nofun

theorem runChannel16_ne_stuck (p0 y i : Nat) (addr : DevAddr) {s : State} (hp : s.cfg.Valid) :
    runChannel16 p0 y i addr s ≠ .stuck := by
  have hend := encodeChannel_ne_stuck (ch := channel16 s.cfg) (vals := s.line.scr16) (.inr rfl) (i := i) (addr := addr) hp
  have hcfg := encodeChannel_cfg (channel16 s.cfg) s.line.scr16 (s.line.scr16.length - i + 2) i addr s
  unfold runChannel16
  split
  · next t h =>
    rw [h] at hcfg
    exact afterChannel16_ne_stuck p0 y (hcfg.symm ▸ hp)
  · exact nofun
  · next h => exact absurd h hend

theorem processLine_ne_stuck (f : FrameCtx) {s : State} (hp : s.cfg.Valid) : processLine f s ≠ .stuck := by
  unfold processLine
  split
  · exact nofun
  · exact runChannel16_ne_stuck _ _ _ _ (by simpa using hp)

theorem answers_endOfFrame (s : State) : Answers (endOfFrame s) := answers_succeed _

/-- The loop over lines goes on line by line, ends or waits. -/
theorem answers_runLines (n : Nat) {f : FrameCtx} (hn : n ≤ f.yEnd - f.y) {s : State} (hp : s.cfg.Valid) :
    Answers (runLines n f s) := by
  induction n generalizing f s with
  | zero => exact answers_endOfFrame s
  | succ n ih =>
    unfold runLines
    refine answers_ite (fun _ => answers_next _) fun _ => ?_
    dsimp only
    generalize hready : (if s.pool.held = none then s.takeSlot else s) = ready
    generalize hg : (if s.pool.held = none then { f with t := 0 } else f) = g
    have hcfg : ready.cfg = s.cfg := by rw [← hready]; split <;> simp
    have hy : g.y = f.y ∧ g.yEnd = f.yEnd := by rw [← hg]; split <;> exact ⟨rfl, rfl⟩
    have hend := processLine_ne_stuck g (hcfg.symm ▸ hp : ready.cfg.Valid)
    have hline := (cfg_rule s.cfg g).processLine (f := g) ⟨rfl, rfl, rfl, rfl⟩ (by omega) hcfg
    split
    · next t h =>
      rw [h] at hline
      exact ih (by dsimp only; omega) (hline.symm ▸ hp)
    · exact answers_next _
    · next h => exact absurd h hend

theorem answers_nextLines (f : FrameCtx) {s : State} (hp : s.cfg.Valid) : Answers (nextLines f s) :=
  answers_runLines _ (f := { f with y := f.y + 1, phase := .line }) le_rfl hp

theorem answers_frameLoop (source : FrameSource) (x0 x1 y0 y1 : Nat) {s : State} (hp : s.cfg.Valid) :
    Answers (frameLoop source x0 x1 y0 y1 s) :=
  answers_runLines _ (f := ⟨source, x0, x1, y0, y1, 0, .line⟩) le_rfl hp

theorem answers_afterLine (f : FrameCtx) {e : LineEnd} {c : Params} (hp : c.Valid) (hend : e ≠ .stuck)
    (hcfg : e.Leaves (fun t => t.cfg = c) (fun t => t.cfg = c)) : Answers (afterLine f e) := by
  cases e with
  | done t => exact answers_nextLines f (hcfg.symm ▸ hp)
  | wait t phase => exact answers_next _
  | stuck => exact absurd rfl hend

theorem answers_resumeFrame (f : FrameCtx) {s : State} (hp : s.cfg.Valid) : Answers (resumeFrame f s) := by
  have hready : s.takeSlot.cfg = s.cfg := by simp
  have hvalid : s.takeSlot.cfg.Valid := hready.symm ▸ hp
  have rule := cfg_rule s.cfg f
  unfold resumeFrame
  dsimp only
  split
  · exact answers_runLines _ le_rfl hp
  · refine answers_ite (fun _ => ?_) fun _ => ?_
    · exact answers_afterLine _ hp (afterChannel16_ne_stuck _ _ hvalid) (rule.afterChannel16 hready)
    · exact answers_afterLine _ hp (runChannel16_ne_stuck _ _ _ _ hvalid) (rule.runChannel16 hready)
  · refine answers_ite (fun _ => ?_) fun _ => ?_
    · exact answers_afterLine _ hp (e := .done _) nofun hready
    · exact answers_afterLine _ hp (runChannel8_ne_stuck _ _ _ hvalid) (rule.runChannel8 hready)

theorem answers_timeoutFrame (f : FrameCtx) {s : State} (hp : s.cfg.Valid) : Answers (timeoutFrame f s) :=
  answers_ite (fun _ => answers_endOfFrame _) fun _ => answers_nextLines _ hp

/-! ## Every request answers -/

theorem answers_emitCommand (bytes : List Byte) (s : State) : Answers (emitCommand bytes s) :=
  answers_guard (answers_guard (answers_succeed _))

theorem answers_encodeRequest {α : Type} [DecidableEq α] (ch : Channel α) (vals : List α) (i : Word) (addr : DevAddr)
    (s : State) : Answers (encodeRequest ch vals i addr s) :=
  answers_inSession (answers_guard (answers_guard (answers_finish _ _ _)))

theorem answers_modesetTake (m : ModeRegs) (split : Bool) (s : State) : Answers (modesetTake m split s) := by
  unfold modesetTake
  dsimp only
  split
  · exact answers_ite (fun _ => answers_succeed _) fun _ => answers_raise _ _
  · exact answers_raise _ _

theorem answers_modesetRequest (m : ModeRegs) (split : Bool) (s : State) : Answers (modesetRequest m split s) :=
  answers_inSession (answers_guard (answers_guard (answers_guard
    (answers_ite (fun _ => answers_next _) fun _ => answers_modesetTake m split s))))

/-- Every request and COMPLETE answers a next state; only the device's reader may refuse a command. -/
theorem answers_exec {i : Instr} (hi : i.agent ≠ .device) {s : State} (hp : s.cfg.Valid) : Answers (exec i s) := by
  cases i with
  | split | blendpix | blendline | lfsr16 => exact answers_inSession (answers_finish _ _ _)
  | diff => exact answers_inSession (answers_guard (answers_finish _ _ _))
  | enc16 | enc8 => exact answers_encodeRequest _ _ _ _ _
  | regw | regw16 | regw16be | regwl | vlock | vunlock | setdepth | setbase16 | setbase8 =>
    exact answers_inSession (answers_emitCommand _ _)
  | settiming => exact answers_inSession (answers_guard (answers_emitCommand _ _))
  | setblank level =>
    refine answers_inSession ?_
    split
    · exact answers_raise _ _
    · exact answers_emitCommand _ _
  | acquire =>
    exact answers_inSession (answers_guard (answers_ite (fun _ => answers_next _) fun _ => answers_succeed _))
  | submit =>
    refine answers_inSession ?_
    split
    · exact answers_raise _ _
    · exact answers_guard (answers_finish _ _ _)
  | release =>
    refine answers_inSession ?_
    split
    · exact answers_raise _ _
    · exact answers_succeed _
  | complete => exact answers_ite (fun _ => answers_next _) fun _ => answers_next _
  | renderFrame =>
    exact answers_inSession (answers_guard (answers_guard (answers_guard
      (answers_ite (fun _ => answers_succeed _) fun _ => answers_frameLoop _ _ _ _ _ hp))))
  | fillFrame => exact answers_inSession (answers_guard (answers_guard (answers_guard (answers_frameLoop _ _ _ _ _ hp))))
  | cfgw =>
    exact answers_inSession (answers_ite (fun _ => answers_succeed _) fun _ =>
      answers_ite (fun _ => answers_succeed _) fun _ => answers_raise _ _)
  | cfgr =>
    refine answers_ite (fun _ => ?_) fun _ => answers_ite (fun _ => answers_finish _ _ _) fun _ => answers_finish _ _ _
    split <;> exact answers_finish _ _ _
  | modeset => exact answers_modesetRequest _ _ _
  | setfb =>
    exact answers_inSession (answers_guard (answers_guard (answers_ite
      (fun _ => answers_ite (fun _ => answers_succeed _) fun _ => answers_raise _ _) fun _ => answers_succeed _)))
  | setcursor => exact answers_inSession (answers_guard (answers_guard (answers_succeed _)))
  | attach => exact answers_guard (answers_succeed _)
  | detach => exact answers_inSession (answers_ite (fun _ => answers_succeed _) fun _ => answers_next _)
  | wRun16 | wRun8 | wRegw | wPad => exact absurd rfl hi

/-! ## Every step but the reader's answers -/

theorem answers_runRequest {agent : Agent} (hagent : agent ≠ .device) (record : List Byte) {s : State} (hp : s.cfg.Valid) :
    Answers (runRequest agent record s) := by
  unfold runRequest
  split
  · exact answers_ite (fun hi => answers_exec (hi ▸ hagent) hp) fun _ => answers_next _
  · exact answers_next _

theorem answers_resume (p : Pending) {s : State} (hp : s.cfg.Valid) : Answers (resume p s) := by
  cases p with
  | acquire => exact answers_ite (fun _ => answers_next _) fun _ => answers_succeed _
  | modeset m split => exact answers_ite (fun _ => answers_next _) fun _ => answers_modesetTake m split s
  | detach => exact answers_ite (fun _ => answers_succeed _) fun _ => answers_next _
  | frame f => exact answers_ite (fun _ => answers_next _) fun _ => answers_resumeFrame f hp

theorem answers_producerStep {s : State} (hp : s.cfg.Valid) : Answers (producerStep s) := by
  unfold producerStep
  split
  · next p _ => exact answers_resume p hp
  · split
    · exact answers_next _
    · exact answers_runRequest (agent := .host) (by decide) _ hp

theorem answers_timeoutStep {s : State} (hp : s.cfg.Valid) : Answers (timeoutStep s) := by
  refine answers_ite (fun _ => ?_) fun _ => answers_next _
  split
  · exact answers_raise _ _
  · exact answers_raise _ _
  · next f _ => exact answers_timeoutFrame f hp
  · exact answers_next _
  · exact answers_next _

theorem answers_moveStep {m : Move} (hm : ∀ command, m ≠ .device command) {s : State} (hp : s.cfg.Valid) :
    Answers (moveStep m s) := by
  cases m with
  | producer => exact answers_producerStep hp
  | issue | hostWrite => exact answers_next _
  | timeout => exact answers_timeoutStep hp
  | transport record => exact answers_runRequest (agent := .transport) (by decide) record hp
  | device command => exact absurd rfl (hm command)

/-- No step of HOST, PRODUCER or TRANSPORT stops the machine (60_exceptions.md R251). -/
theorem answers_step {s : State} (hm : ∀ command, s.nextMove ≠ .device command) : Answers (step s) := by
  unfold step oneStep
  split
  · next hp => exact answers_checked (answers_moveStep hm hp)
  · exact answers_next _

end Sys2Proof.Machine
end

section
/-!
PROOFS. The slots in flight (45_slot_pool.md R204, R209): every part of a step leaves them as they are and adds those of its SUBMIT
events, but for TRANSPORT's COMPLETE, which frees its slot.
-/

namespace Sys2Proof.Machine

/-! ## The moves still to come -/

theorem modesetTake_moves {m : ModeRegs} {split : Bool} {s t : State} (ht : modesetTake m split s = .next t) :
    t.moves = s.moves := by
  rcases modesetTake_cases ht with ⟨k, -, ⟨-, rfl⟩ | ⟨-, rfl⟩⟩ | ⟨-, rfl⟩ <;> simp

/-- No instruction touches the list of moves. -/
theorem Effect.moves {i : Instr} {s t : State} (h : Effect i s t) : t.moves = s.moves := by
  cases h with
  | rendered _ _ _ _ _ _ _ _ _ _ _ _ _ _ _ _ _ _ ht => exact (frameLoop_ends ht).stable.moves
  | filled _ _ _ _ _ _ ht => exact (frameLoop_ends ht).stable.moves
  | modesetTakes _ _ _ _ _ _ _ _ ht => exact modesetTake_moves ht
  | detachWaits _ u _ hu => rcases hu with ⟨-, rfl⟩ | ⟨k, -, rfl⟩ <;> rfl
  | detaches _ u _ hu => rcases hu with ⟨-, rfl⟩ | ⟨k, -, rfl⟩ <;> rfl
  | _ => simp

theorem MoveEffect.moves {m : Move} {s t : State} (h : MoveEffect m s t) : t.moves = s.moves := by
  cases h with
  | ran _ _ _ _ _ _ _ _ _ he => exact he.moves
  | modesetEnds _ _ _ _ _ _ ht => exact modesetTake_moves ht
  | frameGoesOn _ _ _ _ hsome ht => exact (resumeFrame_ends hsome ht).stable.moves
  | frameTimesOut _ _ _ _ _ ht => exact (timeoutFrame_ends ht).stable.moves
  | transported _ _ _ _ _ _ he => exact he.moves
  | idle | refused | acquireEnds | detachEnds | issued | hostWrote | acquireTimesOut | read => simp

/-- A step takes its move off the list. -/
theorem step_moves {s t : State} (hv : s.cfg.Valid) (h : step s = .next t) : t.moves = s.moves.tail := by
  rcases step_effect h with ⟨hn, -⟩ | ⟨-, u, hu, rfl⟩
  · exact absurd hv hn
  · simpa using hu.moves

/-! ## What a stretch of work does to the slots in flight -/

/-- From `s` to `t` every slot in flight stays as it is, and the slots that come to be in flight are those of the SUBMIT events that
came (45_slot_pool.md R204, R209). -/
structure FlightsGrow (s t : State) : Prop where
  kept : ∀ (k : Nat) (slot : Slot), s.pool.slots[k]? = some slot → slot.state = .inflight → t.pool.slots[k]? = some slot
  submitted : ∃ new, t.events = s.events ++ new ∧ (∀ e ∈ new, t.inFlight e.slot) ∧
    ∀ k, t.inFlight k → s.inFlight k ∨ ∃ e ∈ new, e.slot = k

theorem State.inFlight_congr {s t : State} {k : Nat} (h : t.pool.slots[k]? = s.pool.slots[k]?) : t.inFlight k ↔ s.inFlight k := by
  rw [State.inFlight, State.inFlight, h]

theorem FlightsGrow.inFlight {s t : State} (h : FlightsGrow s t) {k : Nat} (hk : s.inFlight k) : t.inFlight k := by
  obtain ⟨slot, hslot, hstate⟩ := hk
  exact ⟨slot, h.kept k slot hslot hstate, hstate⟩

theorem FlightsGrow.of_eq {s t : State} (hp : t.pool = s.pool) (he : t.events = s.events) : FlightsGrow s t where
  kept k slot hslot _ := by rw [hp]; exact hslot
  submitted := ⟨[], by simp [he], nofun, fun k hk => .inl ((State.inFlight_congr (by rw [hp])).mp hk)⟩

theorem FlightsGrow.refl (s : State) : FlightsGrow s s := .of_eq rfl rfl

theorem FlightsGrow.trans {s t u : State} (h : FlightsGrow s t) (g : FlightsGrow t u) : FlightsGrow s u := by
  refine ⟨fun k slot hslot hstate => g.kept k slot (h.kept k slot hslot hstate) hstate, ?_⟩
  obtain ⟨new, hnew, hfly, hold⟩ := h.submitted
  obtain ⟨more, hmore, hflyMore, holdMore⟩ := g.submitted
  refine ⟨new ++ more, by rw [hmore, hnew, List.append_assoc], fun e he => ?_, fun k hk => ?_⟩
  · rcases List.mem_append.mp he with he | he
    · exact g.inFlight (hfly e he)
    · exact hflyMore e he
  · rcases holdMore k hk with hk | ⟨e, he, hek⟩
    · rcases hold k hk with hk | ⟨e, he, hek⟩
      · exact .inl hk
      · exact .inr ⟨e, List.mem_append_left _ he, hek⟩
    · exact .inr ⟨e, List.mem_append_right _ he, hek⟩

/-- A change of the one slot `k`, not in flight before: it is in flight afterwards where its SUBMIT event came. -/
theorem FlightsGrow.of_slot {s t : State} {k : Nat} {new : List SubmitEvent} (hk : ¬ s.inFlight k)
    (hothers : ∀ j, j ≠ k → t.pool.slots[j]? = s.pool.slots[j]?) (he : t.events = s.events ++ new)
    (hnew : ∀ e ∈ new, e.slot = k ∧ t.inFlight k) (hfly : t.inFlight k → ∃ e ∈ new, e.slot = k) : FlightsGrow s t where
  kept j slot hslot hstate := by
    rw [hothers j (by rintro rfl; exact hk ⟨slot, hslot, hstate⟩), hslot]
  submitted := by
    refine ⟨new, he, fun e hmem => ?_, fun j hj => ?_⟩
    · obtain ⟨rfl, hin⟩ := hnew e hmem
      exact hin
    · by_cases hjk : j = k
      · subst hjk
        exact .inr (hfly hj)
      · exact .inl ((State.inFlight_congr (hothers j hjk)).mp hj)

/-- A change of the one slot `k`, in flight neither before nor after. -/
theorem FlightsGrow.of_grounded {s t : State} {k : Nat} (hk : ¬ s.inFlight k) (hkt : ¬ t.inFlight k)
    (hothers : ∀ j, j ≠ k → t.pool.slots[j]? = s.pool.slots[j]?) (he : t.events = s.events) : FlightsGrow s t :=
  .of_slot (new := []) hk hothers (by simp [he]) nofun fun h => absurd h hkt

/-- Nothing in flight before and after. -/
theorem FlightsGrow.of_none {s t : State} (hs : ∀ k, ¬ s.inFlight k) (ht : ∀ k, ¬ t.inFlight k) (he : t.events = s.events) :
    FlightsGrow s t where
  kept k slot hslot hstate := absurd ⟨slot, hslot, hstate⟩ (hs k)
  submitted := ⟨[], by simp [he], nofun, fun k hk => absurd hk (ht k)⟩

theorem FlightsGrow.replied {s t : State} (h : FlightsGrow s t) (st : StatusCode) (r : Result) :
    FlightsGrow s (t.replied st r) :=
  h.trans (.of_eq rfl rfl)

theorem FlightsGrow.waitAt {s t : State} (h : FlightsGrow s t) (p : Pending) : FlightsGrow s (t.waitAt p) :=
  h.trans (.of_eq rfl rfl)

/-! ## Each pool operation -/

/-- A slot that a change gives another state than INFLIGHT is not in flight. -/
theorem not_inFlight_of_modifySlot {s t : State} {k : Nat} {f : Slot → Slot}
    (ht : t.pool.slots = (s.pool.modifySlot k f).slots)
    (hf : ∀ slot, s.pool.slots[k]? = some slot → (f slot).state ≠ .inflight) : ¬ t.inFlight k := by
  rintro ⟨slot, hslot, hstate⟩
  rw [ht, Pool.getElem?_modifySlot, if_pos rfl] at hslot
  obtain ⟨old, hold, rfl⟩ := Option.map_eq_some_iff.mp hslot
  exact hf old hold hstate

theorem getElem?_of_modifySlot {s t : State} {k : Nat} {f : Slot → Slot} (ht : t.pool.slots = (s.pool.modifySlot k f).slots)
    (j : Nat) (hj : j ≠ k) : t.pool.slots[j]? = s.pool.slots[j]? := by
  rw [ht, Pool.getElem?_modifySlot, if_neg (Ne.symm hj)]

/-- The held slot is not in flight (10_state.md R35). -/
theorem PoolOk.held_not_inFlight {s : State} (h : PoolOk s) {k : Nat} (hk : s.pool.held = some k) : ¬ s.inFlight k := by
  rintro ⟨slot, hslot, hstate⟩
  obtain ⟨held, hheld, hstateHeld⟩ := h.pool.held_slot hk
  obtain rfl := Option.some.inj (hslot.symm.trans hheld)
  rw [hstate] at hstateHeld
  cases hstateHeld

/-- The head of FREEQ is not in flight (10_state.md R38). -/
theorem PoolOk.free_not_inFlight {s : State} (h : PoolOk s) {k : Nat} (hk : k ∈ s.pool.freeq) : ¬ s.inFlight k := by
  rintro ⟨slot, hslot, hstate⟩
  obtain ⟨-, -, -, hstates, -⟩ := (Pool.holdsR38_iff _).mp h.pool.r38
  have hfree := (hstates k slot hslot).1.mp hk
  rw [hstate] at hfree
  cases hfree

theorem PoolOk.flights_emit {s : State} (h : PoolOk s) (bs : List Byte) : FlightsGrow s (s.emit bs) := by
  rcases s.emit_cases bs with ⟨k, hk, -, e⟩ | e
  · have hslots := congrArg (·.pool.slots) e
    have hground := h.held_not_inFlight hk
    exact .of_grounded hground (not_inFlight_of_modifySlot hslots fun slot hslot hstate => hground ⟨slot, hslot, hstate⟩)
      (getElem?_of_modifySlot hslots) (by simp)
  · exact .of_eq (by simp [e]) (by simp)

theorem PoolOk.flights_take {s : State} (h : PoolOk s) : FlightsGrow s s.takeSlot := by
  rcases s.takeSlot_cases with ⟨k, rest, hq, e⟩ | ⟨-, e⟩
  · have hslots := congrArg (·.pool.slots) e
    exact .of_grounded (h.free_not_inFlight (by simp [hq])) (not_inFlight_of_modifySlot hslots nofun)
      (getElem?_of_modifySlot hslots) (by simp)
  · rw [e]
    exact ⟨fun _ _ hslot _ => hslot, [], by simp, nofun, fun _ hk => .inl hk⟩

theorem PoolOk.flights_release {s : State} (h : PoolOk s) {k : Nat} (hk : s.pool.held = some k) :
    FlightsGrow s (s.releaseSlot k) :=
  have hslots : (s.releaseSlot k).pool.slots = (s.pool.modifySlot k _).slots := rfl
  .of_grounded (h.held_not_inFlight hk) (not_inFlight_of_modifySlot hslots nofun) (getElem?_of_modifySlot hslots) rfl

/-- SUBMIT: an accepted slot is in flight with its event, a rejected one is free again (45_slot_pool.md R204). -/
theorem PoolOk.flights_submit {s : State} (h : PoolOk s) {k : Nat} (hk : s.pool.held = some k) :
    FlightsGrow s (s.submitSlot k) := by
  have hground := h.held_not_inFlight hk
  have hlt := h.held_lt hk
  cases hc : s.nextChoice
  case false =>
    have e := State.submitSlot_rejected hlt hc
    have hslots := congrArg (·.pool.slots) e
    exact .of_grounded hground (not_inFlight_of_modifySlot hslots nofun) (getElem?_of_modifySlot hslots) (by simp [e])
  case true =>
    have e := State.submitSlot_accepted k hc
    have hslots : (s.submitSlot k).pool.slots =
        (s.pool.modifySlot k fun slot => { slot with len := s.pool.wptr, state := .inflight }).slots := by rw [e]
    have hfly : (s.submitSlot k).inFlight k :=
      ⟨{ s.pool.slots[k] with len := s.pool.wptr, state := .inflight }, by
        rw [hslots, Pool.getElem?_modifySlot, if_pos rfl, List.getElem?_eq_getElem hlt, Option.map_some], rfl⟩
    refine .of_slot (new := [⟨k, s.pool.wptr, s.pool.slotBytes k s.pool.wptr.toNat⟩]) hground
      (getElem?_of_modifySlot hslots) (by rw [e]) ?_ ?_
    · simpa using hfly
    · simp

theorem PoolOk.flights_submitF {s : State} (h : PoolOk s) : FlightsGrow s s.submitF := by
  unfold State.submitF
  split
  · next k hk => exact h.flights_submit hk
  · exact .refl s

/-! ## A stretch of work -/

theorem PoolOk.flights_endOfFrame {s t : State} (h : PoolOk s) (ht : endOfFrame s = .next t) : FlightsGrow s t := by
  obtain ⟨closed, hclosed, rfl⟩ := endOfFrame_cases ht
  have hgrow : FlightsGrow s closed := by
    rcases hclosed with ⟨-, rfl⟩ | ⟨k, hk, ⟨-, rfl⟩ | ⟨-, rfl⟩⟩
    · exact .refl _
    · exact h.flights_submit hk
    · exact h.flights_release hk
  exact hgrow.trans (.of_eq (by simp) (by simp))

/-- What a frame operation does to the slots in flight, beside keeping the pool sound. -/
theorem flights_rule (c : Params) (m : Marks) (f0 : FrameCtx) (s0 : State) :
    FrameRule c f0 (fun s => WithSlot c m s ∧ FlightsGrow s0 s) (fun s => WithoutSlot c m s ∧ FlightsGrow s0 s)
      (FlightsGrow s0) :=
  have pool := poolRun_rule c m f0
  { cfg := fun s h => pool.cfg s h.1
    emit16 := fun s vals i addr h => ⟨pool.emit16 s vals i addr h.1, h.2.trans (h.1.1.ok.flights_emit _)⟩
    emit8 := fun s vals i addr h => ⟨pool.emit8 s vals i addr h.1, h.2.trans (h.1.1.ok.flights_emit _)⟩
    full16 := fun s vals i addr h hf => ⟨pool.full16 s vals i addr h.1 hf,
      (h.2.trans (h.1.1.ok.flights_emit _)).trans (h.1.1.ok.emit _).flights_submitF⟩
    full8 := fun s vals i addr h hf => ⟨pool.full8 s vals i addr h.1 hf,
      (h.2.trans (h.1.1.ok.flights_emit _)).trans (h.1.1.ok.emit _).flights_submitF⟩
    take := fun s h ha => ⟨pool.take s h.1 ha, h.2.trans h.1.1.ok.flights_take⟩
    count := fun s f hf hy h => ⟨pool.count s f hf hy h.1, h.2.trans (.of_eq (by simp) (by simp))⟩
    prepare := fun s f hf hy hl h => ⟨pool.prepare s f hf hy hl h.1, h.2.trans (.of_eq (by simp) (by simp))⟩
    lost := fun s h => ⟨pool.lost s h.1, h.2.trans (.of_eq rfl rfl)⟩
    slotless := fun s h hh => ⟨pool.slotless s h.1 hh, h.2⟩
    slotted := fun s h hh => ⟨pool.slotted s h.1 hh, h.2⟩
    wait := fun s f _ h _ => h.2.waitAt _
    ends := fun s t h ht => by
      rcases h with ⟨h, hgrow⟩ | ⟨h, hgrow⟩ <;> exact hgrow.trans (h.1.ok.flights_endOfFrame ht) }

theorem frameLoop_flights {source : FrameSource} {x0 x1 y0 y1 : Nat} {s t : State} (hs : PoolInv s)
    (ha : s.flag .attached = true) (hh : s.pool.held = none) (ht : frameLoop source x0 x1 y0 y1 s = .next t) :
    FlightsGrow s t :=
  have hbusy : PoolRun s.cfg s.marks (s.setFlag .frameBusy true) := (hs.run ha).of_eq rfl rfl rfl (by simp)
  (flights_rule s.cfg s.marks ⟨source, x0, x1, y0, y1, 0, .line⟩ s).runLines (y1 - y0) ⟨rfl, rfl, rfl, rfl⟩ le_rfl
    (.inr ⟨⟨hbusy, hh⟩, .of_eq rfl rfl⟩) ht

theorem modesetTake_flights {m : ModeRegs} {split : Bool} {s t : State} (hok : PoolOk s) (hh : s.pool.held = none)
    (ha : s.pool.avail ≠ 0) (ht : modesetTake m split s = .next t) : FlightsGrow s t := by
  have htaken := hok.take hh ha
  have hfilled := hok.flights_take.trans (htaken.flights_emit (modesetStream s.cfg m split))
  rcases modesetTake_cases ht with ⟨k, hk, ⟨-, rfl⟩ | ⟨-, rfl⟩⟩ | ⟨-, rfl⟩
  · exact (hfilled.trans ((htaken.emit _).flights_submit hk)).trans (.of_eq (by simp) (by simp))
  · exact (hfilled.trans ((htaken.emit _).flights_submit hk)).replied _ _
  · exact hfilled.replied _ _

/-! ## Each agent's part of a step -/

theorem not_inFlight_of_absent {s : State} (h : s.pool = Pool.absent) (k : Nat) : ¬ s.inFlight k := by
  rintro ⟨slot, hslot, -⟩
  rw [h] at hslot
  cases hslot

theorem not_inFlight_of_drained {s : State} (h : s.pool.inflight = 0) (k : Nat) : ¬ s.inFlight k := by
  rintro ⟨slot, hslot, hstate⟩
  exact List.countP_eq_zero.mp h slot (List.mem_of_getElem? hslot) (by simpa using hstate)

theorem not_inFlight_of_fresh {s : State} {p : Params} {tag : Nat} (h : s.pool = Pool.fresh p tag) (k : Nat) :
    ¬ s.inFlight k := by
  rintro ⟨slot, hslot, hstate⟩
  rw [h] at hslot
  obtain ⟨j, -, rfl⟩ := List.mem_map.mp (List.mem_of_getElem? hslot)
  cases hstate

/-- The end of a session with nothing in flight. -/
theorem FlightsGrow.detached {s : State} (h : s.pool.inflight = 0) : FlightsGrow s (s.destroySession.replied .ok .none) :=
  .of_none (not_inFlight_of_drained h) (not_inFlight_of_absent rfl) rfl

theorem PoolOk.flights_dropped {s u : State} (h : PoolOk s)
    (hu : (s.pool.held = none ∧ u = s) ∨ ∃ k, s.pool.held = some k ∧ u = s.releaseSlot k) : FlightsGrow s u := by
  rcases hu with ⟨-, rfl⟩ | ⟨k, hk, rfl⟩
  · exact .refl _
  · exact h.flights_release hk

/-- Every request but COMPLETE: the slots in flight stay, new ones come with their SUBMIT event. -/
theorem Effect.flights {i : Instr} {s t : State} (h : Effect i s t) (hs : PoolInv s) (hi : i.agent ≠ .transport) :
    FlightsGrow s t := by
  cases h with
  | wrote _ _ regs ha => exact ((hs.ok ha).flights_emit _).replied _ _
  | encoded16 vals k addr _ ha => exact ((hs.ok ha).flights_emit _).replied _ _
  | encoded8 vals k addr _ ha => exact ((hs.ok ha).flights_emit _).replied _ _
  | acquired _ ha => exact (hs.ok ha).flights_take.replied _ _
  | submitted _ k ha hk => exact ((hs.ok ha).flights_submit hk).replied _ _
  | released _ k ha hk => exact ((hs.ok ha).flights_release hk).replied _ _
  | completed | completeIgnored => exact absurd rfl hi
  | rendered _ _ _ _ _ _ _ _ _ _ ha _ _ hh _ _ _ _ ht => exact frameLoop_flights hs ha hh ht
  | filled _ _ _ ha _ hh ht => exact frameLoop_flights hs ha hh ht
  | modesetTakes _ _ _ _ ha hh _ hsome ht => exact modesetTake_flights (hs.ok ha) hh hsome ht
  | attaches _ detached =>
    exact .of_none (not_inFlight_of_absent (hs.absent detached)) (not_inFlight_of_fresh rfl) rfl
  | detachWaits _ u ha hu => exact ((hs.ok ha).flights_dropped hu).waitAt _
  | detaches _ u ha hu drained => exact ((hs.ok ha).flights_dropped hu).trans (.detached drained)
  | answered | acquireWaits | cleared | linked | modesetWaits | fbPlain | fbBacked | fbFailed | cursorSet | device =>
    exact .of_eq (by simp) (by simp)

/-- TRANSPORT's only instruction is COMPLETE (30_encoding.md R92). -/
theorem Instr.eq_complete {i : Instr} (h : i.agent = .transport) : ∃ k, i = .complete k := by
  cases i with
  | complete k => exact ⟨k, rfl⟩
  | _ => cases h

/-- Every move that is no COMPLETE: the slots in flight stay, new ones come with their SUBMIT event. -/
theorem MoveEffect.flights {m : Move} {s t : State} (h : MoveEffect m s t) (hs : PoolInv s)
    (hm : ∀ record k, m = .transport record → decode s.cfg record ≠ .ok (.complete k)) : FlightsGrow s t := by
  cases h with
  | ran _ record rest i _ _ _ _ hi he =>
    have hgrow := he.flights (hs.of_eq rfl rfl rfl id) (by rw [hi]; decide)
    exact (FlightsGrow.of_eq (s := s) (t := { s with queue := rest }) rfl rfl).trans hgrow
  | acquireEnds _ hp hsome =>
    obtain ⟨ha, hh⟩ := hs.waiting (by simp [hp])
    exact (hs.ok ha).flights_take.replied _ _
  | modesetEnds _ m split _ hp hsome ht =>
    obtain ⟨ha, hh⟩ := hs.waiting (by simp [hp])
    exact modesetTake_flights (hs.ok ha) hh hsome ht
  | detachEnds _ _ drained => exact .detached drained
  | frameGoesOn _ f _ hp hsome ht =>
    obtain ⟨ha, hh⟩ := hs.waiting (by simp [hp])
    exact (flights_rule s.cfg s.marks f s).resumeFrame ⟨rfl, rfl, rfl, rfl⟩ ⟨⟨hs.run ha, hh⟩, .refl s⟩ hsome ht
  | frameTimesOut _ f _ hp _ ht =>
    obtain ⟨ha, hh⟩ := hs.waiting (by simp [hp])
    exact (flights_rule s.cfg s.marks f s).timeoutFrame ⟨rfl, rfl, rfl, rfl⟩ ⟨⟨hs.run ha, hh⟩, .refl s⟩ ht
  | transported record _ i _ hd hi =>
    obtain ⟨k, rfl⟩ := Instr.eq_complete hi
    exact absurd hd (hm record k rfl)
  | idle | refused | issued | hostWrote | acquireTimesOut | read => exact .of_eq (by simp) (by simp)

/-! ## One step -/

theorem PoolInv.popMove {s : State} (h : PoolInv s) : PoolInv s.popMove := h.of_eq rfl rfl rfl id

/-- A step that is no COMPLETE: the slots in flight stay, new ones come with their SUBMIT event. -/
theorem step_flights {s t : State} (hs : PoolInv s) (h : step s = .next t) (hc : ∀ k, ¬ s.completes k) : FlightsGrow s t := by
  rcases step_effect h with ⟨hn, -⟩ | ⟨-, u, hu, rfl⟩
  · exact absurd hs.config hn
  have hmove : FlightsGrow s.popMove u := hu.flights hs.popMove fun record k hm hd => hc k ⟨record, hm, hd⟩
  have hpop : FlightsGrow s s.popMove := .of_eq rfl rfl
  exact (hpop.trans hmove).trans (.of_eq (by simp) (by simp))

/-- What COMPLETE of slot `k` does to the slots in flight (45_slot_pool.md R205): `k` is free with its full length, every other slot
is as before, and there is no event. -/
structure FlightEnds (s t : State) (k : Nat) : Prop where
  others : ∀ j, j ≠ k → t.pool.slots[j]? = s.pool.slots[j]?
  freed : ∀ slot, s.pool.slots[k]? = some slot → slot.state = .inflight →
    t.pool.slots[k]? = some { slot with len := BitVec.ofNat 32 s.cfg.slotBytes, state := .free }
  landed : ¬ t.inFlight k
  events : t.events = s.events

theorem State.completeSlot_flightEnds (s : State) (k : Nat) : FlightEnds s (s.completeSlot k) k := by
  rcases s.completeSlot_cases k with ⟨slot, hslot, hstate, e⟩ | ⟨hground, e⟩
  · have hslots := congrArg (·.pool.slots) e
    refine ⟨getElem?_of_modifySlot hslots, fun other hother _ => ?_, not_inFlight_of_modifySlot hslots nofun, by simp⟩
    rw [e, Pool.giveBack]
    dsimp only
    rw [Pool.getElem?_modifySlot, if_pos rfl, hother, Option.map_some]
  · have hpool : (s.completeSlot k).pool = s.pool := by rw [e]; rfl
    refine ⟨fun j _ => by rw [hpool], fun slot hslot hstate => absurd hstate (hground slot hslot), ?_, by simp⟩
    rintro ⟨slot, hslot, hstate⟩
    rw [hpool] at hslot
    exact hground slot hslot hstate

/-- TRANSPORT's COMPLETE as a whole step. -/
theorem step_completes {s t : State} {k : Nat} (hs : PoolInv s) (hc : s.completes k) (h : step s = .next t) :
    FlightEnds s t k := by
  obtain ⟨record, hm, hd⟩ := hc
  obtain ⟨-, htransport, -, -⟩ := stepRunsDecodedInstruction
  rw [htransport s record (.complete k) hs.config hm hd rfl] at h
  cases ha : s.flag .attached
  case false =>
    rw [exec_complete_detached (show State.flag { s with moves := s.moves.tail } .attached = false from ha)] at h
    cases h
    have hpool : s.pool = Pool.absent := hs.absent ha
    exact ⟨fun _ _ => by simp, fun slot hslot hstate => absurd ⟨slot, hslot, hstate⟩ (not_inFlight_of_absent hpool k),
      not_inFlight_of_absent (by simpa using hpool) k, by simp⟩
  case true =>
    rw [exec_complete_attached (show State.flag { s with moves := s.moves.tail } .attached = true from ha)] at h
    cases h
    obtain ⟨others, freed, landed, events⟩ := State.completeSlot_flightEnds { s with moves := s.moves.tail } k
    exact ⟨by simpa using others, by simpa using freed, by simpa [State.inFlight] using landed, by simp⟩

end Sys2Proof.Machine
end

section
/-!
PROOFS. The way of a slot in flight through a run (45_slot_pool.md R208, R209, R211): from its accepted SUBMIT to its COMPLETE, in
the machine's own run and in every run in which TRANSPORT does its duty.
-/

namespace Sys2Proof.Machine

/-! ## One step and the slot `k` -/

section step

variable {s t : State} {k : Nat}

theorem PoolInv.attached_of_inFlight (hs : PoolInv s) (hk : s.inFlight k) : s.flag .attached = true := by
  by_contra ha
  exact not_inFlight_of_absent (hs.absent (by simpa using ha)) k hk

theorem PoolInv.lt_of_inFlight (hs : PoolInv s) (hk : s.inFlight k) : k < s.cfg.slotCount := by
  rw [← hs.size (hs.attached_of_inFlight hk)]
  obtain ⟨slot, hslot, -⟩ := hk
  exact (List.getElem?_eq_some_iff.mp hslot).1

/-- A slot in flight stays untouched, unless the step is its COMPLETE (45_slot_pool.md R209). -/
theorem step_keeps_flight (hs : PoolInv s) (h : step s = .next t) {slot : Slot} (hslot : s.pool.slots[k]? = some slot)
    (hstate : slot.state = .inflight) (hc : ¬ s.completes k) : t.pool.slots[k]? = some slot := by
  by_cases hany : ∃ j, s.completes j
  · obtain ⟨j, hj⟩ := hany
    rw [(step_completes hs hj h).others k (by rintro rfl; exact hc hj), hslot]
  · exact (step_flights hs h (not_exists.mp hany)).kept k slot hslot hstate

theorem step_inFlight (hs : PoolInv s) (h : step s = .next t) (hk : s.inFlight k) (hc : ¬ s.completes k) : t.inFlight k := by
  obtain ⟨slot, hslot, hstate⟩ := hk
  exact ⟨slot, step_keeps_flight hs h hslot hstate hc, hstate⟩

/-- A slot comes to be in flight only by an accepted SUBMIT (45_slot_pool.md R211 item 5). -/
theorem step_inFlight_origin (hs : PoolInv s) (h : step s = .next t) (hk : t.inFlight k) : s.inFlight k ∨ Accepts s t k := by
  by_cases hany : ∃ j, s.completes j
  · obtain ⟨j, hj⟩ := hany
    have hends := step_completes hs hj h
    have hne : k ≠ j := by rintro rfl; exact hends.landed hk
    exact .inl ((State.inFlight_congr (hends.others k hne)).mp hk)
  · obtain ⟨new, hnew, -, hold⟩ := (step_flights hs h (not_exists.mp hany)).submitted
    exact (hold k hk).imp_right fun he => ⟨new, hnew, he⟩

/-- After the step that accepts its SUBMIT a slot is in flight (45_slot_pool.md R204). -/
theorem step_accepts (hs : PoolInv s) (h : step s = .next t) (ha : Accepts s t k) : t.inFlight k := by
  obtain ⟨new, hnew, e, he, rfl⟩ := ha
  by_cases hany : ∃ j, s.completes j
  · obtain ⟨j, hj⟩ := hany
    have hnone : new = [] := by simpa using hnew.symm.trans (step_completes hs hj h).events
    rw [hnone] at he
    cases he
  · obtain ⟨added, hadded, hfly, -⟩ := (step_flights hs h (not_exists.mp hany)).submitted
    obtain rfl : new = added := List.append_cancel_left (hnew.symm.trans hadded)
    exact hfly e he

end step

/-! ## The machine's own run -/

theorem State.afterSteps_succ {s t : State} (h : step s = .next t) (n : Nat) : s.afterSteps (n + 1) = t.afterSteps n := by
  induction n with
  | zero => simp only [State.afterSteps, h]
  | succ n ih =>
    rw [State.afterSteps, ih]
    rfl

/-- The machine's own run completes slot `k` while it is in flight, within `n` steps. -/
def CompletedWithin (n : Nat) (s : State) (k : Nat) : Prop :=
  ∃ j t, j ≤ n ∧ s.afterSteps j = some t ∧ t.completes k ∧ t.inFlight k

theorem CompletedWithin.now {s : State} {k : Nat} (hc : s.completes k) (hk : s.inFlight k) (n : Nat) :
    CompletedWithin n s k :=
  ⟨0, s, Nat.zero_le n, rfl, hc, hk⟩

theorem CompletedWithin.later {n : Nat} {s t : State} {k : Nat} (h : step s = .next t) (ht : CompletedWithin n t k) :
    CompletedWithin (n + 1) s k := by
  obtain ⟨j, u, hj, hu, hc, hk⟩ := ht
  exact ⟨j + 1, u, Nat.succ_le_succ hj, (State.afterSteps_succ h j).trans hu, hc, hk⟩

theorem CompletedWithin.mono {n m : Nat} {s : State} {k : Nat} (h : CompletedWithin n s k) (hnm : n ≤ m) :
    CompletedWithin m s k := by
  obtain ⟨j, t, hj, hrest⟩ := h
  exact ⟨j, t, hj.trans hnm, hrest⟩

/-- With no move listed and a slot in flight, the lowest-numbered one is completed next (45_slot_pool.md R208, log entry 8). -/
theorem State.completes_lowest {s : State} {k : Nat} (hm : s.moves = []) (hk : s.inFlight k) :
    ∃ j ≤ k, s.completes j ∧ s.inFlight j ∧ ∀ i < j, ¬ s.inFlight i := by
  obtain ⟨slot, hslot, hstate⟩ := hk
  obtain ⟨hlt, rfl⟩ := List.getElem?_eq_some_iff.mp hslot
  obtain ⟨j, hfirst⟩ : ∃ j, s.pool.firstInflight = some j :=
    Option.isSome_iff_exists.mp (by
      rw [Pool.firstInflight, List.findIdx?_isSome, List.any_eq_true]
      exact ⟨_, List.getElem_mem hlt, by simpa using hstate⟩)
  obtain ⟨hj, hjstate, hbelow⟩ := List.findIdx?_eq_some_iff_getElem.mp hfirst
  have hground : ∀ i < j, ¬ s.inFlight i := by
    rintro i hi ⟨other, hother, hfly⟩
    obtain ⟨hilt, rfl⟩ := List.getElem?_eq_some_iff.mp hother
    exact hbelow i hi (by simpa using hfly)
  refine ⟨j, Nat.le_of_not_lt fun hkj => hground k hkj ⟨_, hslot, hstate⟩, ?_,
    ⟨_, List.getElem?_eq_getElem hj, by simpa using hjstate⟩, hground⟩
  exact ⟨encode s.cfg (.complete j), by simp only [State.nextMove, hm, hfirst], decode_encode_complete s.cfg j⟩

theorem answers_step_of_completes {s : State} {k : Nat} (hc : s.completes k) : Answers (step s) := by
  obtain ⟨record, hm, -⟩ := hc
  exact answers_step fun command => by rw [hm]; exact nofun

/-- With no move listed, the slots in flight are completed one after another; none below `k - n` is left. -/
theorem completedWithin_of_no_moves {n k : Nat} {s : State} (hs : PoolInv s) (hm : s.moves = []) (hk : s.inFlight k)
    (hn : ∀ i, i + n < k → ¬ s.inFlight i) : CompletedWithin n s k := by
  induction n generalizing s with
  | zero =>
    obtain ⟨j, hjk, hc, hj, -⟩ := State.completes_lowest hm hk
    obtain rfl : j = k := hjk.antisymm (Nat.le_of_not_lt fun hlt => hn j hlt hj)
    exact .now hc hk 0
  | succ n ih =>
    obtain ⟨j, hjk, hc, hj, hlow⟩ := State.completes_lowest hm hk
    rcases hjk.eq_or_lt with rfl | hlt
    · exact .now hc hk _
    obtain ⟨t, ht⟩ := answers_step_of_completes hc
    have hends := step_completes hs hc ht
    have hkt : t.inFlight k := (State.inFlight_congr (hends.others k (Nat.ne_of_gt hlt))).mpr hk
    refine .later ht (ih (poolInvKept s t hs ht) (by rw [step_moves hs.config ht, hm]; rfl) hkt fun i hi hfly => ?_)
    have hij : i ≠ j := by rintro rfl; exact hends.landed hfly
    have hfly' := (State.inFlight_congr (hends.others i hij)).mp hfly
    have hji : j ≤ i := Nat.le_of_not_lt fun h => hlow i h hfly'
    exact hn j (by omega) hj

/-- The moves that are listed end, and then TRANSPORT pays what it owes (45_slot_pool.md R208, log entry 19). -/
theorem completedWithin_own_run {s : State} {k : Nat} (hs : PoolInv s) (hk : s.inFlight k)
    (hm : ∀ command, .device command ∉ s.moves) : CompletedWithin (s.moves.length + k) s k := by
  generalize hmoves : s.moves = moves at hm ⊢
  induction moves generalizing s with
  | nil => exact (completedWithin_of_no_moves (n := k) hs hmoves hk fun i hi => absurd hi (by omega)).mono (by simp)
  | cons m rest ih =>
    by_cases hc : s.completes k
    · exact .now hc hk _
    have hnext : s.nextMove = m := by rw [State.nextMove, hmoves]
    obtain ⟨t, ht⟩ := answers_step (s := s) fun command e => hm command (by simp [← e, hnext])
    have hrest : t.moves = rest := by rw [step_moves hs.config ht, hmoves]; rfl
    have hlater := ih (poolInvKept s t hs ht) (step_inFlight hs ht hk hc) hrest
      fun command hmem => hm command (List.mem_cons_of_mem m hmem)
    exact (hlater.later ht).mono (by simp only [List.length_cons]; omega)

/-! ## Runs in which TRANSPORT does its duty -/

section run

variable {r : Nat → State} {n k : Nat}

/-- A step of a run, the moves aside. -/
theorem IsRun.step (h : IsRun r) (n : Nat) :
    ∃ t, Machine.step (r n) = .next t ∧ (r (n + 1)).pool = t.pool ∧ (r (n + 1)).events = t.events := by
  obtain ⟨t, moves, ht, hr⟩ := h n
  exact ⟨t, ht, by rw [hr], by rw [hr]⟩

theorem TransportRun.poolInv (h : TransportRun r) (n : Nat) : PoolInv (r n) := by
  induction n with
  | zero => exact h.start
  | succ n ih =>
    obtain ⟨t, moves, ht, hr⟩ := h.run n
    rw [hr]
    exact (poolInvKept _ t ih ht).of_eq rfl rfl rfl id

theorem inFlight_of_pool_eq {s t : State} (h : t.pool = s.pool) : t.inFlight k ↔ s.inFlight k :=
  State.inFlight_congr (by rw [h])

theorem TransportRun.stays (h : TransportRun r) (hk : (r n).inFlight k) (hc : ¬ (r n).completes k) : (r (n + 1)).inFlight k := by
  obtain ⟨t, ht, hpool, -⟩ := h.run.step n
  exact (inFlight_of_pool_eq hpool).mpr (step_inFlight (h.poolInv n) ht hk hc)

theorem TransportRun.lands (h : TransportRun r) (hc : (r n).completes k) : ¬ (r (n + 1)).inFlight k := by
  obtain ⟨t, ht, hpool, -⟩ := h.run.step n
  exact fun hk => (step_completes (h.poolInv n) hc ht).landed ((inFlight_of_pool_eq hpool).mp hk)

theorem accepts_of_events_eq {s t u : State} (h : u.events = t.events) : Accepts s u k ↔ Accepts s t k := by
  rw [Accepts, Accepts, h]

theorem TransportRun.origin (h : TransportRun r) (hk : (r (n + 1)).inFlight k) :
    (r n).inFlight k ∨ Accepts (r n) (r (n + 1)) k := by
  obtain ⟨t, ht, hpool, hevents⟩ := h.run.step n
  exact (step_inFlight_origin (h.poolInv n) ht ((inFlight_of_pool_eq hpool).mp hk)).imp_right
    (accepts_of_events_eq hevents).mpr

theorem TransportRun.launched (h : TransportRun r) (ha : Accepts (r n) (r (n + 1)) k) : (r (n + 1)).inFlight k := by
  obtain ⟨t, ht, hpool, hevents⟩ := h.run.step n
  exact (inFlight_of_pool_eq hpool).mpr (step_accepts (h.poolInv n) ht ((accepts_of_events_eq hevents).mp ha))

/-- A slot stays in flight until its COMPLETE. -/
theorem TransportRun.stays_until (h : TransportRun r) {j : Nat} (hk : (r n).inFlight k) (hnj : n ≤ j)
    (hc : ∀ i, n ≤ i → i < j → ¬ (r i).completes k) : (r j).inFlight k := by
  induction j, hnj using Nat.le_induction with
  | base => exact hk
  | succ j hnj ih => exact h.stays (ih fun i hi hij => hc i hi (by omega)) (hc j hnj (by omega))

/-- A slot that is in flight again was submitted again. -/
theorem TransportRun.accepts_between (h : TransportRun r) {j : Nat} (hn : ¬ (r n).inFlight k) (hnj : n ≤ j)
    (hj : (r j).inFlight k) : ∃ i, n ≤ i ∧ i < j ∧ Accepts (r i) (r (i + 1)) k := by
  induction j, hnj using Nat.le_induction with
  | base => exact absurd hj hn
  | succ j hnj ih =>
    rcases h.origin hj with hk | ha
    · obtain ⟨i, hni, hij, ha⟩ := ih hk
      exact ⟨i, hni, by omega, ha⟩
    · exact ⟨j, hnj, by omega, ha⟩

/-- The first COMPLETE of a slot in flight, which comes after finitely many steps (45_slot_pool.md R208). -/
theorem TransportRun.first_complete (h : TransportRun r) (hk : (r n).inFlight k) :
    ∃ m, n ≤ m ∧ (r m).completes k ∧ ∀ i, n ≤ i → i < m → ¬ (r i).completes k := by
  classical
  have hfair := h.fair n k hk
  obtain ⟨hnm, hc⟩ := Nat.find_spec hfair
  exact ⟨Nat.find hfair, hnm, hc, fun i hni hi hci => Nat.find_min hfair hi ⟨hni, hci⟩⟩

end run

/-- Settles O33: what one step does to a slot in flight, the machine's own run by induction on the moves and then on the slots, and
a fair run by its first COMPLETE after the SUBMIT. -/
theorem inflightSlotUntouched : Obligations.InflightSlotUntouched := by
  refine ⟨fun s t k slot hs h hslot hstate => ?kept, fun s t k hs h => step_inFlight_origin hs h,
    fun s k hs hk hm => ?completed, fun r n k hr ha => ?exactlyOnce⟩
  case kept =>
    by_cases hc : s.completes k
    · exact .inr ⟨hc, (step_completes hs hc h).freed slot hslot hstate⟩
    · exact .inl (step_keeps_flight hs h hslot hstate hc)
  case completed =>
    have hlt := hs.lt_of_inFlight hk
    exact (completedWithin_own_run hs hk hm).mono (by omega)
  case exactlyOnce =>
    have hk := hr.launched ha
    obtain ⟨m, hnm, hc, hfirst⟩ := hr.first_complete hk
    refine ⟨m, hnm, hc, fun j hnj hjm => ?_, fun j hnj hjm => hfirst j hnj hjm, hr.lands hc, fun j hmj hcj => ?_⟩
    · exact hr.stays_until hk hnj fun i hni hij => hfirst i hni (hij.trans_le hjm)
    · exact hr.accepts_between (hr.lands hc) hmj (hr.given j k hcj)

end Sys2Proof.Machine
end

section
/-!
PROOFS. The configuration and session requests (46_frame_loop.md R231 to R237): each branch with the next state written out.
-/

namespace Sys2Proof.Machine

/-! ## CFGW -/

/-- Settles O41: the two writable offsets are tried in order. -/
theorem cfgwWritesTwoBits : Obligations.CfgwWritesTwoBits := by
  intro s off val ha
  have hexec : exec (.cfgw off val) s = _ := inSession_of_attached ha
  rw [hexec]
  refine ⟨Laws.LeadByte.cfgw off val rfl, fun h0 => ?status, fun h8 => ?link, fun h0 h8 => ?other⟩
  case status =>
    rw [if_pos h0, succeed, finish_eq]
    rfl
  case link =>
    rw [if_neg (by rw [h8]; decide), if_pos h8, succeed, finish_eq]
    rfl
  case other => rw [if_neg h0, if_neg h8, raise, finish_eq]

/-! ## CFGR -/

/-- The register map of 10_state.md R24. -/
def State.regMap (s : State) : List (Word × Word) :=
  [(0x000#32, s.status), (0x008#32, s.link), (0x010#32, s.fbReg.pitch), (0x014#32, s.fbReg.bpp), (0x018#32, s.fbReg.vx),
    (0x01C#32, s.fbReg.vy), (0x020#32, s.fbReg.width), (0x024#32, s.fbReg.height), (0x040#32, s.mode.xres),
    (0x044#32, s.mode.yres), (0x048#32, s.mode.pixclock), (0x04C#32, s.mode.left), (0x050#32, s.mode.right),
    (0x054#32, s.mode.upper), (0x058#32, s.mode.lower), (0x05C#32, s.mode.hsync), (0x060#32, s.mode.vsync),
    (0x064#32, s.mode.refresh), (0x080#32, 0#8 ++ s.base16), (0x084#32, 0#8 ++ s.base8), (0x100#32, s.cursor.x),
    (0x104#32, s.cursor.y), (0x108#32, s.cursor.w), (0x10C#32, s.cursor.h), (0x110#32, s.cursor.bpp),
    (0x114#32, s.cursor.visible), (0x180#32, s.counters.rendered), (0x184#32, s.counters.identical),
    (0x188#32, s.counters.sent), (0x18C#32, s.counters.cpu), (0x190#32, s.pool.avail), (0x194#32, s.pool.heldWord),
    (0x198#32, BitVec.ofNat 32 s.pool.inflight)]

theorem zero_append_devAddr (a : DevAddr) : (0#8 ++ a : Word) = a.setWidth 32 :=
  BitVec.eq_of_toNat_eq <| (BitVec.toNat_append 0#8 a).trans <| by
    have := a.isLt
    simp only [BitVec.toNat_setWidth, BitVec.toNat_ofNat, Nat.zero_mod, Nat.zero_shiftLeft, Nat.zero_or]
    omega

/-- Every entry of the map is what the register at its offset reads. -/
theorem State.readReg_of_mem_regMap {s : State} {off v : Word} (h : (off, v) ∈ s.regMap) : s.readReg off.toNat = some v := by
  have hall : ∀ e ∈ s.regMap, s.readReg e.1.toNat = some e.2 := by
    simp [State.regMap, zero_append_devAddr, State.readReg]
  exact hall _ h

/-- Every register is in the map. -/
theorem State.mem_regMap_of_readReg {s : State} {off v : Word} (h : s.readReg off.toNat = some v) : (off, v) ∈ s.regMap := by
  obtain ⟨n, hn, rfl⟩ : ∃ n, off.toNat = n ∧ off = BitVec.ofNat 32 n := ⟨_, rfl, by simp⟩
  rw [hn] at h
  unfold State.readReg at h
  split at h
  case h_34 => cases h
  all_goals
    obtain rfl := Option.some.inj h
    simp [State.regMap, zero_append_devAddr]

section cfgr

variable {s : State} {off : Word}

theorem exec_cfgr_mapped {v : Word} (ha : s.flag .attached = true) (h : s.readReg off.toNat = some v) :
    exec (.cfgr off) s = .next (s.replied .ok (.value v)) := by
  show execCfgr off s = _
  simp only [execCfgr, ha, if_true, h, finish_eq]

theorem exec_cfgr_unmapped (ha : s.flag .attached = true) (h : s.readReg off.toNat = none) :
    exec (.cfgr off) s = .next (s.replied .badArg (.value 0)) := by
  show execCfgr off s = _
  simp only [execCfgr, ha, if_true, h, finish_eq]

/-- Without a session only STATUS answers OK (10_state.md R46). -/
theorem exec_cfgr_detached (ha : s.flag .attached = false) :
    exec (.cfgr off) s = .next (if off = 0x000 then s.replied .ok (.value 0) else s.replied .inactive (.value 0)) := by
  show execCfgr off s = _
  rw [execCfgr, if_neg (by simp [ha]), finish_eq, finish_eq]
  split <;> rfl

end cfgr

/-- Settles O42: the map of the statement is the model's register file, entry by entry. -/
theorem cfgrReadsMap : Obligations.CfgrReadsMap := by
  intro s off map
  have hmap : map = s.regMap := rfl
  refine ⟨Laws.LeadByte.cfgr off rfl, fun ha v hv => exec_cfgr_mapped ha (State.readReg_of_mem_regMap (hmap ▸ hv)),
    fun ha hv => exec_cfgr_unmapped ha ?_, exec_cfgr_detached⟩
  by_contra hsome
  obtain ⟨v, hread⟩ := Option.ne_none_iff_exists'.mp hsome
  exact hv v (hmap ▸ State.mem_regMap_of_readReg hread)

/-! ## MODESET -/

section modeset

variable {s : State} {m : ModeRegs} {split : Bool}

/-- MODESET's checks in order (46_frame_loop.md R233, 60_exceptions.md R253). -/
theorem exec_modeset_attached (ha : s.flag .attached = true) :
    exec (.modeset m.xres m.yres m.pixclock m.left m.right m.upper m.lower m.hsync m.vsync m.refresh split) s =
      if !s.deviceActive then raise s .inactive
      else if s.pool.held ≠ none then raise s .slotHeld
      else if !m.fits split then raise s .geometry
      else if s.pool.avail = 0 then .next (s.waitAt (.modeset m split))
      else modesetTake m split s :=
  inSession_of_attached ha

/-- A MODESET that waits goes on as soon as a slot is free (45_slot_pool.md R200). -/
theorem moveStep_producer_modeset (hp : s.pending = some (.modeset m split)) :
    moveStep .producer s = if s.pool.avail = 0 then .next s else modesetTake m split s := by
  simp only [moveStep, producerStep, hp, resume]

/-- The timeout of a MODESET is chosen only while no slot is free (45_slot_pool.md R201). -/
theorem moveStep_timeout_modeset (hp : s.pending = some (.modeset m split)) :
    moveStep .timeout s = if s.pool.avail = 0 then acquireTimeout s else .next s := by
  simp only [moveStep, timeoutStep, hp]

theorem ModeRegs.fits_of_not_rejected (h : ¬ m.Rejected split) : m.fits split = true := by
  rwa [← ModeRegs.fits_eq_false, Bool.not_eq_false] at h

end modeset

/-- Settles O43: the checks come in the order of the statement, and the wait is the last of them. -/
theorem modesetChecksAndWaits : Obligations.ModesetChecksAndWaits := by
  intro s m split ha request
  have hexec : exec request s = _ := exec_modeset_attached ha
  rw [← State.deviceActive]
  refine ⟨Laws.LeadByte.modeset _ _ _ _ _ _ _ _ _ _ _ rfl, fun hl => ?inactive, fun hl hh => ?slotHeld, fun hl hh hr => ?geometry,
    fun hl hh hr h0 => ?waits, fun hp h0 => ?waiting⟩
  case inactive => simp [hexec, hl, raise, finish_eq]
  case slotHeld => simp [hexec, hl, hh, raise, finish_eq]
  case geometry => simp [hexec, hl, hh, (ModeRegs.fits_eq_false m split).mpr hr, raise, finish_eq]
  case waits => simp [hexec, hl, hh, ModeRegs.fits_of_not_rejected hr, h0, State.waitAt]
  case waiting =>
    rw [moveStep_producer_modeset hp, moveStep_timeout_modeset hp, if_pos h0, if_pos h0, acquireTimeout, raise, finish_eq]
    exact ⟨rfl, rfl⟩

/-- A choice does not look at STATUS. -/
theorem State.afterDraw_setFlag (s : State) (f : StatusFlag) (b : Bool) :
    (s.setFlag f b).afterDraw = s.afterDraw.setFlag f b := by
  unfold State.afterDraw State.setFlag
  dsimp only
  split <;> rfl

/-- A choice does not look at the pool. -/
theorem State.afterDraw_withPool (s : State) (p : Pool) :
    ({ s with pool := p } : State).afterDraw = { s.afterDraw with pool := p } := by
  unfold State.afterDraw
  dsimp only
  split <;> rfl

/-- The MODESET stream fills the slot at the head of FREEQ (44_register_commands.md R187). -/
theorem modesetStream_filled {s : State} (m : ModeRegs) (split : Bool) {k : Nat} {rest : List Nat} {slot : Slot}
    (hp : s.cfg.Valid) (hq : s.pool.freeq = k :: rest) (hslot : s.pool.slots[k]? = some slot) :
    ∃ p, s.takeSlot.emit (modesetStream s.cfg m split) = { s with pool := p } ∧
      Pool.Filled s.pool p k (modesetStream s.cfg m split) := by
  have hlt : k < s.pool.slots.length := (List.getElem?_eq_some_iff.mp hslot).1
  have htake := State.takeSlot_eq hq
  obtain ⟨-, -, -, -, -, ⟨h144, -⟩, -⟩ := hp
  obtain ⟨hstate, hemitted⟩ := State.emit_emitted (s := s.takeSlot) (k := k) (bs := modesetStream s.cfg m split)
    (by rw [htake]) (by rw [htake]; simpa using hlt) (by simpa using h144)
  have hwith (p : Pool) : ({ s.takeSlot with pool := p } : State) = { s with pool := p } := by rw [htake]
  exact ⟨_, hstate.trans (hwith _), hemitted.filled hq hslot⟩

section modesetTake

variable {s : State} {m : ModeRegs} {split : Bool} {k : Nat} {rest : List Nat} {slot : Slot}

/-- MODESET from its acquire on: the filled slot is submitted and TRANSPORT's outcome decides (46_frame_loop.md R233). -/
theorem modesetTake_filled {p : Pool} (hstate : s.takeSlot.emit (modesetStream s.cfg m split) = { s with pool := p })
    (hheld : p.held = some k) : modesetTake m split s =
      if s.nextChoice then .next ((({ s with pool := p }.submitSlot k).latchMode m split).replied .ok .none)
      else .next (({ s with pool := p }.submitSlot k).replied .reject .none) := by
  simp only [modesetTake, hstate, hheld, succeed, raise, finish_eq]
  rfl

/-- The 144 bytes go into flight and the mode is latched (46_frame_loop.md R233). -/
theorem modesetTake_accepted (hp : s.cfg.Valid) (hq : s.pool.freeq = k :: rest) (hslot : s.pool.slots[k]? = some slot)
    (hc : s.nextChoice = true) :
    ∃ p, Pool.Sent s.pool p k (modesetStream s.cfg m split) ∧ modesetTake m split s = .next ({ s.afterDraw with
      pool := p
      mode := m
      base16 := 0
      base8 := modeBase8 m
      status := setBit (setBit s.status 4 split) 2 true
      counters := { s.counters with sent := s.counters.sent + 144 }
      events := s.events ++ [SubmitEvent.mk k 144 (modesetStream s.cfg m split)] }.replied .ok .none) := by
  obtain ⟨p, hstate, hfilled⟩ := modesetStream_filled m split hp hq hslot
  have hwptr : p.wptr = 144 := by rw [hfilled.wptr, length_modesetStream]; rfl
  have hbytes : p.slotBytes k p.wptr.toNat = modesetStream s.cfg m split := by
    rw [hwptr]
    simpa using hfilled.slotBytes
  refine ⟨_, hfilled.sent, ?_⟩
  rw [modesetTake_filled hstate hfilled.held, if_pos hc, State.submitSlot_accepted (s := { s with pool := p }) k hc,
    State.afterDraw_withPool]
  simp only [hbytes]
  simp only [State.latchMode, State.setFlag, StatusFlag.bit, hwptr, State.afterDraw_status]

/-- The slot goes back and the mode stays (46_frame_loop.md R233, R229). -/
theorem modesetTake_rejected (hp : s.cfg.Valid) (hq : s.pool.freeq = k :: rest) (hslot : s.pool.slots[k]? = some slot)
    (hc : s.nextChoice = false) :
    ∃ p, Pool.Returned s.cfg.slotBytes s.pool p k (modesetStream s.cfg m split) ∧ modesetTake m split s =
      .next ({ s.afterDraw with pool := p, status := setBit s.status 0 true }.replied .reject .none) := by
  obtain ⟨p, hstate, hfilled⟩ := modesetStream_filled m split hp hq hslot
  refine ⟨_, hfilled.returned _, ?_⟩
  rw [modesetTake_filled hstate hfilled.held, if_neg (by simp [hc]),
    State.submitSlot_rejected (s := { s with pool := p }) hfilled.lt hc, State.afterDraw_withPool]

end modesetTake

/-- MODESET takes the slot at once, or after its wait. -/
theorem modesetTake_of_request {s : State} {m : ModeRegs} {split : Bool} {out : Out} (hh : s.pool.held = none)
    (h0 : s.pool.avail ≠ 0)
    (h : (s.flag .attached = true ∧ s.link.getLsbD 0 = true ∧ ¬ m.Rejected split ∧ out = exec
        (.modeset m.xres m.yres m.pixclock m.left m.right m.upper m.lower m.hsync m.vsync m.refresh split) s) ∨
      (s.pending = some (.modeset m split) ∧ out = moveStep .producer s)) : out = modesetTake m split s := by
  rcases h with ⟨ha, hl, hr, rfl⟩ | ⟨hp, rfl⟩
  · rw [← State.deviceActive] at hl
    rw [exec_modeset_attached ha, if_neg (by simp [hl]), if_neg (not_not.mpr hh),
      if_neg (by simp [ModeRegs.fits_of_not_rejected hr]), if_neg h0]
  · rw [moveStep_producer_modeset hp, if_neg h0]

/-- Settles O44: TRANSPORT's draw decides between the latched mode and the slot given back. -/
theorem modesetLatchesOnAccept : Obligations.ModesetLatchesOnAccept := by
  intro s m split k rest slot out hp hh h0 hq hslot h
  obtain rfl := modesetTake_of_request hh h0 h
  refine ⟨fun hc => ?accepted, fun hc => modesetTake_rejected hp hq hslot hc⟩
  obtain ⟨p, hsent, htake⟩ := modesetTake_accepted (m := m) (split := split) hp hq hslot hc
  refine ⟨p, hsent, htake.trans ?_⟩
  cases split <;> rfl

/-! ## SETFB -/

/-- Settles O45: the two argument checks come first, and the draw decides about the backing buffer. -/
theorem setfbDescribesFramebuffer : Obligations.SetfbDescribesFramebuffer := by
  intro s pitch bpp vx vy width height ha request bad
  have hexec (backing : Bool) : exec (request backing) s = _ := inSession_of_attached ha
  have hgood (h : ¬ bad) : bpp = 32 ∧ ¬ (width = 0 ∨ height = 0 ∨ pitch.toNat < 4 * (vx.toNat + width.toNat)) := by
    simpa only [bad, ne_eq, not_or, not_not] using h
  refine ⟨fun backing => ⟨Laws.LeadByte.setfb _ _ _ _ _ _ _ rfl, fun hbad => ?bad⟩, fun h => ?plain, fun h hc => ?backed,
    fun h hc => ?failed⟩
  case bad =>
    rw [hexec]
    by_cases hbpp : bpp = 32
    · rw [if_neg (not_not.mpr hbpp), if_pos (hbad.resolve_left (not_not.mpr hbpp)), raise, finish_eq]
    · rw [if_pos hbpp, raise, finish_eq]
  all_goals
    obtain ⟨hbpp, hfits⟩ := hgood h
    rw [hexec, if_neg (not_not.mpr hbpp), if_neg hfits]
  case plain =>
    rw [if_neg (by decide), succeed, finish_eq]
    rfl
  case backed =>
    rw [if_pos rfl, if_pos hc, succeed, finish_eq, State.latchFb, State.setFlag, State.setFlag]
    simp only [State.afterDraw_status]
    rfl
  case failed => rw [if_pos rfl, if_neg (by simp [hc]), raise, finish_eq]

/-! ## ATTACH and DETACH -/

/-- Settles O47: ATTACH creates the session of 10_state.md R45, with a fresh pool. -/
theorem attachCreatesSession : Obligations.AttachCreatesSession := by
  refine fun s => ⟨Laws.LeadByte.attach rfl, fun ha => ?attached,
    fun ha => ⟨(Pool.fresh s.cfg s.drawCount).slots, ?count, ?slots, ?created⟩⟩
  case attached =>
    show execAttach s = _
    rw [execAttach, if_pos ha, raise, finish_eq]
  case count => simp [Pool.fresh]
  case slots => simp [Pool.fresh]
  case created =>
    show execAttach s = _
    rw [execAttach, if_neg (by simp [ha]), succeed, finish_eq]
    rfl

/-- DETACH once a held slot is released (46_frame_loop.md R237). -/
theorem exec_detach_attached {s : State} (ha : s.flag .attached = true) :
    exec .detach s =
      let released := match s.pool.held with
        | some k => s.releaseSlot k
        | none => s
      if released.pool.inflight = 0 then detachDone released else .next (released.waitAt .detach) :=
  inSession_of_attached ha

/-- Settles O48: a held slot is given back first, and the session ends once nothing is in flight. -/
theorem detachDrainsPool : Obligations.DetachDrainsPool := by
  refine ⟨fun s pool ha hpool => ?request, fun s hp => ?wait⟩
  case request =>
    have hreleased : (match s.pool.held with
        | some k => s.releaseSlot k
        | none => s) = { s with pool := pool } := by
      rcases hpool with ⟨hh, rfl⟩ | ⟨k, slot, hk, hslot, rfl⟩
      · rw [hh]
      · rw [hk]
        dsimp only
        rw [State.releaseSlot_eq, Pool.giveBack_unheld hslot]
    rw [exec_detach_attached ha, hreleased]
    rfl
  case wait =>
    simp only [moveStep, timeoutStep, producerStep, hp, resume]
    exact ⟨ite_self _, rfl⟩

end Sys2Proof.Machine
end

section
/-!
PROOFS. How a frame operation begins, waits and ends (46_frame_loop.md R220, R225 to R230).
-/

namespace Sys2Proof.Machine

/-! ## The checks -/

section frame

variable {s : State} {x y w h color : Word}

theorem exec_renderFrame_attached (ha : s.flag .attached = true) :
    exec (.renderFrame x y w h) s =
      if !s.deviceActive then raise s .inactive
      else if !(s.flag .modeValid && s.flag .fbValid) then raise s .noMode
      else if s.pool.held ≠ none then raise s .slotHeld
      else
        let x0 := min x.toNat s.visibleWidth
        let x1 := min (x.toNat + w.toNat) s.visibleWidth
        let y0 := min y.toNat s.visibleHeight
        let y1 := min (y.toNat + h.toNat) s.visibleHeight
        if x0 = x1 ∨ y0 = y1 then succeed s else frameLoop (.framebuffer s.hostFb) x0 x1 y0 y1 s :=
  inSession_of_attached ha

theorem exec_fillFrame_attached (ha : s.flag .attached = true) :
    exec (.fillFrame color) s =
      if !s.deviceActive then raise s .inactive
      else if !s.flag .modeValid then raise s .noMode
      else if s.pool.held ≠ none then raise s .slotHeld
      else frameLoop (.fill color) 0 s.mode.xres.toNat 0 s.mode.yres.toNat s :=
  inSession_of_attached ha

end frame

/-- A frame operation that passes its checks runs its lines with FRAME_BUSY set (46_frame_loop.md R220, R227). -/
theorem FrameStarts.exec_eq {i : Instr} {s : State} {f : FrameCtx} (h : FrameStarts i s f) :
    f.phase = .line ∧ exec i s = runLines (f.yEnd - f.y) f (s.setFlag .frameBusy true) := by
  obtain ⟨ha, hl, hm, hh, hy, ⟨x, y, w, h, rfl, hfb, hx, hf⟩ | ⟨color, rfl, hf⟩⟩ := h
  · subst hf
    refine ⟨rfl, ?_⟩
    rw [exec_renderFrame_of_visible ha hl hm hfb hh (Nat.ne_of_lt hx) (Nat.ne_of_lt hy)]
    rfl
  · subst hf
    refine ⟨rfl, ?_⟩
    rw [← State.deviceActive] at hl
    rw [exec_fillFrame_attached ha]
    simp [hl, hm, hh]
    rfl

/-- Lines that begin without a free slot wait before the first of them (46_frame_loop.md R225). -/
theorem runLines_waits {f : FrameCtx} {s : State} (hy : f.y < f.yEnd) (hphase : f.phase = .line) (hh : s.pool.held = none)
    (h0 : s.pool.avail = 0) : runLines (f.yEnd - f.y) f s = .next (s.waitAt (.frame f)) := by
  obtain ⟨n, hn⟩ := Nat.exists_eq_add_of_lt hy
  rw [show f.yEnd - f.y = n + 1 by omega, runLines, if_pos ⟨hh, h0⟩, ← hphase]

/-- A frame operation that waits goes on as soon as a slot is free (45_slot_pool.md R200). -/
theorem moveStep_producer_frame {s : State} {f : FrameCtx} (hp : s.pending = some (.frame f)) :
    moveStep .producer s = if s.pool.avail = 0 then .next s else resumeFrame f s := by
  simp only [moveStep, producerStep, hp, resume]

/-- Settles O35: the checks come in the order of the statement, and the first AcquireF is the first line's. -/
theorem frameOpsCheckFirst : Obligations.FrameOpsCheckFirst := by
  intro s x y w h color ha
  have hrender := exec_renderFrame_attached (x := x) (y := y) (w := w) (h := h) ha
  have hfill := exec_fillFrame_attached (color := color) ha
  rw [← State.deviceActive, hrender, hfill]
  refine ⟨Laws.LeadByte.renderFrame _ _ _ _ rfl, Laws.LeadByte.fillFrame _ rfl, fun hl => ?inactive, fun hl hm => ?noMode,
    fun hl hfb => ?noFb, fun hl hm hh => ?slotHeld, fun hl hm hfb hh hempty => ?empty, fun i f hf h0 => ?waits,
    fun f hp h0 => ?waiting⟩
  case inactive => simp [hl, raise, finish_eq]
  case noMode => simp [hl, hm, raise, finish_eq]
  case noFb => simp [hl, hfb, raise, finish_eq]
  case slotHeld => exact ⟨by simp [hl, hm, hh, raise, finish_eq], fun hfb => by simp [hl, hm, hfb, hh, raise, finish_eq]⟩
  case empty =>
    rw [if_neg (by simp [hl]), if_neg (by simp [hm, hfb]), if_neg (not_not.mpr hh)]
    exact (if_pos hempty).trans (by rw [succeed, finish_eq])
  case waits =>
    obtain ⟨hphase, hexec⟩ := hf.exec_eq
    obtain ⟨-, -, -, hh, hy, -⟩ := hf
    exact hexec.trans (runLines_waits hy hphase hh h0)
  case waiting => rw [moveStep_producer_frame hp, if_pos h0]

/-! ## Timeouts and the end -/

/-- EndOfFrame without a slot (46_frame_loop.md R225, R226). -/
theorem endOfFrame_unheld {s : State} (hh : s.pool.held = none) :
    endOfFrame s = .next (((s.afterDraw.countCpu s.nextDraw).setFlag .frameBusy false).replied .ok .none) := by
  simp only [endOfFrame, hh, succeed, finish_eq]

/-- The timeout of a frame operation is chosen only while no slot is free (45_slot_pool.md R201). -/
theorem moveStep_timeout_frame {s : State} {f : FrameCtx} (hp : s.pending = some (.frame f)) (h0 : s.pool.avail = 0) :
    moveStep .timeout s = timeoutFrame f s := by
  simp only [moveStep, timeoutStep, hp, h0, if_true]

/-- Settles O39: the next line waits as the first one did; with none left, or at the second timeout, the frame ends without a
slot. -/
theorem frameTimeoutLosesLine : Obligations.FrameTimeoutLosesLine := by
  intro s f hp hh h0
  rw [moveStep_timeout_frame hp h0]
  refine ⟨fun ht hy => ?goesOn, fun hend => ?ends⟩
  case goesOn =>
    rw [timeoutFrame, if_neg ht]
    exact runLines_waits (f := { f with t := f.t + 1, y := f.y + 1, phase := .line }) hy rfl hh h0
  case ends =>
    have hlast : timeoutFrame f s = endOfFrame (s.setFlag .lostPixels true) := by
      rw [timeoutFrame]
      rcases hend with ht | hy
      · rw [if_pos ht]
      · split
        · rfl
        · rw [nextLines, show f.yEnd - (f.y + 1) = 0 by omega, runLines]
    rw [hlast, endOfFrame_unheld (s := s.setFlag .lostPixels true) hh, State.afterDraw_setFlag, State.setFlag, State.setFlag,
      State.countCpu]
    simp only [State.afterDraw_status, State.afterDraw_counters]
    rfl

/-- A waiting frame operation that goes on to its end. -/
theorem FrameEnds.of_done {s t : State} {f : FrameCtx} (h : FrameEnds s f t) (hdone : t.pending = none) :
    t.pool.held = none ∧ t.flag .frameBusy = false ∧ t.replies = s.replies ++ [⟨.ok, .none⟩] := by
  rcases h.ends with ⟨hr, -, hb, hh⟩ | ⟨-, -, g, hp, -⟩
  · exact ⟨hh, hb, hr⟩
  · rw [hdone] at hp
    cases hp

/-- A check in front of a request answers its status, or the request goes on. -/
theorem check_cases {c : Prop} [Decidable c] {s t : State} {st : StatusCode} {body : Out} (hst : st ≠ .ok)
    (h : (if c then raise s st else body) = .next t) :
    (∃ st, st ≠ .ok ∧ t = s.replied st .none) ∨ (¬ c ∧ body = .next t) := by
  split at h
  · exact .inl ⟨st, hst, raise_eq_next.mp h⟩
  · next hc => exact .inr ⟨hc, h⟩

/-- Everything a frame request can do: a check answers another status than OK, RENDER_FRAME of an empty rectangle answers OK
without a slot, or the lines run. -/
theorem exec_frame_cases {i : Instr} {s t : State}
    (hi : (∃ x y w h, i = .renderFrame x y w h) ∨ (∃ color, i = .fillFrame color)) (ht : exec i s = .next t) :
    (∃ st, st ≠ .ok ∧ t = s.replied st .none) ∨ (s.pool.held = none ∧ t = s.replied .ok .none) ∨
      ∃ source x0 x1 y0 y1, frameLoop source x0 x1 y0 y1 s = .next t := by
  rcases hi with ⟨x, y, w, h, rfl⟩ | ⟨color, rfl⟩
  · refine (check_cases (c := ¬ s.flag .attached = true) (by decide) ((ite_not ..).trans ht)).elim .inl fun ⟨ha, _⟩ => ?_
    rw [exec_renderFrame_attached (not_not.mp ha)] at ht
    refine (check_cases (by decide) ht).elim .inl fun ⟨_, ht⟩ => ?_
    refine (check_cases (by decide) ht).elim .inl fun ⟨_, ht⟩ => ?_
    refine (check_cases (by decide) ht).elim .inl fun ⟨hh, ht⟩ => ?_
    dsimp only at ht
    split at ht
    · exact .inr (.inl ⟨not_not.mp hh, succeed_eq_next.mp ht⟩)
    · exact .inr (.inr ⟨_, _, _, _, _, ht⟩)
  · refine (check_cases (c := ¬ s.flag .attached = true) (by decide) ((ite_not ..).trans ht)).elim .inl fun ⟨ha, _⟩ => ?_
    rw [exec_fillFrame_attached (not_not.mp ha)] at ht
    refine (check_cases (by decide) ht).elim .inl fun ⟨_, ht⟩ => ?_
    refine (check_cases (by decide) ht).elim .inl fun ⟨_, ht⟩ => ?_
    exact (check_cases (by decide) ht).elim .inl fun ⟨_, ht⟩ => .inr (.inr ⟨_, _, _, _, _, ht⟩)

/-- Settles O40: a frame operation is answered by its checks, or ends as `FrameEnds` says. -/
theorem frameOpsLeaveNoSlot : Obligations.FrameOpsLeaveNoSlot := by
  refine ⟨fun i s t hi ht hr => ?request, fun m s t f hp ht hdone => ?wait⟩
  case request =>
    rcases exec_frame_cases hi ht with ⟨st, hst, rfl⟩ | ⟨hh, rfl⟩ | ⟨source, x0, x1, y0, y1, hrun⟩
    · simp [hst] at hr
    · exact hh
    · rcases (frameLoop_ends hrun).ends with ⟨-, -, -, hh⟩ | ⟨hsame, -⟩
      · exact hh
      · rw [hr] at hsame
        simp at hsame
  case wait =>
    cases moveStep_effect ht with
    | frameGoesOn _ g _ _ hsome hrun => exact (resumeFrame_ends hsome hrun).of_done hdone
    | frameTimesOut _ g _ _ _ hrun => exact (timeoutFrame_ends hrun).of_done hdone
    | transported _ i _ _ _ hi he =>
      rcases he.transport hi with ⟨-, k, rfl⟩ | ⟨-, rfl⟩ <;> simp [hp] at hdone
    | acquireTimesOut _ hw => simp [hp] at hw
    | ran _ _ _ _ _ hfree | acquireEnds _ hfree | modesetEnds _ _ _ _ hfree | detachEnds _ hfree => simp [hp] at hfree
    | idle | refused | issued | hostWrote | read => simp [hp] at hdone

end Sys2Proof.Machine
end

section
/-!
PROOFS. FILL_FRAME of one line (46_frame_loop.md R227): every pixel in the colour, without cursor and without differencing.
-/

namespace Sys2Proof.Machine

/-! ## The line of FILL_FRAME -/

section

variable {s : State} {color : Word} {width y yEnd t : Nat}

/-- FILL_FRAME sends the whole width in the colour (46_frame_loop.md R227, 43_cursor_blend.md R165). -/
theorem narrowedPixels_fill : narrowedPixels s ⟨.fill color, 0, width, y, yEnd, t, .line⟩ = List.replicate width color := by
  have hline : linePixels s ⟨.fill color, 0, width, y, yEnd, t, .line⟩ = List.replicate width color := by
    simp [linePixels, sourcePixels, List.map_const']
  simp [narrowedPixels, hline, lineRange, wholeSegment]

theorem firstColumn_fill :
    firstColumn ⟨.fill color, 0, width, y, yEnd, t, .line⟩
      (lineRange s ⟨.fill color, 0, width, y, yEnd, t, .line⟩) = 0 := by
  simp [firstColumn, lineRange, wholeSegment]

/-- The 16-bit channel of FILL_FRAME's line. -/
theorem lineRun16_fill : lineRun16 s ⟨.fill color, 0, width, y, yEnd, t, .line⟩ =
    encodeRun s.cfg ⟨2, s.cfg.op16, bytesBe16⟩ 0 (List.replicate width (split16 color)) 0 (s.a16 0 y) := by
  rw [lineRun16, narrowedPixels_fill, firstColumn_fill, List.map_replicate]
  rfl

/-- The 8-bit channel of FILL_FRAME's line. -/
theorem lineRun8_fill : lineRun8 s ⟨.fill color, 0, width, y, yEnd, t, .line⟩ =
    encodeRun s.cfg ⟨1, s.cfg.op8, byte1⟩ (lineRun16 s ⟨.fill color, 0, width, y, yEnd, t, .line⟩).bytes.length
      (List.replicate width (split8 color)) 0 (s.a8 0 y) := by
  rw [lineRun8, narrowedPixels_fill, firstColumn_fill, List.map_replicate]
  rfl

end

/-- A byte of pixels that are all one colour, lowest byte first (20_memory.md R62). -/
theorem getElem?_replicate_bytesLe32 (n : Nat) (color : Word) {j : Nat} (hj : j < 4 * n) :
    ((List.replicate n color).flatMap bytesLe32)[j]? = some (color.extractLsb' (8 * (j % 4)) 8) := by
  induction n generalizing j with
  | zero => omega
  | succ n ih =>
    rw [List.replicate_succ, List.flatMap_cons]
    have hlen : (bytesLe32 color).length = 4 := rfl
    by_cases h : j < 4
    · rw [List.getElem?_append_left (by omega)]
      interval_cases j <;> rfl
    · rw [List.getElem?_append_right (by omega), hlen, ih (by omega), show (j - 4) % 4 = j % 4 by omega]

/-- A byte of BACKING after FILL_FRAME's line: the colour is in the visible columns of a visible line (46_frame_loop.md R227). -/
theorem read_nextBacking_fill {s : State} {f : FrameCtx} {color : Word} (hsource : f.source = .fill color) (a : Nat) :
    Memory.read (nextBacking s f).cells (.buffer (nextBacking s f).tag) a =
      if s.flag .backingEn = true ∧ f.y < s.fbReg.height.toNat ∧ s.pixelOffset 0 f.y ≤ a ∧
          a < s.pixelOffset 0 f.y + 4 * min s.mode.xres.toNat s.fbReg.width.toNat then
        color.extractLsb' (8 * ((a - s.pixelOffset 0 f.y) % 4)) 8
      else s.backingByte a := by
  by_cases hvisible : s.flag .backingEn = true ∧ f.y < s.fbReg.height.toNat
  · obtain ⟨hen, hy⟩ := hvisible
    have hbacking : nextBacking s f = fillBacking s f color := by simp [nextBacking, hen, hsource, hy]
    rw [hbacking, fillBacking, Buf.storeList, Memory.read_storeList, length_flatMap_bytesLe32, List.length_replicate]
    simp only [hen, hy, true_and]
    split
    · next h => rw [getElem?_replicate_bytesLe32 _ _ (by omega), Option.getD_some]
    · rfl
  · have hbacking : nextBacking s f = s.backing := by
      simp only [nextBacking, hsource]
      split
      · next hen => exact if_neg fun hy => hvisible ⟨hen, hy⟩
      · rfl
    rw [hbacking, if_neg fun h => hvisible ⟨h.1, h.2.1⟩]
    rfl

/-- Settles O38: FILL_FRAME runs the frame loop over its one line, whose pixels are all the colour. -/
theorem fillSendsLine : Obligations.FillSendsLine := by
  intro s color k rest slot hp hattached hlink hmode hheld havail hq hslot hx hy width o0 r16 r8 bytes h16 h8
  have hexec : exec (.fillFrame color) s = frameLoop (.fill color) 0 width 0 (0 + 1) s := by
    rw [exec_fillFrame_attached hattached]
    simp [State.deviceActive, hlink, hmode, hheld, hy, width]
  have hrun16 : lineRun16 s ⟨.fill color, 0, width, 0, 0 + 1, 0, .line⟩ = r16 := lineRun16_fill
  have hrun8 : lineRun8 s ⟨.fill color, 0, width, 0, 0 + 1, 0, .line⟩ = r8 := by rw [lineRun8_fill, hrun16]
  have hwidth : width ≠ 0 := fun h => hx (BitVec.eq_of_toNat_eq h)
  obtain ⟨t, ht, hsent⟩ := frameLoop_sends_line (source := .fill color) (x0 := 0) (x1 := width) (y := 0) hp hheld havail hq
    hslot (Nat.mul_ne_zero (by decide) hwidth) ⟨hrun16 ▸ h16, hrun8 ▸ h8⟩
  have hstream : lineStream s ⟨.fill color, 0, width, 0, 0 + 1, 0, .line⟩ = bytes := by rw [lineStream, hrun16, hrun8]
  rw [hstream] at hsent
  refine ⟨t, hexec.trans ht, hsent.kept, hsent.accepted, hsent.rejected, hsent.rendered, ?_, hsent.cpu, hsent.pending,
    hsent.replies, hsent.draws, hsent.drawCount, fun a => ?_⟩
  · exact hsent.identical.trans (by simp [lineRange, wholeSegment])
  · rw [State.backingByte, hsent.backing, read_nextBacking_fill rfl]
    have hheight : 0 < s.fbReg.height.toNat ↔ s.fbReg.height ≠ 0 := by
      rw [Nat.pos_iff_ne_zero, ne_eq, ne_eq, BitVec.toNat_eq]
      rfl
    simp only [hheight]
    rfl

end Sys2Proof.Machine
end

section
/-!
PROOFS. A FILL_FRAME that waits with no columns (46_frame_loop.md R227): the pool rules leave its local variables open, and there the
elided line of the model and the line of `FrameWork.addLine` differ in what they do to BACKING.
-/

namespace Sys2Proof.Machine

/-- A FILL_FRAME that waits before its one line and has no columns. No request leaves it behind: FILL_FRAME starts with the columns
of the mode, and MODESET refuses a mode without any (46_frame_loop.md R227, R233). -/
def emptyFill : FrameCtx := ⟨.fill 7, 0, 0, 0, 1, 0, .line⟩

/-- A session with a mode of 4 columns, a framebuffer of the same width and a backing buffer, right after ATTACH for the rest. -/
def State.backedSession : State :=
  { State.reset.createSession with
    status := 0x0000006E
    link := 1
    mode := ⟨4, 1, 39721, 1, 1, 1, 1, 1, 1, 60⟩
    fbReg := ⟨16, 32, 0, 0, 4, 1⟩
    backing := ⟨[], 4⟩
    draws := [0] }

theorem poolInv_emptyFill : PoolInv (State.backedSession.waitAt (.frame emptyFill)) := by
  have hsound : State.backedSession.pool.Sound Params.default.slotCount Params.default.slotBytes :=
    Pool.Sound.fresh Params.default 0 (by decide) (by decide)
  exact PoolOk.waitAt ⟨by decide, hsound⟩ (by decide) rfl _

/-- The model elides the line, having nothing to send, and leaves BACKING alone. -/
theorem backing_after_emptyFill :
    ∃ t, moveStep .producer (State.backedSession.waitAt (.frame emptyFill)) = .next t ∧ t.backing.cells = [] :=
  ⟨_, rfl, rfl⟩

/-- What FILL_FRAME does to BACKING by itself: the colour goes to the visible columns, whatever the columns of the frame. -/
theorem workLeft_emptyFill :
    let work := emptyFill.workLeft (State.backedSession.waitAt (.frame emptyFill))
    work.packing.full = [] ∧ work.backing.cells ≠ [] := by
  decide +kernel

/-- Refutes O60: a waiting FILL_FRAME without columns is elided and leaves BACKING alone, where the statement wants the colour in
the visible columns. The statement admits any waiting frame; it lacks the premise that the frame has a column, `f.x0 < f.x1`. -/
theorem not_frameSendsItsSlots : ¬ Obligations.FrameSendsItsSlots := by
  intro h
  obtain ⟨hfull, hbacking⟩ := workLeft_emptyFill
  obtain ⟨hends, -⟩ := h (State.backedSession.waitAt (.frame emptyFill)) emptyFill _ _ poolInv_emptyFill (by decide)
    (.inr ⟨rfl, fun _ => Nat.zero_lt_one, rfl, rfl⟩)
  obtain ⟨t, ht, -, -, -, hsame, -⟩ := hends (by rw [hfull]; decide)
  obtain ⟨u, hu, hempty⟩ := backing_after_emptyFill
  obtain rfl := Host.Outcome.next.inj (ht.symm.trans hu)
  exact hbacking (hsame ▸ hempty)

end Sys2Proof.Machine
end

section
/-!
PROOFS. What a request may end with (60_exceptions.md): exactly one status or a wait (R250), a next state whatever the status (R251),
E_INACTIVE without a session (R252), and no fault as long as TRANSPORT completes only slots in flight (R257).
-/

namespace Sys2Proof.Machine

/-! ## Without a session (R252) -/

/-- Every request but ATTACH and CFGR stands behind the session check. -/
theorem exec_eq_inSession {i : Instr} (hi : i.agent = .host) (hattach : i ≠ .attach) (hcfgr : ∀ off, i ≠ .cfgr off) (s : State) :
    ∃ body, exec i s = inSession s body := by
  cases i with
  | attach => exact absurd rfl hattach
  | cfgr off => exact absurd rfl (hcfgr off)
  | complete | wRun16 | wRun8 | wRegw | wPad => cases hi
  | _ => exact ⟨_, rfl⟩

/-- Settles O7: the session check answers for all requests but CFGR, which has its own. -/
theorem sessionCheck : Obligations.SessionCheck := by
  refine ⟨fun i s hi hattach hcfgr ha => ?_, fun off s ha hoff => ?_, fun s ha => ?_⟩
  · obtain ⟨body, hbody⟩ := exec_eq_inSession hi hattach hcfgr s
    rw [hbody, inSession_of_detached ha]
  · rw [exec_cfgr_detached ha, if_neg hoff]
  · rw [exec_cfgr_detached ha, if_pos rfl]

/-! ## No step stops (R251) -/

/-- Settles O8: every part of a step answers, and under a legal configuration every frame operation ends or waits. -/
theorem noStepStops : Obligations.NoStepStops :=
  ⟨fun _ hm => answers_step hm, fun _ _ hv hi => answers_exec hi hv⟩

/-! ## One status (R250) -/

/-- HOST receives exactly one status, and nothing waits any more. -/
def EndsOnce (s t : State) : Prop := ∃ r, t.replies = s.replies ++ [r] ∧ t.pending = none

/-- The request has no status yet and stands at its wait point. -/
def Waits (s t : State) : Prop := t.replies = s.replies ∧ t.pending ≠ none

theorem EndsOnce.replied {s u : State} (h : u.replies = s.replies) (st : StatusCode) (r : Result) :
    EndsOnce s (u.replied st r) :=
  ⟨⟨st, r⟩, by rw [State.replied_replies, h], rfl⟩

theorem Waits.waitAt {s u : State} (h : u.replies = s.replies) (p : Pending) : Waits s (u.waitAt p) := ⟨h, nofun⟩

theorem FrameEnds.endsOrWaits {s t : State} {f : FrameCtx} (h : FrameEnds s f t) : EndsOnce s t ∨ Waits s t := by
  rcases h.ends with ⟨hr, hp, -⟩ | ⟨hr, -, g, hp, -⟩
  · exact .inl ⟨_, hr, hp⟩
  · exact .inr ⟨hr, by simp [hp]⟩

theorem frameLoop_endsOrWaits {source : FrameSource} {x0 x1 y0 y1 : Nat} {s t : State}
    (ht : frameLoop source x0 x1 y0 y1 s = .next t) : EndsOnce s t ∨ Waits s t :=
  (frameLoop_ends ht).endsOrWaits

theorem modesetTake_endsOnce {m : ModeRegs} {split : Bool} {s t : State} (ht : modesetTake m split s = .next t) :
    EndsOnce s t := by
  rcases modesetTake_cases ht with ⟨k, -, ⟨-, rfl⟩ | ⟨-, rfl⟩⟩ | ⟨-, rfl⟩ <;> exact .replied (by simp) _ _

/-- Every HOST request ends with one status or waits. -/
theorem Effect.endsOrWaits {i : Instr} {s t : State} (h : Effect i s t) (hi : i.agent = .host) : EndsOnce s t ∨ Waits s t := by
  cases h with
  | completed | completeIgnored => cases hi
  | device _ _ _ hdevice => rw [hdevice] at hi; cases hi
  | acquireWaits | modesetWaits => exact .inr (.waitAt rfl _)
  | rendered _ _ _ _ _ _ _ _ _ _ _ _ _ _ _ _ _ _ ht => exact frameLoop_endsOrWaits ht
  | filled _ _ _ _ _ _ ht => exact frameLoop_endsOrWaits ht
  | modesetTakes _ _ _ _ _ _ _ _ ht => exact .inl (modesetTake_endsOnce ht)
  | detachWaits _ u _ hu => rcases hu with ⟨-, rfl⟩ | ⟨k, -, rfl⟩ <;> exact .inr (.waitAt rfl _)
  | detaches _ u _ hu => rcases hu with ⟨-, rfl⟩ | ⟨k, -, rfl⟩ <;> exact .inl (.replied rfl _ _)
  | answered | wrote | encoded16 | encoded8 | acquired | submitted | released | cleared | linked | fbPlain | fbBacked
  | fbFailed | cursorSet | attaches => exact .inl (.replied (by simp) _ _)

/-- A move gives HOST one status and ends the request with it, or gives none. -/
theorem MoveEffect.endsOrSilent {m : Move} {s t : State} (h : MoveEffect m s t) : t.replies = s.replies ∨ EndsOnce s t := by
  have silent (hw : EndsOnce s t ∨ Waits s t) : t.replies = s.replies ∨ EndsOnce s t := hw.symm.imp_left And.left
  cases h with
  | ran _ _ _ _ _ _ _ _ hi he => exact silent (he.endsOrWaits hi)
  | modesetEnds _ _ _ _ _ _ ht => exact .inr (modesetTake_endsOnce ht)
  | frameGoesOn _ _ _ _ hsome ht => exact silent (resumeFrame_ends hsome ht).endsOrWaits
  | frameTimesOut _ _ _ _ _ ht => exact silent (timeoutFrame_ends ht).endsOrWaits
  | transported _ _ _ _ _ hi he =>
    rcases he.transport hi with ⟨-, k, rfl⟩ | ⟨-, rfl⟩
    · exact .inl (by simp)
    · exact .inl rfl
  | acquireEnds | detachEnds | acquireTimesOut => exact .inr (.replied (by simp) _ _)
  | idle | refused | issued | hostWrote | read => exact .inl (by simp)

/-- Settles O6, by the case analyses of what one request and one move can do. -/
theorem requestsEndWithOneStatus : Obligations.RequestsEndWithOneStatus := by
  refine ⟨fun i s t hi h => (exec_effect h).endsOrWaits hi, fun s t h => ?_⟩
  rcases step_effect h with ⟨-, rfl⟩ | ⟨-, u, hu, rfl⟩
  · exact .inl (by simp)
  · simpa [EndsOnce] using hu.endsOrSilent

/-! ## Faults (R257) -/

/-- FAULTS holds the same reasons in both states; REFUSED, the fourth mark, may differ. -/
structure SameFaults (s t : State) : Prop where
  poolInvariant : t.marks.poolInvariant = s.marks.poolInvariant
  badComplete : t.marks.badComplete = s.marks.badComplete
  emitOverflow : t.marks.emitOverflow = s.marks.emitOverflow

theorem SameFaults.of_marks {s t : State} (h : t.marks = s.marks) : SameFaults s t := by constructor <;> rw [h]

/-- Under the pool rules no HOST request and no reader's command touches the marks: what is emitted fits, and a slot is taken only
where one is free. -/
theorem Effect.marks {i : Instr} {s t : State} (h : Effect i s t) (hs : PoolInv s) (hi : i.agent ≠ .transport) :
    t.marks = s.marks := by
  cases h with
  | completed | completeIgnored => exact absurd rfl hi
  | wrote _ _ regs ha hh fits =>
    obtain ⟨k, hk⟩ := Option.ne_none_iff_exists'.mp hh
    have hwptr := hs.wptrLe
    unfold State.room at fits
    exact ((hs.run ha).emit hk (by omega)).1.marks
  | encoded16 vals k addr _ ha hh =>
    have hslot : WithSlot s.cfg s.marks s := ⟨hs.run ha, Option.ne_none_iff_exists'.mp hh⟩
    exact (hslot.encode (channel16_wide s.cfg) (.inr rfl) vals k.toNat addr).1.marks
  | encoded8 vals k addr _ ha hh =>
    have hslot : WithSlot s.cfg s.marks s := ⟨hs.run ha, Option.ne_none_iff_exists'.mp hh⟩
    exact (hslot.encode (channel8_wide s.cfg) (.inl rfl) vals k.toNat addr).1.marks
  | acquired _ ha hh hsome => exact ((hs.run ha).take hh hsome).1.marks
  | submitted _ k ha hk filled => exact ((hs.run ha).submit hk filled).1.marks
  | rendered _ _ _ _ _ _ _ _ _ _ ha _ _ hh _ _ _ _ ht => exact (frameLoop_pool (hs.run ha) hh ht).1.marks
  | filled _ _ _ ha _ hh ht => exact (frameLoop_pool (hs.run ha) hh ht).1.marks
  | modesetTakes _ _ _ _ ha hh _ hsome ht => exact (modesetTake_pool (hs.run ha) hh hsome ht).1.marks
  | detachWaits _ u _ hu => rcases hu with ⟨-, rfl⟩ | ⟨k, -, rfl⟩ <;> rfl
  | detaches _ u _ hu => rcases hu with ⟨-, rfl⟩ | ⟨k, -, rfl⟩ <;> rfl
  | answered | acquireWaits | released | cleared | linked | modesetWaits | fbPlain | fbBacked | fbFailed | cursorSet | attaches
  | device => simp

/-- COMPLETE of a slot in flight records nothing (45_slot_pool.md R205). -/
theorem State.completeSlot_marks {s : State} {k : Nat} (hk : s.inFlight k) : (s.completeSlot k).marks = s.marks := by
  obtain ⟨slot, hslot, hstate⟩ := hk
  rw [State.completeSlot_eq hslot hstate]

/-- Under the pool rules a move records no fault where each COMPLETE within a session is of a slot in flight. -/
theorem MoveEffect.sameFaults {m : Move} {s t : State} (h : MoveEffect m s t) (hs : PoolInv s)
    (hm : ∀ record k, m = .transport record → decode s.cfg record = .ok (.complete k) → s.flag .attached = true → s.inFlight k) :
    SameFaults s t := by
  cases h with
  | refused => exact ⟨rfl, rfl, rfl⟩
  | ran _ record rest i _ _ _ _ hi he =>
    have hmarks := he.marks (hs.of_eq rfl rfl rfl id) (by rw [hi]; decide)
    exact .of_marks hmarks
  | acquireEnds _ hp hsome =>
    obtain ⟨ha, hh⟩ := hs.waiting (by simp [hp])
    exact .of_marks ((hs.run ha).take hh hsome).1.marks
  | modesetEnds _ _ _ _ hp hsome ht =>
    obtain ⟨ha, hh⟩ := hs.waiting (by simp [hp])
    exact .of_marks (modesetTake_pool (hs.run ha) hh hsome ht).1.marks
  | frameGoesOn _ f _ hp hsome ht =>
    obtain ⟨ha, hh⟩ := hs.waiting (by simp [hp])
    have hrun := (poolRun_rule s.cfg s.marks f).resumeFrame ⟨rfl, rfl, rfl, rfl⟩ ⟨hs.run ha, hh⟩ hsome ht
    exact .of_marks hrun.1.marks
  | frameTimesOut _ f _ hp _ ht =>
    obtain ⟨ha, hh⟩ := hs.waiting (by simp [hp])
    have hrun := (poolRun_rule s.cfg s.marks f).timeoutFrame ⟨rfl, rfl, rfl, rfl⟩ ⟨hs.run ha, hh⟩ ht
    exact .of_marks hrun.1.marks
  | transported record _ i _ hd hi he =>
    obtain ⟨k, rfl⟩ := Instr.eq_complete hi
    cases he with
    | completed _ _ ha => exact .of_marks (State.completeSlot_marks (hm record k rfl hd ha))
    | completeIgnored => exact .of_marks rfl
    | answered _ _ _ _ hhost => cases hhost
    | wrote _ _ _ _ _ _ hhost => cases hhost
    | device _ _ _ hdevice => cases hdevice
  | idle | issued | hostWrote | detachEnds | acquireTimesOut | read => exact .of_marks (by simp)

/-- Settles O34: a move records no fault, and as it keeps the pool rules the check after it finds R38 true. -/
theorem faultsOnlyFromBadComplete : Obligations.FaultsOnlyFromBadComplete := by
  intro s t hs h hc
  rcases step_effect h with ⟨hn, -⟩ | ⟨-, u, hu, rfl⟩
  · exact absurd hs.config hn
  have hpool : PoolInv u := poolInv_keptByAgents.move hs.popMove hu
  obtain ⟨hinvariant, hcomplete, hemit⟩ := hu.sameFaults hs.popMove hc
  rw [State.checkPool_eq hpool.r38]
  exact ⟨hinvariant, hcomplete, hemit⟩

end Sys2Proof.Machine
end
